-- ==== Sys2Proof/Word.lean ====
section
/-! DEFINITION. The widths the spec names, and the operand types that are fixed sets of names. -/

namespace Sys2Proof

/-- A word of the command port or of `STATUS`: 32 bits (30_encoding.md R100, 10_state.md R37). -/
abbrev Word := BitVec 32

/-- A byte is 8 bits (00_scope.md R9). -/
abbrev Byte := BitVec 8

/-- A 7-bit I2C address (20_memory.md R65). -/
abbrev Addr := BitVec 7

/-- A level of a line or of an output: `true` is 1 (high, released), `false` is 0 (low, driven) (00_scope.md R9). -/
abbrev Level := Bool

/-- Direction of a segment, bit `DIR` of its descriptor (30_encoding.md R102). -/
inductive Dir where
  | write
  | read
  deriving DecidableEq, Repr, Inhabited

/-- The two delay constants, the only operands of `DELAY` (40_line_primitives.md R134). -/
inductive Dur where
  | low
  | high
  deriving DecidableEq, Repr, Inhabited

/-- The two supported speed grades (00_scope.md R2). -/
inductive Grade where
  | standard
  | fast
  deriving DecidableEq, Repr, Inhabited

/-- One segment of a transaction: `DIR`, `RestartBefore`, `StopAfter` and the buffer's length in bytes
(30_encoding.md R102, 10_state.md R29). -/
structure Seg where
  dir : Dir
  rb  : Bool
  sa  : Bool
  len : BitVec 16
  deriving DecidableEq, Repr, Inhabited

end Sys2Proof
end

