-- ==== Sys2Proof/Syntax.lean ====
section
/-! DEFINITION. The operations of the block: one constructor per row of spec/opcode_table.json, in the table's order. -/

namespace Sys2Proof

/-- An operation stands where a processor has an instruction (00_scope.md R12). -/
inductive Instr where
  -- host commands (30_encoding.md R101 to R105)
  | configure (code : BitVec 3) (a10 : Bool)
  | transfer (addr : Addr) (segs : List Seg)
  | segdesc (seg : Seg)
  | recover
  | registerTarget (addr : Addr)
  | unregisterTarget
  | release
  | illegal (words : List Word)
  | statusRead
  -- pseudo-operations (30_encoding.md R111)
  | write (addr : Addr) (bytes : List Byte)
  | read (addr : Addr) (n : BitVec 16)
  | writeRead (addr : Addr) (bytes : List Byte) (n : BitVec 16)
  | probe (addr : Addr)
  -- micro-operations (40_line_primitives.md R130 to R134)
  | setScl (l : Level)
  | setSda (l : Level)
  | getScl
  | getSda
  | delay (d : Dur)
  -- controller primitives (40_line_primitives.md R135 to R143)
  | cRaise
  | cPrestart
  | cStart
  | cRstart
  | cStop
  | cWbit (b : Level)
  | cRbit
  | cWbyte (x : Byte)
  | cRbyte
  -- target primitives (42_target_ops.md R200 to R208)
  | tWaitH
  | tWaitL
  | tRbit
  | tWbit (b : Level)
  | tRbyte (first : Option Level)
  | tWbyte (x : Byte)
  | tAck
  | tRack
  | tDetect
  -- event-driven target operations (42_target_ops.md R195, R210)
  | tEdge
  | tHandler
  -- the wire format (30_encoding.md R91 to R95)
  | wireStart
  | wireRestart
  | wireStop
  | bitCell (b : Level)
  | byteFrame (b : Byte) (k : Level)
  | addressByte (addr : Addr) (rd : Bool)
  | acknowledge (k : Level)
  -- callbacks (30_encoding.md R109)
  | onWriteRequested
  | onWriteReceived (b : Byte)
  | onReadRequested
  | onReadProcessed
  | onStop
  deriving DecidableEq, Repr, Inhabited

end Sys2Proof
end

