-- ==== Sys2Proof/Config.lean ====
section
/-! DEFINITION. The implementation parameters of 00_scope.md R8, what the environment can do at a step, and the free
values: constants with no body, of which nothing can be proved. -/

namespace Sys2Proof

/-- The agents of the block that take a step by themselves (00_scope.md R14), and the scripted bus peer. -/
inductive Turn where
  | port        -- the command port accepts the command presented, when `BUSY = 0` (R160)
  | controller  -- the controller sequencer performs one micro-operation (R30)
  | edge        -- the edge context runs `T_EDGE`, when `EDGE_PEND = 1` (R195)
  | handler     -- the deferred context starts or continues `T_HANDLER` (R196)
  | peer        -- the scripted peer takes its next action
  deriving DecidableEq, Repr, Inhabited

/-- What happens at one step: an agent's turn, or an act of the environment. DESIGN CHOICE (log 1). -/
inductive Input where
  | turn (t : Turn)
  | words (ws : List Word)                    -- the host presents words on the command port
  | call (i : Instr)                          -- the host asks for a pseudo-operation, a descriptor word or a STATUS read
  | drive (scl sda : Level)                   -- the peers' outputs become these levels (R62)
  | wire (i : Instr)                          -- a peer begins an element of the wire format (R91 to R95)
  | answer (b : Byte)                         -- the application fixes its next answer (R197)
  | bufWrite (seg : BitVec 8) (idx : BitVec 16) (b : Byte) -- the host writes a buffer byte (R66, U5)
  | reset                                     -- R280
  deriving DecidableEq, Repr, Inhabited

namespace Config

/-- `LOW_NS` (41_controller_ops.md R162). -/
def lowNs : Grade → Nat
  | .standard => 4700
  | .fast => 1300

/-- `HIGH_NS` (41_controller_ops.md R162). -/
def highNs : Grade → Nat
  | .standard => 4000
  | .fast => 600

/-- An arbitrary function of the platform, with no law. -/
opaque freeUnits : Nat → Nat

/-- `ns_to_units`, left OPEN by R8 but for `ns_to_units 1300 < ns_to_units 4700` and `ns_to_units 600 < ns_to_units 4000`:
the two larger values are the smaller ones plus a positive free amount, so every function with R8's two inequalities
is a possible one, and no other (log 11). -/
def nsToUnits (ns : Nat) : Nat :=
  if ns = 4700 then freeUnits 1300 + 1 + freeUnits 4700
  else if ns = 4000 then freeUnits 600 + 1 + freeUnits 4000
  else freeUnits ns

/-- `STRETCH_WAIT`, left OPEN by R8 (log 10). -/
opaque stretchWait : Bool

/-- `RESET_SPEED`: the value the spec takes is `none` (00_scope.md R8; log 9). -/
def resetSpeed : Option Grade := none

/-- The answer of the application to the call drawn at a tick: a free input, under no law (42_target_ops.md R197; log 17). -/
opaque freeAnswer : Nat → Byte

/-- What happens at a step for which no input has been laid down: a free value (log 1). -/
opaque freeInput : Nat → Input

end Config

end Sys2Proof
end

