-- ==== Sys2Proof/Machine/State.lean ====
section
/-! DEFINITION. The state of the block (10_state.md), the environment it is joined to, the reasons to stop, and reset. -/

namespace Sys2Proof.Machine

/-- `MODE` (R21); the value 3 never occurs (93_implementation_defined.md U7), so the type lacks it. -/
inductive Mode where
  | unconfigured
  | controller
  | target
  deriving DecidableEq, Repr, Inhabited

/-- `TFSM`, the source's `TargetFsmState` (R25). -/
inductive Tfsm where
  | idle
  | receivingAddress
  | receivingData
  | sendingData
  deriving DecidableEq, Repr, Inhabited

/-- `SPEED` (R22): 0 before any grade, 1 `Standard`, 2 `Fast`; 3 never occurs (U7). -/
inductive Speed where
  | unset
  | standard
  | fast
  deriving DecidableEq, Repr, Inhabited

/-- `COP`, the command in execution (R27). -/
inductive Cop where
  | idle
  | transfer
  | recover
  deriving DecidableEq, Repr, Inhabited

/-- Result codes 0 to 8 (30_encoding.md R104); 9 to 15 are never produced (U7). -/
inductive Result where
  | ok
  | configError
  | addrNack
  | dataNack
  | busBusy
  | modeError
  | invalidCommand
  | notConfigured
  | engineBusy
  deriving DecidableEq, Repr, Inhabited

/-- `TLAST`, how the last run of `T_HANDLER` ended (R35). -/
inductive TLast where
  | notYet
  | stopDetected
  | callbackError
  | masterNacked
  | addressMismatch
  deriving DecidableEq, Repr, Inhabited

/-- What `T_DETECT` returned; the bit of `Bit(v)` stands in `TFIRST` (42_target_ops.md R208, R32). -/
inductive Detect where
  | stop
  | restart
  | bit
  deriving DecidableEq, Repr, Inhabited

/-- The line conditions of 30_encoding.md R91. -/
inductive Cond where
  | start
  | restart
  | stop
  deriving DecidableEq, Repr, Inhabited

/-- One entry of the controller sequencer's position `CPOS` (R30: a continuation): an operation still to be performed,
or a point between two micro-operations where the pseudocode of 40 and 41 decides. Decision points take no step (log 7). -/
inductive CTask where
  | op (i : Instr)
  | send (k i : Nat)      -- `C_WBYTE(MemRead((k,i),1))` (R164 step 5)
  | untilHigh             -- the test of `C_RAISE`'s optional wait (R135)
  | takeBit               -- `v <- get_data()` (R141)
  | takeAck               -- `CACK <- C_RBIT` (R142)
  | shiftCsr              -- `CSR <- ((CSR << 1) | v)[7:0]` (R143)
  | entryTest             -- `if get_data() = 0: C_PRESTART` (R164 step 1)
  | addrCheck (k : Nat)   -- the acknowledge of segment `k`'s address frame (R166)
  | dataCheck (k i : Nat) -- the acknowledge of written byte `(k,i)` (R167)
  | store (k i : Nat)     -- `MemWrite((k,i),1, C_RBYTE)` (R164 step 6)
  | nextByte (k i : Nat)  -- go on with byte `i` of segment `k` (R168)
  | complete              -- `RESULT <- CABORT; BUSY <- 0; COP <- 0` (R164 step 8)
  | recCheck              -- the result of `RECOVER` (R174)
  deriving DecidableEq, Repr, Inhabited

/-- One entry of the target handler's position `TPOS` (R32), as `CTask`. -/
inductive TTask where
  | op (i : Instr)
  | takeBit                    -- `v <- get_data()` (42_target_ops.md R202)
  | shiftTsr                   -- `TSR <- ((TSR << 1) | v)[7:0]` (R204)
  | watchFirst                 -- `d0 <- get_data()` of `T_DETECT` (R208)
  | watchClk (d0 : Level)      -- `c <- get_clock(); if c = 0: return Bit(d0)` (R208)
  | watchDat (d0 : Level)      -- `d <- get_data(); if d != d0: return ...` (R208)
  | addrDecide                 -- `TDIR`, the address comparison and the branch on the direction (R210)
  | beginSend                  -- `TFSM <- SendingData` (R210 item 5)
  | loadByte                   -- `TSR <-` the byte the application returned (R210 item 5)
  | rackDecide                 -- `if a = 1: FINISH(MasterNacked)` (R210)
  | afterDetect (first : Bool) -- the branch on `T_DETECT`; `first` right after the address frame (R210)
  | readData                   -- `T_RBYTE(r.v)` (R210)
  | deliver                    -- `on_write_received(TSR)` (R210)
  | statusDecide               -- `if st != 0: FINISH(CallbackError)` (R210)
  | finish (o : TLast)         -- `FINISH(o)` (R210)
  deriving DecidableEq, Repr, Inhabited

/-- One entry of what the scripted peer still does (log 19): set an output, wait for a clock level, or begin an element of
the wire format. -/
inductive PTask where
  | clk (l : Level)
  | dat (l : Level)
  | waitH
  | waitL
  | op (i : Instr)
  deriving DecidableEq, Repr, Inhabited

/-- What stands on the command port: a 32-bit word (30_encoding.md R100), or a request for an operation that has no
word of its own (a pseudo-operation, R111). -/
inductive PortItem where
  | word (w : Word)
  | call (i : Instr)
  deriving DecidableEq, Repr, Inhabited

/-- One exchange on the application port with what the application returned (30_encoding.md R109). -/
inductive AppCall where
  | writeRequested
  | writeReceived (b : Byte) (status : Byte)
  | readRequested (answer : Byte)
  | readProcessed (answer : Byte)
  | stop
  deriving DecidableEq, Repr, Inhabited

/-- The segment buffers (20_memory.md R66): (address, byte) pairs in rising order of address, none equal to `absentByte`. -/
abbrev Memory := List Host.Cell

/-- What a buffer byte that nothing has written reads as. DESIGN CHOICE, unsafe (log 12). -/
def absentByte : Byte := 0x00#8

/-- The block and what it is joined to. Field comments name the spec's element and its rule. -/
structure State where
  -- configuration and mode
  mode         : Mode            -- `MODE`, R21
  cfgValid     : Bool            -- `CFG_VALID`, R22
  speed        : Speed           -- `SPEED`, R22
  low          : Nat             -- `LOW`, R23
  high         : Nat             -- `HIGH`, R23
  tvalid       : Bool            -- `TVALID`, R24
  taddr        : Addr            -- `TADDR`, R24
  tfsm         : Tfsm            -- `TFSM`, R25
  -- the two output latches
  sclOut       : Level           -- `SCL_OUT`, R26
  sdaOut       : Level           -- `SDA_OUT`, R26
  -- command execution
  busy         : Bool            -- `BUSY`, R27
  cop          : Cop             -- `COP`, R27
  result       : Result          -- `RESULT`, R28
  xaddr        : Addr            -- `XADDR`, R29
  xsegs        : List Seg        -- `XN`, `XDIR`, `XRB`, `XSA`, `XLEN`, R29
  cpos         : List CTask      -- `CPOS`, R30; `Done` is the empty list
  csr          : Byte            -- `CSR`, R31
  cack         : Level           -- `CACK`, R31
  cabort       : Result          -- `CABORT`, R31
  -- target execution
  tpos         : List TTask      -- `TPOS`, R32
  tsr          : Byte            -- `TSR`, R32
  tdir         : Bool            -- `TDIR`, R32
  tfirst       : Option Level    -- `TFIRST` with its valid bit, R32
  edgePend     : Bool            -- `EDGE_PEND`, R33
  handlerPend  : Bool            -- `HANDLER_PEND`, R34
  terr         : Bool            -- `TERR`, R35
  tlast        : TLast           -- `TLAST`, R35
  -- the buffers
  mem          : Memory          -- `buf[s][i]`, 20_memory.md R66
  -- values the pseudocode passes between operations (the model's own, log 4)
  got          : Level           -- returned by the last `get` micro-operation
  bitv         : Level           -- returned by the last bit primitive, the pseudocode's `v`
  det          : Detect          -- returned by the last `T_DETECT`
  ans          : Byte            -- returned by the last callback
  -- the environment
  peerScl      : Level           -- `peer_scl`, 20_memory.md R62
  peerSda      : Level           -- `peer_sda`, 20_memory.md R62
  ppos         : List PTask      -- what the scripted peer still does (log 19)
  port         : List PortItem   -- presented on the command port and not yet accepted, R100, R160
  responses    : List Result     -- delivered on the response port, newest first, R100
  statusOut    : Word            -- what the host's last read of `STATUS` gave, R37
  calls        : List AppCall    -- exchanges made on the application port, newest first, R109
  inputs       : List Input      -- what happens at the next steps (log 1)
  answers      : List Byte       -- the application's next answers (log 17)
  tick         : Nat             -- counts the free values drawn (log 1)
  -- observation only: no rule reads these
  busOpen      : Bool            -- a START stands on the wire without a STOP since, R91
  lastCond     : Option Cond     -- the last condition seen on the wire, R91
  unsanctioned : Bool            -- the sticky mark of 93_implementation_defined.md U1 to U3
  elapsed      : Nat             -- sum of the lower bounds of all delays, R134
  deriving DecidableEq, Repr

/-- Why a step stops with a fault. -/
inductive Fault where
  /-- The controller sequencer reached for byte `i` of the buffer of segment `k`, which the latched transaction does not
  have (20_memory.md R66: `buf[s]` is an array of `XLEN[s]` bytes). Raised by the controller's turn. Safe: no run from
  reset raises it (log 28). -/
  | bufferRange (k i : Nat)
  deriving DecidableEq, Repr

/-- Why a step is refused. -/
inductive Refusal where
  /-- The operation has no meaning in the model. Raised by nobody: every operation has one. Safe. -/
  | notModelled (mnemonic : String)
  deriving DecidableEq, Repr

/-- The outcome of a step of this machine. -/
abbrev Out := Host.Outcome State Fault Refusal

/-- The `SPEED` code of a grade (R22). -/
def Speed.ofGrade : Grade → Speed
  | .standard => .standard
  | .fast => .fast

/-- Every element at its value after reset, for a given `RESET_SPEED` (10_state.md R42). Elements R42 leaves unspecified
are zero (log 3), the environment is idle (log 4, log 5). -/
def State.resetWith (rs : Option Grade) : State where
  mode := .unconfigured
  cfgValid := rs.isSome
  speed := match rs with
    | none => .unset
    | some g => Speed.ofGrade g
  low := match rs with
    | none => 0
    | some g => Config.nsToUnits (Config.lowNs g)
  high := match rs with
    | none => 0
    | some g => Config.nsToUnits (Config.highNs g)
  tvalid := false
  taddr := 0#7
  tfsm := .idle
  sclOut := true
  sdaOut := true
  busy := false
  cop := .idle
  result := .ok
  xaddr := 0#7
  xsegs := []
  cpos := []
  csr := 0#8
  cack := false
  cabort := .ok
  tpos := []
  tsr := 0#8
  tdir := false
  tfirst := none
  edgePend := false
  handlerPend := false
  terr := false
  tlast := .notYet
  mem := []
  got := false
  bitv := false
  det := .bit
  ans := 0#8
  peerScl := true
  peerSda := true
  ppos := []
  port := []
  responses := []
  statusOut := 0#32
  calls := []
  inputs := []
  answers := []
  tick := 0
  busOpen := false
  lastCond := none
  unsanctioned := false
  elapsed := 0

/-- The machine right after reset, on an idle bus (10_state.md R42, `RESET_SPEED = none`). -/
def State.reset : State := State.resetWith Config.resetSpeed

end Sys2Proof.Machine
end

