-- ==== Sys2Proof/Decode.lean ====
section
/-! DEFINITION. The command port's decoder and encoder (30_encoding.md R100 to R108), both from the opcode table's rows.
Internal operations, callbacks and the wire format have no encoding in words (R112): the encoder gives them none. -/

namespace Sys2Proof

/-- One row of the opcode table whose word is fixed under a mask. -/
structure OpRow where
  mask  : Word
  value : Word
  deriving DecidableEq, Repr

/-- A word belongs to a row when the row's fixed bits have the row's values. -/
def OpRow.fits (r : OpRow) (w : Word) : Bool := w &&& r.mask == r.value

/-- `0001 0000 0000 0000 0000 0000 0000 asss` (R101). -/
def rowConfigure : OpRow := ⟨0xFFFFFFF0#32, 0x10000000#32⟩
/-- `0010 0000 0000 0000 nnnn nnnn 0aaa aaaa` (R102). -/
def rowTransfer : OpRow := ⟨0xFFFF0080#32, 0x20000000#32⟩
/-- `OPC = 0x3`, bits [27:0] zero (R103). -/
def rowRecover : OpRow := ⟨0xFFFFFFFF#32, 0x30000000#32⟩
/-- `OPC = 0x4`, bits [6:0] the address, bits [27:7] zero (R103). -/
def rowRegister : OpRow := ⟨0xFFFFFF80#32, 0x40000000#32⟩
/-- `OPC = 0x5`, bits [27:0] zero (R103). -/
def rowUnregister : OpRow := ⟨0xFFFFFFFF#32, 0x50000000#32⟩
/-- `OPC = 0x6`, bits [27:0] zero (R103). -/
def rowRelease : OpRow := ⟨0xFFFFFFFF#32, 0x60000000#32⟩
/-- A descriptor word: bits [15:3] zero (R102). -/
def rowDescriptor : OpRow := ⟨0x0000FFF8#32, 0x00000000#32⟩

/-- The command rows of the table. -/
def commandRows : List OpRow :=
  [rowConfigure, rowTransfer, rowRecover, rowRegister, rowUnregister, rowRelease]

/-- Opcode `OPC`, bits [31:28] (R100). -/
def opcodeOf (w : Word) : BitVec 4 := w.extractLsb' 28 4

/-- `NSEG`, bits [15:8] of a `TRANSFER` word (R102). -/
def nsegOf (w : Word) : BitVec 8 := w.extractLsb' 8 8

/-- Bits [6:0], the address of `TRANSFER` and of `REGISTER_TARGET` (R102, R103). -/
def addrOf (w : Word) : Addr := w.extractLsb' 0 7

/-- How many descriptor words follow a first word: `NSEG` for opcode 0x2, none for every other (R108: the length is known
from the first word). DEDUCED (log 15): a word of opcode 0x2 that is illegal takes its descriptor words with it. -/
def descCount (w : Word) : Nat := if opcodeOf w = 0x2#4 then (nsegOf w).toNat else 0

/-- The segment a descriptor word describes (R102). -/
def decodeSeg (w : Word) : Seg :=
  { dir := if w.getLsbD 0 then .read else .write
    rb := w.getLsbD 1
    sa := w.getLsbD 2
    len := w.extractLsb' 16 16 }

/-- The descriptor word of a segment (R102). -/
def encodeSeg (g : Seg) : Word :=
  g.len ++ 0#13 ++ BitVec.ofBool g.sa ++ BitVec.ofBool g.rb ++ BitVec.ofBool (g.dir == .read)

/-- A command's first word and its descriptor words: which operation it is (R101 to R103), and `illegal` for every other
(R105). -/
def decodeCommand (w : Word) (body : List Word) : Instr :=
  if rowConfigure.fits w then .configure (w.extractLsb' 0 3) (w.getLsbD 3)
  else if rowTransfer.fits w then
    if body.all rowDescriptor.fits then .transfer (addrOf w) (body.map decodeSeg) else .illegal (w :: body)
  else if rowRecover.fits w then .recover
  else if rowRegister.fits w then .registerTarget (addrOf w)
  else if rowUnregister.fits w then .unregisterTarget
  else if rowRelease.fits w then .release
  else .illegal (w :: body)

/-- Why the words on the port are not yet a command. -/
inductive DecodeError where
  | nothingPresented  -- there is no first word
  | truncated         -- descriptor words of a `TRANSFER` are still missing
  deriving DecidableEq, Repr

/-- The first command among the words presented on the port, and the words after it. -/
def decode : List Word → Except DecodeError (Instr × List Word)
  | [] => .error .nothingPresented
  | w :: rest =>
    if rest.length < descCount w then .error .truncated
    else .ok (decodeCommand w (rest.take (descCount w)), rest.drop (descCount w))

/-- The words of an operation (R101 to R103). The descriptor row gives one descriptor word; an illegal command is its own
words; an operation with no encoding has none (R112). -/
def encode : Instr → List Word
  | .configure code a10 => [0x1#4 ++ 0#24 ++ BitVec.ofBool a10 ++ code]
  | .transfer addr segs => (0x2#4 ++ 0#12 ++ BitVec.ofNat 8 segs.length ++ 0#1 ++ addr) :: segs.map encodeSeg
  | .segdesc g => [encodeSeg g]
  | .recover => [0x30000000#32]
  | .registerTarget addr => [0x4#4 ++ 0#21 ++ addr]
  | .unregisterTarget => [0x50000000#32]
  | .release => [0x60000000#32]
  | .illegal words => words
  | .statusRead => []
  | .write _ _ => []
  | .read _ _ => []
  | .writeRead _ _ _ => []
  | .probe _ => []
  | .setScl _ => []
  | .setSda _ => []
  | .getScl => []
  | .getSda => []
  | .delay _ => []
  | .cRaise => []
  | .cPrestart => []
  | .cStart => []
  | .cRstart => []
  | .cStop => []
  | .cWbit _ => []
  | .cRbit => []
  | .cWbyte _ => []
  | .cRbyte => []
  | .tWaitH => []
  | .tWaitL => []
  | .tRbit => []
  | .tWbit _ => []
  | .tRbyte _ => []
  | .tWbyte _ => []
  | .tAck => []
  | .tRack => []
  | .tDetect => []
  | .tEdge => []
  | .tHandler => []
  | .wireStart => []
  | .wireRestart => []
  | .wireStop => []
  | .bitCell _ => []
  | .byteFrame _ _ => []
  | .addressByte _ _ => []
  | .acknowledge _ => []
  | .onWriteRequested => []
  | .onWriteReceived _ => []
  | .onReadRequested => []
  | .onReadProcessed => []
  | .onStop => []

/-- The operations that are commands of the port: what `decode` can answer (R100). -/
def Instr.isCommand : Instr → Bool
  | .configure _ _ => true
  | .transfer _ _ => true
  | .recover => true
  | .registerTarget _ => true
  | .unregisterTarget => true
  | .release => true
  | .illegal _ => true
  | _ => false

/-- The pseudo-operations: shorthands for one `TRANSFER`, with no words of their own (R111). -/
def Instr.isPseudo : Instr → Bool
  | .write _ _ => true
  | .read _ _ => true
  | .writeRead _ _ _ => true
  | .probe _ => true
  | _ => false

/-- The elements of the wire format, which a bus peer performs (R91 to R95). -/
def Instr.isWire : Instr → Bool
  | .wireStart => true
  | .wireRestart => true
  | .wireStop => true
  | .bitCell _ => true
  | .byteFrame _ _ => true
  | .addressByte _ _ => true
  | .acknowledge _ => true
  | _ => false

/-- The words the port holds when a number stands on it, 32 bits a word, first word least significant, cut to the length of
its first command. -/
def tableWords (nbits w : Nat) : List Word :=
  let v := w % 2 ^ nbits
  let first := BitVec.ofNat 32 v
  first :: (List.range (descCount first)).map fun k => BitVec.ofNat 32 (v >>> (32 * (k + 1)))

/-- The operation the decoder reads from an instruction whose bits are `w`, numbered as the opcode table numbers them. -/
def decodeTableWord (nbits w : Nat) : Option Instr :=
  match decode (tableWords nbits w) with
  | .ok (i, _) => some i
  | .error _ => none

end Sys2Proof
end

