-- ==== Sys2Proof/WellFormed.lean ====
section
/-! DEFINITION. What an operation's operands must satisfy to be one: the command port's limits (30_encoding.md R102,
92_eei_decisions.md D4) and, for the illegal row, that the words are those of one illegal command. -/

namespace Sys2Proof

/-- The longest buffer a descriptor's 16-bit `LEN` can name (R102). -/
def maxLen : Nat := 65535

/-- The most segments `NSEG`'s 8 bits can name (R102). -/
def maxSegs : Nat := 255

/-- The words are exactly one command that is illegal (R105). -/
def isIllegalCommand (words : List Word) : Bool :=
  match decode words with
  | .ok (.illegal ws, rest) => ws == words && rest == []
  | _ => false

/-- Well-formedness, operation by operation. -/
def Instr.wellFormed : Instr → Bool
  | .transfer _ segs => decide (segs.length ≤ maxSegs)
  | .illegal words => isIllegalCommand words
  | .write _ bytes => decide (bytes.length ≤ maxLen)
  | .writeRead _ bytes _ => decide (bytes.length ≤ maxLen)
  | .configure _ _ => true
  | .segdesc _ => true
  | .recover => true
  | .registerTarget _ => true
  | .unregisterTarget => true
  | .release => true
  | .statusRead => true
  | .read _ _ => true
  | .probe _ => true
  | .setScl _ => true
  | .setSda _ => true
  | .getScl => true
  | .getSda => true
  | .delay _ => true
  | .cRaise => true
  | .cPrestart => true
  | .cStart => true
  | .cRstart => true
  | .cStop => true
  | .cWbit _ => true
  | .cRbit => true
  | .cWbyte _ => true
  | .cRbyte => true
  | .tWaitH => true
  | .tWaitL => true
  | .tRbit => true
  | .tWbit _ => true
  | .tRbyte _ => true
  | .tWbyte _ => true
  | .tAck => true
  | .tRack => true
  | .tDetect => true
  | .tEdge => true
  | .tHandler => true
  | .wireStart => true
  | .wireRestart => true
  | .wireStop => true
  | .bitCell _ => true
  | .byteFrame _ _ => true
  | .addressByte _ _ => true
  | .acknowledge _ => true
  | .onWriteRequested => true
  | .onWriteReceived _ => true
  | .onReadRequested => true
  | .onReadProcessed => true
  | .onStop => true

end Sys2Proof
end

