-- ==== Sys2Proof/Machine/Ops.lean ====
section
/-! DEFINITION. The shared operations: the two lines and what is seen on them, the buffers, the ports, the delay unit, the
edge event (entry and return) and reset. -/

namespace Sys2Proof.Machine

/-! ## One field written -/

/-- `CPOS` is this. -/
def State.setCpos (s : State) (ts : List CTask) : State := { s with cpos := ts }
/-- `TPOS` is this. -/
def State.setTpos (s : State) (ts : List TTask) : State := { s with tpos := ts }
/-- The scripted peer's plan is this. -/
def State.setPpos (s : State) (ts : List PTask) : State := { s with ppos := ts }
/-- The command port holds this. -/
def State.setPort (s : State) (ps : List PortItem) : State := { s with port := ps }
/-- `CSR <- x`. -/
def State.setCsr (s : State) (x : Byte) : State := { s with csr := x }
/-- `CACK <- l`. -/
def State.setCack (s : State) (l : Level) : State := { s with cack := l }
/-- `CABORT <- r`. -/
def State.setCabort (s : State) (r : Result) : State := { s with cabort := r }
/-- `TSR <- x`. -/
def State.setTsr (s : State) (x : Byte) : State := { s with tsr := x }
/-- `TDIR <- b`. -/
def State.setTdir (s : State) (b : Bool) : State := { s with tdir := b }
/-- `TFSM <- x`. -/
def State.setTfsm (s : State) (x : Tfsm) : State := { s with tfsm := x }
/-- `v <- l`. -/
def State.setBitv (s : State) (l : Level) : State := { s with bitv := l }
/-- `T_DETECT` returns this, with the bit of `Bit(v)` in `TFIRST`. -/
def State.setDetect (s : State) (d : Detect) (first : Option Level) : State := { s with det := d, tfirst := first }
/-- The buffers are these. -/
def State.setMem (s : State) (m : Memory) : State := { s with mem := m }

/-! ## Buffers (20_memory.md R66, R67) -/

/-- The byte at an address; an unlisted address reads as `absentByte`. -/
def Memory.read : Memory → Nat → Byte
  | [], _ => absentByte
  | (k, b) :: rest, a => if k = a then b else Memory.read rest a

/-- One byte written, in the canonical form: rising addresses, no entry equal to `absentByte`. -/
def Memory.write : Memory → Nat → Byte → Memory
  | [], a, b => if b = absentByte then [] else [(a, b)]
  | (k, v) :: rest, a, b =>
    if a < k then (if b = absentByte then (k, v) :: rest else (a, b) :: (k, v) :: rest)
    else if a = k then (if b = absentByte then rest else (a, b) :: rest)
    else (k, v) :: Memory.write rest a b

/-- Every listed address is above a bound, the addresses rise, and no entry equals `absentByte`. -/
def Memory.wfFrom : Nat → Memory → Bool
  | _, [] => true
  | lo, (k, b) :: rest => decide (lo ≤ k) && !(b == absentByte) && Memory.wfFrom (k + 1) rest

/-- The canonical form. -/
def Memory.wf (m : Memory) : Bool := Memory.wfFrom 0 m

/-- The address of byte `i` of the buffer of segment `k`. The spec gives buffers no addresses (R66); a buffer has at most
65535 bytes (R102), so the pairs `(k,i)` have different keys (log 12). -/
def bufKey (k i : Nat) : Nat := k * 65536 + i

/-- The latched transaction has a byte `(k,i)`: `buf[k]` is an array of `XLEN[k]` bytes (R66). -/
def State.hasByte (s : State) (k i : Nat) : Bool :=
  match s.xsegs[k]? with
  | some g => decide (i < g.len.toNat)
  | none => false

/-- `MemRead((k,i),1)` (00_scope.md R10); `none` where the byte does not exist. -/
def State.bufLoad (s : State) (k i : Nat) : Option Byte :=
  if s.hasByte k i then some (s.mem.read (bufKey k i)) else none

/-- `MemWrite((k,i),1,v)` (00_scope.md R10); `none` where the byte does not exist. -/
def State.bufStore (s : State) (k i : Nat) (b : Byte) : Option State :=
  if s.hasByte k i then some (s.setMem (s.mem.write (bufKey k i) b)) else none

/-- The host fills the buffer of segment 0 from byte `i` on (R66: before it issues the command). -/
def Memory.fill : Memory → Nat → List Byte → Memory
  | m, _, [] => m
  | m, i, b :: rest => Memory.fill (m.write (bufKey 0 i) b) (i + 1) rest

/-! ## Lines (20_memory.md R61 to R64, R79; 30_encoding.md R91) -/

/-- The level of the clock line: the AND of all outputs on it (R62). -/
def State.scl (s : State) : Level := s.sclOut && s.peerScl

/-- The level of the data line (R62). -/
def State.sda (s : State) : Level := s.sdaOut && s.peerSda

/-- The edge detector is armed exactly when `MODE = Target` and `TFSM = Idle` (42_target_ops.md R192). -/
def State.armed (s : State) : Bool := s.mode == .target && s.tfsm == .idle

/-- A target transaction is in progress. -/
def State.inTransaction (s : State) : Bool := s.mode == .target && s.tfsm != .idle

/-- The handler stands in `T_DETECT`, which watches this clock-high phase (42_target_ops.md R208, R217). DESIGN CHOICE (log 34): the
watch is where the handler stands, so it takes in a later clock-high phase too while a late handler has not yet polled the first one,
or its end. While an operation runs it is no longer on `TPOS`, so in the step of the operation before `T_DETECT` this holds too: the
handler's own transition there is told apart by `State.observe` (log 33). -/
def State.watching (s : State) : Bool :=
  match s.tpos with
  | .op .tDetect :: _ => true
  | .op .getSda :: .watchFirst :: _ => true
  | .op .getScl :: .watchClk _ :: _ => true
  | .op .getSda :: .watchDat _ :: _ => true
  | _ => false

/-- What a step that changed outputs sets besides the outputs: a transition of the data line latches `EDGE_PEND` while the
detector is armed (60_exceptions.md R250); a fall or rise of the data line in a step with the clock high before and after is
a START or a STOP (R91); a condition, or a peer's attempt at one, inside a target transaction and outside `T_DETECT`'s watch
sets the sticky mark of 93_implementation_defined.md U1 to U3 (log 18). DESIGN CHOICE (log 33): so does a transition the handler makes itself,
late, with the clock high: in the watch it drives nothing. -/
def State.observe (before s : State) : State :=
  let high := before.scl && s.scl
  let fell := before.sda && !s.sda
  let rose := !before.sda && s.sda
  { s with
    edgePend := s.edgePend || (s.armed && (before.sda != s.sda))
    busOpen := if high && fell then true else if high && rose then false else s.busOpen
    lastCond :=
      if high && fell then some (if before.busOpen then .restart else .start)
      else if high && rose then some .stop
      else s.lastCond
    unsanctioned := s.unsanctioned ||
      (s.inTransaction && (!s.watching || before.sdaOut != s.sdaOut) && high && (before.sda != s.sda || before.peerSda != s.peerSda)) }

/-- `set_clock(l)` (R64): the latch takes the level, and the line follows in the same step. -/
def State.driveScl (s : State) (l : Level) : State := s.observe { s with sclOut := l }

/-- `set_data(l)` (R64). -/
def State.driveSda (s : State) (l : Level) : State := s.observe { s with sdaOut := l }

/-- The peers' outputs become these levels (R62). -/
def State.drivePeers (s : State) (scl sda : Level) : State :=
  s.observe { s with peerScl := scl, peerSda := sda }

/-! ## Delay unit (40_line_primitives.md R134, R145; 60_exceptions.md R265) -/

/-- The duration of a delay constant (10_state.md R23). -/
def State.duration (s : State) : Dur → Nat
  | .low => s.low
  | .high => s.high

/-- At least that much time passes (R134); the model keeps the sum of these bounds and nothing else (log 20). -/
def State.waitAtLeast (s : State) (d : Dur) : State := { s with elapsed := s.elapsed + s.duration d }

/-! ## Command and response ports (30_encoding.md R100, 41_controller_ops.md R160) -/

/-- A result is delivered: written to `RESULT` and shown on the response port in the same step (10_state.md R28). -/
def State.deliver (s : State) (r : Result) : State := { s with result := r, responses := r :: s.responses }

/-- The command in execution completes (R164 step 8, R174). DESIGN CHOICE (log 3): `CSR`, `CACK` and `CABORT`, which 10_state.md R31
leaves unspecified while `BUSY = 0`, keep the command's last values, and so do the elements of R29. -/
def State.complete (s : State) (r : Result) : State :=
  { s.deliver r with busy := false, cop := .idle, cpos := [] }

/-- What presents an operation on the command port. -/
def portItems (i : Instr) : List PortItem :=
  if i.isCommand then (encode i).map PortItem.word else [.call i]

/-- A command presented while `BUSY = 1` is neither refused nor lost: it is held on the port (R160; log 14). -/
def State.hold (s : State) (i : Instr) : State := s.setPort (s.port ++ portItems i)

/-- A command's one step of acceptance, or its hold while `BUSY = 1` (R160). -/
def State.accept (s : State) (i : Instr) (effect : State → State) : Out :=
  if s.busy then .next (s.hold i) else .next (effect s)

/-- The words at the front of the port. -/
def leadingWords : List PortItem → List Word
  | .word w :: rest => w :: leadingWords rest
  | _ => []

/-! ## Application port (30_encoding.md R109, 42_target_ops.md R197) -/

/-- The application's answer to a call: the next one laid down, else a free value (log 17). -/
def State.answer (s : State) : Byte :=
  match s.answers with
  | b :: _ => b
  | [] => Config.freeAnswer s.tick

/-- The answer is used up; a free one advances the counter of free values. -/
def State.dropAnswer (s : State) : State :=
  match s.answers with
  | _ :: rest => { s with answers := rest }
  | [] => { s with tick := s.tick + 1 }

/-- One exchange that returns nothing. -/
def State.callOut (s : State) (c : AppCall) : State := { s with calls := c :: s.calls }

/-- One exchange that returns a byte or a status, which the handler finds in `ans`. -/
def State.callFor (s : State) (c : Byte → AppCall) : State :=
  { s.dropAnswer with ans := s.answer, calls := c s.answer :: s.calls }

/-! ## The edge event: entry and return (60_exceptions.md R250 to R255) -/

/-- `T_EDGE` in one step (42_target_ops.md R195): the latch is cleared, the lines are read as they are, and a START (clock
high, data low) leaves `Idle` and schedules the handler. Nothing is saved (R253; log 8). -/
def State.takeEdge (s : State) : State :=
  if s.scl && !s.sda then { s with edgePend := false, tfsm := .receivingAddress, handlerPend := true }
  else { s with edgePend := false }

/-- `FINISH(o)` (42_target_ops.md R210): the outcome is recorded and the detector is armed again (R254). -/
def State.finishHandler (s : State) (o : TLast) : State :=
  { s with tlast := o, terr := s.terr || o == .callbackError, tfsm := .idle, tpos := [] }

/-! ## Reset (70_reset_and_hazards.md R280) -/

/-- Every element of the engine at its reset value in one step; a command or handler in progress is abandoned: no STOP, no
result, no callback. The buffers, the peers, the ports and the schedule are the environment's and stay (log 22). -/
def State.resetEngine (s : State) : State :=
  s.observe
    { State.reset with
      mem := s.mem, peerScl := s.peerScl, peerSda := s.peerSda, ppos := s.ppos, port := s.port,
      responses := s.responses, statusOut := s.statusOut, calls := s.calls, inputs := s.inputs, answers := s.answers,
      tick := s.tick, busOpen := s.busOpen, lastCond := s.lastCond, unsanctioned := s.unsanctioned, elapsed := s.elapsed }

end Sys2Proof.Machine
end

