-- ==== Sys2Proof/Machine/Operands.lean ====
section
/-! DEFINITION. Operand forms: bits of a byte, the address byte, and what follows what in a transaction
(30_encoding.md R92 to R94, 41_controller_ops.md R164 to R173). -/

namespace Sys2Proof.Machine

/-! ## Bytes (40_line_primitives.md R144) -/

/-- `sr' = ((sr << 1) | v) mod 256`. -/
def shiftIn (sr : Byte) (v : Level) : Byte := (sr <<< 1) ||| (BitVec.ofBool v).setWidth 8

/-- The bits of a byte, most significant first (30_encoding.md R93). -/
def bitsOf (x : Byte) : List Level :=
  [x.getLsbD 7, x.getLsbD 6, x.getLsbD 5, x.getLsbD 4, x.getLsbD 3, x.getLsbD 2, x.getLsbD 1, x.getLsbD 0]

/-- The byte that eight cells shift in, first cell in bit 7 (R144). -/
def byteOf (cells : List Level) : Byte := cells.foldl shiftIn 0#8

/-- `byte0 = addr[6:0] :: rd` (30_encoding.md R94). -/
def addressByte (addr : Addr) (rd : Bool) : Byte := addr ++ BitVec.ofBool rd

/-- `addr = byte0[7:1]` (R94, 90_conflicts.md C4). -/
def addressOf (x : Byte) : Addr := x.extractLsb' 1 7

/-- `rd = byte0[0]` (R94). -/
def directionOf (x : Byte) : Bool := x.getLsbD 0

/-! ## Transactions -/

/-- The direction bit of a segment, 1 for `Read` (R166). -/
def Dir.isRead : Dir → Bool
  | .write => false
  | .read => true

/-- `restart(s)`: a later segment opens with a REPEATED-START when it asks for one, the directions differ, or the segment
before has `StopAfter` (41_controller_ops.md R165). Segment 0 never does. -/
def restart (segs : List Seg) (k : Nat) : Bool :=
  match k with
  | 0 => false
  | p + 1 =>
    match segs[p]?, segs[p + 1]? with
    | some before, some g => g.rb || g.dir != before.dir || before.sa
    | _, _ => false

/-- The last byte the transaction reads, as `(segment, index)`: the highest `Read` segment of nonzero length, its last byte
(R168). `k` is the index of the list's first segment. -/
def lastReadFrom : List Seg → Nat → Option (Nat × Nat)
  | [], _ => none
  | g :: rest, k =>
    match lastReadFrom rest (k + 1) with
    | some p => some p
    | none => if g.dir == .read && decide (0 < g.len.toNat) then some (k, g.len.toNat - 1) else none

/-- `nack(s,i)` (R168). -/
def nack (segs : List Seg) (k i : Nat) : Level := lastReadFrom segs 0 == some (k, i)

/-- Segment `k` opens with its address frame (R166), after a REPEATED-START (R164 steps 3, 4). -/
def reopenTasks (addr : Addr) (k : Nat) (g : Seg) : List CTask :=
  [.op .cRstart, .op (.cWbyte (addressByte addr (Dir.isRead g.dir))), .addrCheck k]

/-- Byte `i` of segment `k`: a written byte with its acknowledge checked (R167), or a read byte stored and answered (R168). -/
def byteTasks (segs : List Seg) (k i : Nat) (g : Seg) : List CTask :=
  match g.dir with
  | .write => [.send k i, .dataCheck k i]
  | .read => [.op .cRbyte, .store k i, .op (.cWbit (nack segs k i)), .nextByte k (i + 1)]

/-- What the segments from `k` on do next: the first that opens with a condition or has a byte; `none` when none does, and the
transfer ends (R164; a segment of length 0 that continues the one before does nothing on the wire, R172). -/
def laterTasks (addr : Addr) (segs : List Seg) : List Seg → Nat → Option (List CTask)
  | [], _ => none
  | g :: rest, k =>
    if restart segs k then some (reopenTasks addr k g)
    else if 0 < g.len.toNat then some (byteTasks segs k 0 g)
    else laterTasks addr segs rest (k + 1)

/-- What comes at byte `i` of segment `k`: that byte if the segment has it, else a later segment (R164). -/
def tasksAt (addr : Addr) (segs : List Seg) (k i : Nat) : Option (List CTask) :=
  match segs[k]? with
  | none => none
  | some g =>
    if i < g.len.toNat then some (byteTasks segs k i g)
    else laterTasks addr segs (segs.drop (k + 1)) (k + 1)

/-- The end of every transfer: one STOP, then the result (R164 steps 7, 8; R169). -/
def stopTasks : List CTask := [.op .cStop, .complete]

/-- The start of a transfer with a first segment (R164 steps 1, 2, 4). -/
def transferTasks (addr : Addr) (g : Seg) : List CTask :=
  [.op .getSda, .entryTest, .op .cStart, .op (.cWbyte (addressByte addr (Dir.isRead g.dir))), .addrCheck 0]

/-- The recovery sequence: START, nine pulses with the data released, REPEATED-START, STOP, the test of the data line
(R174). -/
def recoverTasks : List CTask :=
  [.op .cStart] ++ List.replicate 9 (.op (.cWbit true)) ++ [.op .cRstart, .op .cStop, .op .getSda, .recCheck]

/-! ## Target (42_target_ops.md R210) -/

/-- What is left of the address phase once `T_WAIT_L` has been entered (R211). -/
def addressTasks : List TTask := [.op (.tRbyte none), .addrDecide]

/-- After an acknowledge in the write direction: `T_ACK`, `T_DETECT`, the branch on it (R213, R214). -/
def ackThenDetect (first : Bool) : List TTask := [.op .tAck, .op .tDetect, .afterDetect first]

/-! ## The wire, as a well-behaved peer drives it (30_encoding.md R92, R93) -/

/-- The cell of bit `b` once the clock has been taken low: the bit is put on the data line, the clock goes high and low. -/
def cellTail (b : Level) : List PTask := [.dat b, .clk true, .clk false]

/-- The cells of the remaining bits. -/
def cellTasks (bits : List Level) : List PTask := bits.map fun b => .op (.bitCell b)

end Sys2Proof.Machine
end

