-- ==== Sys2Proof/Machine/Flags.lean ====
section
/-! DEFINITION. Numeric codes (30_encoding.md R104, 10_state.md R21 to R35) and the `STATUS` word (R37). There are no
arithmetic flags (R36). -/

namespace Sys2Proof.Machine

/-- R21. -/
def Mode.code : Mode → BitVec 2
  | .unconfigured => 0#2
  | .controller => 1#2
  | .target => 2#2

/-- R25. -/
def Tfsm.code : Tfsm → BitVec 2
  | .idle => 0#2
  | .receivingAddress => 1#2
  | .receivingData => 2#2
  | .sendingData => 3#2

/-- R22. -/
def Speed.code : Speed → BitVec 2
  | .unset => 0#2
  | .standard => 1#2
  | .fast => 2#2

/-- R104. -/
def Result.code : Result → BitVec 4
  | .ok => 0#4
  | .configError => 1#4
  | .addrNack => 2#4
  | .dataNack => 3#4
  | .busBusy => 4#4
  | .modeError => 5#4
  | .invalidCommand => 6#4
  | .notConfigured => 7#4
  | .engineBusy => 8#4

/-- R35. -/
def TLast.code : TLast → BitVec 3
  | .notYet => 0#3
  | .stopDetected => 1#3
  | .callbackError => 2#3
  | .masterNacked => 3#3
  | .addressMismatch => 4#3

/-- The kind number of an exchange on the application port (30_encoding.md R109). -/
def AppCall.kind : AppCall → Nat
  | .writeRequested => 0
  | .writeReceived _ _ => 1
  | .readRequested _ => 2
  | .readProcessed _ => 3
  | .stop => 4

/-- `ADDR10` is hard-wired 0: no operation can set it (10_state.md R22; log 29). -/
def State.addr10 (_ : State) : Bool := false

/-- The `SPEED` field as the host sees it: 0 while `CFG_VALID = 0` (R37). -/
def State.speedSeen (s : State) : BitVec 2 := if s.cfgValid then s.speed.code else 0#2

/-- The `TADDR` field as the host sees it: 0 while `TVALID = 0` (R37). -/
def State.taddrSeen (s : State) : Addr := if s.tvalid then s.taddr else 0#7

/-- `STATUS` (R37), bit 31 first: five zeros, `ADDR10`, the data line, the clock line, `RESULT`, `TLAST`, `TERR`, `TADDR`,
`TVALID`, `SPEED`, `CFG_VALID`, `BUSY`, `TFSM`, `MODE`. -/
def State.status (s : State) : Word :=
  0#5 ++ BitVec.ofBool s.addr10 ++ BitVec.ofBool s.sda ++ BitVec.ofBool s.scl ++ s.result.code ++ s.tlast.code
    ++ BitVec.ofBool s.terr ++ s.taddrSeen ++ BitVec.ofBool s.tvalid ++ s.speedSeen ++ BitVec.ofBool s.cfgValid
    ++ BitVec.ofBool s.busy ++ s.tfsm.code ++ s.mode.code

/-- The grade a speed code names: 1 `Standard`, 2 `Fast`, no other (30_encoding.md R101). -/
def gradeOf (code : BitVec 3) : Option Grade :=
  if code = 1#3 then some .standard else if code = 2#3 then some .fast else none

end Sys2Proof.Machine
end

