-- ==== Sys2Proof/Machine/Line.lean ====
section
/-! DEFINITION. The five micro-operations (40_line_primitives.md R130 to R134). -/

namespace Sys2Proof.Machine

/-- `get_clock()`: the level is returned, nothing else changes (R132). -/
def State.readScl (s : State) : State := { s with got := s.scl }

/-- `get_data()` (R133). -/
def State.readSda (s : State) : State := { s with got := s.sda }

/-- `SET_SCL(l)` (R130). -/
def execSetScl (l : Level) (s : State) : Out := .next (s.driveScl l)

/-- `SET_SDA(l)` (R131). -/
def execSetSda (l : Level) (s : State) : Out := .next (s.driveSda l)

/-- `GET_SCL() -> level` (R132). -/
def execGetScl (s : State) : Out := .next s.readScl

/-- `GET_SDA() -> level` (R133). -/
def execGetSda (s : State) : Out := .next s.readSda

/-- `DELAY(d)` (R134): no element of the engine changes. -/
def execDelay (d : Dur) (s : State) : Out := .next (s.waitAtLeast d)

end Sys2Proof.Machine
end

