-- ==== Sys2Proof/Machine/Callbacks.lean ====
section
/-! DEFINITION. The five callbacks (30_encoding.md R109, 42_target_ops.md R197): each is one exchange on the application
port, in one step; the answer is a free input (92_eei_decisions.md D33). -/

namespace Sys2Proof.Machine

/-- `on_write_requested()`, kind 0. -/
def execOnWriteRequested (s : State) : Out := .next (s.callOut .writeRequested)

/-- `on_write_received(byte) -> status`, kind 1. -/
def execOnWriteReceived (b : Byte) (s : State) : Out := .next (s.callFor (.writeReceived b))

/-- `on_read_requested() -> byte`, kind 2. -/
def execOnReadRequested (s : State) : Out := .next (s.callFor .readRequested)

/-- `on_read_processed() -> byte`, kind 3. -/
def execOnReadProcessed (s : State) : Out := .next (s.callFor .readProcessed)

/-- `on_stop()`, kind 4. -/
def execOnStop (s : State) : Out := .next (s.callOut .stop)

end Sys2Proof.Machine
end

