-- ==== Sys2Proof/Machine/Commands.lean ====
section
/-! DEFINITION. The host commands (41_controller_ops.md R160 to R176, 42_target_ops.md R190, R191), the descriptor word and
the `STATUS` read. Legality, the first check of every command, is the decoder's: what reaches these is legal, and an illegal
command is an operation of its own (30_encoding.md R105). -/

namespace Sys2Proof.Machine

/-- `CONFIGURE` once accepted (R161). -/
def State.configure (s : State) (code : BitVec 3) (a10 : Bool) : State :=
  match gradeOf code, a10 with
  | some g, false =>
    { s with
      speed := Speed.ofGrade g
      low := Config.nsToUnits (Config.lowNs g)
      high := Config.nsToUnits (Config.highNs g)
      cfgValid := true }.deliver .ok
  | _, _ => s.deliver .configError

/-- `TRANSFER` once accepted (R163): mode, then configuration; no segment completes at once (R171), else the operands are
latched and the sequencer starts (R164). -/
def State.startTransfer (s : State) (addr : Addr) (segs : List Seg) : State :=
  if s.mode = .target then s.deliver .modeError
  else if s.cfgValid = false then s.deliver .notConfigured
  else
    match segs with
    | [] => { s with mode := .controller }.deliver .ok
    | g :: _ =>
      { s with
        mode := .controller, busy := true, cop := .transfer, xaddr := addr, xsegs := segs
        cpos := transferTasks addr g }

/-- `RECOVER` once accepted (R174): `MODE` stays as it is. -/
def State.startRecover (s : State) : State :=
  if s.mode = .target then s.deliver .modeError
  else if s.cfgValid = false then s.deliver .notConfigured
  else { s with busy := true, cop := .recover, cpos := recoverTasks }

/-- `REGISTER_TARGET` once accepted (R190). -/
def State.register (s : State) (addr : Addr) : State :=
  if s.mode = .unconfigured then
    { s with
      taddr := addr, tvalid := true, mode := .target, tfsm := .idle, edgePend := false, handlerPend := false
      terr := false, tlast := .notYet }.deliver .ok
  else s.deliver .modeError

/-- `UNREGISTER_TARGET` once accepted (R191). -/
def State.unregister (s : State) : State :=
  if s.mode ≠ .target then s.deliver .modeError
  else if s.tfsm ≠ .idle then s.deliver .engineBusy
  else { s with tvalid := false, mode := .unconfigured, edgePend := false }.deliver .ok

/-- `RELEASE` once accepted (R176). -/
def State.release (s : State) : State :=
  if s.mode = .target then s.deliver .modeError
  else { s with mode := .unconfigured }.deliver .ok

/-- `CONFIGURE` (R161). -/
def execConfigure (code : BitVec 3) (a10 : Bool) (s : State) : Out :=
  s.accept (.configure code a10) fun s => s.configure code a10

/-- `TRANSFER` (R163). -/
def execTransfer (addr : Addr) (segs : List Seg) (s : State) : Out :=
  s.accept (.transfer addr segs) fun s => s.startTransfer addr segs

/-- A descriptor word (R102): not a command; it joins the words presented on the port, where it describes a segment of the
`TRANSFER` word before it (log 16). -/
def execSegdesc (seg : Seg) (s : State) : Out :=
  .next (s.setPort (s.port ++ [.word (encodeSeg seg)]))

/-- `RECOVER` (R174). -/
def execRecover (s : State) : Out := s.accept .recover State.startRecover

/-- `REGISTER_TARGET` (R190). -/
def execRegisterTarget (addr : Addr) (s : State) : Out :=
  s.accept (.registerTarget addr) fun s => s.register addr

/-- `UNREGISTER_TARGET` (R191). -/
def execUnregisterTarget (s : State) : Out := s.accept .unregisterTarget State.unregister

/-- `RELEASE` (R176). -/
def execRelease (s : State) : Out := s.accept .release State.release

/-- An illegal command (30_encoding.md R105): only `RESULT` changes. -/
def execIllegal (words : List Word) (s : State) : Out :=
  s.accept (.illegal words) fun s => s.deliver .invalidCommand

/-- The read of `STATUS` (10_state.md R37): the host gets the word; the engine is unchanged. -/
def execStatusRead (s : State) : Out := .next { s with statusOut := s.status }

end Sys2Proof.Machine
end

