-- ==== Sys2Proof/Machine/Controller.lean ====
section
/-! DEFINITION. The controller primitives (40_line_primitives.md R135 to R143). A primitive performs its first
micro-operation in the step that enters it and leaves the others on `CPOS`, one per step (10_state.md R30; log 7). -/

namespace Sys2Proof.Machine

/-- The rest of a primitive goes in front of what the sequencer still has to do. -/
def State.thenC (s : State) (ts : List CTask) : State := s.setCpos (ts ++ s.cpos)

/-- The optional wait of `C_RAISE`: poll the clock line until it is high (R135). -/
def stretchTasks (stretchWait : Bool) : List CTask := if stretchWait then [.op .getScl, .untilHigh] else []

/-- `C0 tL C_RAISE tL` after its first micro-operation (R136). -/
def prestartRest : List CTask := [.op (.delay .low), .op .cRaise, .op (.delay .low)]

/-- `D0 tH C0 tL` after its first micro-operation (R137). -/
def startRest : List CTask := [.op (.delay .high), .op (.setScl false), .op (.delay .low)]

/-- `D1 C_RAISE tL C_START` after its first micro-operation (R138). -/
def rstartRest : List CTask := [.op .cRaise, .op (.delay .low), .op .cStart]

/-- `D0 tL C_RAISE tH D1 tL` after its first micro-operation (R139). -/
def stopRest : List CTask :=
  [.op (.delay .low), .op .cRaise, .op (.delay .high), .op (.setSda true), .op (.delay .low)]

/-- `Db C_RAISE tH C0 tL` after its first micro-operation (R140). -/
def wbitRest : List CTask := [.op .cRaise, .op (.delay .high), .op (.setScl false), .op (.delay .low)]

/-- `D1 C_RAISE tH gD=v C0 tL` after its first micro-operation; the sample is taken after the high hold (R141). -/
def rbitRest : List CTask :=
  [.op .cRaise, .op (.delay .high), .op .getSda, .takeBit, .op (.setScl false), .op (.delay .low)]

/-- Bits 6 to 0 of a byte, then the acknowledge cell, sampled into `CACK` (R142). -/
def wbyteRest (x : Byte) : List CTask :=
  (bitsOf x).tail.map (fun b => CTask.op (.cWbit b)) ++ [.op .cRbit, .takeAck]

/-- The seven cells after the first, each shifted into `CSR` (R143). -/
def rbyteRest : List CTask := .shiftCsr :: (List.replicate 7 [CTask.op .cRbit, .shiftCsr]).flatten

/-- `C_WBIT(b)` begun. -/
def State.beginWbit (s : State) (b : Level) : State := (s.driveSda b).thenC wbitRest

/-- `C_RBIT` begun. -/
def State.beginRbit (s : State) : State := (s.driveSda true).thenC rbitRest

/-- `C_RAISE`: the clock is released, and with `STRETCH_WAIT` polled until high (R135). -/
def execCRaise (s : State) : Out := .next ((s.driveScl true).thenC (stretchTasks Config.stretchWait))

/-- `C_PRESTART` (R136). -/
def execCPrestart (s : State) : Out := .next ((s.driveScl false).thenC prestartRest)

/-- `C_START` (R137). -/
def execCStart (s : State) : Out := .next ((s.driveSda false).thenC startRest)

/-- `C_RSTART` (R138). -/
def execCRstart (s : State) : Out := .next ((s.driveSda true).thenC rstartRest)

/-- `C_STOP` (R139). -/
def execCStop (s : State) : Out := .next ((s.driveSda false).thenC stopRest)

/-- `C_WBIT(b)` (R140). -/
def execCWbit (b : Level) (s : State) : Out := .next (s.beginWbit b)

/-- `C_RBIT -> bit` (R141). -/
def execCRbit (s : State) : Out := .next s.beginRbit

/-- `C_WBYTE(x) -> acked` (R142): most significant bit first. -/
def execCWbyte (x : Byte) (s : State) : Out := .next ((s.thenC (wbyteRest x)).beginWbit (x.getLsbD 7))

/-- `C_RBYTE -> byte` (R143). -/
def execCRbyte (s : State) : Out := .next (((s.setCsr 0#8).thenC rbyteRest).beginRbit)

end Sys2Proof.Machine
end

