-- ==== Sys2Proof/Machine/Pseudo.lean ====
section
/-! DEFINITION. The pseudo-operations (30_encoding.md R111): each is a shorthand for one `TRANSFER`; for those that write, the
host first fills the buffer of segment 0 (20_memory.md R66; log 21). -/

namespace Sys2Proof.Machine

/-- A `Write` segment of so many bytes. -/
def writeSeg (bytes : List Byte) (sa : Bool) : Seg :=
  { dir := .write, rb := false, sa := sa, len := BitVec.ofNat 16 bytes.length }

/-- A `Read` segment with `StopAfter`. -/
def readSeg (n : BitVec 16) (rb : Bool) : Seg := { dir := .read, rb := rb, sa := true, len := n }

/-- The bytes stand in the buffer of segment 0. -/
def State.fillWrite (s : State) (bytes : List Byte) : State := s.setMem (s.mem.fill 0 bytes)

/-- `WRITE a {bytes}` is `TRANSFER a [W{bytes}+ST]`. -/
def execWrite (addr : Addr) (bytes : List Byte) (s : State) : Out :=
  s.accept (.write addr bytes) fun s => (s.fillWrite bytes).startTransfer addr [writeSeg bytes true]

/-- `READ a n` is `TRANSFER a [R{n}+ST]`. -/
def execRead (addr : Addr) (n : BitVec 16) (s : State) : Out :=
  s.accept (.read addr n) fun s => s.startTransfer addr [readSeg n false]

/-- `WRITE_READ a {bytes} n` is `TRANSFER a [W{bytes}, R{n}+RS+ST]`. -/
def execWriteRead (addr : Addr) (bytes : List Byte) (n : BitVec 16) (s : State) : Out :=
  s.accept (.writeRead addr bytes n) fun s =>
    (s.fillWrite bytes).startTransfer addr [writeSeg bytes false, readSeg n true]

/-- `PROBE a` is `TRANSFER a [W{}+ST]`. -/
def execProbe (addr : Addr) (s : State) : Out :=
  s.accept (.probe addr) fun s => s.startTransfer addr [writeSeg [] true]

end Sys2Proof.Machine
end

