-- ==== Sys2Proof/Machine/Target.lean ====
section
/-! DEFINITION. The target primitives, the edge callback and the transaction handler (42_target_ops.md R195, R200 to R210).
As in the controller, a primitive performs its first micro-operation in the step that enters it (log 7). The target never
drives the clock line. -/

namespace Sys2Proof.Machine

/-- The rest of a primitive goes in front of what the handler still has to do. -/
def State.thenT (s : State) (ts : List TTask) : State := s.setTpos (ts ++ s.tpos)

/-- One poll of `wait until get_clock() = l`: the wait is over, or it stays the next thing to do (R200, R201). -/
def State.pollScl (s : State) (l : Level) (again : Instr) : State :=
  if s.scl == l then s.readScl else s.readScl.thenT [.op again]

/-- `T_RBIT` after its `T_WAIT_H` (R202). -/
def trbitRest : List TTask := [.op .getSda, .takeBit, .op .tWaitL]

/-- `T_RBIT` begun. -/
def State.beginTrbit (s : State) : State := (s.thenT trbitRest).pollScl true .tWaitH

/-- `T_WBIT(b)` after its `set_data` (R203). -/
def twbitRest : List TTask := [.op .tWaitH, .op .tWaitL]

/-- `T_WBIT(b)` begun. -/
def State.beginTwbit (s : State) (b : Level) : State := (s.driveSda b).thenT twbitRest

/-- Each of so many cells received and shifted into `TSR`, the first already begun (R204). -/
def trbyteRest (cells : Nat) : List TTask :=
  .shiftTsr :: (List.replicate (cells - 1) [TTask.op .tRbit, .shiftTsr]).flatten

/-- `T_ACK` after its `set_data(0)` (R206). -/
def tackRest : List TTask := [.op .tWaitH, .op .tWaitL, .op (.setSda true)]

/-- `T_WAIT_H` (R200). -/
def execTWaitH (s : State) : Out := .next (s.pollScl true .tWaitH)

/-- `T_WAIT_L` (R201). -/
def execTWaitL (s : State) : Out := .next (s.pollScl false .tWaitL)

/-- `T_RBIT -> bit` (R202). -/
def execTRbit (s : State) : Out := .next s.beginTrbit

/-- `T_WBIT(b)` (R203). -/
def execTWbit (b : Level) (s : State) : Out := .next (s.beginTwbit b)

/-- `T_RBYTE(first) -> byte` (R204): eight cells, or seven after a first one already taken. -/
def execTRbyte (first : Option Level) (s : State) : Out :=
  match first with
  | none => .next (((s.setTsr 0#8).thenT (trbyteRest 8)).beginTrbit)
  | some b => .next (((s.setTsr ((BitVec.ofBool b).setWidth 8)).thenT (trbyteRest 7)).beginTrbit)

/-- `T_WBYTE(x)` (R205): most significant bit first. -/
def execTWbyte (x : Byte) (s : State) : Out :=
  .next ((s.thenT ((bitsOf x).tail.map fun b => TTask.op (.tWbit b))).beginTwbit (x.getLsbD 7))

/-- `T_ACK` (R206). -/
def execTAck (s : State) : Out := .next ((s.driveSda false).thenT tackRest)

/-- `T_RACK -> level` (R207). -/
def execTRack (s : State) : Out := .next ((s.driveSda true).thenT [.op .tRbit])

/-- `T_DETECT` (R208): `T_WAIT_H`, then the first sample, then the loop. -/
def execTDetect (s : State) : Out :=
  .next (if s.scl then s.readScl.thenT [.op .getSda, .watchFirst] else s.readScl.thenT [.op .tDetect])

/-- The handler is no longer pending and stands at the address phase, its `T_WAIT_L` to come (R210). -/
def State.startHandler (s : State) : State :=
  { s with handlerPend := false, tfsm := .receivingAddress, tpos := addressTasks }

/-- `T_EDGE` (R195). -/
def execTEdge (s : State) : Out := .next s.takeEdge

/-- `T_HANDLER` (R210): its first step clears `HANDLER_PEND`, enters the address phase and makes the first poll of
`T_WAIT_L`, the tail of the START (R211). -/
def execTHandler (s : State) : Out :=
  .next (s.startHandler.pollScl false .tWaitL)

end Sys2Proof.Machine
end

