-- ==== Sys2Proof/Machine/Wire.lean ====
section
/-! DEFINITION. The wire format as what a well-behaved bus peer does (30_encoding.md R91 to R95; log 19): an external master's
conditions, cells and frames, and a receiver's acknowledge. An element's first line change is made in the step that begins
it; the others are the peer's next actions. Whether a condition appears on the wire is what the lines show (R91). -/

namespace Sys2Proof.Machine

/-- What remains of an element goes in front of what the scripted peer still does. -/
def State.thenP (s : State) (ts : List PTask) : State := s.setPpos (ts ++ s.ppos)

/-- The peers' clock output takes a level. -/
def State.peerClk (s : State) (l : Level) : State := s.drivePeers l s.peerSda

/-- The peers' data output takes a level. -/
def State.peerDat (s : State) (l : Level) : State := s.drivePeers s.peerScl l

/-- The cells of these bits, one after another (R92). -/
def State.beginCells (s : State) (bits : List Level) : State :=
  match bits with
  | [] => s
  | b :: rest => (s.peerClk false).thenP (cellTail b ++ cellTasks rest)

/-- START: data falls; a START if the clock is high and the data was (R91). -/
def execWireStart (s : State) : Out := .next (s.peerDat false)

/-- REPEATED-START: with the clock low the data is released, the clock goes high, the data falls (R91). -/
def execWireRestart (s : State) : Out :=
  .next ((s.peerClk false).thenP [.dat true, .clk true, .dat false])

/-- STOP: with the clock low the data goes low, the clock goes high, the data rises (R91). -/
def execWireStop (s : State) : Out :=
  .next ((s.peerClk false).thenP [.dat false, .clk true, .dat true])

/-- Bit cell: data settles while the clock is low, then a clock pulse (R92). -/
def execBitCell (b : Level) (s : State) : Out := .next (s.beginCells [b])

/-- Byte frame: eight cells, most significant bit first, then the acknowledge cell (R93). A transmitter releases the ninth
cell (`k` = 1); a receiver releases the eight (`b` = 0xFF). -/
def execByteFrame (b : Byte) (k : Level) (s : State) : Out := .next (s.beginCells (bitsOf b ++ [k]))

/-- Address byte: the frame `a6 a5 a4 a3 a2 a1 a0 r A` (R94). Its sender, the controller, releases the ninth cell, where the addressed
target acknowledges. -/
def execAddressByte (addr : Addr) (rd : Bool) (s : State) : Out :=
  .next (s.beginCells (bitsOf (addressByte addr rd) ++ [true]))

/-- Acknowledge: a receiver drives the ninth cell low for ACK and leaves it released for NACK, and releases it when the cell is
over (R95). The clock is the controller's. -/
def execAcknowledge (k : Level) (s : State) : Out :=
  .next ((s.peerDat k).thenP [.waitH, .waitL, .dat true])

end Sys2Proof.Machine
end

