-- ==== Sys2Proof/Machine/Dispatch.lean ====
section
/-! DEFINITION. One arm per operation, each one call of its meaning. -/

namespace Sys2Proof.Machine

def exec (i : Instr) (s : State) : Host.Outcome State Fault Refusal :=
  match i with
  -- host commands, the descriptor word, the STATUS read
  | .configure code a10 => Sys2Proof.Machine.execConfigure code a10 s
  | .transfer addr segs => Sys2Proof.Machine.execTransfer addr segs s
  | .segdesc seg => Sys2Proof.Machine.execSegdesc seg s
  | .recover => Sys2Proof.Machine.execRecover s
  | .registerTarget addr => Sys2Proof.Machine.execRegisterTarget addr s
  | .unregisterTarget => Sys2Proof.Machine.execUnregisterTarget s
  | .release => Sys2Proof.Machine.execRelease s
  | .illegal words => Sys2Proof.Machine.execIllegal words s
  | .statusRead => Sys2Proof.Machine.execStatusRead s
  -- pseudo-operations
  | .write addr bytes => Sys2Proof.Machine.execWrite addr bytes s
  | .read addr n => Sys2Proof.Machine.execRead addr n s
  | .writeRead addr bytes n => Sys2Proof.Machine.execWriteRead addr bytes n s
  | .probe addr => Sys2Proof.Machine.execProbe addr s
  -- micro-operations
  | .setScl l => Sys2Proof.Machine.execSetScl l s
  | .setSda l => Sys2Proof.Machine.execSetSda l s
  | .getScl => Sys2Proof.Machine.execGetScl s
  | .getSda => Sys2Proof.Machine.execGetSda s
  | .delay d => Sys2Proof.Machine.execDelay d s
  -- controller primitives
  | .cRaise => Sys2Proof.Machine.execCRaise s
  | .cPrestart => Sys2Proof.Machine.execCPrestart s
  | .cStart => Sys2Proof.Machine.execCStart s
  | .cRstart => Sys2Proof.Machine.execCRstart s
  | .cStop => Sys2Proof.Machine.execCStop s
  | .cWbit b => Sys2Proof.Machine.execCWbit b s
  | .cRbit => Sys2Proof.Machine.execCRbit s
  | .cWbyte x => Sys2Proof.Machine.execCWbyte x s
  | .cRbyte => Sys2Proof.Machine.execCRbyte s
  -- target primitives and events
  | .tWaitH => Sys2Proof.Machine.execTWaitH s
  | .tWaitL => Sys2Proof.Machine.execTWaitL s
  | .tRbit => Sys2Proof.Machine.execTRbit s
  | .tWbit b => Sys2Proof.Machine.execTWbit b s
  | .tRbyte first => Sys2Proof.Machine.execTRbyte first s
  | .tWbyte x => Sys2Proof.Machine.execTWbyte x s
  | .tAck => Sys2Proof.Machine.execTAck s
  | .tRack => Sys2Proof.Machine.execTRack s
  | .tDetect => Sys2Proof.Machine.execTDetect s
  | .tEdge => Sys2Proof.Machine.execTEdge s
  | .tHandler => Sys2Proof.Machine.execTHandler s
  -- the wire format
  | .wireStart => Sys2Proof.Machine.execWireStart s
  | .wireRestart => Sys2Proof.Machine.execWireRestart s
  | .wireStop => Sys2Proof.Machine.execWireStop s
  | .bitCell b => Sys2Proof.Machine.execBitCell b s
  | .byteFrame b k => Sys2Proof.Machine.execByteFrame b k s
  | .addressByte addr rd => Sys2Proof.Machine.execAddressByte addr rd s
  | .acknowledge k => Sys2Proof.Machine.execAcknowledge k s
  -- callbacks
  | .onWriteRequested => Sys2Proof.Machine.execOnWriteRequested s
  | .onWriteReceived b => Sys2Proof.Machine.execOnWriteReceived b s
  | .onReadRequested => Sys2Proof.Machine.execOnReadRequested s
  | .onReadProcessed => Sys2Proof.Machine.execOnReadProcessed s
  | .onStop => Sys2Proof.Machine.execOnStop s

end Sys2Proof.Machine
end

