-- ==== Sys2Proof/Machine/Sequencers.lean ====
section
/-! DEFINITION. What the two sequencers decide between micro-operations (41_controller_ops.md R164, R174;
42_target_ops.md R208, R210). A decision takes no step of its own: it is made in the step of the micro-operation before
it, so each step of a sequencer is one micro-operation or one callback (10_state.md R30; log 7). -/

namespace Sys2Proof.Machine

/-- The transfer goes on at byte `i` of segment `k`, or, when nothing is left, to its STOP with `CABORT` = `Ok` (R164). -/
def State.goTo (s : State) (k i : Nat) : State :=
  match tasksAt s.xaddr s.xsegs k i with
  | some ts => s.setCpos ts
  | none => (s.setCabort .ok).setCpos stopTasks

/-- The transfer is aborted: `CABORT` is chosen and the STOP follows (R166, R167). -/
def State.abort (s : State) (r : Result) : State := (s.setCabort r).setCpos stopTasks

/-- The controller sequencer after a micro-operation, with this left to do: its decisions up to the next micro-operation. -/
def settleC : List CTask → State → Out
  | [], s => .next (s.setCpos [])
  | .op i :: rest, s => .next (s.setCpos (.op i :: rest))
  | .send k i :: rest, s => .next (s.setCpos (.send k i :: rest))
  | .untilHigh :: rest, s =>
    if s.got then settleC rest s else .next (s.setCpos (.op .getScl :: .untilHigh :: rest))
  | .takeBit :: rest, s => settleC rest (s.setBitv s.got)
  | .takeAck :: rest, s => settleC rest (s.setCack s.bitv)
  | .shiftCsr :: rest, s => settleC rest (s.setCsr (shiftIn s.csr s.bitv))
  | .entryTest :: rest, s =>
    if s.got then settleC rest s else .next (s.setCpos (.op .cPrestart :: rest))
  | .addrCheck k :: _, s => .next (if s.cack then s.abort .addrNack else s.goTo k 0)
  | .dataCheck k i :: _, s => .next (if s.cack then s.abort .dataNack else s.goTo k (i + 1))
  | .store k i :: rest, s =>
    match s.bufStore k i s.csr with
    | some t => settleC rest t
    | none => .fault (.bufferRange k i)
  | .nextByte k i :: _, s => .next (s.goTo k i)
  | .complete :: _, s => .next (s.complete s.cabort)
  | .recCheck :: _, s => .next (s.complete (if s.got then .ok else .busBusy))

/-- The address phase is entered (again): `TFSM`, the tail of the START, the address byte (R210 item 1). -/
def State.enterAddress (s : State) : State :=
  (s.setTfsm .receivingAddress).setTpos (.op .tWaitL :: addressTasks)

/-- The address byte is in: direction, comparison, and the branch (R210 items 2, 3; R212, R213). -/
def State.addressPhaseEnd (s : State) : State :=
  let t := s.setTdir (directionOf s.tsr)
  if addressOf s.tsr ≠ s.taddr then t.finishHandler .addressMismatch
  else if directionOf s.tsr then t.setTpos [.op .tAck, .beginSend]
  else t.setTpos (ackThenDetect true)

/-- The branch on what `T_DETECT` returned (R210 items 3, 4). `first`: right after the address frame, where a first data cell
calls `on_write_requested()`. -/
def State.afterDetection (s : State) (first : Bool) : State :=
  match s.det with
  | .stop => s.setTpos [.op .onStop, .finish .stopDetected]
  | .restart => s.enterAddress
  | .bit =>
    if first then (s.setTfsm .receivingData).setTpos [.op .onWriteRequested, .readData]
    else s.setTpos [.op (.tRbyte s.tfirst), .deliver]

/-- The target handler after a micro-operation or callback, with this left to do. -/
def settleT : List TTask → State → State
  | [], s => s.setTpos []
  | .op i :: rest, s => s.setTpos (.op i :: rest)
  | .takeBit :: rest, s => settleT rest (s.setBitv s.got)
  | .shiftTsr :: rest, s => settleT rest (s.setTsr (shiftIn s.tsr s.bitv))
  | .watchFirst :: rest, s => s.setTpos (.op .getScl :: .watchClk s.got :: rest)
  | .watchClk d0 :: rest, s =>
    if s.got then s.setTpos (.op .getSda :: .watchDat d0 :: rest)
    else settleT rest (s.setDetect .bit (some d0))
  | .watchDat d0 :: rest, s =>
    if s.got = d0 then s.setTpos (.op .getScl :: .watchClk d0 :: rest)
    else settleT rest (s.setDetect (if d0 then .restart else .stop) none)
  | .addrDecide :: _, s => s.addressPhaseEnd
  | .beginSend :: _, s => (s.setTfsm .sendingData).setTpos [.op .onReadRequested, .loadByte]
  | .loadByte :: _, s => (s.setTsr s.ans).setTpos [.op (.tWbyte s.ans), .op .tRack, .rackDecide]
  | .rackDecide :: _, s =>
    if s.bitv then s.finishHandler .masterNacked
    else s.setTpos [.op .onReadProcessed, .loadByte]
  | .afterDetect first :: _, s => s.afterDetection first
  | .readData :: _, s => s.setTpos [.op (.tRbyte s.tfirst), .deliver]
  | .deliver :: _, s => s.setTpos [.op (.onWriteReceived s.tsr), .statusDecide]
  | .statusDecide :: _, s =>
    if s.ans = 0#8 then s.setTpos (ackThenDetect false) else s.finishHandler .callbackError
  | .finish o :: _, s => s.finishHandler o

end Sys2Proof.Machine
end

