-- ==== Sys2Proof/Machine/Fetch.lean ====
section
/-! DEFINITION. Which operation the next step runs, and what follows it: the schedule (log 1), the command port
(41_controller_ops.md R160), the two sequencers (10_state.md R30, R32), the edge and deferred contexts
(60_exceptions.md R261), the scripted peer and the environment's acts. -/

namespace Sys2Proof.Machine

/-- Whose turn an operation was run in. -/
inductive Context where
  | environment
  | controller
  | handler
  deriving DecidableEq, Repr

/-- What a step does: run one operation of some context, an act that is no operation, or stop. -/
inductive Fetched where
  | run (c : Context) (i : Instr) (s : State)
  | done (s : State)
  | stop (f : Fault)
  deriving Repr

/-- What happens next: the first input laid down, else a free one. -/
def State.nextInput (s : State) : Input :=
  match s.inputs with
  | i :: _ => i
  | [] => Config.freeInput s.tick

/-- That input is used up; a free one advances the counter of free values. -/
def State.dropInput (s : State) : State :=
  match s.inputs with
  | _ :: rest => { s with inputs := rest }
  | [] => { s with tick := s.tick + 1 }

/-- What the host may ask for by a call: the pseudo-operations wait on the port like the commands they stand for; a descriptor
word and a read of `STATUS` are served at once (R37, R102, R111). Anything else is no call, and nothing happens (log 25). -/
def fetchCall (i : Instr) (s : State) : Fetched :=
  match i with
  | .segdesc _ | .statusRead => .run .environment i s
  | _ => if i.isPseudo && i.wellFormed then .done (s.setPort (s.port ++ [.call i])) else .done s

/-- What a peer may begin: an element of the wire format (log 25). -/
def fetchWire (i : Instr) (s : State) : Fetched := if i.isWire then .run .environment i s else .done s

/-- The command port: a command is accepted only when `BUSY = 0` (R160) and all its words are there (R108). A call that is no
pseudo-operation never stands there; it would be dropped (log 25). DESIGN CHOICE (log 32): a pseudo-operation behind a `TRANSFER` word
whose descriptor words are not all there waits, and the port with it. -/
def fetchPort (s : State) : Fetched :=
  if s.busy then .done s
  else
    match s.port with
    | [] => .done s
    | .call i :: rest => if i.isPseudo then .run .environment i (s.setPort rest) else .done (s.setPort rest)
    | .word w :: _ =>
      match decode (leadingWords s.port) with
      | .ok (i, _) => .run .environment i (s.setPort (s.port.drop (1 + descCount w)))
      | .error _ => .done s

/-- The controller sequencer: the operation at the front of `CPOS`; a written byte is read from its buffer only now
(20_memory.md R67, 92_eei_decisions.md D34). -/
def fetchController (s : State) : Fetched :=
  match s.cpos with
  | [] => .done s
  | .op i :: rest => .run .controller i (s.setCpos rest)
  | .send k i :: rest =>
    match s.bufLoad k i with
    | some b => .run .controller (.cWbyte b) (s.setCpos rest)
    | none => .stop (.bufferRange k i)
  | _ => .done s

/-- The deferred context: a pending handler starts, a running one goes on (42_target_ops.md R196). -/
def fetchHandler (s : State) : Fetched :=
  if s.handlerPend then .run .handler .tHandler s
  else
    match s.tpos with
    | .op i :: rest => .run .handler i (s.setTpos rest)
    | _ => .done s

/-- The edge context: `T_EDGE` is enabled when `EDGE_PEND = 1` (42_target_ops.md R195). -/
def fetchEdge (s : State) : Fetched := if s.edgePend then .run .environment .tEdge s else .done s

/-- The scripted peer's next action. -/
def fetchPeer (s : State) : Fetched :=
  match s.ppos with
  | [] => .done s
  | .clk l :: rest => .done ((s.setPpos rest).peerClk l)
  | .dat l :: rest => .done ((s.setPpos rest).peerDat l)
  | .waitH :: rest => .done (if s.scl then s.setPpos rest else s)
  | .waitL :: rest => .done (if s.scl then s else (s.setPpos rest))
  | .op i :: rest => fetchWire i (s.setPpos rest)

/-- A turn. -/
def fetchTurn (t : Turn) (s : State) : Fetched :=
  match t with
  | .port => fetchPort s
  | .controller => fetchController s
  | .edge => fetchEdge s
  | .handler => fetchHandler s
  | .peer => fetchPeer s

/-- The application fixes an answer, after those already fixed. -/
def State.layAnswer (s : State) (b : Byte) : State := { s with answers := s.answers ++ [b] }

/-- What an input does to the state it finds. -/
def fetchInput (i : Input) (s : State) : Fetched :=
  match i with
  | .turn t => fetchTurn t s
  | .words ws => .done (s.setPort (s.port ++ ws.map PortItem.word))
  | .call i => fetchCall i s
  | .drive c d => .done (s.drivePeers c d)
  | .wire i => fetchWire i s
  | .answer b => .done (s.layAnswer b)
  | .bufWrite k i b => .done (s.setMem (s.mem.write (bufKey k.toNat i.toNat) b))
  | .reset => .done s.resetEngine

/-- What the next step does. -/
def fetch (s : State) : Fetched := fetchInput s.nextInput s.dropInput

/-- What follows an operation in its context: the sequencer's decisions up to its next micro-operation. -/
def settle (c : Context) (o : Out) : Out :=
  match o with
  | .next s =>
    match c with
    | .environment => .next s
    | .controller => settleC s.cpos s
    | .handler => .next (settleT s.tpos s)
  | .fault f => .fault f
  | .refused r => .refused r

end Sys2Proof.Machine
end

