-- ==== Sys2Proof/Machine/Step.lean ====
section
/-! DEFINITION. One step of the machine, and where it fetches a command. -/

namespace Sys2Proof.Machine

/-- What was fetched, carried out. -/
def carryOut (f : Fetched) : Host.Outcome State Fault Refusal :=
  match f with
  | .run c i s => settle c (exec i s)
  | .done s => .next s
  | .stop r => .fault r

/-- One step: what happens next is read from the state, the operation it names is run, and the sequencer that ran it
decides up to its next micro-operation. -/
def step (s : State) : Host.Outcome State Fault Refusal := carryOut (fetch s)

/-- The state in which a command stands first on the port and the port's turn is next, with no command in execution
(log 2). -/
def State.withFetchWord (s : State) (nbits w : Nat) : State :=
  { s with
    port := (tableWords nbits w).map PortItem.word ++ s.port
    inputs := .turn .port :: s.inputs
    busy := false, cop := .idle, cpos := [] }

end Sys2Proof.Machine
end

