-- ==== Sys2Proof/Safety.lean ====
section
/-! DEFINITION. The terms claims are stated in: runs of one agent, the invariants of 10_state.md R39 and those of this model
they rest on, reachable states, and frames (what an operation leaves alone). -/

namespace Sys2Proof.Machine

/-! ## Runs of one agent -/

/-- The step in which this input comes next. -/
def stepWith (i : Input) (s : State) : Out := step { s with inputs := i :: s.inputs }

/-- These inputs, one a step, stopping at the first fault or refusal. -/
def runInputs : List Input → State → Out
  | [], s => .next s
  | i :: rest, s =>
    match stepWith i s with
    | .next t => runInputs rest t
    | .fault f => .fault f
    | .refused r => .refused r

/-- An outcome, and these inputs after it. -/
def afterwards (o : Out) (is : List Input) : Out :=
  match o with
  | .next s => runInputs is s
  | .fault f => .fault f
  | .refused r => .refused r

/-- So many turns of one agent. -/
def turns (n : Nat) (t : Turn) : List Input := List.replicate n (.turn t)

/-- How many polls `C_RAISE` makes on a clock line that rises at once: one with `STRETCH_WAIT`, none without
(40_line_primitives.md R135). -/
def raisePolls : Nat := if Config.stretchWait then 1 else 0

/-- One clock pulse for a sending target (`T_WBIT`): it puts the bit on the line while the clock is low, the clock goes up, a poll sees it,
the clock goes down, a poll sees it (42_target_ops.md R203). -/
def pulseForTarget : List Input :=
  [.turn .handler, .drive true true, .turn .handler, .drive false true, .turn .handler]

/-- So many pulses. -/
def pulsesForTarget (n : Nat) : List Input := (List.replicate n pulseForTarget).flatten

/-- A controller primitive other than `C_RAISE` (40_line_primitives.md R136 to R143). -/
def isPrimitive : Instr → Bool
  | .cPrestart | .cStart | .cRstart | .cStop | .cWbit _ | .cRbit | .cWbyte _ | .cRbyte => true
  | _ => false

/-- How many micro-operations a controller primitive performs when `C_RAISE` makes so many polls: its trace counted (R136 to
R143). -/
def microOps (polls : Nat) : Instr → Nat
  | .cPrestart => 4 + polls
  | .cStart => 4
  | .cRstart => 7 + polls
  | .cStop => 6 + polls
  | .cWbit _ => 5 + polls
  | .cRbit => 6 + polls
  | .cWbyte _ => 8 * (5 + polls) + (6 + polls)
  | .cRbyte => 8 * (6 + polls)
  | _ => 1

/-- How many `DELAY(LOW)` its trace has (R136 to R145). -/
def lowDelays : Instr → Nat
  | .cPrestart => 2
  | .cStart => 1
  | .cRstart => 2
  | .cStop => 2
  | .cWbit _ => 1
  | .cRbit => 1
  | .cWbyte _ => 9
  | .cRbyte => 8
  | _ => 0

/-- How many `DELAY(HIGH)` its trace has (R136 to R145). -/
def highDelays : Instr → Nat
  | .cStart => 1
  | .cRstart => 1
  | .cStop => 1
  | .cWbit _ => 1
  | .cRbit => 1
  | .cWbyte _ => 9
  | .cRbyte => 8
  | _ => 0

/-- Cells a peer supplies to a receiving controller (`C_RBIT`): the peers' data output takes the bit while the clock is low, then the
controller performs its six micro-operations (R141). -/
def cellsForController : List Level → List Input
  | [] => []
  | b :: rest => .drive true b :: turns (6 + raisePolls) .controller ++ cellsForController rest

/-- Cells a master supplies to a receiving target (`T_RBIT`): data while the clock is low, the clock up, two polls that see it
(the level, then the sample), the clock down, one poll (42_target_ops.md R202, R92). -/
def cellsForTarget : List Level → List Input
  | [] => []
  | b :: rest =>
    [.drive false b, .drive true b, .turn .handler, .turn .handler, .drive false b, .turn .handler] ++ cellsForTarget rest

/-! ## Quiescence and the invariants of 10_state.md -/

/-- The engine is quiescent (10_state.md R45). -/
def Quiescent (s : State) : Prop :=
  s.busy = false ∧ s.tfsm = .idle ∧ s.edgePend = false ∧ s.handlerPend = false

/-- The nine invariants of 10_state.md R39, in its order. -/
structure R39 (s : State) : Prop where
  addr10Zero : s.addr10 = false
  tvalidIff : s.tvalid = true ↔ s.mode = .target
  transactionIsTarget : s.tfsm ≠ .idle → s.mode = .target
  busyNotTarget : s.busy = true → s.mode ≠ .target ∧ s.cfgValid = true
  transferIsController : s.cop = .transfer → s.mode = .controller
  handlerPendAddress : s.handlerPend = true → s.tfsm = .receivingAddress
  edgePendArmed : s.edgePend = true → s.mode = .target ∧ s.tfsm = .idle
  restReleased : s.busy = false → s.tfsm = .idle → s.sclOut = true ∧ s.sdaOut = true
  clockLowBusy : s.sclOut = false → s.busy = true

/-! ## What the sequencers' positions promise -/

/-- Operations the controller sequencer performs. -/
def isControllerOp : Instr → Bool
  | .setScl _ | .setSda _ | .getScl | .getSda | .delay _ => true
  | .cRaise | .cPrestart | .cStart | .cRstart | .cStop | .cWbit _ | .cRbit | .cWbyte _ | .cRbyte => true
  | _ => false

/-- Operations the target handler performs; `SET_SCL` is not among them (42_target_ops.md R217 (f)). -/
def isTargetOp : Instr → Bool
  | .setSda _ | .getScl | .getSda => true
  | .tWaitH | .tWaitL | .tRbit | .tWbit _ | .tRbyte _ | .tWbyte _ | .tAck | .tRack | .tDetect => true
  | .onWriteRequested | .onWriteReceived _ | .onReadRequested | .onReadProcessed | .onStop => true
  | _ => false

/-- The outputs an operation leaves, given those it finds. -/
def outsAfter (i : Instr) (c d : Level) : Level × Level :=
  match i with
  | .setScl l => (l, d)
  | .setSda l => (c, l)
  | .cRaise => (true, d)
  | .cPrestart => (true, d)
  | .cStart => (false, false)
  | .cRstart => (false, false)
  | .cStop => (true, true)
  | .cWbit b => (false, b)
  | .cRbit => (false, true)
  | .cWbyte _ => (false, true)
  | .cRbyte => (false, true)
  | .tWbit b => (c, b)
  | .tWbyte x => (c, x.getLsbD 0)
  | .tAck => (c, true)
  | .tRack => (c, true)
  | _ => (c, d)

/-- From these outputs, what is left on `CPOS` comes to a decision, and the command ends with both lines released: at its
completion, or because the decision leads to a `C_STOP`. -/
def endsReleased : List CTask → Level → Level → Prop
  | [], _, _ => False
  | .op i :: rest, c, d => endsReleased rest (outsAfter i c d).1 (outsAfter i c d).2
  | .send _ _ :: rest, _, _ => endsReleased rest false true
  | .addrCheck _ :: _, _, _ => True
  | .dataCheck _ _ :: _, _, _ => True
  | .nextByte _ _ :: _, _, _ => True
  | .complete :: _, c, d => c = true ∧ d = true
  | .recCheck :: _, c, d => c = true ∧ d = true
  | .untilHigh :: rest, c, d => endsReleased rest c d
  | .takeBit :: rest, c, d => endsReleased rest c d
  | .takeAck :: rest, c, d => endsReleased rest c d
  | .shiftCsr :: rest, c, d => endsReleased rest c d
  | .entryTest :: rest, c, d => endsReleased rest c d ∧ endsReleased rest true d
  | .store _ _ :: rest, c, d => endsReleased rest c d

/-- From this data output, what is left on `TPOS` comes to a decision, and the data output is released at every decision that
may end the handler. -/
def endsReleasedT : List TTask → Level → Prop
  | [], _ => False
  | .op i :: rest, d => endsReleasedT rest (outsAfter i true d).2
  | .addrDecide :: _, d => d = true
  | .beginSend :: _, _ => True
  | .loadByte :: _, _ => True
  | .rackDecide :: _, d => d = true
  | .afterDetect _ :: _, d => d = true
  | .readData :: _, d => d = true
  | .deliver :: _, d => d = true
  | .statusDecide :: _, d => d = true
  | .finish _ :: _, d => d = true
  | .takeBit :: rest, d => endsReleasedT rest d
  | .shiftTsr :: rest, d => endsReleasedT rest d
  | .watchFirst :: rest, d => endsReleasedT rest d
  | .watchClk _ :: rest, d => endsReleasedT rest d
  | .watchDat _ :: rest, d => endsReleasedT rest d

/-- The phase `TFSM` names and the direction in `TDIR` allow the decision that `TPOS` comes to (42_target_ops.md R210, R212, R213,
R216). -/
def phaseFits : List TTask → Tfsm → Bool → Prop
  | [], _, _ => False
  | .op _ :: rest, p, rd => phaseFits rest p rd
  | .takeBit :: rest, p, rd => phaseFits rest p rd
  | .shiftTsr :: rest, p, rd => phaseFits rest p rd
  | .watchFirst :: rest, p, rd => phaseFits rest p rd
  | .watchClk _ :: rest, p, rd => phaseFits rest p rd
  | .watchDat _ :: rest, p, rd => phaseFits rest p rd
  | .addrDecide :: _, p, _ => p = .receivingAddress
  | .beginSend :: _, p, rd => p = .receivingAddress ∧ rd = true
  | .loadByte :: _, p, rd => p = .sendingData ∧ rd = true
  | .rackDecide :: _, p, rd => p = .sendingData ∧ rd = true
  | .afterDetect first :: _, p, rd => p = (if first then .receivingAddress else .receivingData) ∧ rd = false
  | .readData :: _, p, rd => p = .receivingData ∧ rd = false
  | .deliver :: _, p, rd => p = .receivingData ∧ rd = false
  | .statusDecide :: _, p, rd => p = .receivingData ∧ rd = false
  | .finish o :: _, p, rd => o = .stopDetected ∧ (p = .receivingAddress ∨ p = .receivingData) ∧ rd = false

/-- A task of the controller sequencer is one of its own operations, and a buffer byte it names exists. -/
def CTask.sound (segs : List Seg) : CTask → Prop
  | .op i => isControllerOp i = true
  | .send k i => ∃ g, segs[k]? = some g ∧ i < g.len.toNat
  | .store k i => ∃ g, segs[k]? = some g ∧ i < g.len.toNat
  | _ => True

/-- A task of the target handler is one of its own operations. -/
def TTask.sound : TTask → Prop
  | .op i => isTargetOp i = true
  | _ => True

/-- The front of `CPOS` is a micro-operation to perform, not a decision left over. -/
def frontRuns : List CTask → Prop
  | .op _ :: _ => True
  | .send _ _ :: _ => True
  | _ => False

/-- The front of `TPOS` is an operation to perform. -/
def frontRunsT : List TTask → Prop
  | .op _ :: _ => True
  | _ => False

/-! ## The invariant every step keeps -/

/-- Modes, flags, configuration and memory: R39 (b) to (g), the timing of the configured grade (10_state.md R23), the canonical form
of memory. -/
structure FlagsInv (s : State) : Prop where
  tvalidIff : s.tvalid = true ↔ s.mode = .target
  transactionIsTarget : s.tfsm ≠ .idle → s.mode = .target
  busyNotTarget : s.busy = true → s.mode ≠ .target ∧ s.cfgValid = true
  copBusy : s.cop ≠ .idle ↔ s.busy = true
  transferIsController : s.cop = .transfer → s.mode = .controller
  handlerPendAddress : s.handlerPend = true → s.tfsm = .receivingAddress
  edgePendArmed : s.edgePend = true → s.mode = .target ∧ s.tfsm = .idle
  timing : s.cfgValid = true → ∃ g, s.speed = Speed.ofGrade g ∧
    s.low = Config.nsToUnits (Config.lowNs g) ∧ s.high = Config.nsToUnits (Config.highNs g)
  unsetSpeed : s.cfgValid = false → s.speed = .unset
  memWf : s.mem.wf = true

/-- The controller sequencer: at `Done` with the lines released while no command runs (outside `Target` mode, where the handler has
the data line); else at a micro-operation of its own, on the way to releasing both lines. -/
structure ControllerInv (s : State) : Prop where
  restDone : s.busy = false → s.cpos = []
  restClock : s.busy = false → s.sclOut = true
  restData : s.busy = false → s.mode ≠ .target → s.sdaOut = true
  busyFront : s.busy = true → frontRuns s.cpos
  busySound : ∀ t ∈ s.cpos, t.sound s.xsegs
  busyReleases : s.busy = true → endsReleased s.cpos s.sclOut s.sdaOut

/-- The target handler: nothing left and the data line released while it does not run; else at an operation of its own, on the way to
releasing the data line, in the phase and the direction it is in. -/
structure TargetInv (s : State) : Prop where
  idleEmpty : s.tfsm = .idle → s.tpos = []
  pendEmpty : s.handlerPend = true → s.tpos = []
  idleData : s.mode = .target → s.tfsm = .idle → s.sdaOut = true
  pendData : s.handlerPend = true → s.sdaOut = true
  runFront : s.tfsm ≠ .idle → s.handlerPend = false → frontRunsT s.tpos
  runSound : ∀ t ∈ s.tpos, t.sound
  runReleases : s.tfsm ≠ .idle → s.handlerPend = false → endsReleasedT s.tpos s.sdaOut
  runPhase : s.tfsm ≠ .idle → s.handlerPend = false → phaseFits s.tpos s.tfsm s.tdir

/-- The bytes `(k,i)` stored in the decisions before the next micro-operation (41_controller_ops.md R164 step 6). -/
def storesReached : List CTask → List (Nat × Nat)
  | [] => []
  | .op _ :: _ => []
  | .send _ _ :: _ => []
  | .store k i :: rest => (k, i) :: storesReached rest
  | _ :: rest => storesReached rest

/-- The invariant. -/
structure Inv (s : State) : Prop where
  flags : FlagsInv s
  controller : ControllerInv s
  target : TargetInv s

/-- States a run from reset can come to under any schedule: between steps the environment may lay down any inputs and any
answers. -/
inductive Reachable : State → Prop where
  | reset : Reachable State.reset
  | lay (s : State) (is : List Input) (bs : List Byte) : Reachable s → Reachable { s with inputs := is, answers := bs }
  | step (s t : State) : Reachable s → Sys2Proof.Machine.step s = .next t → Reachable t

/-! ## What a transfer does, item by item -/

/-- One item of a transaction: a segment opens with a REPEATED-START and its address frame, or a byte of a segment goes over the
bus (41_controller_ops.md R164, the bodies of its two loops). -/
inductive Item where
  | reopen (k : Nat) (g : Seg)
  | byte (k i : Nat) (g : Seg)
  deriving DecidableEq, Repr

/-- The bytes of a segment from byte `i` on, in ascending order (R164 steps 5, 6). -/
def bytesFrom (k i : Nat) (g : Seg) : List Item := (List.range' i (g.len.toNat - i)).map fun j => .byte k j g

/-- The items of the segments from `k` on, in the order of R164's loop over the segments. -/
def itemsFrom (segs : List Seg) : List Seg → Nat → List Item
  | [], _ => []
  | g :: rest, k => (if restart segs k then [.reopen k g] else []) ++ bytesFrom k 0 g ++ itemsFrom segs rest (k + 1)

/-- What is left of a transaction at byte `i` of segment `k`. -/
def remaining (segs : List Seg) (k i : Nat) : List Item :=
  match segs[k]? with
  | none => []
  | some g => bytesFrom k i g ++ itemsFrom segs (segs.drop (k + 1)) (k + 1)

/-- What the sequencer does for an item. -/
def Item.tasks (addr : Addr) (segs : List Seg) : Item → List CTask
  | .reopen k g => reopenTasks addr k g
  | .byte k i g => byteTasks segs k i g

/-- Where the transfer stands after an item that succeeded. -/
def Item.after : Item → Nat × Nat
  | .reopen k _ => (k, 0)
  | .byte k i _ => (k, i + 1)

/-- How many turns an item takes when every frame is acknowledged and `C_RAISE` makes so many polls: a REPEATED-START and a frame, a
frame, or eight cells read and the acknowledge cell sent (40_line_primitives.md R138 to R143). -/
def Item.turns (polls : Nat) : Item → Nat
  | .reopen _ _ => (7 + polls) + (46 + 9 * polls)
  | .byte _ _ g => if g.dir = .write then 46 + 9 * polls else 8 * (6 + polls) + (5 + polls)

/-- How many turns a whole transfer takes that finds the data line low and has every frame acknowledged: the test, `C_PRESTART`,
`C_START`, the first address frame, the items, `C_STOP` (R164). -/
def transferTurns (polls : Nat) (segs : List Seg) : Nat :=
  1 + (4 + polls) + 4 + (46 + 9 * polls) + ((remaining segs 0 0).map (Item.turns polls)).sum + (6 + polls)

/-! ## Illegal words, format by format -/

/-- A command is illegal (30_encoding.md R105), said from the formats of R101 to R103 and not from the decoder's rows: an opcode
that is none, a 1 in a bit the format calls zero, or a 1 in bits [15:3] of a descriptor. -/
def badCommand (w : Word) (body : List Word) : Prop :=
  let opc := (w.extractLsb' 28 4).toNat
  opc = 0 ∨ 7 ≤ opc
    ∨ (opc = 1 ∧ w.extractLsb' 4 24 ≠ 0#24)
    ∨ (opc = 2 ∧ (w.extractLsb' 7 1 ≠ 0#1 ∨ w.extractLsb' 16 12 ≠ 0#12 ∨ ∃ d ∈ body, d.extractLsb' 3 13 ≠ 0#13))
    ∨ (opc = 3 ∧ w.extractLsb' 0 28 ≠ 0#28)
    ∨ (opc = 4 ∧ w.extractLsb' 7 21 ≠ 0#21)
    ∨ (opc = 5 ∧ w.extractLsb' 0 28 ≠ 0#28)
    ∨ (opc = 6 ∧ w.extractLsb' 0 28 ≠ 0#28)

/-! ## Frames: `t` with the named fields put back is `s` -/

/-- Only the output latches and what a line change sets may differ. -/
def FrameLines (s t : State) : Prop :=
  { t with
    sclOut := s.sclOut, sdaOut := s.sdaOut, edgePend := s.edgePend, busOpen := s.busOpen, lastCond := s.lastCond,
    unsanctioned := s.unsanctioned } = s

/-- What a run of the controller sequencer inside one primitive may change. -/
def FramePrimitive (s t : State) : Prop :=
  { t with
    sclOut := s.sclOut, sdaOut := s.sdaOut, edgePend := s.edgePend, busOpen := s.busOpen, lastCond := s.lastCond
    unsanctioned := s.unsanctioned, cpos := s.cpos, csr := s.csr, cack := s.cack, got := s.got, bitv := s.bitv
    elapsed := s.elapsed } = s

/-- As `FrameLines` but for the clock latch, and the target handler's position and the level last read may differ. -/
def FrameTarget (s t : State) : Prop :=
  { t with
    sdaOut := s.sdaOut, edgePend := s.edgePend, busOpen := s.busOpen, lastCond := s.lastCond,
    unsanctioned := s.unsanctioned, tpos := s.tpos, got := s.got } = s

/-- Only the peers' outputs, what a line change sets, and the scripted peer's plan may differ. -/
def FramePeer (s t : State) : Prop :=
  { t with
    peerScl := s.peerScl, peerSda := s.peerSda, edgePend := s.edgePend, busOpen := s.busOpen, lastCond := s.lastCond,
    unsanctioned := s.unsanctioned, ppos := s.ppos } = s

/-- What an accepted command may change (10_state.md R38): everything else, the output latches among it, is as before. -/
def FramePort (s t : State) : Prop :=
  { t with
    mode := s.mode, cfgValid := s.cfgValid, speed := s.speed, low := s.low, high := s.high, tvalid := s.tvalid
    taddr := s.taddr, tfsm := s.tfsm, edgePend := s.edgePend, handlerPend := s.handlerPend, terr := s.terr
    tlast := s.tlast, busy := s.busy, cop := s.cop, result := s.result, responses := s.responses, xaddr := s.xaddr
    xsegs := s.xsegs, cpos := s.cpos, mem := s.mem, port := s.port } = s

/-- What a step of the controller sequencer may change (R38). -/
def FrameControllerTurn (s t : State) : Prop :=
  { t with
    busy := s.busy, cop := s.cop, result := s.result, responses := s.responses, cpos := s.cpos, csr := s.csr
    cack := s.cack, cabort := s.cabort, got := s.got, bitv := s.bitv, sclOut := s.sclOut, sdaOut := s.sdaOut
    mem := s.mem, elapsed := s.elapsed, busOpen := s.busOpen, lastCond := s.lastCond } = s

/-- What a step of the edge context may change (R38). -/
def FrameEdgeTurn (s t : State) : Prop :=
  { t with edgePend := s.edgePend, tfsm := s.tfsm, handlerPend := s.handlerPend } = s

/-- What a step of the deferred context may change (R38): never the clock output, the mode or the command state. -/
def FrameHandlerTurn (s t : State) : Prop :=
  { t with
    handlerPend := s.handlerPend, tfsm := s.tfsm, tpos := s.tpos, tsr := s.tsr, tdir := s.tdir, tfirst := s.tfirst
    terr := s.terr, tlast := s.tlast, got := s.got, bitv := s.bitv, det := s.det, ans := s.ans, calls := s.calls
    answers := s.answers, tick := s.tick, sdaOut := s.sdaOut, busOpen := s.busOpen, lastCond := s.lastCond
    unsanctioned := s.unsanctioned } = s

/-- Every byte of the buffers reads as before. -/
def SameBytes (s t : State) : Prop := ∀ a : Nat, t.mem.read a = s.mem.read a

end Sys2Proof.Machine
end

