-- ==== Sys2Proof/Certificates/Slice0/Obligations.lean ====
section
/-! DEFINITION. The statements for the provers. -/

open Sys2Proof Sys2Proof.Machine

/-! ## Encoding (30_encoding.md) -/

/-- R101 to R105: the words of a well-formed command, whatever follows them, decode to it. -/
def Obligations.CommandRoundTrip : Prop :=
  ∀ (i : Instr) (rest : List Word), i.isCommand = true → i.wellFormed = true →
    decode (encode i ++ rest) = .ok (i, rest)

/-- The other way: what decodes is a well-formed command, and its words are the ones read; no bit of a command is dropped. -/
def Obligations.DecodedWordsEncodeBack : Prop :=
  ∀ (ws rest : List Word) (i : Instr), decode ws = .ok (i, rest) →
    encode i ++ rest = ws ∧ i.wellFormed = true ∧ i.isCommand = true

/-- R105: which commands are illegal, said from the formats, and what an illegal command does. That an illegal word of opcode 0x2 takes
the descriptor words it announces with it is the model's reading (log 15). -/
def Obligations.IllegalCommands : Prop :=
  (∀ (w : Word) (body : List Word), body.length = descCount w →
    (decode (w :: body) = .ok (.illegal (w :: body), []) ↔ badCommand w body)) ∧
  ∀ (ws : List Word) (s : State), s.busy = false →
    exec (.illegal ws) s = .next { s with result := .invalidCommand, responses := .invalidCommand :: s.responses }

/-- Words written out from the formats of R101 to R105, and the operations they stand for (95_test_vectors.md V40 to V55). -/
def Obligations.WordsOfTheFormats : Prop :=
  decode [0x10000001#32] = .ok (.configure 1#3 false, []) ∧
  decode [0x10000009#32] = .ok (.configure 1#3 true, []) ∧
  decode [0x20000242#32, 0x00010000#32, 0x00020007#32]
    = .ok (.transfer 0x42#7 [⟨.write, false, false, 1#16⟩, ⟨.read, true, true, 2#16⟩], []) ∧
  decode [0x30000000#32] = .ok (.recover, []) ∧
  decode [0x40000042#32] = .ok (.registerTarget 0x42#7, []) ∧
  decode [0x50000000#32] = .ok (.unregisterTarget, []) ∧
  decode [0x60000000#32] = .ok (.release, []) ∧
  decode [0x20000150#32, 0x00010008#32] = .ok (.illegal [0x20000150#32, 0x00010008#32], []) ∧
  decode [0x400000C2#32] = .ok (.illegal [0x400000C2#32], [])

/-! ## A step runs the decoded operation -/

/-- The command port's turn: while `BUSY = 0`, the words at its front that decode to a command are taken and the command is run; so is
a pseudo-operation there. That with several presented the first presented is the one taken is the model's choice (log 14). -/
def Obligations.PortStepRunsCommand : Prop :=
  (∀ (s : State) (ws : List Word) (rest : List PortItem) (i : Instr),
    decode ws = .ok (i, []) → s.busy = false → s.port = ws.map PortItem.word ++ rest →
    stepWith (.turn .port) s = exec i (s.setPort rest)) ∧
  ∀ (s : State) (rest : List PortItem) (i : Instr),
    i.isPseudo = true → s.busy = false → s.port = .call i :: rest →
    stepWith (.turn .port) s = exec i (s.setPort rest)

/-- The other contexts' turns: the operation at the front of the position is run, then the sequencer decides; a byte to be sent is read from
its buffer then (20_memory.md R67; the address is the model's, log 12); the edge and the deferred context start when their pending bits
say so. -/
def Obligations.AgentStepRunsOperation : Prop :=
  (∀ (s : State) (i : Instr) (rest : List CTask), s.cpos = .op i :: rest →
    stepWith (.turn .controller) s = settle .controller (exec i (s.setCpos rest))) ∧
  (∀ (s : State) (k j : Nat) (g : Seg) (rest : List CTask), s.cpos = .send k j :: rest → s.xsegs[k]? = some g →
    j < g.len.toNat → stepWith (.turn .controller) s
      = settle .controller (exec (.cWbyte (s.mem.read (bufKey k j))) (s.setCpos rest))) ∧
  (∀ s : State, s.edgePend = true → stepWith (.turn .edge) s = exec .tEdge s) ∧
  (∀ s : State, s.handlerPend = true → stepWith (.turn .handler) s = settle .handler (exec .tHandler s)) ∧
  (∀ (s : State) (i : Instr) (rest : List TTask), s.handlerPend = false → s.tpos = .op i :: rest →
    stepWith (.turn .handler) s = settle .handler (exec i (s.setTpos rest))) ∧
  (∀ (s : State) (i : Instr), i.isWire = true → stepWith (.wire i) s = exec i s) ∧
  (∀ (s : State) (i : Instr) (rest : List PTask), i.isWire = true → s.ppos = .op i :: rest →
    stepWith (.turn .peer) s = exec i (s.setPpos rest)) ∧
  (∀ s : State, stepWith (.call .statusRead) s = exec .statusRead s) ∧
  (∀ (s : State) (g : Seg), stepWith (.call (.segdesc g)) s = exec (.segdesc g) s) ∧
  (∀ s : State, s.busy = true → stepWith (.turn .port) s = .next s) ∧
  (∀ s : State, s.cpos = [] → stepWith (.turn .controller) s = .next s) ∧
  (∀ s : State, s.edgePend = false → stepWith (.turn .edge) s = .next s) ∧
  (∀ s : State, s.handlerPend = false → s.tpos = [] → stepWith (.turn .handler) s = .next s) ∧
  ∀ s : State, s.ppos = [] → stepWith (.turn .peer) s = .next s

/-- Every operation answers a next state, in every state: the block has no traps (60_exceptions.md R240); a step from a state with the
invariant goes on; no step is ever refused. -/
def Obligations.NothingStops : Prop :=
  (∀ (i : Instr) (s : State), ∃ t, exec i s = .next t) ∧
  (∀ s : State, Inv s → ∃ t, step s = .next t) ∧ ∀ (s : State) (r : Refusal), step s ≠ .refused r

/-! ## Host commands (41_controller_ops.md, 42_target_ops.md R190, R191) -/

/-- R160, R100, R111: in any state, also with `BUSY = 1`, the words the host presents and a pseudo-operation it asks for join the port,
behind what stands there (log 14), and nothing else changes; while `BUSY = 1` the port's turn takes nothing. A command or pseudo-operation
run by itself while `BUSY = 1` is held on the port likewise (no step does that, log 14). -/
def Obligations.BusyHoldsCommands : Prop :=
  (∀ (ws : List Word) (s : State), stepWith (.words ws) s = .next { s with port := s.port ++ ws.map PortItem.word }) ∧
  (∀ (i : Instr) (s : State), i.isPseudo = true → i.wellFormed = true →
    stepWith (.call i) s = .next { s with port := s.port ++ [.call i] }) ∧
  (∀ (i : Instr) (s : State), (i.isCommand = true ∨ i.isPseudo = true) → s.busy = true →
    exec i s = .next { s with port := s.port ++ portItems i }) ∧
  ∀ s : State, s.busy = true → stepWith (.turn .port) s = .next s

/-- R161: `CONFIGURE`, every speed code and both values of `A10`. -/
def Obligations.ConfigureResult : Prop :=
  ∀ (code : BitVec 3) (a10 : Bool) (s : State), s.busy = false →
    (a10 = false → code = 1#3 →
      exec (.configure code a10) s = .next { s with
        speed := .standard, low := Config.nsToUnits 4700, high := Config.nsToUnits 4000, cfgValid := true
        result := .ok, responses := .ok :: s.responses }) ∧
    (a10 = false → code = 2#3 →
      exec (.configure code a10) s = .next { s with
        speed := .fast, low := Config.nsToUnits 1300, high := Config.nsToUnits 600, cfgValid := true
        result := .ok, responses := .ok :: s.responses }) ∧
    (a10 = true ∨ (code ≠ 1#3 ∧ code ≠ 2#3) →
      exec (.configure code a10) s = .next { s with result := .configError, responses := .configError ::
        s.responses })

/-- R162: each delay of the fast grade is strictly smaller than the standard grade's, whatever `ns_to_units` is. -/
def Obligations.FastDelaysAreSmaller : Prop :=
  Config.nsToUnits (Config.lowNs .fast) < Config.nsToUnits (Config.lowNs .standard) ∧
  Config.nsToUnits (Config.highNs .fast) < Config.nsToUnits (Config.highNs .standard)

/-- R163, R171: the acceptance of `TRANSFER`: the checks in order, the empty transaction, and the latching of the operands; the
sequencer then stands before the first micro-operation of R164. -/
def Obligations.TransferAcceptance : Prop :=
  ∀ (addr : Addr) (segs : List Seg) (s : State), s.busy = false →
    (s.mode = .target →
      exec (.transfer addr segs) s = .next { s with result := .modeError, responses := .modeError :: s.responses }) ∧
    (s.mode ≠ .target → s.cfgValid = false →
      exec (.transfer addr segs) s
        = .next { s with result := .notConfigured, responses := .notConfigured :: s.responses }) ∧
    (s.mode ≠ .target → s.cfgValid = true → segs = [] →
      exec (.transfer addr segs) s
        = .next { s with mode := .controller, result := .ok, responses := .ok :: s.responses }) ∧
    ∀ (g : Seg) (rest : List Seg), s.mode ≠ .target → s.cfgValid = true → segs = g :: rest →
      exec (.transfer addr segs) s = .next { s with
        mode := .controller, busy := true, cop := .transfer, xaddr := addr, xsegs := segs
        cpos := [.op .getSda, .entryTest, .op .cStart,
          .op (.cWbyte (addr ++ BitVec.ofBool (g.dir == .read))), .addrCheck 0] }

/-- R174: the acceptance of `RECOVER` and the operations of its program. -/
def Obligations.RecoverAcceptance : Prop :=
  ∀ s : State, s.busy = false →
    (s.mode = .target →
      exec .recover s = .next { s with result := .modeError, responses := .modeError :: s.responses }) ∧
    (s.mode ≠ .target → s.cfgValid = false →
      exec .recover s = .next { s with result := .notConfigured, responses := .notConfigured :: s.responses }) ∧
    (s.mode ≠ .target → s.cfgValid = true →
      exec .recover s = .next { s with
        busy := true, cop := .recover
        cpos := [.op .cStart, .op (.cWbit true), .op (.cWbit true), .op (.cWbit true), .op (.cWbit true),
          .op (.cWbit true), .op (.cWbit true), .op (.cWbit true), .op (.cWbit true), .op (.cWbit true),
          .op .cRstart, .op .cStop, .op .getSda, .recCheck] })

/-- R190: `REGISTER_TARGET`. -/
def Obligations.RegisterTargetResult : Prop :=
  ∀ (addr : Addr) (s : State), s.busy = false →
    (s.mode = .unconfigured →
      exec (.registerTarget addr) s = .next { s with
        taddr := addr, tvalid := true, mode := .target, tfsm := .idle, edgePend := false, handlerPend := false
        terr := false, tlast := .notYet, result := .ok, responses := .ok :: s.responses }) ∧
    (s.mode ≠ .unconfigured →
      exec (.registerTarget addr) s = .next { s with result := .modeError, responses := .modeError :: s.responses })

/-- R191: `UNREGISTER_TARGET`. -/
def Obligations.UnregisterTargetResult : Prop :=
  ∀ s : State, s.busy = false →
    (s.mode = .target → s.tfsm = .idle →
      exec .unregisterTarget s = .next { s with
        tvalid := false, mode := .unconfigured, edgePend := false, result := .ok, responses := .ok :: s.responses }) ∧
    (s.mode = .target → s.tfsm ≠ .idle →
      exec .unregisterTarget s = .next { s with result := .engineBusy, responses := .engineBusy :: s.responses }) ∧
    (s.mode ≠ .target →
      exec .unregisterTarget s = .next { s with result := .modeError, responses := .modeError :: s.responses })

/-- R176: `RELEASE`. -/
def Obligations.ReleaseResult : Prop :=
  ∀ s : State, s.busy = false →
    (s.mode ≠ .target →
      exec .release s = .next { s with mode := .unconfigured, result := .ok, responses := .ok :: s.responses }) ∧
    (s.mode = .target →
      exec .release s = .next { s with result := .modeError, responses := .modeError :: s.responses })

/-- R111: each pseudo-operation is its `TRANSFER`; those that write have the host fill the buffer of segment 0 first: its bytes then
read back in order and no other byte of the buffers changes (the keys are the model's, log 12 and log 21). -/
def Obligations.PseudoOperations : Prop :=
  ∀ (addr : Addr) (bytes : List Byte) (n : BitVec 16) (s : State), s.busy = false →
    exec (.read addr n) s = exec (.transfer addr [⟨.read, false, true, n⟩]) s ∧
    exec (.probe addr) s = exec (.transfer addr [⟨.write, false, true, 0#16⟩]) s ∧
    ∃ u : State, { u with mem := s.mem } = s ∧
      exec (.write addr bytes) s = exec (.transfer addr [⟨.write, false, true, BitVec.ofNat 16 bytes.length⟩]) u ∧
      exec (.writeRead addr bytes n) s
        = exec (.transfer addr [⟨.write, false, false, BitVec.ofNat 16 bytes.length⟩, ⟨.read, true, true, n⟩]) u ∧
      (s.mem.wf = true → ∀ a : Nat,
        u.mem.read a = if h : a < bytes.length then bytes[a] else s.mem.read a)

/-- R102: the fields of a descriptor word, which describes the segment it was made from. That `SEGDESC` as an operation is this word joining
the words on the port, with nothing else changed, is the model's reading (log 16). -/
def Obligations.DescriptorWord : Prop :=
  ∀ (g : Seg) (s : State), ∃ w : Word,
    exec (.segdesc g) s = .next { s with port := s.port ++ [.word w] } ∧
    w.extractLsb' 16 16 = g.len ∧ w.extractLsb' 3 13 = 0#13 ∧
    w.getLsbD 0 = (g.dir == .read) ∧ w.getLsbD 1 = g.rb ∧ w.getLsbD 2 = g.sa

/-- R37: the read of `STATUS` gives the word to the host and changes nothing else; the fields of the word, with the numbers of R21, R22,
R25, R35 and R104. -/
def Obligations.StatusWord : Prop :=
  ∀ s : State,
    exec .statusRead s = .next { s with statusOut := s.status } ∧
    (s.status.extractLsb' 0 2).toNat
      = (match s.mode with | .unconfigured => 0 | .controller => 1 | .target => 2) ∧
    (s.status.extractLsb' 2 2).toNat
      = (match s.tfsm with | .idle => 0 | .receivingAddress => 1 | .receivingData => 2 | .sendingData => 3) ∧
    s.status.getLsbD 4 = s.busy ∧ s.status.getLsbD 5 = s.cfgValid ∧
    (s.status.extractLsb' 6 2).toNat
      = (if s.cfgValid then (match s.speed with | .unset => 0 | .standard => 1 | .fast => 2) else 0) ∧
    s.status.getLsbD 8 = s.tvalid ∧
    s.status.extractLsb' 9 7 = (if s.tvalid then s.taddr else 0#7) ∧
    s.status.getLsbD 16 = s.terr ∧
    (s.status.extractLsb' 17 3).toNat
      = (match s.tlast with
        | .notYet => 0 | .stopDetected => 1 | .callbackError => 2 | .masterNacked => 3 | .addressMismatch => 4) ∧
    (s.status.extractLsb' 20 4).toNat
      = (match s.result with
        | .ok => 0 | .configError => 1 | .addrNack => 2 | .dataNack => 3 | .busBusy => 4 | .modeError => 5
        | .invalidCommand => 6 | .notConfigured => 7 | .engineBusy => 8) ∧
    s.status.getLsbD 24 = (s.sclOut && s.peerScl) ∧ s.status.getLsbD 25 = (s.sdaOut && s.peerSda) ∧
    s.status.extractLsb' 26 6 = 0#6

/-! ## Micro-operations (40_line_primitives.md R130 to R134) -/

/-- R130, R131: the latch takes the level and the line follows in the same step; a level equal to the latch's changes nothing; the other
line stays, and besides the latch only what a transition of a line sets may differ. R134: a delay changes no element of the engine; the
model counts its lower bound (log 20). -/
def Obligations.SetLinesAndDelay : Prop :=
  ∀ (l : Level) (s : State),
    exec (.delay .low) s = .next { s with elapsed := s.elapsed + s.low } ∧
    exec (.delay .high) s = .next { s with elapsed := s.elapsed + s.high } ∧
    (∃ t, exec (.setScl l) s = .next t ∧ t.sclOut = l ∧ t.sdaOut = s.sdaOut ∧ t.scl = (l && s.peerScl) ∧
      t.sda = s.sda ∧ FrameLines s t ∧ SameBytes s t ∧ (l = s.sclOut → t = s)) ∧
    ∃ t, exec (.setSda l) s = .next t ∧ t.sdaOut = l ∧ t.sclOut = s.sclOut ∧ t.sda = (l && s.peerSda) ∧
      t.scl = s.scl ∧ FrameLines s t ∧ SameBytes s t ∧ (l = s.sdaOut → t = s)

/-- R132, R133: the level of the line, not of the latch, is returned (in the model's `got`), and nothing else changes. -/
def Obligations.GetLines : Prop :=
  ∀ s : State,
    exec .getScl s = .next { s with got := s.sclOut && s.peerScl } ∧
    exec .getSda s = .next { s with got := s.sdaOut && s.peerSda }

/-! ## Controller primitives (40_line_primitives.md R135 to R143) -/

/-- Every controller primitive performs its first micro-operation in the step that enters it and leaves the rest of its trace in front of
`CPOS`, in the order its rule lists; nothing else changes but what the line change sets. -/
def Obligations.ControllerPrimitivesBegin : Prop :=
  ∀ s : State,
    exec .cRaise s
      = .next ((s.driveScl true).setCpos ((if Config.stretchWait then [.op .getScl, .untilHigh] else []) ++ s.cpos)) ∧
    exec .cPrestart s
      = .next ((s.driveScl false).setCpos (.op (.delay .low) :: .op .cRaise :: .op (.delay .low) :: s.cpos)) ∧
    exec .cStart s
      = .next ((s.driveSda false).setCpos (.op (.delay .high) :: .op (.setScl false) :: .op (.delay .low) ::
        s.cpos)) ∧
    exec .cRstart s = .next ((s.driveSda true).setCpos (.op .cRaise :: .op (.delay .low) :: .op .cStart :: s.cpos)) ∧
    exec .cStop s
      = .next ((s.driveSda false).setCpos
          (.op (.delay .low) :: .op .cRaise :: .op (.delay .high) :: .op (.setSda true) :: .op (.delay .low) ::
            s.cpos)) ∧
    (∀ b : Level, exec (.cWbit b) s
      = .next ((s.driveSda b).setCpos
          (.op .cRaise :: .op (.delay .high) :: .op (.setScl false) :: .op (.delay .low) :: s.cpos))) ∧
    exec .cRbit s
      = .next ((s.driveSda true).setCpos
          (.op .cRaise :: .op (.delay .high) :: .op .getSda :: .takeBit :: .op (.setScl false) ::
            .op (.delay .low) :: s.cpos)) ∧
    (∀ x : Byte, exec (.cWbyte x) s
      = exec (.cWbit (x.getLsbD 7)) (s.setCpos
          (.op (.cWbit (x.getLsbD 6)) :: .op (.cWbit (x.getLsbD 5)) :: .op (.cWbit (x.getLsbD 4)) ::
            .op (.cWbit (x.getLsbD 3)) :: .op (.cWbit (x.getLsbD 2)) :: .op (.cWbit (x.getLsbD 1)) ::
            .op (.cWbit (x.getLsbD 0)) :: .op .cRbit :: .takeAck :: s.cpos))) ∧
    exec .cRbyte s
      = exec .cRbit (State.setCpos { s with csr := 0#8 }
          (.shiftCsr :: .op .cRbit :: .shiftCsr :: .op .cRbit :: .shiftCsr :: .op .cRbit :: .shiftCsr ::
            .op .cRbit :: .shiftCsr :: .op .cRbit :: .shiftCsr :: .op .cRbit :: .shiftCsr :: .op .cRbit ::
            .shiftCsr :: s.cpos))

/-- R136 to R143, R145: a controller primitive runs to its end in exactly the steps of its trace, with the clock line rising when it is
released: its last output levels, the waiting it did, and nothing else changed. In the last step the sequencer goes on deciding (log 7) with
whatever stood behind the primitive on `CPOS`, from that state. A read bit and a sampled acknowledge are the data line's level, here the
peers'. -/
def Obligations.ControllerPrimitivesRunToTheirEnd : Prop :=
  ∀ (i : Instr) (s : State) (rest : List CTask),
    isPrimitive i = true → s.cpos = .op i :: rest → s.peerScl = true →
    ∃ u, runInputs (turns (microOps raisePolls i) .controller) s = settleC rest u ∧
      u.cpos = rest ∧ (u.sclOut, u.sdaOut) = outsAfter i s.sclOut s.sdaOut ∧
      u.elapsed = s.elapsed + lowDelays i * s.low + highDelays i * s.high ∧
      (i = .cRbit → u.bitv = s.peerSda) ∧ (∀ x, i = .cWbyte x → u.cack = s.peerSda) ∧ FramePrimitive s u

/-- R142, R93: `C_WBYTE` puts the bits on the data line most significant first: in the high phase of cell `k` the line carries bit
`7 - k`. -/
def Obligations.ControllerSendsMostSignificantFirst : Prop :=
  ∀ (x : Byte) (rest : List CTask) (s : State),
    s.cpos = .op (.cWbyte x) :: rest → s.peerScl = true → s.peerSda = true →
    ∀ k : Nat, k < 8 →
      ∃ t, runInputs (turns (k * (5 + raisePolls) + 2) .controller) s = .next t ∧
        t.scl = true ∧ t.sda = x.getLsbD (7 - k)

/-- R143, R144: `C_RBYTE` shifts eight cells into `CSR`, the first cell into bit 7, whatever the peers send; the sequencer then goes on with
whatever stood behind it. -/
def Obligations.ControllerReceivesMostSignificantFirst : Prop :=
  ∀ (cells : List Level) (rest : List CTask) (s : State),
    cells.length = 8 → s.cpos = .op .cRbyte :: rest →
    ∃ u, runInputs (cellsForController cells) s = settleC rest u ∧
      (∀ k : Nat, k < 8 → cells[k]? = some (u.csr.getLsbD (7 - k))) ∧ u.xaddr = s.xaddr ∧ u.xsegs = s.xsegs ∧ u.mem = s.mem

/-! ## Transfers and recovery (41_controller_ops.md R164 to R175) -/

/-- R165: which segments open with a REPEATED-START. -/
def Obligations.RestartRule : Prop :=
  ∀ (segs : List Seg) (k : Nat),
    restart segs k = true ↔
      ∃ p g : Seg, 0 < k ∧ segs[k - 1]? = some p ∧ segs[k]? = some g ∧
        (g.rb = true ∨ g.dir ≠ p.dir ∨ p.sa = true)

/-- R168: the controller answers NACK exactly after the last byte the transaction reads. -/
def Obligations.NackRule : Prop :=
  ∀ (segs : List Seg) (k i : Nat),
    nack segs k i = true ↔
      ∃ g : Seg, segs[k]? = some g ∧ g.dir = .read ∧ 0 < g.len.toNat ∧ i = g.len.toNat - 1 ∧
        ∀ (j : Nat) (h : Seg), k < j → segs[j]? = some h → ¬ (h.dir = .read ∧ 0 < h.len.toNat)

/-- R164: what the sequencer goes on to is the first of what R164's loops still have, and what is left after that item is the others in
order: every byte once, in ascending order, and a REPEATED-START with its address frame exactly where R165 asks for one. An item is, written
out: the REPEATED-START and the frame of the address and the segment's direction (R166); a byte sent, its acknowledge checked (R167); a byte
received, stored, and answered with `nack` (R168). -/
def Obligations.TransferOrder : Prop :=
  ∀ (addr : Addr) (segs : List Seg) (k i : Nat),
    tasksAt addr segs k i = (remaining segs k i).head?.map (Item.tasks addr segs) ∧
    (∀ it : Item, (remaining segs k i).head? = some it →
      remaining segs it.after.1 it.after.2 = (remaining segs k i).tail) ∧
    ∀ g : Seg,
      Item.tasks addr segs (.reopen k g)
        = [.op .cRstart, .op (.cWbyte (addr ++ BitVec.ofBool (g.dir == .read))), .addrCheck k] ∧
      (g.dir = .write → Item.tasks addr segs (.byte k i g) = [.send k i, .dataCheck k i]) ∧
      (g.dir = .read → Item.tasks addr segs (.byte k i g)
        = [.op .cRbyte, .store k i, .op (.cWbit (nack segs k i)), .nextByte k (i + 1)])

/-- R166, R167, R169: an acknowledge read 1 after an address frame or a written byte aborts: the code is chosen and what is left is one
STOP and the completion. An acknowledge read 0 goes on with the bytes of the segment, or with the next byte. After a received byte the
transfer goes on whatever the lines say (R168). -/
def Obligations.AcknowledgeDecides : Prop :=
  ∀ (k i : Nat) (rest : List CTask) (s : State),
    (s.cack = true →
      settleC (.addrCheck k :: rest) s = .next { s with cabort := .addrNack, cpos := [.op .cStop, .complete] } ∧
      settleC (.dataCheck k i :: rest) s = .next { s with cabort := .dataNack, cpos := [.op .cStop, .complete] }) ∧
    (s.cack = false →
      (∀ ts, tasksAt s.xaddr s.xsegs k 0 = some ts →
        settleC (.addrCheck k :: rest) s = .next { s with cpos := ts }) ∧
      (∀ ts, tasksAt s.xaddr s.xsegs k (i + 1) = some ts →
        settleC (.dataCheck k i :: rest) s = .next { s with cpos := ts }) ∧
      (tasksAt s.xaddr s.xsegs k 0 = none →
        settleC (.addrCheck k :: rest) s = .next { s with cabort := .ok, cpos := [.op .cStop, .complete] }) ∧
      (tasksAt s.xaddr s.xsegs k (i + 1) = none →
        settleC (.dataCheck k i :: rest) s = .next { s with cabort := .ok, cpos := [.op .cStop, .complete] })) ∧
    (∀ ts, tasksAt s.xaddr s.xsegs k i = some ts → settleC (.nextByte k i :: rest) s = .next { s with cpos := ts }) ∧
    (tasksAt s.xaddr s.xsegs k i = none →
      settleC (.nextByte k i :: rest) s = .next { s with cabort := .ok, cpos := [.op .cStop, .complete] })

/-- R164 step 6, 20_memory.md R66: a received byte is stored at its index in its own buffer, and every other byte of every buffer stays
(the addresses are the model's, log 12). -/
def Obligations.ReceivedByteIsStored : Prop :=
  ∀ (k i : Nat) (s : State) (g : Seg),
    s.xsegs[k]? = some g → i < g.len.toNat → s.mem.wf = true →
    ∃ u, (∀ rest : List CTask, settleC (.store k i :: rest) s = settleC rest u) ∧
      u.mem.read (bufKey k i) = s.csr ∧ (∀ a : Nat, a ≠ bufKey k i → u.mem.read a = s.mem.read a) ∧
      { u with mem := s.mem } = s

/-- R164 steps 7 and 8, R174: at the end the result is delivered and the engine is free again. That the elements R29 and R31 leave
unspecified while `BUSY = 0` (the X elements, `CSR`, `CACK`, `CABORT`) keep their values is the model's choice (log 3). -/
def Obligations.CommandCompletion : Prop :=
  ∀ (rest : List CTask) (s : State),
    settleC (.complete :: rest) s = .next { s with
      result := s.cabort, responses := s.cabort :: s.responses, busy := false, cop := .idle, cpos := [] } ∧
    (s.got = true → settleC (.recCheck :: rest) s = .next { s with
      result := .ok, responses := .ok :: s.responses, busy := false, cop := .idle, cpos := [] }) ∧
    (s.got = false → settleC (.recCheck :: rest) s = .next { s with
      result := .busBusy, responses := .busBusy :: s.responses, busy := false, cop := .idle, cpos := [] })

/-- R174, R175: the whole of `RECOVER` with peers that hold their levels and let the clock rise: 63 micro-operations and the polls of
eleven `C_RAISE`s, 12 high and 14 low delays, `Ok` when the data line reads high afterwards and `BusBusy` when it reads low, both outputs
released, `MODE` as it was. The completion is made inside the last turn (log 7). -/
def Obligations.RecoverRun : Prop :=
  ∀ s : State, s.busy = false → s.mode ≠ .target → s.cfgValid = true → s.peerScl = true →
    ∃ t, afterwards (exec .recover s) (turns (63 + 11 * raisePolls) .controller) = .next t ∧
      t.busy = false ∧ t.cop = .idle ∧ t.cpos = [] ∧ t.mode = s.mode ∧ t.sclOut = true ∧ t.sdaOut = true ∧
      t.result = (if s.peerSda then .ok else .busBusy) ∧ t.responses = t.result :: s.responses ∧
      t.elapsed = s.elapsed + 14 * s.low + 12 * s.high ∧ SameBytes s t

/-- R166, R169: with no device on the bus every transfer with a segment ends `AddrNack`, after the first address frame and a STOP, with
both outputs released and no byte of a buffer changed. The turns are counted by log 7. -/
def Obligations.TransferWithNoDevice : Prop :=
  ∀ (addr : Addr) (g : Seg) (rest : List Seg) (s : State),
    s.busy = false → s.mode ≠ .target → s.cfgValid = true → s.sclOut = true → s.sdaOut = true →
    s.peerScl = true → s.peerSda = true →
    ∃ t, afterwards (exec (.transfer addr (g :: rest)) s) (turns (57 + 10 * raisePolls) .controller) = .next t ∧
      t.busy = false ∧ t.cop = .idle ∧ t.cpos = [] ∧ t.mode = .controller ∧ t.sclOut = true ∧ t.sdaOut = true ∧
      t.result = .addrNack ∧ t.responses = .addrNack :: s.responses ∧ t.lastCond = some .stop ∧ t.busOpen = false ∧
      t.elapsed = s.elapsed + 12 * s.low + 11 * s.high ∧ SameBytes s t

/-- R164, and the hazard of 70_reset_and_hazards.md R301: on a data line that a peer holds low every frame counts as acknowledged, so any
transaction runs through all its items and ends `Ok`, in exactly the turns of R164's program (counted by log 7); each byte of a `Read`
buffer becomes 0x00 and no other byte changes (the addresses are the model's, log 12). -/
def Obligations.TransferOnLowDataLine : Prop :=
  ∀ (addr : Addr) (g : Seg) (rest : List Seg) (s : State),
    s.busy = false → s.mode ≠ .target → s.cfgValid = true → s.sclOut = true → s.sdaOut = true →
    s.peerScl = true → s.peerSda = false → s.mem.wf = true →
    ∃ t, afterwards (exec (.transfer addr (g :: rest)) s)
        (turns (transferTurns raisePolls (g :: rest)) .controller) = .next t ∧
      t.busy = false ∧ t.cop = .idle ∧ t.cpos = [] ∧ t.mode = .controller ∧ t.sclOut = true ∧ t.sdaOut = true ∧
      t.result = .ok ∧ t.responses = .ok :: s.responses ∧
      (∀ (k i : Nat) (h : Seg), (g :: rest)[k]? = some h → h.dir = .read → i < h.len.toNat →
        t.mem.read (bufKey k i) = 0#8) ∧
      ∀ a : Nat,
        (¬ ∃ (k i : Nat) (h : Seg), (g :: rest)[k]? = some h ∧ h.dir = .read ∧ i < h.len.toNat ∧ a = bufKey k i) →
        t.mem.read a = s.mem.read a

/-! ## Buffers (20_memory.md R66, R67) -/

/-- A byte written is the byte read there, and every other byte reads as before. The canonical form is canonical: memories that read the
same everywhere are equal (the form is the model's, log 12). -/
def Obligations.BufferMemory : Prop :=
  (∀ (m : Memory) (a b : Nat) (x : Byte), m.wf = true →
    (m.write a x).read b = if b = a then x else m.read b) ∧
  ∀ m n : Memory, m.wf = true → n.wf = true → (∀ a : Nat, m.read a = n.read a) → m = n

/-- R66, 93_implementation_defined.md U5: the host may write a buffer byte at any step, also while `BUSY = 1`: that byte is the one given,
every other byte stays, nothing else changes. Bytes of different segments or indexes are different bytes (the addresses are the model's,
log 12). -/
def Obligations.HostWritesABufferByte : Prop :=
  (∀ (k : BitVec 8) (i : BitVec 16) (b : Byte) (s : State), s.mem.wf = true →
    ∃ t, stepWith (.bufWrite k i b) s = .next t ∧ t.mem.read (bufKey k.toNat i.toNat) = b ∧
      (∀ a : Nat, a ≠ bufKey k.toNat i.toNat → t.mem.read a = s.mem.read a) ∧ { t with mem := s.mem } = s) ∧
  ∀ k i l j : Nat, i < 65536 → j < 65536 → bufKey k i = bufKey l j → k = l ∧ i = j

/-! ## Target primitives (42_target_ops.md R200 to R208) -/

/-- Every target primitive performs its first micro-operation in the step that enters it: a poll that fails leaves the wait at the front of
`TPOS`, a poll that succeeds leaves the rest of the trace there. -/
def Obligations.TargetPrimitivesBegin : Prop :=
  ∀ s : State,
    exec .tWaitH s = .next (if s.scl then { s with got := true } else { s with got := false, tpos := .op .tWaitH ::
      s.tpos }) ∧
    exec .tWaitL s = .next (if s.scl then { s with got := true, tpos := .op .tWaitL ::
      s.tpos } else { s with got := false }) ∧
    exec .tRbit s = exec .tWaitH (s.setTpos (.op .getSda :: .takeBit :: .op .tWaitL :: s.tpos)) ∧
    (∀ b : Level, exec (.tWbit b) s = .next ((s.driveSda b).setTpos (.op .tWaitH :: .op .tWaitL :: s.tpos))) ∧
    exec (.tRbyte none) s
      = exec .tRbit (State.setTpos { s with tsr := 0#8 }
          (.shiftTsr :: .op .tRbit :: .shiftTsr :: .op .tRbit :: .shiftTsr :: .op .tRbit :: .shiftTsr ::
            .op .tRbit :: .shiftTsr :: .op .tRbit :: .shiftTsr :: .op .tRbit :: .shiftTsr :: .op .tRbit ::
            .shiftTsr :: s.tpos)) ∧
    (∀ b : Level, exec (.tRbyte (some b)) s
      = exec .tRbit (State.setTpos { s with tsr := (BitVec.ofBool b).setWidth 8 }
          (.shiftTsr :: .op .tRbit :: .shiftTsr :: .op .tRbit :: .shiftTsr :: .op .tRbit :: .shiftTsr ::
            .op .tRbit :: .shiftTsr :: .op .tRbit :: .shiftTsr :: .op .tRbit :: .shiftTsr :: s.tpos))) ∧
    (∀ x : Byte, ∃ t, exec (.tWbyte x) s = .next t ∧ t.sdaOut = x.getLsbD 7 ∧ FrameTarget s t ∧
      t.tpos = .op .tWaitH :: .op .tWaitL :: .op (.tWbit (x.getLsbD 6)) :: .op (.tWbit (x.getLsbD 5)) ::
        .op (.tWbit (x.getLsbD 4)) :: .op (.tWbit (x.getLsbD 3)) :: .op (.tWbit (x.getLsbD 2)) ::
        .op (.tWbit (x.getLsbD 1)) :: .op (.tWbit (x.getLsbD 0)) :: s.tpos) ∧
    exec .tAck s = .next ((s.driveSda false).setTpos (.op .tWaitH :: .op .tWaitL :: .op (.setSda true) :: s.tpos)) ∧
    exec .tRack s = .next ((s.driveSda true).setTpos (.op .tRbit :: s.tpos)) ∧
    exec .tDetect s
      = .next (if s.scl then { s with got := true, tpos := .op .getSda :: .watchFirst :: s.tpos }
          else { s with got := false, tpos := .op .tDetect :: s.tpos })

/-- R200, R201, R208, R135, 70_reset_and_hazards.md R295: a wait has no timeout. While the clock keeps its level, any number of polls leaves the
handler where it stands, and changes nothing but the level last read; so does the wait of `C_RAISE`, which only `STRETCH_WAIT` begins
(`ControllerPrimitivesBegin`), and it is over when the clock is high. The watch of `T_DETECT` goes round for as long as clock and data keep
their levels. -/
def Obligations.WaitsNeverTimeOut : Prop :=
  (∀ (n : Nat) (s : State) (rest : List TTask), s.handlerPend = false →
    (s.scl = false → (s.tpos = .op .tWaitH :: rest ∨ s.tpos = .op .tDetect :: rest) →
      runInputs (turns (n + 1) .handler) s = .next { s with got := false }) ∧
    (s.scl = true → s.tpos = .op .tWaitL :: rest →
      runInputs (turns (n + 1) .handler) s = .next { s with got := true }) ∧
    (s.scl = true → s.tpos = .op .getScl :: .watchClk s.sda :: rest →
      runInputs (turns (2 * n + 1) .handler) s
        = .next { s with got := true, tpos := .op .getSda :: .watchDat s.sda :: rest } ∧
      runInputs (turns (2 * n + 2) .handler) s = .next { s with got := s.sda })) ∧
  ∀ (n : Nat) (s : State) (rest : List CTask), s.cpos = .op .getScl :: .untilHigh :: rest →
    (s.scl = false → runInputs (turns (n + 1) .controller) s = .next { s with got := false }) ∧
    (s.scl = true → stepWith (.turn .controller) s = settleC rest { s with got := true })

/-- R204, R202: `T_RBYTE` takes eight cells from a master, or seven after a first bit, the first cell into bit 7; the handler then goes on
deciding with whatever stood behind it. -/
def Obligations.TargetReceivesMostSignificantFirst : Prop :=
  ∀ (cells : List Level) (rest : List TTask) (s : State),
    s.handlerPend = false → s.sclOut = true → s.sdaOut = true →
    (cells.length = 8 → s.tpos = .op (.tRbyte none) :: rest →
      ∃ u, runInputs (cellsForTarget cells) s = .next (settleT rest u) ∧
        (∀ k : Nat, k < 8 → cells[k]? = some (u.tsr.getLsbD (7 - k))) ∧
        u.taddr = s.taddr ∧ u.tfsm = s.tfsm ∧ u.sdaOut = true ∧ u.sclOut = true) ∧
    ∀ b : Level, cells.length = 7 → s.tpos = .op (.tRbyte (some b)) :: rest →
      ∃ u, runInputs (cellsForTarget cells) s = .next (settleT rest u) ∧
        u.tsr.getLsbD 7 = b ∧ (∀ k : Nat, k < 7 → cells[k]? = some (u.tsr.getLsbD (6 - k))) ∧
        u.taddr = s.taddr ∧ u.tfsm = s.tfsm ∧ u.sdaOut = true ∧ u.sclOut = true

/-- R205, R203: `T_WBYTE` sends a byte most significant bit first: in the high phase of pulse `k` the data line carries bit `7 - k`; it
never touches the clock output. -/
def Obligations.TargetSendsMostSignificantFirst : Prop :=
  ∀ (x : Byte) (rest : List TTask) (s : State),
    s.handlerPend = false → s.sclOut = true → s.peerScl = false → s.peerSda = true →
    s.tpos = .op (.tWbyte x) :: rest →
    ∀ k : Nat, k < 8 →
      ∃ t, runInputs (pulsesForTarget k ++ [.turn .handler, .drive true true]) s = .next t ∧
        t.scl = true ∧ t.sda = x.getLsbD (7 - k) ∧ t.sclOut = true

/-- R206: `T_ACK` holds the data line low through one clock pulse and then releases it; the handler then goes on deciding with whatever stood
behind it. -/
def Obligations.TargetAcknowledgePulse : Prop :=
  ∀ (rest : List TTask) (s : State),
    s.handlerPend = false → s.sclOut = true → s.peerScl = false → s.tpos = .op .tAck :: rest →
    (∃ t, runInputs [.turn .handler, .drive true true] s = .next t ∧ t.scl = true ∧ t.sda = false) ∧
    ∃ u, runInputs [.turn .handler, .drive true true, .turn .handler, .drive false true, .turn .handler, .turn .handler] s
        = .next (settleT rest u) ∧ u.sdaOut = true ∧ u.tpos = rest ∧ u.mode = s.mode ∧ u.tfsm = s.tfsm ∧ u.tsr = s.tsr

/-- R208: `T_DETECT`, for both levels first seen: the clock falls and the level is the first bit of the next byte; or the data line
changes while the clock is high, and the polarity says which condition it is. The handler then goes on deciding with whatever stood behind
it. -/
def Obligations.DetectOutcomes : Prop :=
  ∀ (d : Level) (rest : List TTask) (s : State),
    s.handlerPend = false → s.sclOut = true → s.sdaOut = true → s.peerScl = true → s.peerSda = d →
    s.tpos = .op .tDetect :: rest →
    (∃ u, runInputs [.turn .handler, .turn .handler, .drive false d, .turn .handler] s = .next (settleT rest u) ∧
      u.det = .bit ∧ u.tfirst = some d ∧ u.tfsm = s.tfsm ∧ u.sdaOut = true) ∧
    ∃ u, runInputs [.turn .handler, .turn .handler, .turn .handler, .drive true (!d), .turn .handler] s
        = .next (settleT rest u) ∧
      u.det = (if d then .restart else .stop) ∧ u.tfirst = none ∧ u.tfsm = s.tfsm ∧ u.sdaOut = true

/-! ## The edge event and the handler (42_target_ops.md R192 to R217, 60_exceptions.md R250 to R255) -/

/-- R250, R192: while the detector is armed, a step in which the data line changes level latches the edge; and a latch appears in no other
step. -/
def Obligations.EdgeLatch : Prop :=
  ∀ s t : State, Inv s → step s = .next t →
    (s.armed = true → s.sda ≠ t.sda → t.edgePend = true) ∧
    (t.edgePend = true → s.edgePend = true ∨ (s.armed = true ∧ s.sda ≠ t.sda))

/-- R195, R253: `T_EDGE`: the latch is cleared; a clock that reads high with data low leaves `Idle` and schedules the handler; nothing else
changes, nothing is saved. R210, R211: `T_HANDLER` starts: not pending any more, in the address phase, its first poll of the wait for the
clock low made; the address byte follows. -/
def Obligations.EventEntry : Prop :=
  ∀ s : State,
    (s.scl = true → s.sda = false →
      exec .tEdge s = .next { s with edgePend := false, tfsm := .receivingAddress, handlerPend := true }) ∧
    (s.scl = false ∨ s.sda = true → exec .tEdge s = .next { s with edgePend := false }) ∧
    (s.scl = false → exec .tHandler s = .next { s with
      handlerPend := false, tfsm := .receivingAddress, got := false, tpos := [.op (.tRbyte none), .addrDecide] }) ∧
    (s.scl = true → exec .tHandler s = .next { s with
      handlerPend := false, tfsm := .receivingAddress, got := true
      tpos := [.op .tWaitL, .op (.tRbyte none), .addrDecide] })

/-- R210 items 2 and 3, R212, R213: the address byte decides: a mismatch ends the handler with nothing driven and no callback; a match is
acknowledged, and the low bit chooses the direction. That after the mismatch `TPOS` is empty and `TSR`, `TDIR` and `TFIRST` keep their values is
the model's choice (log 3): R32 leaves them unspecified while `TFSM = Idle`. -/
def Obligations.AddressPhaseEnd : Prop :=
  ∀ (rest : List TTask) (s : State),
    (s.tsr.extractLsb' 1 7 ≠ s.taddr →
      settleT (.addrDecide :: rest) s = { s with
        tdir := s.tsr.getLsbD 0, tlast := .addressMismatch, tfsm := .idle, tpos := [] }) ∧
    (s.tsr.extractLsb' 1 7 = s.taddr → s.tsr.getLsbD 0 = false →
      settleT (.addrDecide :: rest) s = { s with
        tdir := false, tpos := [.op .tAck, .op .tDetect, .afterDetect true] }) ∧
    (s.tsr.extractLsb' 1 7 = s.taddr → s.tsr.getLsbD 0 = true →
      settleT (.addrDecide :: rest) s = { s with tdir := true, tpos := [.op .tAck, .beginSend] })

/-- R210 items 3 to 5, R214, R215: the branches of the handler. The write direction: those on `T_DETECT`, the callbacks in their order, a
refused byte left without `T_ACK` and `TERR` set. The read direction: one `on_read_requested`, then each byte sent and its acknowledge read; a
NACK ends the handler, an ACK asks for the next byte with `on_read_processed`. That at each end `TPOS` is empty and the other T elements keep
their values is the model's choice (log 3): R32 leaves them unspecified while `TFSM = Idle`. -/
def Obligations.HandlerBranches : Prop :=
  ∀ (rest : List TTask) (first : Bool) (s : State),
    (s.det = .stop →
      settleT (.afterDetect first :: rest) s = { s with tpos := [.op .onStop, .finish .stopDetected] }) ∧
    settleT (.finish .stopDetected :: rest) s = { s with tlast := .stopDetected, tfsm := .idle, tpos := [] } ∧
    (s.det = .restart →
      settleT (.afterDetect first :: rest) s = { s with
        tfsm := .receivingAddress, tpos := [.op .tWaitL, .op (.tRbyte none), .addrDecide] }) ∧
    (s.det = .bit →
      settleT (.afterDetect true :: rest) s = { s with
        tfsm := .receivingData, tpos := [.op .onWriteRequested, .readData] } ∧
      settleT (.afterDetect false :: rest) s = { s with tpos := [.op (.tRbyte s.tfirst), .deliver] }) ∧
    settleT (.readData :: rest) s = { s with tpos := [.op (.tRbyte s.tfirst), .deliver] } ∧
    settleT (.deliver :: rest) s = { s with tpos := [.op (.onWriteReceived s.tsr), .statusDecide] } ∧
    (s.ans = 0#8 →
      settleT (.statusDecide :: rest) s = { s with tpos := [.op .tAck, .op .tDetect, .afterDetect false] }) ∧
    (s.ans ≠ 0#8 →
      settleT (.statusDecide ::
        rest) s = { s with tlast := .callbackError, terr := true, tfsm := .idle, tpos := [] }) ∧
    settleT (.beginSend :: rest) s = { s with tfsm := .sendingData, tpos := [.op .onReadRequested, .loadByte] } ∧
    settleT (.loadByte :: rest) s = { s with tsr := s.ans, tpos := [.op (.tWbyte s.ans), .op .tRack, .rackDecide] } ∧
    (s.bitv = true →
      settleT (.rackDecide :: rest) s = { s with tlast := .masterNacked, tfsm := .idle, tpos := [] }) ∧
    (s.bitv = false →
      settleT (.rackDecide :: rest) s = { s with tpos := [.op .onReadProcessed, .loadByte] })

/-- R109, R197: a callback is one exchange on the application port; the answer is the application's next one, else a free input (log 17);
nothing else changes. -/
def Obligations.CallbackExchange : Prop :=
  ∀ (x a : Byte) (as : List Byte) (s : State),
    exec .onWriteRequested s = .next { s with calls := .writeRequested :: s.calls } ∧
    exec .onStop s = .next { s with calls := .stop :: s.calls } ∧
    (s.answers = a :: as →
      exec (.onWriteReceived x) s = .next { s with
        ans := a, answers := as, calls := .writeReceived x a :: s.calls } ∧
      exec .onReadRequested s = .next { s with ans := a, answers := as, calls := .readRequested a :: s.calls } ∧
      exec .onReadProcessed s = .next { s with ans := a, answers := as, calls := .readProcessed a :: s.calls }) ∧
    (s.answers = [] →
      exec (.onWriteReceived x) s = .next { s with
        ans := Config.freeAnswer s.tick, tick := s.tick + 1
        calls := .writeReceived x (Config.freeAnswer s.tick) :: s.calls } ∧
      exec .onReadRequested s = .next { s with
        ans := Config.freeAnswer s.tick, tick := s.tick + 1, calls := .readRequested (Config.freeAnswer s.tick) ::
          s.calls } ∧
      exec .onReadProcessed s = .next { s with
        ans := Config.freeAnswer s.tick, tick := s.tick + 1, calls := .readProcessed (Config.freeAnswer s.tick) ::
          s.calls })

/-- R216: the transitions of `TFSM` from states with the invariant, reset apart: each one, with what must have happened, and no other. A START
seen by `T_EDGE`; an address that does not match; a STOP; the first data cell seen in the write direction; the read direction; a callback's
error; a REPEATED-START seen; and `SendingData` is left only by the master's NACK. A handler that ends has recorded how. That the address byte
that did not match still stands in `TSR` afterwards is the model's choice (log 3). -/
def Obligations.TfsmTransitions : Prop :=
  ∀ s t : State, Inv s → step s = .next t → s.nextInput ≠ .reset → s.tfsm ≠ t.tfsm →
    (s.tfsm = .idle → t.tfsm = .receivingAddress ∧ s.edgePend = true ∧ s.scl = true ∧ s.sda = false ∧
      s.nextInput = .turn .edge) ∧
    (s.tfsm ≠ .idle → s.nextInput = .turn .handler) ∧
    (s.tfsm = .receivingAddress →
      (t.tfsm = .idle ∧ ((t.tlast = .addressMismatch ∧ t.tsr.extractLsb' 1 7 ≠ t.taddr) ∨
        (t.tlast = .stopDetected ∧ s.tdir = false))) ∨
      (t.tfsm = .receivingData ∧ t.det = .bit ∧ t.tdir = false) ∨
      (t.tfsm = .sendingData ∧ t.tdir = true)) ∧
    (s.tfsm = .receivingData →
      (t.tfsm = .idle ∧ (t.tlast = .stopDetected ∨ (t.tlast = .callbackError ∧ t.terr = true ∧ t.ans ≠ 0#8))) ∨
      (t.tfsm = .receivingAddress ∧ t.det = .restart)) ∧
    (s.tfsm = .sendingData → t.tfsm = .idle ∧ t.tlast = .masterNacked ∧ t.bitv = true)

/-! ## The wire (30_encoding.md R91 to R95) -/

/-- R91: the conditions seen on the wire in any step: a fall of the data line in a step with the clock high before and after is a START,
or a REPEATED-START when a START stands without a STOP; a rise there is a STOP; without either nothing is recorded. -/
def Obligations.ConditionsOnTheWire : Prop :=
  ∀ s t : State, step s = .next t →
    (s.scl = true → t.scl = true → s.sda = true → t.sda = false →
      t.busOpen = true ∧ t.lastCond = some (if s.busOpen then .restart else .start)) ∧
    (s.scl = true → t.scl = true → s.sda = false → t.sda = true → t.busOpen = false ∧ t.lastCond = some .stop) ∧
    (s.scl = false ∨ t.scl = false ∨ s.sda = t.sda → t.busOpen = s.busOpen ∧ t.lastCond = s.lastCond)

/-- R91 to R95 as a peer's acts (log 19): each element's first line change, and what the peer still does, in order; only the peers'
outputs, what a line change sets, and the peer's plan differ. -/
def Obligations.WireElementsBegin : Prop :=
  ∀ s : State,
    (∃ t, exec .wireStart s = .next t ∧ t.peerSda = false ∧ t.peerScl = s.peerScl ∧ t.ppos = s.ppos ∧ FramePeer s t) ∧
    (∃ t, exec .wireRestart s = .next t ∧ t.peerScl = false ∧ t.peerSda = s.peerSda ∧ FramePeer s t ∧
      t.ppos = .dat true :: .clk true :: .dat false :: s.ppos) ∧
    (∃ t, exec .wireStop s = .next t ∧ t.peerScl = false ∧ t.peerSda = s.peerSda ∧ FramePeer s t ∧
      t.ppos = .dat false :: .clk true :: .dat true :: s.ppos) ∧
    (∀ b : Level, ∃ t, exec (.bitCell b) s = .next t ∧ t.peerScl = false ∧ t.peerSda = s.peerSda ∧ FramePeer s t ∧
      t.ppos = .dat b :: .clk true :: .clk false :: s.ppos) ∧
    (∀ (x : Byte) (k : Level), ∃ t, exec (.byteFrame x k) s = .next t ∧ t.peerScl = false ∧ t.peerSda = s.peerSda ∧
      FramePeer s t ∧
      t.ppos = .dat (x.getLsbD 7) :: .clk true :: .clk false :: .op (.bitCell (x.getLsbD 6)) ::
        .op (.bitCell (x.getLsbD 5)) :: .op (.bitCell (x.getLsbD 4)) :: .op (.bitCell (x.getLsbD 3)) ::
        .op (.bitCell (x.getLsbD 2)) :: .op (.bitCell (x.getLsbD 1)) :: .op (.bitCell (x.getLsbD 0)) ::
        .op (.bitCell k) :: s.ppos) ∧
    (∀ (a : Addr) (rd : Bool), ∃ t, exec (.addressByte a rd) s = .next t ∧ t.peerScl = false ∧ t.peerSda = s.peerSda ∧
      FramePeer s t ∧
      t.ppos = .dat (a.getLsbD 6) :: .clk true :: .clk false :: .op (.bitCell (a.getLsbD 5)) ::
        .op (.bitCell (a.getLsbD 4)) :: .op (.bitCell (a.getLsbD 3)) :: .op (.bitCell (a.getLsbD 2)) ::
        .op (.bitCell (a.getLsbD 1)) :: .op (.bitCell (a.getLsbD 0)) :: .op (.bitCell rd) :: .op (.bitCell true) ::
          s.ppos) ∧
    ∀ k : Level, ∃ t, exec (.acknowledge k) s = .next t ∧ t.peerSda = k ∧ t.peerScl = s.peerScl ∧ FramePeer s t ∧
      t.ppos = .waitH :: .waitL :: .dat true :: s.ppos

/-- R91 to R95 on the wire (log 19). Where nobody else drives it, a peer's START, REPEATED-START and STOP appear as such, a bit cell carries its
bit in the high phase of one clock pulse, and the nine cells of a byte frame and of an address frame carry their bits in order, most
significant first, the address frame's ninth released, with no condition on the way. A peer's acknowledge, given while the engine holds the
clock low, is what the engine samples in the ninth cell, and is released after it. -/
def Obligations.WireElementsOnTheWire : Prop :=
  (∀ s : State, s.sclOut = true → s.sdaOut = true → s.ppos = [] →
    (s.peerScl = true → s.peerSda = true → s.busOpen = false →
      ∃ t, exec .wireStart s = .next t ∧ t.lastCond = some .start ∧ t.busOpen = true) ∧
    (s.peerScl = false → s.busOpen = true →
      ∃ t, afterwards (exec .wireRestart s) (turns 3 .peer) = .next t ∧ t.lastCond = some .restart ∧ t.busOpen = true) ∧
    (s.peerScl = false →
      ∃ t, afterwards (exec .wireStop s) (turns 3 .peer) = .next t ∧ t.lastCond = some .stop ∧ t.busOpen = false ∧
        t.scl = true ∧ t.sda = true) ∧
    (∀ b : Level, s.peerScl = false →
      (∃ t, afterwards (exec (.bitCell b) s) (turns 2 .peer) = .next t ∧ t.scl = true ∧ t.sda = b ∧
        t.lastCond = s.lastCond) ∧
      ∃ t, afterwards (exec (.bitCell b) s) (turns 3 .peer) = .next t ∧ t.scl = false ∧ t.sda = b ∧
        t.lastCond = s.lastCond ∧ t.ppos = []) ∧
    (∀ (x : Byte) (k : Level), s.peerScl = false →
      (∀ c : Nat, c < 9 → ∃ t, afterwards (exec (.byteFrame x k) s) (turns (4 * c + 2) .peer) = .next t ∧ t.scl = true ∧
        t.sda = (if c < 8 then x.getLsbD (7 - c) else k) ∧ t.lastCond = s.lastCond) ∧
      ∃ t, afterwards (exec (.byteFrame x k) s) (turns 35 .peer) = .next t ∧ t.scl = false ∧ t.lastCond = s.lastCond ∧
        t.ppos = []) ∧
    ∀ (a : Addr) (rd : Bool), s.peerScl = false →
      (∀ c : Nat, c < 9 → ∃ t, afterwards (exec (.addressByte a rd) s) (turns (4 * c + 2) .peer) = .next t ∧ t.scl = true ∧
        t.sda = (if c < 7 then a.getLsbD (6 - c) else if c = 7 then rd else true) ∧ t.lastCond = s.lastCond) ∧
      ∃ t, afterwards (exec (.addressByte a rd) s) (turns 35 .peer) = .next t ∧ t.scl = false ∧ t.sda = true ∧
        t.lastCond = s.lastCond ∧ t.ppos = []) ∧
  ∀ (k : Level) (rest : List CTask) (s : State),
    s.sclOut = false → s.peerScl = true → s.ppos = [] → s.cpos = .op .cRbit :: rest →
    (∃ t, runInputs (.wire (.acknowledge k) :: turns (2 + raisePolls) .controller) s = .next t ∧ t.scl = true ∧ t.sda = k) ∧
    ∃ u, runInputs (.wire (.acknowledge k) :: turns (2 + raisePolls) .controller ++ .turn .peer :: turns 3 .controller
        ++ turns 2 .peer ++ [.turn .controller]) s = settleC rest u ∧
      u.bitv = k ∧ u.peerSda = true ∧ u.ppos = []

/-! ## Reset (70_reset_and_hazards.md R280, 10_state.md R42) -/

/-- The values R42 states for reset, with `RESET_SPEED = none` (log 9). -/
def Obligations.ResetValues : Prop :=
  let s := State.reset
  s.mode = .unconfigured ∧ s.cfgValid = false ∧ s.speed = .unset ∧ s.addr10 = false ∧ s.tvalid = false ∧
  s.tfsm = .idle ∧ s.sclOut = true ∧ s.sdaOut = true ∧ s.busy = false ∧ s.cop = .idle ∧ s.result = .ok ∧
  s.cpos = [] ∧ s.edgePend = false ∧ s.handlerPend = false ∧ s.terr = false ∧ s.tlast = .notYet

/-- R280: the reset event takes every element R42 gives a value to that value in one step, from any state: a command or a transaction in
progress is abandoned with no result and no callback. `TPOS`, which R42 leaves unspecified, is empty: the model's choice (log 3). The
buffers, the peers and the ports stay: the model's choice (log 22). -/
def Obligations.ResetEvent : Prop :=
  ∀ s : State, ∃ t, stepWith .reset s = .next t ∧
    t.mode = .unconfigured ∧ t.cfgValid = false ∧ t.speed = .unset ∧ t.tvalid = false ∧ t.tfsm = .idle ∧
    t.sclOut = true ∧ t.sdaOut = true ∧ t.busy = false ∧ t.cop = .idle ∧ t.result = .ok ∧ t.cpos = [] ∧
    t.tpos = [] ∧ t.edgePend = false ∧ t.handlerPend = false ∧ t.terr = false ∧ t.tlast = .notYet ∧
    t.responses = s.responses ∧ t.calls = s.calls ∧ t.port = s.port ∧ t.peerScl = s.peerScl ∧
    t.peerSda = s.peerSda ∧ SameBytes s t

/-! ## Invariants and rules of the whole machine -/

/-- The invariant holds at reset. -/
def Obligations.ResetHasInvariant : Prop := Inv State.reset

/-- Every step from a state with the invariant, under any input, leaves a state with the invariant. -/
def Obligations.StepKeepsInvariant : Prop := ∀ s t : State, Inv s → step s = .next t → Inv t

/-- 10_state.md R39: its nine invariants hold in every reachable state. -/
def Obligations.ReachableStates : Prop := ∀ s : State, Reachable s → R39 s

/-- 10_state.md R38: which elements each agent's turn may write: a command accepted drives no line; the controller sequencer leaves modes
and configuration; the target handler never drives the clock line; the edge context writes three flags. 20_memory.md R66, R67: the sequencer
writes a buffer only where a received byte is stored, at that byte; an accepted operation writes only the bytes a `WRITE` or `WRITE_READ` gives
(log 21), in the buffer of segment 0 (the addresses are the model's, log 12). -/
def Obligations.WhoWritesWhat : Prop :=
  ∀ s t : State, Inv s →
    (stepWith (.turn .port) s = .next t → FramePort s t ∧
      (t.mem = s.mem ∨ ∃ (addr : Addr) (bytes : List Byte) (n : BitVec 16) (rest : List PortItem),
        (s.port = .call (.write addr bytes) :: rest ∨ s.port = .call (.writeRead addr bytes n) :: rest) ∧
        ∀ a : Nat, (∀ i : Nat, i < bytes.length → a ≠ bufKey 0 i) → t.mem.read a = s.mem.read a)) ∧
    (stepWith (.turn .controller) s = .next t → FrameControllerTurn s t ∧
      (storesReached s.cpos.tail = [] → t.mem = s.mem) ∧
      ∀ a : Nat, (∀ k i : Nat, (k, i) ∈ storesReached s.cpos.tail → a ≠ bufKey k i) → t.mem.read a = s.mem.read a) ∧
    (stepWith (.turn .edge) s = .next t → FrameEdgeTurn s t) ∧
    (stepWith (.turn .handler) s = .next t → FrameHandlerTurn s t) ∧
    (stepWith (.turn .peer) s = .next t → FramePeer s t)

/-- 60_exceptions.md R260: no step takes the mode from one role to the other; a role is left through `Unconfigured` only. -/
def Obligations.RolesAreReleased : Prop :=
  ∀ s t : State, step s = .next t →
    ¬ (s.mode = .controller ∧ t.mode = .target) ∧ ¬ (s.mode = .target ∧ t.mode = .controller)

/-- 10_state.md R28: results are delivered one at a time, each written to `RESULT` in the step that shows it on the response port; without
a delivery `RESULT` stays, reset apart. -/
def Obligations.ResultsAreDelivered : Prop :=
  ∀ s t : State, Inv s → step s = .next t →
    t.responses = t.result :: s.responses ∨
    (t.responses = s.responses ∧ (t.result = s.result ∨ s.nextInput = .reset))

/-- 10_state.md R35: `TERR` is sticky: once set it is cleared only by reset and by `REGISTER_TARGET`, accepted at the port in `Unconfigured`
mode, and it is set only by a callback's error. -/
def Obligations.TerrIsSticky : Prop :=
  ∀ s t : State, Inv s → step s = .next t →
    (s.terr = true → t.terr = false → s.nextInput = .reset ∨
      (s.nextInput = .turn .port ∧ s.busy = false ∧ s.mode = .unconfigured ∧
        ∃ (w : Word) (addr : Addr), s.port = .word w :: t.port ∧ decode [w] = .ok (.registerTarget addr, []))) ∧
    (s.terr = false → t.terr = true → t.tlast = .callbackError ∧ s.tfsm = .receivingData)

/-- 93_implementation_defined.md U1 to U3 (log 18): the mark of unsanctioned line behaviour is never cleared by a step. In a step of any agent (the
handler too, log 33) a change of the data line or of the peers' data output while the clock is high sets it when a transaction is in progress
and the handler is not watching for conditions. A step without such a change, or with the clock low, or outside a transaction, or in the watch of
`T_DETECT` (a later clock-high phase too while the handler is late in it, which is the model's choice, log 34), leaves it as it was. -/
def Obligations.UnsanctionedIsSticky : Prop :=
  (∀ s t : State, step s = .next t → s.unsanctioned = true → t.unsanctioned = true) ∧
  (∀ (i : Input) (s t : State), (i = .turn .handler → Inv s) → i ≠ .reset → stepWith i s = .next t →
    s.mode = .target → s.tfsm ≠ .idle → s.watching = false → s.scl = true → t.scl = true →
    (s.sda ≠ t.sda ∨ s.peerSda ≠ t.peerSda) → t.unsanctioned = true) ∧
  (∀ (s : State) (d : Level), s.mode = .target → s.tfsm ≠ .idle → s.watching = false →
    s.sclOut = true → s.peerScl = true → d ≠ s.peerSda →
    ∃ t, stepWith (.drive true d) s = .next t ∧ t.unsanctioned = true) ∧
  ∀ s t : State, Inv s → step s = .next t →
    (s.scl = false ∨ t.scl = false ∨ (s.sda = t.sda ∧ s.peerSda = t.peerSda) ∨ s.mode ≠ .target ∨ s.tfsm = .idle ∨
      s.watching = true) →
    t.unsanctioned = s.unsanctioned
end

