-- ==== Sys2Proof/Laws/Encoding.lean ====
section
/-! SUPPORT. The bits of the command port's words, and the fields of the `STATUS` word. -/

namespace Sys2Proof

/-- Words with the same bits are the same. -/
theorem eq_of_bits {w : Nat} {x y : BitVec w} (h : ∀ i, i < w → x.getLsbD i = y.getLsbD i) : x = y := BitVec.eq_of_getLsbD_eq h

/-- A word belongs to a row, bit by bit. -/
theorem OpRow.fits_iff_bits (r : OpRow) (w : Word) :
    r.fits w = true ↔ ∀ i, i < 32 → (w.getLsbD i && r.mask.getLsbD i) = r.value.getLsbD i := by
  simp only [OpRow.fits, beq_iff_eq]
  constructor
  · intro h i _; rw [← h]; simp
  · intro h; apply eq_of_bits; intro i hi; simpa using h i hi

/-- A descriptor word describes the segment it was made from, and is legal (30_encoding.md R102). -/
theorem decodeSeg_encodeSeg (g : Seg) : decodeSeg (encodeSeg g) = g ∧ rowDescriptor.fits (encodeSeg g) = true := by
  obtain ⟨d, rb, sa, len⟩ := g
  refine ⟨?_, ?_⟩
  · have h0 : (encodeSeg ⟨d, rb, sa, len⟩).getLsbD 0 = (d == .read) := by simp only [encodeSeg, BitVec.getLsbD_append]; cases d <;> simp
    have h1 : (encodeSeg ⟨d, rb, sa, len⟩).getLsbD 1 = rb := by simp only [encodeSeg, BitVec.getLsbD_append]; cases d <;> simp
    have h2 : (encodeSeg ⟨d, rb, sa, len⟩).getLsbD 2 = sa := by simp only [encodeSeg, BitVec.getLsbD_append]; cases d <;> simp
    have h3 : (encodeSeg ⟨d, rb, sa, len⟩).extractLsb' 16 16 = len := by
      apply eq_of_bits; intro i hi
      simp only [encodeSeg, BitVec.getLsbD_extractLsb', BitVec.getLsbD_append, hi, decide_true, Bool.true_and]
      rw [if_neg (by omega), if_neg (by omega), if_neg (by omega), if_neg (by omega)]
      congr 1; omega
    simp only [decodeSeg, h0, h1, h2, h3]
    cases d <;> rfl
  · rw [OpRow.fits_iff_bits]
    intro i hi
    simp only [encodeSeg, BitVec.getLsbD_append]
    interval_cases i <;> simp [rowDescriptor]

/-- A legal descriptor word is made again from the segment it describes. -/
theorem encodeSeg_decodeSeg (w : Word) (h : rowDescriptor.fits w = true) : encodeSeg (decodeSeg w) = w := by
  rw [OpRow.fits_iff_bits] at h
  apply eq_of_bits
  intro i hi
  have := h i hi
  have hd : ((if w.getLsbD 0 then Dir.read else Dir.write) == .read) = w.getLsbD 0 := by cases w.getLsbD 0 <;> rfl
  simp only [encodeSeg, decodeSeg, hd, BitVec.getLsbD_append, BitVec.getLsbD_extractLsb']
  interval_cases i <;> simp [rowDescriptor] at this ⊢ <;> simp [this]

/-- The fields of a `TRANSFER` word (R102). -/
theorem transfer_word_fields (n : BitVec 8) (a : Addr) : let w : Word := 0x2#4 ++ 0#12 ++ n ++ 0#1 ++ a
    rowConfigure.fits w = false ∧ rowTransfer.fits w = true ∧ opcodeOf w = 2#4 ∧ nsegOf w = n ∧ addrOf w = a := by
  intro w
  have hop : opcodeOf w = 2#4 := by
    apply eq_of_bits; intro i hi
    simp only [w, opcodeOf, BitVec.getLsbD_extractLsb', BitVec.getLsbD_append]
    interval_cases i <;> simp
  refine ⟨?_, ?_, hop, ?_, ?_⟩
  · rw [← Bool.not_eq_true, OpRow.fits_iff_bits]; intro h
    have := h 29 (by omega)
    simp only [w, BitVec.getLsbD_append] at this
    simp [rowConfigure] at this
  · rw [OpRow.fits_iff_bits]; intro i hi
    simp only [w, BitVec.getLsbD_append]
    interval_cases i <;> simp [rowTransfer]
  · apply eq_of_bits; intro i hi
    simp only [w, nsegOf, BitVec.getLsbD_extractLsb', BitVec.getLsbD_append]
    interval_cases i <;> simp
  · apply eq_of_bits; intro i hi
    simp only [w, addrOf, BitVec.getLsbD_extractLsb', BitVec.getLsbD_append]
    interval_cases i <;> simp

/-- A command of one word. -/
theorem decode_one_word {w : Word} {rest : List Word} (h : opcodeOf w ≠ 2#4) : decode (w :: rest) = .ok (decodeCommand w [], rest) := by
  simp [decode, descCount, h]

/-- The fields of a word put together as `STATUS` is (10_state.md R37). -/
theorem status_fields (a : BitVec 5) (b c d g i k l : Bool) (e : BitVec 4) (f : BitVec 3) (h : BitVec 7)
    (j m n : BitVec 2) (w : BitVec 32)
    (hw : w = a ++ BitVec.ofBool b ++ BitVec.ofBool c ++ BitVec.ofBool d ++ e ++ f ++ BitVec.ofBool g
      ++ h ++ BitVec.ofBool i ++ j ++ BitVec.ofBool k ++ BitVec.ofBool l ++ m ++ n) :
    w.extractLsb' 0 2 = n ∧ w.extractLsb' 2 2 = m ∧ w.getLsbD 4 = l ∧ w.getLsbD 5 = k ∧ w.extractLsb' 6 2 = j ∧
      w.getLsbD 8 = i ∧ w.extractLsb' 9 7 = h ∧ w.getLsbD 16 = g ∧ w.extractLsb' 17 3 = f ∧
      w.extractLsb' 20 4 = e ∧ w.getLsbD 24 = d ∧ w.getLsbD 25 = c ∧ w.extractLsb' 26 6 = a ++ BitVec.ofBool b := by
  subst hw
  refine ⟨?_, ?_, ?_, ?_, ?_, ?_, ?_, ?_, ?_, ?_, ?_, ?_, ?_⟩
  all_goals first
    | (apply BitVec.eq_of_getLsbD_eq; intro x hx; simp only [BitVec.getLsbD_extractLsb', BitVec.getLsbD_append]; interval_cases x <;> simp)
    | (simp only [BitVec.getLsbD_append]; simp)

end Sys2Proof
end

