-- ==== Sys2Proof/Laws/State.lean ====
section
/-! SUPPORT. What each named update of the state does to each field: a field it leaves alone is as before, a field it writes has the
value written. Later proofs rewrite with these and do not unfold the updates. -/

namespace Sys2Proof.Machine

@[simp] theorem State.setCpos_mode (s : State) (ts : List CTask) : (s.setCpos ts).mode = s.mode := rfl
@[simp] theorem State.setCpos_cfgValid (s : State) (ts : List CTask) : (s.setCpos ts).cfgValid = s.cfgValid := rfl
@[simp] theorem State.setCpos_speed (s : State) (ts : List CTask) : (s.setCpos ts).speed = s.speed := rfl
@[simp] theorem State.setCpos_low (s : State) (ts : List CTask) : (s.setCpos ts).low = s.low := rfl
@[simp] theorem State.setCpos_high (s : State) (ts : List CTask) : (s.setCpos ts).high = s.high := rfl
@[simp] theorem State.setCpos_tvalid (s : State) (ts : List CTask) : (s.setCpos ts).tvalid = s.tvalid := rfl
@[simp] theorem State.setCpos_taddr (s : State) (ts : List CTask) : (s.setCpos ts).taddr = s.taddr := rfl
@[simp] theorem State.setCpos_tfsm (s : State) (ts : List CTask) : (s.setCpos ts).tfsm = s.tfsm := rfl
@[simp] theorem State.setCpos_sclOut (s : State) (ts : List CTask) : (s.setCpos ts).sclOut = s.sclOut := rfl
@[simp] theorem State.setCpos_sdaOut (s : State) (ts : List CTask) : (s.setCpos ts).sdaOut = s.sdaOut := rfl
@[simp] theorem State.setCpos_busy (s : State) (ts : List CTask) : (s.setCpos ts).busy = s.busy := rfl
@[simp] theorem State.setCpos_cop (s : State) (ts : List CTask) : (s.setCpos ts).cop = s.cop := rfl
@[simp] theorem State.setCpos_result (s : State) (ts : List CTask) : (s.setCpos ts).result = s.result := rfl
@[simp] theorem State.setCpos_xaddr (s : State) (ts : List CTask) : (s.setCpos ts).xaddr = s.xaddr := rfl
@[simp] theorem State.setCpos_xsegs (s : State) (ts : List CTask) : (s.setCpos ts).xsegs = s.xsegs := rfl
@[simp] theorem State.setCpos_csr (s : State) (ts : List CTask) : (s.setCpos ts).csr = s.csr := rfl
@[simp] theorem State.setCpos_cack (s : State) (ts : List CTask) : (s.setCpos ts).cack = s.cack := rfl
@[simp] theorem State.setCpos_cabort (s : State) (ts : List CTask) : (s.setCpos ts).cabort = s.cabort := rfl
@[simp] theorem State.setCpos_tpos (s : State) (ts : List CTask) : (s.setCpos ts).tpos = s.tpos := rfl
@[simp] theorem State.setCpos_tsr (s : State) (ts : List CTask) : (s.setCpos ts).tsr = s.tsr := rfl
@[simp] theorem State.setCpos_tdir (s : State) (ts : List CTask) : (s.setCpos ts).tdir = s.tdir := rfl
@[simp] theorem State.setCpos_tfirst (s : State) (ts : List CTask) : (s.setCpos ts).tfirst = s.tfirst := rfl
@[simp] theorem State.setCpos_edgePend (s : State) (ts : List CTask) : (s.setCpos ts).edgePend = s.edgePend := rfl
@[simp] theorem State.setCpos_handlerPend (s : State) (ts : List CTask) : (s.setCpos ts).handlerPend = s.handlerPend := rfl
@[simp] theorem State.setCpos_terr (s : State) (ts : List CTask) : (s.setCpos ts).terr = s.terr := rfl
@[simp] theorem State.setCpos_tlast (s : State) (ts : List CTask) : (s.setCpos ts).tlast = s.tlast := rfl
@[simp] theorem State.setCpos_mem (s : State) (ts : List CTask) : (s.setCpos ts).mem = s.mem := rfl
@[simp] theorem State.setCpos_got (s : State) (ts : List CTask) : (s.setCpos ts).got = s.got := rfl
@[simp] theorem State.setCpos_bitv (s : State) (ts : List CTask) : (s.setCpos ts).bitv = s.bitv := rfl
@[simp] theorem State.setCpos_det (s : State) (ts : List CTask) : (s.setCpos ts).det = s.det := rfl
@[simp] theorem State.setCpos_ans (s : State) (ts : List CTask) : (s.setCpos ts).ans = s.ans := rfl
@[simp] theorem State.setCpos_peerScl (s : State) (ts : List CTask) : (s.setCpos ts).peerScl = s.peerScl := rfl
@[simp] theorem State.setCpos_peerSda (s : State) (ts : List CTask) : (s.setCpos ts).peerSda = s.peerSda := rfl
@[simp] theorem State.setCpos_ppos (s : State) (ts : List CTask) : (s.setCpos ts).ppos = s.ppos := rfl
@[simp] theorem State.setCpos_port (s : State) (ts : List CTask) : (s.setCpos ts).port = s.port := rfl
@[simp] theorem State.setCpos_responses (s : State) (ts : List CTask) : (s.setCpos ts).responses = s.responses := rfl
@[simp] theorem State.setCpos_statusOut (s : State) (ts : List CTask) : (s.setCpos ts).statusOut = s.statusOut := rfl
@[simp] theorem State.setCpos_calls (s : State) (ts : List CTask) : (s.setCpos ts).calls = s.calls := rfl
@[simp] theorem State.setCpos_inputs (s : State) (ts : List CTask) : (s.setCpos ts).inputs = s.inputs := rfl
@[simp] theorem State.setCpos_answers (s : State) (ts : List CTask) : (s.setCpos ts).answers = s.answers := rfl
@[simp] theorem State.setCpos_tick (s : State) (ts : List CTask) : (s.setCpos ts).tick = s.tick := rfl
@[simp] theorem State.setCpos_busOpen (s : State) (ts : List CTask) : (s.setCpos ts).busOpen = s.busOpen := rfl
@[simp] theorem State.setCpos_lastCond (s : State) (ts : List CTask) : (s.setCpos ts).lastCond = s.lastCond := rfl
@[simp] theorem State.setCpos_unsanctioned (s : State) (ts : List CTask) : (s.setCpos ts).unsanctioned = s.unsanctioned := rfl
@[simp] theorem State.setCpos_elapsed (s : State) (ts : List CTask) : (s.setCpos ts).elapsed = s.elapsed := rfl

@[simp] theorem State.setTpos_mode (s : State) (ts : List TTask) : (s.setTpos ts).mode = s.mode := rfl
@[simp] theorem State.setTpos_cfgValid (s : State) (ts : List TTask) : (s.setTpos ts).cfgValid = s.cfgValid := rfl
@[simp] theorem State.setTpos_speed (s : State) (ts : List TTask) : (s.setTpos ts).speed = s.speed := rfl
@[simp] theorem State.setTpos_low (s : State) (ts : List TTask) : (s.setTpos ts).low = s.low := rfl
@[simp] theorem State.setTpos_high (s : State) (ts : List TTask) : (s.setTpos ts).high = s.high := rfl
@[simp] theorem State.setTpos_tvalid (s : State) (ts : List TTask) : (s.setTpos ts).tvalid = s.tvalid := rfl
@[simp] theorem State.setTpos_taddr (s : State) (ts : List TTask) : (s.setTpos ts).taddr = s.taddr := rfl
@[simp] theorem State.setTpos_tfsm (s : State) (ts : List TTask) : (s.setTpos ts).tfsm = s.tfsm := rfl
@[simp] theorem State.setTpos_sclOut (s : State) (ts : List TTask) : (s.setTpos ts).sclOut = s.sclOut := rfl
@[simp] theorem State.setTpos_sdaOut (s : State) (ts : List TTask) : (s.setTpos ts).sdaOut = s.sdaOut := rfl
@[simp] theorem State.setTpos_busy (s : State) (ts : List TTask) : (s.setTpos ts).busy = s.busy := rfl
@[simp] theorem State.setTpos_cop (s : State) (ts : List TTask) : (s.setTpos ts).cop = s.cop := rfl
@[simp] theorem State.setTpos_result (s : State) (ts : List TTask) : (s.setTpos ts).result = s.result := rfl
@[simp] theorem State.setTpos_xaddr (s : State) (ts : List TTask) : (s.setTpos ts).xaddr = s.xaddr := rfl
@[simp] theorem State.setTpos_xsegs (s : State) (ts : List TTask) : (s.setTpos ts).xsegs = s.xsegs := rfl
@[simp] theorem State.setTpos_cpos (s : State) (ts : List TTask) : (s.setTpos ts).cpos = s.cpos := rfl
@[simp] theorem State.setTpos_csr (s : State) (ts : List TTask) : (s.setTpos ts).csr = s.csr := rfl
@[simp] theorem State.setTpos_cack (s : State) (ts : List TTask) : (s.setTpos ts).cack = s.cack := rfl
@[simp] theorem State.setTpos_cabort (s : State) (ts : List TTask) : (s.setTpos ts).cabort = s.cabort := rfl
@[simp] theorem State.setTpos_tsr (s : State) (ts : List TTask) : (s.setTpos ts).tsr = s.tsr := rfl
@[simp] theorem State.setTpos_tdir (s : State) (ts : List TTask) : (s.setTpos ts).tdir = s.tdir := rfl
@[simp] theorem State.setTpos_tfirst (s : State) (ts : List TTask) : (s.setTpos ts).tfirst = s.tfirst := rfl
@[simp] theorem State.setTpos_edgePend (s : State) (ts : List TTask) : (s.setTpos ts).edgePend = s.edgePend := rfl
@[simp] theorem State.setTpos_handlerPend (s : State) (ts : List TTask) : (s.setTpos ts).handlerPend = s.handlerPend := rfl
@[simp] theorem State.setTpos_terr (s : State) (ts : List TTask) : (s.setTpos ts).terr = s.terr := rfl
@[simp] theorem State.setTpos_tlast (s : State) (ts : List TTask) : (s.setTpos ts).tlast = s.tlast := rfl
@[simp] theorem State.setTpos_mem (s : State) (ts : List TTask) : (s.setTpos ts).mem = s.mem := rfl
@[simp] theorem State.setTpos_got (s : State) (ts : List TTask) : (s.setTpos ts).got = s.got := rfl
@[simp] theorem State.setTpos_bitv (s : State) (ts : List TTask) : (s.setTpos ts).bitv = s.bitv := rfl
@[simp] theorem State.setTpos_det (s : State) (ts : List TTask) : (s.setTpos ts).det = s.det := rfl
@[simp] theorem State.setTpos_ans (s : State) (ts : List TTask) : (s.setTpos ts).ans = s.ans := rfl
@[simp] theorem State.setTpos_peerScl (s : State) (ts : List TTask) : (s.setTpos ts).peerScl = s.peerScl := rfl
@[simp] theorem State.setTpos_peerSda (s : State) (ts : List TTask) : (s.setTpos ts).peerSda = s.peerSda := rfl
@[simp] theorem State.setTpos_ppos (s : State) (ts : List TTask) : (s.setTpos ts).ppos = s.ppos := rfl
@[simp] theorem State.setTpos_port (s : State) (ts : List TTask) : (s.setTpos ts).port = s.port := rfl
@[simp] theorem State.setTpos_responses (s : State) (ts : List TTask) : (s.setTpos ts).responses = s.responses := rfl
@[simp] theorem State.setTpos_statusOut (s : State) (ts : List TTask) : (s.setTpos ts).statusOut = s.statusOut := rfl
@[simp] theorem State.setTpos_calls (s : State) (ts : List TTask) : (s.setTpos ts).calls = s.calls := rfl
@[simp] theorem State.setTpos_inputs (s : State) (ts : List TTask) : (s.setTpos ts).inputs = s.inputs := rfl
@[simp] theorem State.setTpos_answers (s : State) (ts : List TTask) : (s.setTpos ts).answers = s.answers := rfl
@[simp] theorem State.setTpos_tick (s : State) (ts : List TTask) : (s.setTpos ts).tick = s.tick := rfl
@[simp] theorem State.setTpos_busOpen (s : State) (ts : List TTask) : (s.setTpos ts).busOpen = s.busOpen := rfl
@[simp] theorem State.setTpos_lastCond (s : State) (ts : List TTask) : (s.setTpos ts).lastCond = s.lastCond := rfl
@[simp] theorem State.setTpos_unsanctioned (s : State) (ts : List TTask) : (s.setTpos ts).unsanctioned = s.unsanctioned := rfl
@[simp] theorem State.setTpos_elapsed (s : State) (ts : List TTask) : (s.setTpos ts).elapsed = s.elapsed := rfl

@[simp] theorem State.setPpos_mode (s : State) (ts : List PTask) : (s.setPpos ts).mode = s.mode := rfl
@[simp] theorem State.setPpos_cfgValid (s : State) (ts : List PTask) : (s.setPpos ts).cfgValid = s.cfgValid := rfl
@[simp] theorem State.setPpos_speed (s : State) (ts : List PTask) : (s.setPpos ts).speed = s.speed := rfl
@[simp] theorem State.setPpos_low (s : State) (ts : List PTask) : (s.setPpos ts).low = s.low := rfl
@[simp] theorem State.setPpos_high (s : State) (ts : List PTask) : (s.setPpos ts).high = s.high := rfl
@[simp] theorem State.setPpos_tvalid (s : State) (ts : List PTask) : (s.setPpos ts).tvalid = s.tvalid := rfl
@[simp] theorem State.setPpos_taddr (s : State) (ts : List PTask) : (s.setPpos ts).taddr = s.taddr := rfl
@[simp] theorem State.setPpos_tfsm (s : State) (ts : List PTask) : (s.setPpos ts).tfsm = s.tfsm := rfl
@[simp] theorem State.setPpos_sclOut (s : State) (ts : List PTask) : (s.setPpos ts).sclOut = s.sclOut := rfl
@[simp] theorem State.setPpos_sdaOut (s : State) (ts : List PTask) : (s.setPpos ts).sdaOut = s.sdaOut := rfl
@[simp] theorem State.setPpos_busy (s : State) (ts : List PTask) : (s.setPpos ts).busy = s.busy := rfl
@[simp] theorem State.setPpos_cop (s : State) (ts : List PTask) : (s.setPpos ts).cop = s.cop := rfl
@[simp] theorem State.setPpos_result (s : State) (ts : List PTask) : (s.setPpos ts).result = s.result := rfl
@[simp] theorem State.setPpos_xaddr (s : State) (ts : List PTask) : (s.setPpos ts).xaddr = s.xaddr := rfl
@[simp] theorem State.setPpos_xsegs (s : State) (ts : List PTask) : (s.setPpos ts).xsegs = s.xsegs := rfl
@[simp] theorem State.setPpos_cpos (s : State) (ts : List PTask) : (s.setPpos ts).cpos = s.cpos := rfl
@[simp] theorem State.setPpos_csr (s : State) (ts : List PTask) : (s.setPpos ts).csr = s.csr := rfl
@[simp] theorem State.setPpos_cack (s : State) (ts : List PTask) : (s.setPpos ts).cack = s.cack := rfl
@[simp] theorem State.setPpos_cabort (s : State) (ts : List PTask) : (s.setPpos ts).cabort = s.cabort := rfl
@[simp] theorem State.setPpos_tpos (s : State) (ts : List PTask) : (s.setPpos ts).tpos = s.tpos := rfl
@[simp] theorem State.setPpos_tsr (s : State) (ts : List PTask) : (s.setPpos ts).tsr = s.tsr := rfl
@[simp] theorem State.setPpos_tdir (s : State) (ts : List PTask) : (s.setPpos ts).tdir = s.tdir := rfl
@[simp] theorem State.setPpos_tfirst (s : State) (ts : List PTask) : (s.setPpos ts).tfirst = s.tfirst := rfl
@[simp] theorem State.setPpos_edgePend (s : State) (ts : List PTask) : (s.setPpos ts).edgePend = s.edgePend := rfl
@[simp] theorem State.setPpos_handlerPend (s : State) (ts : List PTask) : (s.setPpos ts).handlerPend = s.handlerPend := rfl
@[simp] theorem State.setPpos_terr (s : State) (ts : List PTask) : (s.setPpos ts).terr = s.terr := rfl
@[simp] theorem State.setPpos_tlast (s : State) (ts : List PTask) : (s.setPpos ts).tlast = s.tlast := rfl
@[simp] theorem State.setPpos_mem (s : State) (ts : List PTask) : (s.setPpos ts).mem = s.mem := rfl
@[simp] theorem State.setPpos_got (s : State) (ts : List PTask) : (s.setPpos ts).got = s.got := rfl
@[simp] theorem State.setPpos_bitv (s : State) (ts : List PTask) : (s.setPpos ts).bitv = s.bitv := rfl
@[simp] theorem State.setPpos_det (s : State) (ts : List PTask) : (s.setPpos ts).det = s.det := rfl
@[simp] theorem State.setPpos_ans (s : State) (ts : List PTask) : (s.setPpos ts).ans = s.ans := rfl
@[simp] theorem State.setPpos_peerScl (s : State) (ts : List PTask) : (s.setPpos ts).peerScl = s.peerScl := rfl
@[simp] theorem State.setPpos_peerSda (s : State) (ts : List PTask) : (s.setPpos ts).peerSda = s.peerSda := rfl
@[simp] theorem State.setPpos_port (s : State) (ts : List PTask) : (s.setPpos ts).port = s.port := rfl
@[simp] theorem State.setPpos_responses (s : State) (ts : List PTask) : (s.setPpos ts).responses = s.responses := rfl
@[simp] theorem State.setPpos_statusOut (s : State) (ts : List PTask) : (s.setPpos ts).statusOut = s.statusOut := rfl
@[simp] theorem State.setPpos_calls (s : State) (ts : List PTask) : (s.setPpos ts).calls = s.calls := rfl
@[simp] theorem State.setPpos_inputs (s : State) (ts : List PTask) : (s.setPpos ts).inputs = s.inputs := rfl
@[simp] theorem State.setPpos_answers (s : State) (ts : List PTask) : (s.setPpos ts).answers = s.answers := rfl
@[simp] theorem State.setPpos_tick (s : State) (ts : List PTask) : (s.setPpos ts).tick = s.tick := rfl
@[simp] theorem State.setPpos_busOpen (s : State) (ts : List PTask) : (s.setPpos ts).busOpen = s.busOpen := rfl
@[simp] theorem State.setPpos_lastCond (s : State) (ts : List PTask) : (s.setPpos ts).lastCond = s.lastCond := rfl
@[simp] theorem State.setPpos_unsanctioned (s : State) (ts : List PTask) : (s.setPpos ts).unsanctioned = s.unsanctioned := rfl
@[simp] theorem State.setPpos_elapsed (s : State) (ts : List PTask) : (s.setPpos ts).elapsed = s.elapsed := rfl

@[simp] theorem State.setPort_mode (s : State) (ps : List PortItem) : (s.setPort ps).mode = s.mode := rfl
@[simp] theorem State.setPort_cfgValid (s : State) (ps : List PortItem) : (s.setPort ps).cfgValid = s.cfgValid := rfl
@[simp] theorem State.setPort_speed (s : State) (ps : List PortItem) : (s.setPort ps).speed = s.speed := rfl
@[simp] theorem State.setPort_low (s : State) (ps : List PortItem) : (s.setPort ps).low = s.low := rfl
@[simp] theorem State.setPort_high (s : State) (ps : List PortItem) : (s.setPort ps).high = s.high := rfl
@[simp] theorem State.setPort_tvalid (s : State) (ps : List PortItem) : (s.setPort ps).tvalid = s.tvalid := rfl
@[simp] theorem State.setPort_taddr (s : State) (ps : List PortItem) : (s.setPort ps).taddr = s.taddr := rfl
@[simp] theorem State.setPort_tfsm (s : State) (ps : List PortItem) : (s.setPort ps).tfsm = s.tfsm := rfl
@[simp] theorem State.setPort_sclOut (s : State) (ps : List PortItem) : (s.setPort ps).sclOut = s.sclOut := rfl
@[simp] theorem State.setPort_sdaOut (s : State) (ps : List PortItem) : (s.setPort ps).sdaOut = s.sdaOut := rfl
@[simp] theorem State.setPort_busy (s : State) (ps : List PortItem) : (s.setPort ps).busy = s.busy := rfl
@[simp] theorem State.setPort_cop (s : State) (ps : List PortItem) : (s.setPort ps).cop = s.cop := rfl
@[simp] theorem State.setPort_result (s : State) (ps : List PortItem) : (s.setPort ps).result = s.result := rfl
@[simp] theorem State.setPort_xaddr (s : State) (ps : List PortItem) : (s.setPort ps).xaddr = s.xaddr := rfl
@[simp] theorem State.setPort_xsegs (s : State) (ps : List PortItem) : (s.setPort ps).xsegs = s.xsegs := rfl
@[simp] theorem State.setPort_cpos (s : State) (ps : List PortItem) : (s.setPort ps).cpos = s.cpos := rfl
@[simp] theorem State.setPort_csr (s : State) (ps : List PortItem) : (s.setPort ps).csr = s.csr := rfl
@[simp] theorem State.setPort_cack (s : State) (ps : List PortItem) : (s.setPort ps).cack = s.cack := rfl
@[simp] theorem State.setPort_cabort (s : State) (ps : List PortItem) : (s.setPort ps).cabort = s.cabort := rfl
@[simp] theorem State.setPort_tpos (s : State) (ps : List PortItem) : (s.setPort ps).tpos = s.tpos := rfl
@[simp] theorem State.setPort_tsr (s : State) (ps : List PortItem) : (s.setPort ps).tsr = s.tsr := rfl
@[simp] theorem State.setPort_tdir (s : State) (ps : List PortItem) : (s.setPort ps).tdir = s.tdir := rfl
@[simp] theorem State.setPort_tfirst (s : State) (ps : List PortItem) : (s.setPort ps).tfirst = s.tfirst := rfl
@[simp] theorem State.setPort_edgePend (s : State) (ps : List PortItem) : (s.setPort ps).edgePend = s.edgePend := rfl
@[simp] theorem State.setPort_handlerPend (s : State) (ps : List PortItem) : (s.setPort ps).handlerPend = s.handlerPend := rfl
@[simp] theorem State.setPort_terr (s : State) (ps : List PortItem) : (s.setPort ps).terr = s.terr := rfl
@[simp] theorem State.setPort_tlast (s : State) (ps : List PortItem) : (s.setPort ps).tlast = s.tlast := rfl
@[simp] theorem State.setPort_mem (s : State) (ps : List PortItem) : (s.setPort ps).mem = s.mem := rfl
@[simp] theorem State.setPort_got (s : State) (ps : List PortItem) : (s.setPort ps).got = s.got := rfl
@[simp] theorem State.setPort_bitv (s : State) (ps : List PortItem) : (s.setPort ps).bitv = s.bitv := rfl
@[simp] theorem State.setPort_det (s : State) (ps : List PortItem) : (s.setPort ps).det = s.det := rfl
@[simp] theorem State.setPort_ans (s : State) (ps : List PortItem) : (s.setPort ps).ans = s.ans := rfl
@[simp] theorem State.setPort_peerScl (s : State) (ps : List PortItem) : (s.setPort ps).peerScl = s.peerScl := rfl
@[simp] theorem State.setPort_peerSda (s : State) (ps : List PortItem) : (s.setPort ps).peerSda = s.peerSda := rfl
@[simp] theorem State.setPort_ppos (s : State) (ps : List PortItem) : (s.setPort ps).ppos = s.ppos := rfl
@[simp] theorem State.setPort_responses (s : State) (ps : List PortItem) : (s.setPort ps).responses = s.responses := rfl
@[simp] theorem State.setPort_statusOut (s : State) (ps : List PortItem) : (s.setPort ps).statusOut = s.statusOut := rfl
@[simp] theorem State.setPort_calls (s : State) (ps : List PortItem) : (s.setPort ps).calls = s.calls := rfl
@[simp] theorem State.setPort_inputs (s : State) (ps : List PortItem) : (s.setPort ps).inputs = s.inputs := rfl
@[simp] theorem State.setPort_answers (s : State) (ps : List PortItem) : (s.setPort ps).answers = s.answers := rfl
@[simp] theorem State.setPort_tick (s : State) (ps : List PortItem) : (s.setPort ps).tick = s.tick := rfl
@[simp] theorem State.setPort_busOpen (s : State) (ps : List PortItem) : (s.setPort ps).busOpen = s.busOpen := rfl
@[simp] theorem State.setPort_lastCond (s : State) (ps : List PortItem) : (s.setPort ps).lastCond = s.lastCond := rfl
@[simp] theorem State.setPort_unsanctioned (s : State) (ps : List PortItem) : (s.setPort ps).unsanctioned = s.unsanctioned := rfl
@[simp] theorem State.setPort_elapsed (s : State) (ps : List PortItem) : (s.setPort ps).elapsed = s.elapsed := rfl

@[simp] theorem State.setCsr_mode (s : State) (x : Byte) : (s.setCsr x).mode = s.mode := rfl
@[simp] theorem State.setCsr_cfgValid (s : State) (x : Byte) : (s.setCsr x).cfgValid = s.cfgValid := rfl
@[simp] theorem State.setCsr_speed (s : State) (x : Byte) : (s.setCsr x).speed = s.speed := rfl
@[simp] theorem State.setCsr_low (s : State) (x : Byte) : (s.setCsr x).low = s.low := rfl
@[simp] theorem State.setCsr_high (s : State) (x : Byte) : (s.setCsr x).high = s.high := rfl
@[simp] theorem State.setCsr_tvalid (s : State) (x : Byte) : (s.setCsr x).tvalid = s.tvalid := rfl
@[simp] theorem State.setCsr_taddr (s : State) (x : Byte) : (s.setCsr x).taddr = s.taddr := rfl
@[simp] theorem State.setCsr_tfsm (s : State) (x : Byte) : (s.setCsr x).tfsm = s.tfsm := rfl
@[simp] theorem State.setCsr_sclOut (s : State) (x : Byte) : (s.setCsr x).sclOut = s.sclOut := rfl
@[simp] theorem State.setCsr_sdaOut (s : State) (x : Byte) : (s.setCsr x).sdaOut = s.sdaOut := rfl
@[simp] theorem State.setCsr_busy (s : State) (x : Byte) : (s.setCsr x).busy = s.busy := rfl
@[simp] theorem State.setCsr_cop (s : State) (x : Byte) : (s.setCsr x).cop = s.cop := rfl
@[simp] theorem State.setCsr_result (s : State) (x : Byte) : (s.setCsr x).result = s.result := rfl
@[simp] theorem State.setCsr_xaddr (s : State) (x : Byte) : (s.setCsr x).xaddr = s.xaddr := rfl
@[simp] theorem State.setCsr_xsegs (s : State) (x : Byte) : (s.setCsr x).xsegs = s.xsegs := rfl
@[simp] theorem State.setCsr_cpos (s : State) (x : Byte) : (s.setCsr x).cpos = s.cpos := rfl
@[simp] theorem State.setCsr_cack (s : State) (x : Byte) : (s.setCsr x).cack = s.cack := rfl
@[simp] theorem State.setCsr_cabort (s : State) (x : Byte) : (s.setCsr x).cabort = s.cabort := rfl
@[simp] theorem State.setCsr_tpos (s : State) (x : Byte) : (s.setCsr x).tpos = s.tpos := rfl
@[simp] theorem State.setCsr_tsr (s : State) (x : Byte) : (s.setCsr x).tsr = s.tsr := rfl
@[simp] theorem State.setCsr_tdir (s : State) (x : Byte) : (s.setCsr x).tdir = s.tdir := rfl
@[simp] theorem State.setCsr_tfirst (s : State) (x : Byte) : (s.setCsr x).tfirst = s.tfirst := rfl
@[simp] theorem State.setCsr_edgePend (s : State) (x : Byte) : (s.setCsr x).edgePend = s.edgePend := rfl
@[simp] theorem State.setCsr_handlerPend (s : State) (x : Byte) : (s.setCsr x).handlerPend = s.handlerPend := rfl
@[simp] theorem State.setCsr_terr (s : State) (x : Byte) : (s.setCsr x).terr = s.terr := rfl
@[simp] theorem State.setCsr_tlast (s : State) (x : Byte) : (s.setCsr x).tlast = s.tlast := rfl
@[simp] theorem State.setCsr_mem (s : State) (x : Byte) : (s.setCsr x).mem = s.mem := rfl
@[simp] theorem State.setCsr_got (s : State) (x : Byte) : (s.setCsr x).got = s.got := rfl
@[simp] theorem State.setCsr_bitv (s : State) (x : Byte) : (s.setCsr x).bitv = s.bitv := rfl
@[simp] theorem State.setCsr_det (s : State) (x : Byte) : (s.setCsr x).det = s.det := rfl
@[simp] theorem State.setCsr_ans (s : State) (x : Byte) : (s.setCsr x).ans = s.ans := rfl
@[simp] theorem State.setCsr_peerScl (s : State) (x : Byte) : (s.setCsr x).peerScl = s.peerScl := rfl
@[simp] theorem State.setCsr_peerSda (s : State) (x : Byte) : (s.setCsr x).peerSda = s.peerSda := rfl
@[simp] theorem State.setCsr_ppos (s : State) (x : Byte) : (s.setCsr x).ppos = s.ppos := rfl
@[simp] theorem State.setCsr_port (s : State) (x : Byte) : (s.setCsr x).port = s.port := rfl
@[simp] theorem State.setCsr_responses (s : State) (x : Byte) : (s.setCsr x).responses = s.responses := rfl
@[simp] theorem State.setCsr_statusOut (s : State) (x : Byte) : (s.setCsr x).statusOut = s.statusOut := rfl
@[simp] theorem State.setCsr_calls (s : State) (x : Byte) : (s.setCsr x).calls = s.calls := rfl
@[simp] theorem State.setCsr_inputs (s : State) (x : Byte) : (s.setCsr x).inputs = s.inputs := rfl
@[simp] theorem State.setCsr_answers (s : State) (x : Byte) : (s.setCsr x).answers = s.answers := rfl
@[simp] theorem State.setCsr_tick (s : State) (x : Byte) : (s.setCsr x).tick = s.tick := rfl
@[simp] theorem State.setCsr_busOpen (s : State) (x : Byte) : (s.setCsr x).busOpen = s.busOpen := rfl
@[simp] theorem State.setCsr_lastCond (s : State) (x : Byte) : (s.setCsr x).lastCond = s.lastCond := rfl
@[simp] theorem State.setCsr_unsanctioned (s : State) (x : Byte) : (s.setCsr x).unsanctioned = s.unsanctioned := rfl
@[simp] theorem State.setCsr_elapsed (s : State) (x : Byte) : (s.setCsr x).elapsed = s.elapsed := rfl

@[simp] theorem State.setCack_mode (s : State) (l : Level) : (s.setCack l).mode = s.mode := rfl
@[simp] theorem State.setCack_cfgValid (s : State) (l : Level) : (s.setCack l).cfgValid = s.cfgValid := rfl
@[simp] theorem State.setCack_speed (s : State) (l : Level) : (s.setCack l).speed = s.speed := rfl
@[simp] theorem State.setCack_low (s : State) (l : Level) : (s.setCack l).low = s.low := rfl
@[simp] theorem State.setCack_high (s : State) (l : Level) : (s.setCack l).high = s.high := rfl
@[simp] theorem State.setCack_tvalid (s : State) (l : Level) : (s.setCack l).tvalid = s.tvalid := rfl
@[simp] theorem State.setCack_taddr (s : State) (l : Level) : (s.setCack l).taddr = s.taddr := rfl
@[simp] theorem State.setCack_tfsm (s : State) (l : Level) : (s.setCack l).tfsm = s.tfsm := rfl
@[simp] theorem State.setCack_sclOut (s : State) (l : Level) : (s.setCack l).sclOut = s.sclOut := rfl
@[simp] theorem State.setCack_sdaOut (s : State) (l : Level) : (s.setCack l).sdaOut = s.sdaOut := rfl
@[simp] theorem State.setCack_busy (s : State) (l : Level) : (s.setCack l).busy = s.busy := rfl
@[simp] theorem State.setCack_cop (s : State) (l : Level) : (s.setCack l).cop = s.cop := rfl
@[simp] theorem State.setCack_result (s : State) (l : Level) : (s.setCack l).result = s.result := rfl
@[simp] theorem State.setCack_xaddr (s : State) (l : Level) : (s.setCack l).xaddr = s.xaddr := rfl
@[simp] theorem State.setCack_xsegs (s : State) (l : Level) : (s.setCack l).xsegs = s.xsegs := rfl
@[simp] theorem State.setCack_cpos (s : State) (l : Level) : (s.setCack l).cpos = s.cpos := rfl
@[simp] theorem State.setCack_csr (s : State) (l : Level) : (s.setCack l).csr = s.csr := rfl
@[simp] theorem State.setCack_cabort (s : State) (l : Level) : (s.setCack l).cabort = s.cabort := rfl
@[simp] theorem State.setCack_tpos (s : State) (l : Level) : (s.setCack l).tpos = s.tpos := rfl
@[simp] theorem State.setCack_tsr (s : State) (l : Level) : (s.setCack l).tsr = s.tsr := rfl
@[simp] theorem State.setCack_tdir (s : State) (l : Level) : (s.setCack l).tdir = s.tdir := rfl
@[simp] theorem State.setCack_tfirst (s : State) (l : Level) : (s.setCack l).tfirst = s.tfirst := rfl
@[simp] theorem State.setCack_edgePend (s : State) (l : Level) : (s.setCack l).edgePend = s.edgePend := rfl
@[simp] theorem State.setCack_handlerPend (s : State) (l : Level) : (s.setCack l).handlerPend = s.handlerPend := rfl
@[simp] theorem State.setCack_terr (s : State) (l : Level) : (s.setCack l).terr = s.terr := rfl
@[simp] theorem State.setCack_tlast (s : State) (l : Level) : (s.setCack l).tlast = s.tlast := rfl
@[simp] theorem State.setCack_mem (s : State) (l : Level) : (s.setCack l).mem = s.mem := rfl
@[simp] theorem State.setCack_got (s : State) (l : Level) : (s.setCack l).got = s.got := rfl
@[simp] theorem State.setCack_bitv (s : State) (l : Level) : (s.setCack l).bitv = s.bitv := rfl
@[simp] theorem State.setCack_det (s : State) (l : Level) : (s.setCack l).det = s.det := rfl
@[simp] theorem State.setCack_ans (s : State) (l : Level) : (s.setCack l).ans = s.ans := rfl
@[simp] theorem State.setCack_peerScl (s : State) (l : Level) : (s.setCack l).peerScl = s.peerScl := rfl
@[simp] theorem State.setCack_peerSda (s : State) (l : Level) : (s.setCack l).peerSda = s.peerSda := rfl
@[simp] theorem State.setCack_ppos (s : State) (l : Level) : (s.setCack l).ppos = s.ppos := rfl
@[simp] theorem State.setCack_port (s : State) (l : Level) : (s.setCack l).port = s.port := rfl
@[simp] theorem State.setCack_responses (s : State) (l : Level) : (s.setCack l).responses = s.responses := rfl
@[simp] theorem State.setCack_statusOut (s : State) (l : Level) : (s.setCack l).statusOut = s.statusOut := rfl
@[simp] theorem State.setCack_calls (s : State) (l : Level) : (s.setCack l).calls = s.calls := rfl
@[simp] theorem State.setCack_inputs (s : State) (l : Level) : (s.setCack l).inputs = s.inputs := rfl
@[simp] theorem State.setCack_answers (s : State) (l : Level) : (s.setCack l).answers = s.answers := rfl
@[simp] theorem State.setCack_tick (s : State) (l : Level) : (s.setCack l).tick = s.tick := rfl
@[simp] theorem State.setCack_busOpen (s : State) (l : Level) : (s.setCack l).busOpen = s.busOpen := rfl
@[simp] theorem State.setCack_lastCond (s : State) (l : Level) : (s.setCack l).lastCond = s.lastCond := rfl
@[simp] theorem State.setCack_unsanctioned (s : State) (l : Level) : (s.setCack l).unsanctioned = s.unsanctioned := rfl
@[simp] theorem State.setCack_elapsed (s : State) (l : Level) : (s.setCack l).elapsed = s.elapsed := rfl

@[simp] theorem State.setCabort_mode (s : State) (r : Result) : (s.setCabort r).mode = s.mode := rfl
@[simp] theorem State.setCabort_cfgValid (s : State) (r : Result) : (s.setCabort r).cfgValid = s.cfgValid := rfl
@[simp] theorem State.setCabort_speed (s : State) (r : Result) : (s.setCabort r).speed = s.speed := rfl
@[simp] theorem State.setCabort_low (s : State) (r : Result) : (s.setCabort r).low = s.low := rfl
@[simp] theorem State.setCabort_high (s : State) (r : Result) : (s.setCabort r).high = s.high := rfl
@[simp] theorem State.setCabort_tvalid (s : State) (r : Result) : (s.setCabort r).tvalid = s.tvalid := rfl
@[simp] theorem State.setCabort_taddr (s : State) (r : Result) : (s.setCabort r).taddr = s.taddr := rfl
@[simp] theorem State.setCabort_tfsm (s : State) (r : Result) : (s.setCabort r).tfsm = s.tfsm := rfl
@[simp] theorem State.setCabort_sclOut (s : State) (r : Result) : (s.setCabort r).sclOut = s.sclOut := rfl
@[simp] theorem State.setCabort_sdaOut (s : State) (r : Result) : (s.setCabort r).sdaOut = s.sdaOut := rfl
@[simp] theorem State.setCabort_busy (s : State) (r : Result) : (s.setCabort r).busy = s.busy := rfl
@[simp] theorem State.setCabort_cop (s : State) (r : Result) : (s.setCabort r).cop = s.cop := rfl
@[simp] theorem State.setCabort_result (s : State) (r : Result) : (s.setCabort r).result = s.result := rfl
@[simp] theorem State.setCabort_xaddr (s : State) (r : Result) : (s.setCabort r).xaddr = s.xaddr := rfl
@[simp] theorem State.setCabort_xsegs (s : State) (r : Result) : (s.setCabort r).xsegs = s.xsegs := rfl
@[simp] theorem State.setCabort_cpos (s : State) (r : Result) : (s.setCabort r).cpos = s.cpos := rfl
@[simp] theorem State.setCabort_csr (s : State) (r : Result) : (s.setCabort r).csr = s.csr := rfl
@[simp] theorem State.setCabort_cack (s : State) (r : Result) : (s.setCabort r).cack = s.cack := rfl
@[simp] theorem State.setCabort_tpos (s : State) (r : Result) : (s.setCabort r).tpos = s.tpos := rfl
@[simp] theorem State.setCabort_tsr (s : State) (r : Result) : (s.setCabort r).tsr = s.tsr := rfl
@[simp] theorem State.setCabort_tdir (s : State) (r : Result) : (s.setCabort r).tdir = s.tdir := rfl
@[simp] theorem State.setCabort_tfirst (s : State) (r : Result) : (s.setCabort r).tfirst = s.tfirst := rfl
@[simp] theorem State.setCabort_edgePend (s : State) (r : Result) : (s.setCabort r).edgePend = s.edgePend := rfl
@[simp] theorem State.setCabort_handlerPend (s : State) (r : Result) : (s.setCabort r).handlerPend = s.handlerPend := rfl
@[simp] theorem State.setCabort_terr (s : State) (r : Result) : (s.setCabort r).terr = s.terr := rfl
@[simp] theorem State.setCabort_tlast (s : State) (r : Result) : (s.setCabort r).tlast = s.tlast := rfl
@[simp] theorem State.setCabort_mem (s : State) (r : Result) : (s.setCabort r).mem = s.mem := rfl
@[simp] theorem State.setCabort_got (s : State) (r : Result) : (s.setCabort r).got = s.got := rfl
@[simp] theorem State.setCabort_bitv (s : State) (r : Result) : (s.setCabort r).bitv = s.bitv := rfl
@[simp] theorem State.setCabort_det (s : State) (r : Result) : (s.setCabort r).det = s.det := rfl
@[simp] theorem State.setCabort_ans (s : State) (r : Result) : (s.setCabort r).ans = s.ans := rfl
@[simp] theorem State.setCabort_peerScl (s : State) (r : Result) : (s.setCabort r).peerScl = s.peerScl := rfl
@[simp] theorem State.setCabort_peerSda (s : State) (r : Result) : (s.setCabort r).peerSda = s.peerSda := rfl
@[simp] theorem State.setCabort_ppos (s : State) (r : Result) : (s.setCabort r).ppos = s.ppos := rfl
@[simp] theorem State.setCabort_port (s : State) (r : Result) : (s.setCabort r).port = s.port := rfl
@[simp] theorem State.setCabort_responses (s : State) (r : Result) : (s.setCabort r).responses = s.responses := rfl
@[simp] theorem State.setCabort_statusOut (s : State) (r : Result) : (s.setCabort r).statusOut = s.statusOut := rfl
@[simp] theorem State.setCabort_calls (s : State) (r : Result) : (s.setCabort r).calls = s.calls := rfl
@[simp] theorem State.setCabort_inputs (s : State) (r : Result) : (s.setCabort r).inputs = s.inputs := rfl
@[simp] theorem State.setCabort_answers (s : State) (r : Result) : (s.setCabort r).answers = s.answers := rfl
@[simp] theorem State.setCabort_tick (s : State) (r : Result) : (s.setCabort r).tick = s.tick := rfl
@[simp] theorem State.setCabort_busOpen (s : State) (r : Result) : (s.setCabort r).busOpen = s.busOpen := rfl
@[simp] theorem State.setCabort_lastCond (s : State) (r : Result) : (s.setCabort r).lastCond = s.lastCond := rfl
@[simp] theorem State.setCabort_unsanctioned (s : State) (r : Result) : (s.setCabort r).unsanctioned = s.unsanctioned := rfl
@[simp] theorem State.setCabort_elapsed (s : State) (r : Result) : (s.setCabort r).elapsed = s.elapsed := rfl

@[simp] theorem State.setTsr_mode (s : State) (x : Byte) : (s.setTsr x).mode = s.mode := rfl
@[simp] theorem State.setTsr_cfgValid (s : State) (x : Byte) : (s.setTsr x).cfgValid = s.cfgValid := rfl
@[simp] theorem State.setTsr_speed (s : State) (x : Byte) : (s.setTsr x).speed = s.speed := rfl
@[simp] theorem State.setTsr_low (s : State) (x : Byte) : (s.setTsr x).low = s.low := rfl
@[simp] theorem State.setTsr_high (s : State) (x : Byte) : (s.setTsr x).high = s.high := rfl
@[simp] theorem State.setTsr_tvalid (s : State) (x : Byte) : (s.setTsr x).tvalid = s.tvalid := rfl
@[simp] theorem State.setTsr_taddr (s : State) (x : Byte) : (s.setTsr x).taddr = s.taddr := rfl
@[simp] theorem State.setTsr_tfsm (s : State) (x : Byte) : (s.setTsr x).tfsm = s.tfsm := rfl
@[simp] theorem State.setTsr_sclOut (s : State) (x : Byte) : (s.setTsr x).sclOut = s.sclOut := rfl
@[simp] theorem State.setTsr_sdaOut (s : State) (x : Byte) : (s.setTsr x).sdaOut = s.sdaOut := rfl
@[simp] theorem State.setTsr_busy (s : State) (x : Byte) : (s.setTsr x).busy = s.busy := rfl
@[simp] theorem State.setTsr_cop (s : State) (x : Byte) : (s.setTsr x).cop = s.cop := rfl
@[simp] theorem State.setTsr_result (s : State) (x : Byte) : (s.setTsr x).result = s.result := rfl
@[simp] theorem State.setTsr_xaddr (s : State) (x : Byte) : (s.setTsr x).xaddr = s.xaddr := rfl
@[simp] theorem State.setTsr_xsegs (s : State) (x : Byte) : (s.setTsr x).xsegs = s.xsegs := rfl
@[simp] theorem State.setTsr_cpos (s : State) (x : Byte) : (s.setTsr x).cpos = s.cpos := rfl
@[simp] theorem State.setTsr_csr (s : State) (x : Byte) : (s.setTsr x).csr = s.csr := rfl
@[simp] theorem State.setTsr_cack (s : State) (x : Byte) : (s.setTsr x).cack = s.cack := rfl
@[simp] theorem State.setTsr_cabort (s : State) (x : Byte) : (s.setTsr x).cabort = s.cabort := rfl
@[simp] theorem State.setTsr_tpos (s : State) (x : Byte) : (s.setTsr x).tpos = s.tpos := rfl
@[simp] theorem State.setTsr_tdir (s : State) (x : Byte) : (s.setTsr x).tdir = s.tdir := rfl
@[simp] theorem State.setTsr_tfirst (s : State) (x : Byte) : (s.setTsr x).tfirst = s.tfirst := rfl
@[simp] theorem State.setTsr_edgePend (s : State) (x : Byte) : (s.setTsr x).edgePend = s.edgePend := rfl
@[simp] theorem State.setTsr_handlerPend (s : State) (x : Byte) : (s.setTsr x).handlerPend = s.handlerPend := rfl
@[simp] theorem State.setTsr_terr (s : State) (x : Byte) : (s.setTsr x).terr = s.terr := rfl
@[simp] theorem State.setTsr_tlast (s : State) (x : Byte) : (s.setTsr x).tlast = s.tlast := rfl
@[simp] theorem State.setTsr_mem (s : State) (x : Byte) : (s.setTsr x).mem = s.mem := rfl
@[simp] theorem State.setTsr_got (s : State) (x : Byte) : (s.setTsr x).got = s.got := rfl
@[simp] theorem State.setTsr_bitv (s : State) (x : Byte) : (s.setTsr x).bitv = s.bitv := rfl
@[simp] theorem State.setTsr_det (s : State) (x : Byte) : (s.setTsr x).det = s.det := rfl
@[simp] theorem State.setTsr_ans (s : State) (x : Byte) : (s.setTsr x).ans = s.ans := rfl
@[simp] theorem State.setTsr_peerScl (s : State) (x : Byte) : (s.setTsr x).peerScl = s.peerScl := rfl
@[simp] theorem State.setTsr_peerSda (s : State) (x : Byte) : (s.setTsr x).peerSda = s.peerSda := rfl
@[simp] theorem State.setTsr_ppos (s : State) (x : Byte) : (s.setTsr x).ppos = s.ppos := rfl
@[simp] theorem State.setTsr_port (s : State) (x : Byte) : (s.setTsr x).port = s.port := rfl
@[simp] theorem State.setTsr_responses (s : State) (x : Byte) : (s.setTsr x).responses = s.responses := rfl
@[simp] theorem State.setTsr_statusOut (s : State) (x : Byte) : (s.setTsr x).statusOut = s.statusOut := rfl
@[simp] theorem State.setTsr_calls (s : State) (x : Byte) : (s.setTsr x).calls = s.calls := rfl
@[simp] theorem State.setTsr_inputs (s : State) (x : Byte) : (s.setTsr x).inputs = s.inputs := rfl
@[simp] theorem State.setTsr_answers (s : State) (x : Byte) : (s.setTsr x).answers = s.answers := rfl
@[simp] theorem State.setTsr_tick (s : State) (x : Byte) : (s.setTsr x).tick = s.tick := rfl
@[simp] theorem State.setTsr_busOpen (s : State) (x : Byte) : (s.setTsr x).busOpen = s.busOpen := rfl
@[simp] theorem State.setTsr_lastCond (s : State) (x : Byte) : (s.setTsr x).lastCond = s.lastCond := rfl
@[simp] theorem State.setTsr_unsanctioned (s : State) (x : Byte) : (s.setTsr x).unsanctioned = s.unsanctioned := rfl
@[simp] theorem State.setTsr_elapsed (s : State) (x : Byte) : (s.setTsr x).elapsed = s.elapsed := rfl

@[simp] theorem State.setTdir_mode (s : State) (b : Bool) : (s.setTdir b).mode = s.mode := rfl
@[simp] theorem State.setTdir_cfgValid (s : State) (b : Bool) : (s.setTdir b).cfgValid = s.cfgValid := rfl
@[simp] theorem State.setTdir_speed (s : State) (b : Bool) : (s.setTdir b).speed = s.speed := rfl
@[simp] theorem State.setTdir_low (s : State) (b : Bool) : (s.setTdir b).low = s.low := rfl
@[simp] theorem State.setTdir_high (s : State) (b : Bool) : (s.setTdir b).high = s.high := rfl
@[simp] theorem State.setTdir_tvalid (s : State) (b : Bool) : (s.setTdir b).tvalid = s.tvalid := rfl
@[simp] theorem State.setTdir_taddr (s : State) (b : Bool) : (s.setTdir b).taddr = s.taddr := rfl
@[simp] theorem State.setTdir_tfsm (s : State) (b : Bool) : (s.setTdir b).tfsm = s.tfsm := rfl
@[simp] theorem State.setTdir_sclOut (s : State) (b : Bool) : (s.setTdir b).sclOut = s.sclOut := rfl
@[simp] theorem State.setTdir_sdaOut (s : State) (b : Bool) : (s.setTdir b).sdaOut = s.sdaOut := rfl
@[simp] theorem State.setTdir_busy (s : State) (b : Bool) : (s.setTdir b).busy = s.busy := rfl
@[simp] theorem State.setTdir_cop (s : State) (b : Bool) : (s.setTdir b).cop = s.cop := rfl
@[simp] theorem State.setTdir_result (s : State) (b : Bool) : (s.setTdir b).result = s.result := rfl
@[simp] theorem State.setTdir_xaddr (s : State) (b : Bool) : (s.setTdir b).xaddr = s.xaddr := rfl
@[simp] theorem State.setTdir_xsegs (s : State) (b : Bool) : (s.setTdir b).xsegs = s.xsegs := rfl
@[simp] theorem State.setTdir_cpos (s : State) (b : Bool) : (s.setTdir b).cpos = s.cpos := rfl
@[simp] theorem State.setTdir_csr (s : State) (b : Bool) : (s.setTdir b).csr = s.csr := rfl
@[simp] theorem State.setTdir_cack (s : State) (b : Bool) : (s.setTdir b).cack = s.cack := rfl
@[simp] theorem State.setTdir_cabort (s : State) (b : Bool) : (s.setTdir b).cabort = s.cabort := rfl
@[simp] theorem State.setTdir_tpos (s : State) (b : Bool) : (s.setTdir b).tpos = s.tpos := rfl
@[simp] theorem State.setTdir_tsr (s : State) (b : Bool) : (s.setTdir b).tsr = s.tsr := rfl
@[simp] theorem State.setTdir_tfirst (s : State) (b : Bool) : (s.setTdir b).tfirst = s.tfirst := rfl
@[simp] theorem State.setTdir_edgePend (s : State) (b : Bool) : (s.setTdir b).edgePend = s.edgePend := rfl
@[simp] theorem State.setTdir_handlerPend (s : State) (b : Bool) : (s.setTdir b).handlerPend = s.handlerPend := rfl
@[simp] theorem State.setTdir_terr (s : State) (b : Bool) : (s.setTdir b).terr = s.terr := rfl
@[simp] theorem State.setTdir_tlast (s : State) (b : Bool) : (s.setTdir b).tlast = s.tlast := rfl
@[simp] theorem State.setTdir_mem (s : State) (b : Bool) : (s.setTdir b).mem = s.mem := rfl
@[simp] theorem State.setTdir_got (s : State) (b : Bool) : (s.setTdir b).got = s.got := rfl
@[simp] theorem State.setTdir_bitv (s : State) (b : Bool) : (s.setTdir b).bitv = s.bitv := rfl
@[simp] theorem State.setTdir_det (s : State) (b : Bool) : (s.setTdir b).det = s.det := rfl
@[simp] theorem State.setTdir_ans (s : State) (b : Bool) : (s.setTdir b).ans = s.ans := rfl
@[simp] theorem State.setTdir_peerScl (s : State) (b : Bool) : (s.setTdir b).peerScl = s.peerScl := rfl
@[simp] theorem State.setTdir_peerSda (s : State) (b : Bool) : (s.setTdir b).peerSda = s.peerSda := rfl
@[simp] theorem State.setTdir_ppos (s : State) (b : Bool) : (s.setTdir b).ppos = s.ppos := rfl
@[simp] theorem State.setTdir_port (s : State) (b : Bool) : (s.setTdir b).port = s.port := rfl
@[simp] theorem State.setTdir_responses (s : State) (b : Bool) : (s.setTdir b).responses = s.responses := rfl
@[simp] theorem State.setTdir_statusOut (s : State) (b : Bool) : (s.setTdir b).statusOut = s.statusOut := rfl
@[simp] theorem State.setTdir_calls (s : State) (b : Bool) : (s.setTdir b).calls = s.calls := rfl
@[simp] theorem State.setTdir_inputs (s : State) (b : Bool) : (s.setTdir b).inputs = s.inputs := rfl
@[simp] theorem State.setTdir_answers (s : State) (b : Bool) : (s.setTdir b).answers = s.answers := rfl
@[simp] theorem State.setTdir_tick (s : State) (b : Bool) : (s.setTdir b).tick = s.tick := rfl
@[simp] theorem State.setTdir_busOpen (s : State) (b : Bool) : (s.setTdir b).busOpen = s.busOpen := rfl
@[simp] theorem State.setTdir_lastCond (s : State) (b : Bool) : (s.setTdir b).lastCond = s.lastCond := rfl
@[simp] theorem State.setTdir_unsanctioned (s : State) (b : Bool) : (s.setTdir b).unsanctioned = s.unsanctioned := rfl
@[simp] theorem State.setTdir_elapsed (s : State) (b : Bool) : (s.setTdir b).elapsed = s.elapsed := rfl

@[simp] theorem State.setTfsm_mode (s : State) (x : Tfsm) : (s.setTfsm x).mode = s.mode := rfl
@[simp] theorem State.setTfsm_cfgValid (s : State) (x : Tfsm) : (s.setTfsm x).cfgValid = s.cfgValid := rfl
@[simp] theorem State.setTfsm_speed (s : State) (x : Tfsm) : (s.setTfsm x).speed = s.speed := rfl
@[simp] theorem State.setTfsm_low (s : State) (x : Tfsm) : (s.setTfsm x).low = s.low := rfl
@[simp] theorem State.setTfsm_high (s : State) (x : Tfsm) : (s.setTfsm x).high = s.high := rfl
@[simp] theorem State.setTfsm_tvalid (s : State) (x : Tfsm) : (s.setTfsm x).tvalid = s.tvalid := rfl
@[simp] theorem State.setTfsm_taddr (s : State) (x : Tfsm) : (s.setTfsm x).taddr = s.taddr := rfl
@[simp] theorem State.setTfsm_sclOut (s : State) (x : Tfsm) : (s.setTfsm x).sclOut = s.sclOut := rfl
@[simp] theorem State.setTfsm_sdaOut (s : State) (x : Tfsm) : (s.setTfsm x).sdaOut = s.sdaOut := rfl
@[simp] theorem State.setTfsm_busy (s : State) (x : Tfsm) : (s.setTfsm x).busy = s.busy := rfl
@[simp] theorem State.setTfsm_cop (s : State) (x : Tfsm) : (s.setTfsm x).cop = s.cop := rfl
@[simp] theorem State.setTfsm_result (s : State) (x : Tfsm) : (s.setTfsm x).result = s.result := rfl
@[simp] theorem State.setTfsm_xaddr (s : State) (x : Tfsm) : (s.setTfsm x).xaddr = s.xaddr := rfl
@[simp] theorem State.setTfsm_xsegs (s : State) (x : Tfsm) : (s.setTfsm x).xsegs = s.xsegs := rfl
@[simp] theorem State.setTfsm_cpos (s : State) (x : Tfsm) : (s.setTfsm x).cpos = s.cpos := rfl
@[simp] theorem State.setTfsm_csr (s : State) (x : Tfsm) : (s.setTfsm x).csr = s.csr := rfl
@[simp] theorem State.setTfsm_cack (s : State) (x : Tfsm) : (s.setTfsm x).cack = s.cack := rfl
@[simp] theorem State.setTfsm_cabort (s : State) (x : Tfsm) : (s.setTfsm x).cabort = s.cabort := rfl
@[simp] theorem State.setTfsm_tpos (s : State) (x : Tfsm) : (s.setTfsm x).tpos = s.tpos := rfl
@[simp] theorem State.setTfsm_tsr (s : State) (x : Tfsm) : (s.setTfsm x).tsr = s.tsr := rfl
@[simp] theorem State.setTfsm_tdir (s : State) (x : Tfsm) : (s.setTfsm x).tdir = s.tdir := rfl
@[simp] theorem State.setTfsm_tfirst (s : State) (x : Tfsm) : (s.setTfsm x).tfirst = s.tfirst := rfl
@[simp] theorem State.setTfsm_edgePend (s : State) (x : Tfsm) : (s.setTfsm x).edgePend = s.edgePend := rfl
@[simp] theorem State.setTfsm_handlerPend (s : State) (x : Tfsm) : (s.setTfsm x).handlerPend = s.handlerPend := rfl
@[simp] theorem State.setTfsm_terr (s : State) (x : Tfsm) : (s.setTfsm x).terr = s.terr := rfl
@[simp] theorem State.setTfsm_tlast (s : State) (x : Tfsm) : (s.setTfsm x).tlast = s.tlast := rfl
@[simp] theorem State.setTfsm_mem (s : State) (x : Tfsm) : (s.setTfsm x).mem = s.mem := rfl
@[simp] theorem State.setTfsm_got (s : State) (x : Tfsm) : (s.setTfsm x).got = s.got := rfl
@[simp] theorem State.setTfsm_bitv (s : State) (x : Tfsm) : (s.setTfsm x).bitv = s.bitv := rfl
@[simp] theorem State.setTfsm_det (s : State) (x : Tfsm) : (s.setTfsm x).det = s.det := rfl
@[simp] theorem State.setTfsm_ans (s : State) (x : Tfsm) : (s.setTfsm x).ans = s.ans := rfl
@[simp] theorem State.setTfsm_peerScl (s : State) (x : Tfsm) : (s.setTfsm x).peerScl = s.peerScl := rfl
@[simp] theorem State.setTfsm_peerSda (s : State) (x : Tfsm) : (s.setTfsm x).peerSda = s.peerSda := rfl
@[simp] theorem State.setTfsm_ppos (s : State) (x : Tfsm) : (s.setTfsm x).ppos = s.ppos := rfl
@[simp] theorem State.setTfsm_port (s : State) (x : Tfsm) : (s.setTfsm x).port = s.port := rfl
@[simp] theorem State.setTfsm_responses (s : State) (x : Tfsm) : (s.setTfsm x).responses = s.responses := rfl
@[simp] theorem State.setTfsm_statusOut (s : State) (x : Tfsm) : (s.setTfsm x).statusOut = s.statusOut := rfl
@[simp] theorem State.setTfsm_calls (s : State) (x : Tfsm) : (s.setTfsm x).calls = s.calls := rfl
@[simp] theorem State.setTfsm_inputs (s : State) (x : Tfsm) : (s.setTfsm x).inputs = s.inputs := rfl
@[simp] theorem State.setTfsm_answers (s : State) (x : Tfsm) : (s.setTfsm x).answers = s.answers := rfl
@[simp] theorem State.setTfsm_tick (s : State) (x : Tfsm) : (s.setTfsm x).tick = s.tick := rfl
@[simp] theorem State.setTfsm_busOpen (s : State) (x : Tfsm) : (s.setTfsm x).busOpen = s.busOpen := rfl
@[simp] theorem State.setTfsm_lastCond (s : State) (x : Tfsm) : (s.setTfsm x).lastCond = s.lastCond := rfl
@[simp] theorem State.setTfsm_unsanctioned (s : State) (x : Tfsm) : (s.setTfsm x).unsanctioned = s.unsanctioned := rfl
@[simp] theorem State.setTfsm_elapsed (s : State) (x : Tfsm) : (s.setTfsm x).elapsed = s.elapsed := rfl

@[simp] theorem State.setBitv_mode (s : State) (l : Level) : (s.setBitv l).mode = s.mode := rfl
@[simp] theorem State.setBitv_cfgValid (s : State) (l : Level) : (s.setBitv l).cfgValid = s.cfgValid := rfl
@[simp] theorem State.setBitv_speed (s : State) (l : Level) : (s.setBitv l).speed = s.speed := rfl
@[simp] theorem State.setBitv_low (s : State) (l : Level) : (s.setBitv l).low = s.low := rfl
@[simp] theorem State.setBitv_high (s : State) (l : Level) : (s.setBitv l).high = s.high := rfl
@[simp] theorem State.setBitv_tvalid (s : State) (l : Level) : (s.setBitv l).tvalid = s.tvalid := rfl
@[simp] theorem State.setBitv_taddr (s : State) (l : Level) : (s.setBitv l).taddr = s.taddr := rfl
@[simp] theorem State.setBitv_tfsm (s : State) (l : Level) : (s.setBitv l).tfsm = s.tfsm := rfl
@[simp] theorem State.setBitv_sclOut (s : State) (l : Level) : (s.setBitv l).sclOut = s.sclOut := rfl
@[simp] theorem State.setBitv_sdaOut (s : State) (l : Level) : (s.setBitv l).sdaOut = s.sdaOut := rfl
@[simp] theorem State.setBitv_busy (s : State) (l : Level) : (s.setBitv l).busy = s.busy := rfl
@[simp] theorem State.setBitv_cop (s : State) (l : Level) : (s.setBitv l).cop = s.cop := rfl
@[simp] theorem State.setBitv_result (s : State) (l : Level) : (s.setBitv l).result = s.result := rfl
@[simp] theorem State.setBitv_xaddr (s : State) (l : Level) : (s.setBitv l).xaddr = s.xaddr := rfl
@[simp] theorem State.setBitv_xsegs (s : State) (l : Level) : (s.setBitv l).xsegs = s.xsegs := rfl
@[simp] theorem State.setBitv_cpos (s : State) (l : Level) : (s.setBitv l).cpos = s.cpos := rfl
@[simp] theorem State.setBitv_csr (s : State) (l : Level) : (s.setBitv l).csr = s.csr := rfl
@[simp] theorem State.setBitv_cack (s : State) (l : Level) : (s.setBitv l).cack = s.cack := rfl
@[simp] theorem State.setBitv_cabort (s : State) (l : Level) : (s.setBitv l).cabort = s.cabort := rfl
@[simp] theorem State.setBitv_tpos (s : State) (l : Level) : (s.setBitv l).tpos = s.tpos := rfl
@[simp] theorem State.setBitv_tsr (s : State) (l : Level) : (s.setBitv l).tsr = s.tsr := rfl
@[simp] theorem State.setBitv_tdir (s : State) (l : Level) : (s.setBitv l).tdir = s.tdir := rfl
@[simp] theorem State.setBitv_tfirst (s : State) (l : Level) : (s.setBitv l).tfirst = s.tfirst := rfl
@[simp] theorem State.setBitv_edgePend (s : State) (l : Level) : (s.setBitv l).edgePend = s.edgePend := rfl
@[simp] theorem State.setBitv_handlerPend (s : State) (l : Level) : (s.setBitv l).handlerPend = s.handlerPend := rfl
@[simp] theorem State.setBitv_terr (s : State) (l : Level) : (s.setBitv l).terr = s.terr := rfl
@[simp] theorem State.setBitv_tlast (s : State) (l : Level) : (s.setBitv l).tlast = s.tlast := rfl
@[simp] theorem State.setBitv_mem (s : State) (l : Level) : (s.setBitv l).mem = s.mem := rfl
@[simp] theorem State.setBitv_got (s : State) (l : Level) : (s.setBitv l).got = s.got := rfl
@[simp] theorem State.setBitv_det (s : State) (l : Level) : (s.setBitv l).det = s.det := rfl
@[simp] theorem State.setBitv_ans (s : State) (l : Level) : (s.setBitv l).ans = s.ans := rfl
@[simp] theorem State.setBitv_peerScl (s : State) (l : Level) : (s.setBitv l).peerScl = s.peerScl := rfl
@[simp] theorem State.setBitv_peerSda (s : State) (l : Level) : (s.setBitv l).peerSda = s.peerSda := rfl
@[simp] theorem State.setBitv_ppos (s : State) (l : Level) : (s.setBitv l).ppos = s.ppos := rfl
@[simp] theorem State.setBitv_port (s : State) (l : Level) : (s.setBitv l).port = s.port := rfl
@[simp] theorem State.setBitv_responses (s : State) (l : Level) : (s.setBitv l).responses = s.responses := rfl
@[simp] theorem State.setBitv_statusOut (s : State) (l : Level) : (s.setBitv l).statusOut = s.statusOut := rfl
@[simp] theorem State.setBitv_calls (s : State) (l : Level) : (s.setBitv l).calls = s.calls := rfl
@[simp] theorem State.setBitv_inputs (s : State) (l : Level) : (s.setBitv l).inputs = s.inputs := rfl
@[simp] theorem State.setBitv_answers (s : State) (l : Level) : (s.setBitv l).answers = s.answers := rfl
@[simp] theorem State.setBitv_tick (s : State) (l : Level) : (s.setBitv l).tick = s.tick := rfl
@[simp] theorem State.setBitv_busOpen (s : State) (l : Level) : (s.setBitv l).busOpen = s.busOpen := rfl
@[simp] theorem State.setBitv_lastCond (s : State) (l : Level) : (s.setBitv l).lastCond = s.lastCond := rfl
@[simp] theorem State.setBitv_unsanctioned (s : State) (l : Level) : (s.setBitv l).unsanctioned = s.unsanctioned := rfl
@[simp] theorem State.setBitv_elapsed (s : State) (l : Level) : (s.setBitv l).elapsed = s.elapsed := rfl

@[simp] theorem State.setMem_mode (s : State) (m : Memory) : (s.setMem m).mode = s.mode := rfl
@[simp] theorem State.setMem_cfgValid (s : State) (m : Memory) : (s.setMem m).cfgValid = s.cfgValid := rfl
@[simp] theorem State.setMem_speed (s : State) (m : Memory) : (s.setMem m).speed = s.speed := rfl
@[simp] theorem State.setMem_low (s : State) (m : Memory) : (s.setMem m).low = s.low := rfl
@[simp] theorem State.setMem_high (s : State) (m : Memory) : (s.setMem m).high = s.high := rfl
@[simp] theorem State.setMem_tvalid (s : State) (m : Memory) : (s.setMem m).tvalid = s.tvalid := rfl
@[simp] theorem State.setMem_taddr (s : State) (m : Memory) : (s.setMem m).taddr = s.taddr := rfl
@[simp] theorem State.setMem_tfsm (s : State) (m : Memory) : (s.setMem m).tfsm = s.tfsm := rfl
@[simp] theorem State.setMem_sclOut (s : State) (m : Memory) : (s.setMem m).sclOut = s.sclOut := rfl
@[simp] theorem State.setMem_sdaOut (s : State) (m : Memory) : (s.setMem m).sdaOut = s.sdaOut := rfl
@[simp] theorem State.setMem_busy (s : State) (m : Memory) : (s.setMem m).busy = s.busy := rfl
@[simp] theorem State.setMem_cop (s : State) (m : Memory) : (s.setMem m).cop = s.cop := rfl
@[simp] theorem State.setMem_result (s : State) (m : Memory) : (s.setMem m).result = s.result := rfl
@[simp] theorem State.setMem_xaddr (s : State) (m : Memory) : (s.setMem m).xaddr = s.xaddr := rfl
@[simp] theorem State.setMem_xsegs (s : State) (m : Memory) : (s.setMem m).xsegs = s.xsegs := rfl
@[simp] theorem State.setMem_cpos (s : State) (m : Memory) : (s.setMem m).cpos = s.cpos := rfl
@[simp] theorem State.setMem_csr (s : State) (m : Memory) : (s.setMem m).csr = s.csr := rfl
@[simp] theorem State.setMem_cack (s : State) (m : Memory) : (s.setMem m).cack = s.cack := rfl
@[simp] theorem State.setMem_cabort (s : State) (m : Memory) : (s.setMem m).cabort = s.cabort := rfl
@[simp] theorem State.setMem_tpos (s : State) (m : Memory) : (s.setMem m).tpos = s.tpos := rfl
@[simp] theorem State.setMem_tsr (s : State) (m : Memory) : (s.setMem m).tsr = s.tsr := rfl
@[simp] theorem State.setMem_tdir (s : State) (m : Memory) : (s.setMem m).tdir = s.tdir := rfl
@[simp] theorem State.setMem_tfirst (s : State) (m : Memory) : (s.setMem m).tfirst = s.tfirst := rfl
@[simp] theorem State.setMem_edgePend (s : State) (m : Memory) : (s.setMem m).edgePend = s.edgePend := rfl
@[simp] theorem State.setMem_handlerPend (s : State) (m : Memory) : (s.setMem m).handlerPend = s.handlerPend := rfl
@[simp] theorem State.setMem_terr (s : State) (m : Memory) : (s.setMem m).terr = s.terr := rfl
@[simp] theorem State.setMem_tlast (s : State) (m : Memory) : (s.setMem m).tlast = s.tlast := rfl
@[simp] theorem State.setMem_got (s : State) (m : Memory) : (s.setMem m).got = s.got := rfl
@[simp] theorem State.setMem_bitv (s : State) (m : Memory) : (s.setMem m).bitv = s.bitv := rfl
@[simp] theorem State.setMem_det (s : State) (m : Memory) : (s.setMem m).det = s.det := rfl
@[simp] theorem State.setMem_ans (s : State) (m : Memory) : (s.setMem m).ans = s.ans := rfl
@[simp] theorem State.setMem_peerScl (s : State) (m : Memory) : (s.setMem m).peerScl = s.peerScl := rfl
@[simp] theorem State.setMem_peerSda (s : State) (m : Memory) : (s.setMem m).peerSda = s.peerSda := rfl
@[simp] theorem State.setMem_ppos (s : State) (m : Memory) : (s.setMem m).ppos = s.ppos := rfl
@[simp] theorem State.setMem_port (s : State) (m : Memory) : (s.setMem m).port = s.port := rfl
@[simp] theorem State.setMem_responses (s : State) (m : Memory) : (s.setMem m).responses = s.responses := rfl
@[simp] theorem State.setMem_statusOut (s : State) (m : Memory) : (s.setMem m).statusOut = s.statusOut := rfl
@[simp] theorem State.setMem_calls (s : State) (m : Memory) : (s.setMem m).calls = s.calls := rfl
@[simp] theorem State.setMem_inputs (s : State) (m : Memory) : (s.setMem m).inputs = s.inputs := rfl
@[simp] theorem State.setMem_answers (s : State) (m : Memory) : (s.setMem m).answers = s.answers := rfl
@[simp] theorem State.setMem_tick (s : State) (m : Memory) : (s.setMem m).tick = s.tick := rfl
@[simp] theorem State.setMem_busOpen (s : State) (m : Memory) : (s.setMem m).busOpen = s.busOpen := rfl
@[simp] theorem State.setMem_lastCond (s : State) (m : Memory) : (s.setMem m).lastCond = s.lastCond := rfl
@[simp] theorem State.setMem_unsanctioned (s : State) (m : Memory) : (s.setMem m).unsanctioned = s.unsanctioned := rfl
@[simp] theorem State.setMem_elapsed (s : State) (m : Memory) : (s.setMem m).elapsed = s.elapsed := rfl

@[simp] theorem State.setDetect_mode (s : State) (d : Detect) (o : Option Level) : (s.setDetect d o).mode = s.mode := rfl
@[simp] theorem State.setDetect_cfgValid (s : State) (d : Detect) (o : Option Level) : (s.setDetect d o).cfgValid = s.cfgValid := rfl
@[simp] theorem State.setDetect_speed (s : State) (d : Detect) (o : Option Level) : (s.setDetect d o).speed = s.speed := rfl
@[simp] theorem State.setDetect_low (s : State) (d : Detect) (o : Option Level) : (s.setDetect d o).low = s.low := rfl
@[simp] theorem State.setDetect_high (s : State) (d : Detect) (o : Option Level) : (s.setDetect d o).high = s.high := rfl
@[simp] theorem State.setDetect_tvalid (s : State) (d : Detect) (o : Option Level) : (s.setDetect d o).tvalid = s.tvalid := rfl
@[simp] theorem State.setDetect_taddr (s : State) (d : Detect) (o : Option Level) : (s.setDetect d o).taddr = s.taddr := rfl
@[simp] theorem State.setDetect_tfsm (s : State) (d : Detect) (o : Option Level) : (s.setDetect d o).tfsm = s.tfsm := rfl
@[simp] theorem State.setDetect_sclOut (s : State) (d : Detect) (o : Option Level) : (s.setDetect d o).sclOut = s.sclOut := rfl
@[simp] theorem State.setDetect_sdaOut (s : State) (d : Detect) (o : Option Level) : (s.setDetect d o).sdaOut = s.sdaOut := rfl
@[simp] theorem State.setDetect_busy (s : State) (d : Detect) (o : Option Level) : (s.setDetect d o).busy = s.busy := rfl
@[simp] theorem State.setDetect_cop (s : State) (d : Detect) (o : Option Level) : (s.setDetect d o).cop = s.cop := rfl
@[simp] theorem State.setDetect_result (s : State) (d : Detect) (o : Option Level) : (s.setDetect d o).result = s.result := rfl
@[simp] theorem State.setDetect_xaddr (s : State) (d : Detect) (o : Option Level) : (s.setDetect d o).xaddr = s.xaddr := rfl
@[simp] theorem State.setDetect_xsegs (s : State) (d : Detect) (o : Option Level) : (s.setDetect d o).xsegs = s.xsegs := rfl
@[simp] theorem State.setDetect_cpos (s : State) (d : Detect) (o : Option Level) : (s.setDetect d o).cpos = s.cpos := rfl
@[simp] theorem State.setDetect_csr (s : State) (d : Detect) (o : Option Level) : (s.setDetect d o).csr = s.csr := rfl
@[simp] theorem State.setDetect_cack (s : State) (d : Detect) (o : Option Level) : (s.setDetect d o).cack = s.cack := rfl
@[simp] theorem State.setDetect_cabort (s : State) (d : Detect) (o : Option Level) : (s.setDetect d o).cabort = s.cabort := rfl
@[simp] theorem State.setDetect_tpos (s : State) (d : Detect) (o : Option Level) : (s.setDetect d o).tpos = s.tpos := rfl
@[simp] theorem State.setDetect_tsr (s : State) (d : Detect) (o : Option Level) : (s.setDetect d o).tsr = s.tsr := rfl
@[simp] theorem State.setDetect_tdir (s : State) (d : Detect) (o : Option Level) : (s.setDetect d o).tdir = s.tdir := rfl
@[simp] theorem State.setDetect_edgePend (s : State) (d : Detect) (o : Option Level) : (s.setDetect d o).edgePend = s.edgePend := rfl
@[simp] theorem State.setDetect_handlerPend (s : State) (d : Detect) (o : Option Level) : (s.setDetect d o).handlerPend = s.handlerPend := rfl
@[simp] theorem State.setDetect_terr (s : State) (d : Detect) (o : Option Level) : (s.setDetect d o).terr = s.terr := rfl
@[simp] theorem State.setDetect_tlast (s : State) (d : Detect) (o : Option Level) : (s.setDetect d o).tlast = s.tlast := rfl
@[simp] theorem State.setDetect_mem (s : State) (d : Detect) (o : Option Level) : (s.setDetect d o).mem = s.mem := rfl
@[simp] theorem State.setDetect_got (s : State) (d : Detect) (o : Option Level) : (s.setDetect d o).got = s.got := rfl
@[simp] theorem State.setDetect_bitv (s : State) (d : Detect) (o : Option Level) : (s.setDetect d o).bitv = s.bitv := rfl
@[simp] theorem State.setDetect_ans (s : State) (d : Detect) (o : Option Level) : (s.setDetect d o).ans = s.ans := rfl
@[simp] theorem State.setDetect_peerScl (s : State) (d : Detect) (o : Option Level) : (s.setDetect d o).peerScl = s.peerScl := rfl
@[simp] theorem State.setDetect_peerSda (s : State) (d : Detect) (o : Option Level) : (s.setDetect d o).peerSda = s.peerSda := rfl
@[simp] theorem State.setDetect_ppos (s : State) (d : Detect) (o : Option Level) : (s.setDetect d o).ppos = s.ppos := rfl
@[simp] theorem State.setDetect_port (s : State) (d : Detect) (o : Option Level) : (s.setDetect d o).port = s.port := rfl
@[simp] theorem State.setDetect_responses (s : State) (d : Detect) (o : Option Level) : (s.setDetect d o).responses = s.responses := rfl
@[simp] theorem State.setDetect_statusOut (s : State) (d : Detect) (o : Option Level) : (s.setDetect d o).statusOut = s.statusOut := rfl
@[simp] theorem State.setDetect_calls (s : State) (d : Detect) (o : Option Level) : (s.setDetect d o).calls = s.calls := rfl
@[simp] theorem State.setDetect_inputs (s : State) (d : Detect) (o : Option Level) : (s.setDetect d o).inputs = s.inputs := rfl
@[simp] theorem State.setDetect_answers (s : State) (d : Detect) (o : Option Level) : (s.setDetect d o).answers = s.answers := rfl
@[simp] theorem State.setDetect_tick (s : State) (d : Detect) (o : Option Level) : (s.setDetect d o).tick = s.tick := rfl
@[simp] theorem State.setDetect_busOpen (s : State) (d : Detect) (o : Option Level) : (s.setDetect d o).busOpen = s.busOpen := rfl
@[simp] theorem State.setDetect_lastCond (s : State) (d : Detect) (o : Option Level) : (s.setDetect d o).lastCond = s.lastCond := rfl
@[simp] theorem State.setDetect_unsanctioned (s : State) (d : Detect) (o : Option Level) : (s.setDetect d o).unsanctioned = s.unsanctioned := rfl
@[simp] theorem State.setDetect_elapsed (s : State) (d : Detect) (o : Option Level) : (s.setDetect d o).elapsed = s.elapsed := rfl

@[simp] theorem State.startHandler_mode (s : State) : (s.startHandler).mode = s.mode := rfl
@[simp] theorem State.startHandler_cfgValid (s : State) : (s.startHandler).cfgValid = s.cfgValid := rfl
@[simp] theorem State.startHandler_speed (s : State) : (s.startHandler).speed = s.speed := rfl
@[simp] theorem State.startHandler_low (s : State) : (s.startHandler).low = s.low := rfl
@[simp] theorem State.startHandler_high (s : State) : (s.startHandler).high = s.high := rfl
@[simp] theorem State.startHandler_tvalid (s : State) : (s.startHandler).tvalid = s.tvalid := rfl
@[simp] theorem State.startHandler_taddr (s : State) : (s.startHandler).taddr = s.taddr := rfl
@[simp] theorem State.startHandler_sclOut (s : State) : (s.startHandler).sclOut = s.sclOut := rfl
@[simp] theorem State.startHandler_sdaOut (s : State) : (s.startHandler).sdaOut = s.sdaOut := rfl
@[simp] theorem State.startHandler_busy (s : State) : (s.startHandler).busy = s.busy := rfl
@[simp] theorem State.startHandler_cop (s : State) : (s.startHandler).cop = s.cop := rfl
@[simp] theorem State.startHandler_result (s : State) : (s.startHandler).result = s.result := rfl
@[simp] theorem State.startHandler_xaddr (s : State) : (s.startHandler).xaddr = s.xaddr := rfl
@[simp] theorem State.startHandler_xsegs (s : State) : (s.startHandler).xsegs = s.xsegs := rfl
@[simp] theorem State.startHandler_cpos (s : State) : (s.startHandler).cpos = s.cpos := rfl
@[simp] theorem State.startHandler_csr (s : State) : (s.startHandler).csr = s.csr := rfl
@[simp] theorem State.startHandler_cack (s : State) : (s.startHandler).cack = s.cack := rfl
@[simp] theorem State.startHandler_cabort (s : State) : (s.startHandler).cabort = s.cabort := rfl
@[simp] theorem State.startHandler_tsr (s : State) : (s.startHandler).tsr = s.tsr := rfl
@[simp] theorem State.startHandler_tdir (s : State) : (s.startHandler).tdir = s.tdir := rfl
@[simp] theorem State.startHandler_tfirst (s : State) : (s.startHandler).tfirst = s.tfirst := rfl
@[simp] theorem State.startHandler_edgePend (s : State) : (s.startHandler).edgePend = s.edgePend := rfl
@[simp] theorem State.startHandler_terr (s : State) : (s.startHandler).terr = s.terr := rfl
@[simp] theorem State.startHandler_tlast (s : State) : (s.startHandler).tlast = s.tlast := rfl
@[simp] theorem State.startHandler_mem (s : State) : (s.startHandler).mem = s.mem := rfl
@[simp] theorem State.startHandler_got (s : State) : (s.startHandler).got = s.got := rfl
@[simp] theorem State.startHandler_bitv (s : State) : (s.startHandler).bitv = s.bitv := rfl
@[simp] theorem State.startHandler_det (s : State) : (s.startHandler).det = s.det := rfl
@[simp] theorem State.startHandler_ans (s : State) : (s.startHandler).ans = s.ans := rfl
@[simp] theorem State.startHandler_peerScl (s : State) : (s.startHandler).peerScl = s.peerScl := rfl
@[simp] theorem State.startHandler_peerSda (s : State) : (s.startHandler).peerSda = s.peerSda := rfl
@[simp] theorem State.startHandler_ppos (s : State) : (s.startHandler).ppos = s.ppos := rfl
@[simp] theorem State.startHandler_port (s : State) : (s.startHandler).port = s.port := rfl
@[simp] theorem State.startHandler_responses (s : State) : (s.startHandler).responses = s.responses := rfl
@[simp] theorem State.startHandler_statusOut (s : State) : (s.startHandler).statusOut = s.statusOut := rfl
@[simp] theorem State.startHandler_calls (s : State) : (s.startHandler).calls = s.calls := rfl
@[simp] theorem State.startHandler_inputs (s : State) : (s.startHandler).inputs = s.inputs := rfl
@[simp] theorem State.startHandler_answers (s : State) : (s.startHandler).answers = s.answers := rfl
@[simp] theorem State.startHandler_tick (s : State) : (s.startHandler).tick = s.tick := rfl
@[simp] theorem State.startHandler_busOpen (s : State) : (s.startHandler).busOpen = s.busOpen := rfl
@[simp] theorem State.startHandler_lastCond (s : State) : (s.startHandler).lastCond = s.lastCond := rfl
@[simp] theorem State.startHandler_unsanctioned (s : State) : (s.startHandler).unsanctioned = s.unsanctioned := rfl
@[simp] theorem State.startHandler_elapsed (s : State) : (s.startHandler).elapsed = s.elapsed := rfl

@[simp] theorem State.layAnswer_mode (s : State) (b : Byte) : (s.layAnswer b).mode = s.mode := rfl
@[simp] theorem State.layAnswer_cfgValid (s : State) (b : Byte) : (s.layAnswer b).cfgValid = s.cfgValid := rfl
@[simp] theorem State.layAnswer_speed (s : State) (b : Byte) : (s.layAnswer b).speed = s.speed := rfl
@[simp] theorem State.layAnswer_low (s : State) (b : Byte) : (s.layAnswer b).low = s.low := rfl
@[simp] theorem State.layAnswer_high (s : State) (b : Byte) : (s.layAnswer b).high = s.high := rfl
@[simp] theorem State.layAnswer_tvalid (s : State) (b : Byte) : (s.layAnswer b).tvalid = s.tvalid := rfl
@[simp] theorem State.layAnswer_taddr (s : State) (b : Byte) : (s.layAnswer b).taddr = s.taddr := rfl
@[simp] theorem State.layAnswer_tfsm (s : State) (b : Byte) : (s.layAnswer b).tfsm = s.tfsm := rfl
@[simp] theorem State.layAnswer_sclOut (s : State) (b : Byte) : (s.layAnswer b).sclOut = s.sclOut := rfl
@[simp] theorem State.layAnswer_sdaOut (s : State) (b : Byte) : (s.layAnswer b).sdaOut = s.sdaOut := rfl
@[simp] theorem State.layAnswer_busy (s : State) (b : Byte) : (s.layAnswer b).busy = s.busy := rfl
@[simp] theorem State.layAnswer_cop (s : State) (b : Byte) : (s.layAnswer b).cop = s.cop := rfl
@[simp] theorem State.layAnswer_result (s : State) (b : Byte) : (s.layAnswer b).result = s.result := rfl
@[simp] theorem State.layAnswer_xaddr (s : State) (b : Byte) : (s.layAnswer b).xaddr = s.xaddr := rfl
@[simp] theorem State.layAnswer_xsegs (s : State) (b : Byte) : (s.layAnswer b).xsegs = s.xsegs := rfl
@[simp] theorem State.layAnswer_cpos (s : State) (b : Byte) : (s.layAnswer b).cpos = s.cpos := rfl
@[simp] theorem State.layAnswer_csr (s : State) (b : Byte) : (s.layAnswer b).csr = s.csr := rfl
@[simp] theorem State.layAnswer_cack (s : State) (b : Byte) : (s.layAnswer b).cack = s.cack := rfl
@[simp] theorem State.layAnswer_cabort (s : State) (b : Byte) : (s.layAnswer b).cabort = s.cabort := rfl
@[simp] theorem State.layAnswer_tpos (s : State) (b : Byte) : (s.layAnswer b).tpos = s.tpos := rfl
@[simp] theorem State.layAnswer_tsr (s : State) (b : Byte) : (s.layAnswer b).tsr = s.tsr := rfl
@[simp] theorem State.layAnswer_tdir (s : State) (b : Byte) : (s.layAnswer b).tdir = s.tdir := rfl
@[simp] theorem State.layAnswer_tfirst (s : State) (b : Byte) : (s.layAnswer b).tfirst = s.tfirst := rfl
@[simp] theorem State.layAnswer_edgePend (s : State) (b : Byte) : (s.layAnswer b).edgePend = s.edgePend := rfl
@[simp] theorem State.layAnswer_handlerPend (s : State) (b : Byte) : (s.layAnswer b).handlerPend = s.handlerPend := rfl
@[simp] theorem State.layAnswer_terr (s : State) (b : Byte) : (s.layAnswer b).terr = s.terr := rfl
@[simp] theorem State.layAnswer_tlast (s : State) (b : Byte) : (s.layAnswer b).tlast = s.tlast := rfl
@[simp] theorem State.layAnswer_mem (s : State) (b : Byte) : (s.layAnswer b).mem = s.mem := rfl
@[simp] theorem State.layAnswer_got (s : State) (b : Byte) : (s.layAnswer b).got = s.got := rfl
@[simp] theorem State.layAnswer_bitv (s : State) (b : Byte) : (s.layAnswer b).bitv = s.bitv := rfl
@[simp] theorem State.layAnswer_det (s : State) (b : Byte) : (s.layAnswer b).det = s.det := rfl
@[simp] theorem State.layAnswer_ans (s : State) (b : Byte) : (s.layAnswer b).ans = s.ans := rfl
@[simp] theorem State.layAnswer_peerScl (s : State) (b : Byte) : (s.layAnswer b).peerScl = s.peerScl := rfl
@[simp] theorem State.layAnswer_peerSda (s : State) (b : Byte) : (s.layAnswer b).peerSda = s.peerSda := rfl
@[simp] theorem State.layAnswer_ppos (s : State) (b : Byte) : (s.layAnswer b).ppos = s.ppos := rfl
@[simp] theorem State.layAnswer_port (s : State) (b : Byte) : (s.layAnswer b).port = s.port := rfl
@[simp] theorem State.layAnswer_responses (s : State) (b : Byte) : (s.layAnswer b).responses = s.responses := rfl
@[simp] theorem State.layAnswer_statusOut (s : State) (b : Byte) : (s.layAnswer b).statusOut = s.statusOut := rfl
@[simp] theorem State.layAnswer_calls (s : State) (b : Byte) : (s.layAnswer b).calls = s.calls := rfl
@[simp] theorem State.layAnswer_inputs (s : State) (b : Byte) : (s.layAnswer b).inputs = s.inputs := rfl
@[simp] theorem State.layAnswer_tick (s : State) (b : Byte) : (s.layAnswer b).tick = s.tick := rfl
@[simp] theorem State.layAnswer_busOpen (s : State) (b : Byte) : (s.layAnswer b).busOpen = s.busOpen := rfl
@[simp] theorem State.layAnswer_lastCond (s : State) (b : Byte) : (s.layAnswer b).lastCond = s.lastCond := rfl
@[simp] theorem State.layAnswer_unsanctioned (s : State) (b : Byte) : (s.layAnswer b).unsanctioned = s.unsanctioned := rfl
@[simp] theorem State.layAnswer_elapsed (s : State) (b : Byte) : (s.layAnswer b).elapsed = s.elapsed := rfl

@[simp] theorem State.observe_mode (b s : State) : (b.observe s).mode = s.mode := rfl
@[simp] theorem State.observe_cfgValid (b s : State) : (b.observe s).cfgValid = s.cfgValid := rfl
@[simp] theorem State.observe_speed (b s : State) : (b.observe s).speed = s.speed := rfl
@[simp] theorem State.observe_low (b s : State) : (b.observe s).low = s.low := rfl
@[simp] theorem State.observe_high (b s : State) : (b.observe s).high = s.high := rfl
@[simp] theorem State.observe_tvalid (b s : State) : (b.observe s).tvalid = s.tvalid := rfl
@[simp] theorem State.observe_taddr (b s : State) : (b.observe s).taddr = s.taddr := rfl
@[simp] theorem State.observe_tfsm (b s : State) : (b.observe s).tfsm = s.tfsm := rfl
@[simp] theorem State.observe_sclOut (b s : State) : (b.observe s).sclOut = s.sclOut := rfl
@[simp] theorem State.observe_sdaOut (b s : State) : (b.observe s).sdaOut = s.sdaOut := rfl
@[simp] theorem State.observe_busy (b s : State) : (b.observe s).busy = s.busy := rfl
@[simp] theorem State.observe_cop (b s : State) : (b.observe s).cop = s.cop := rfl
@[simp] theorem State.observe_result (b s : State) : (b.observe s).result = s.result := rfl
@[simp] theorem State.observe_xaddr (b s : State) : (b.observe s).xaddr = s.xaddr := rfl
@[simp] theorem State.observe_xsegs (b s : State) : (b.observe s).xsegs = s.xsegs := rfl
@[simp] theorem State.observe_cpos (b s : State) : (b.observe s).cpos = s.cpos := rfl
@[simp] theorem State.observe_csr (b s : State) : (b.observe s).csr = s.csr := rfl
@[simp] theorem State.observe_cack (b s : State) : (b.observe s).cack = s.cack := rfl
@[simp] theorem State.observe_cabort (b s : State) : (b.observe s).cabort = s.cabort := rfl
@[simp] theorem State.observe_tpos (b s : State) : (b.observe s).tpos = s.tpos := rfl
@[simp] theorem State.observe_tsr (b s : State) : (b.observe s).tsr = s.tsr := rfl
@[simp] theorem State.observe_tdir (b s : State) : (b.observe s).tdir = s.tdir := rfl
@[simp] theorem State.observe_tfirst (b s : State) : (b.observe s).tfirst = s.tfirst := rfl
@[simp] theorem State.observe_handlerPend (b s : State) : (b.observe s).handlerPend = s.handlerPend := rfl
@[simp] theorem State.observe_terr (b s : State) : (b.observe s).terr = s.terr := rfl
@[simp] theorem State.observe_tlast (b s : State) : (b.observe s).tlast = s.tlast := rfl
@[simp] theorem State.observe_mem (b s : State) : (b.observe s).mem = s.mem := rfl
@[simp] theorem State.observe_got (b s : State) : (b.observe s).got = s.got := rfl
@[simp] theorem State.observe_bitv (b s : State) : (b.observe s).bitv = s.bitv := rfl
@[simp] theorem State.observe_det (b s : State) : (b.observe s).det = s.det := rfl
@[simp] theorem State.observe_ans (b s : State) : (b.observe s).ans = s.ans := rfl
@[simp] theorem State.observe_peerScl (b s : State) : (b.observe s).peerScl = s.peerScl := rfl
@[simp] theorem State.observe_peerSda (b s : State) : (b.observe s).peerSda = s.peerSda := rfl
@[simp] theorem State.observe_ppos (b s : State) : (b.observe s).ppos = s.ppos := rfl
@[simp] theorem State.observe_port (b s : State) : (b.observe s).port = s.port := rfl
@[simp] theorem State.observe_responses (b s : State) : (b.observe s).responses = s.responses := rfl
@[simp] theorem State.observe_statusOut (b s : State) : (b.observe s).statusOut = s.statusOut := rfl
@[simp] theorem State.observe_calls (b s : State) : (b.observe s).calls = s.calls := rfl
@[simp] theorem State.observe_inputs (b s : State) : (b.observe s).inputs = s.inputs := rfl
@[simp] theorem State.observe_answers (b s : State) : (b.observe s).answers = s.answers := rfl
@[simp] theorem State.observe_tick (b s : State) : (b.observe s).tick = s.tick := rfl
@[simp] theorem State.observe_elapsed (b s : State) : (b.observe s).elapsed = s.elapsed := rfl

@[simp] theorem State.driveScl_mode (s : State) (l : Level) : (s.driveScl l).mode = s.mode := rfl
@[simp] theorem State.driveScl_cfgValid (s : State) (l : Level) : (s.driveScl l).cfgValid = s.cfgValid := rfl
@[simp] theorem State.driveScl_speed (s : State) (l : Level) : (s.driveScl l).speed = s.speed := rfl
@[simp] theorem State.driveScl_low (s : State) (l : Level) : (s.driveScl l).low = s.low := rfl
@[simp] theorem State.driveScl_high (s : State) (l : Level) : (s.driveScl l).high = s.high := rfl
@[simp] theorem State.driveScl_tvalid (s : State) (l : Level) : (s.driveScl l).tvalid = s.tvalid := rfl
@[simp] theorem State.driveScl_taddr (s : State) (l : Level) : (s.driveScl l).taddr = s.taddr := rfl
@[simp] theorem State.driveScl_tfsm (s : State) (l : Level) : (s.driveScl l).tfsm = s.tfsm := rfl
@[simp] theorem State.driveScl_sdaOut (s : State) (l : Level) : (s.driveScl l).sdaOut = s.sdaOut := rfl
@[simp] theorem State.driveScl_busy (s : State) (l : Level) : (s.driveScl l).busy = s.busy := rfl
@[simp] theorem State.driveScl_cop (s : State) (l : Level) : (s.driveScl l).cop = s.cop := rfl
@[simp] theorem State.driveScl_result (s : State) (l : Level) : (s.driveScl l).result = s.result := rfl
@[simp] theorem State.driveScl_xaddr (s : State) (l : Level) : (s.driveScl l).xaddr = s.xaddr := rfl
@[simp] theorem State.driveScl_xsegs (s : State) (l : Level) : (s.driveScl l).xsegs = s.xsegs := rfl
@[simp] theorem State.driveScl_cpos (s : State) (l : Level) : (s.driveScl l).cpos = s.cpos := rfl
@[simp] theorem State.driveScl_csr (s : State) (l : Level) : (s.driveScl l).csr = s.csr := rfl
@[simp] theorem State.driveScl_cack (s : State) (l : Level) : (s.driveScl l).cack = s.cack := rfl
@[simp] theorem State.driveScl_cabort (s : State) (l : Level) : (s.driveScl l).cabort = s.cabort := rfl
@[simp] theorem State.driveScl_tpos (s : State) (l : Level) : (s.driveScl l).tpos = s.tpos := rfl
@[simp] theorem State.driveScl_tsr (s : State) (l : Level) : (s.driveScl l).tsr = s.tsr := rfl
@[simp] theorem State.driveScl_tdir (s : State) (l : Level) : (s.driveScl l).tdir = s.tdir := rfl
@[simp] theorem State.driveScl_tfirst (s : State) (l : Level) : (s.driveScl l).tfirst = s.tfirst := rfl
@[simp] theorem State.driveScl_handlerPend (s : State) (l : Level) : (s.driveScl l).handlerPend = s.handlerPend := rfl
@[simp] theorem State.driveScl_terr (s : State) (l : Level) : (s.driveScl l).terr = s.terr := rfl
@[simp] theorem State.driveScl_tlast (s : State) (l : Level) : (s.driveScl l).tlast = s.tlast := rfl
@[simp] theorem State.driveScl_mem (s : State) (l : Level) : (s.driveScl l).mem = s.mem := rfl
@[simp] theorem State.driveScl_got (s : State) (l : Level) : (s.driveScl l).got = s.got := rfl
@[simp] theorem State.driveScl_bitv (s : State) (l : Level) : (s.driveScl l).bitv = s.bitv := rfl
@[simp] theorem State.driveScl_det (s : State) (l : Level) : (s.driveScl l).det = s.det := rfl
@[simp] theorem State.driveScl_ans (s : State) (l : Level) : (s.driveScl l).ans = s.ans := rfl
@[simp] theorem State.driveScl_peerScl (s : State) (l : Level) : (s.driveScl l).peerScl = s.peerScl := rfl
@[simp] theorem State.driveScl_peerSda (s : State) (l : Level) : (s.driveScl l).peerSda = s.peerSda := rfl
@[simp] theorem State.driveScl_ppos (s : State) (l : Level) : (s.driveScl l).ppos = s.ppos := rfl
@[simp] theorem State.driveScl_port (s : State) (l : Level) : (s.driveScl l).port = s.port := rfl
@[simp] theorem State.driveScl_responses (s : State) (l : Level) : (s.driveScl l).responses = s.responses := rfl
@[simp] theorem State.driveScl_statusOut (s : State) (l : Level) : (s.driveScl l).statusOut = s.statusOut := rfl
@[simp] theorem State.driveScl_calls (s : State) (l : Level) : (s.driveScl l).calls = s.calls := rfl
@[simp] theorem State.driveScl_inputs (s : State) (l : Level) : (s.driveScl l).inputs = s.inputs := rfl
@[simp] theorem State.driveScl_answers (s : State) (l : Level) : (s.driveScl l).answers = s.answers := rfl
@[simp] theorem State.driveScl_tick (s : State) (l : Level) : (s.driveScl l).tick = s.tick := rfl
@[simp] theorem State.driveScl_elapsed (s : State) (l : Level) : (s.driveScl l).elapsed = s.elapsed := rfl

@[simp] theorem State.driveSda_mode (s : State) (l : Level) : (s.driveSda l).mode = s.mode := rfl
@[simp] theorem State.driveSda_cfgValid (s : State) (l : Level) : (s.driveSda l).cfgValid = s.cfgValid := rfl
@[simp] theorem State.driveSda_speed (s : State) (l : Level) : (s.driveSda l).speed = s.speed := rfl
@[simp] theorem State.driveSda_low (s : State) (l : Level) : (s.driveSda l).low = s.low := rfl
@[simp] theorem State.driveSda_high (s : State) (l : Level) : (s.driveSda l).high = s.high := rfl
@[simp] theorem State.driveSda_tvalid (s : State) (l : Level) : (s.driveSda l).tvalid = s.tvalid := rfl
@[simp] theorem State.driveSda_taddr (s : State) (l : Level) : (s.driveSda l).taddr = s.taddr := rfl
@[simp] theorem State.driveSda_tfsm (s : State) (l : Level) : (s.driveSda l).tfsm = s.tfsm := rfl
@[simp] theorem State.driveSda_sclOut (s : State) (l : Level) : (s.driveSda l).sclOut = s.sclOut := rfl
@[simp] theorem State.driveSda_busy (s : State) (l : Level) : (s.driveSda l).busy = s.busy := rfl
@[simp] theorem State.driveSda_cop (s : State) (l : Level) : (s.driveSda l).cop = s.cop := rfl
@[simp] theorem State.driveSda_result (s : State) (l : Level) : (s.driveSda l).result = s.result := rfl
@[simp] theorem State.driveSda_xaddr (s : State) (l : Level) : (s.driveSda l).xaddr = s.xaddr := rfl
@[simp] theorem State.driveSda_xsegs (s : State) (l : Level) : (s.driveSda l).xsegs = s.xsegs := rfl
@[simp] theorem State.driveSda_cpos (s : State) (l : Level) : (s.driveSda l).cpos = s.cpos := rfl
@[simp] theorem State.driveSda_csr (s : State) (l : Level) : (s.driveSda l).csr = s.csr := rfl
@[simp] theorem State.driveSda_cack (s : State) (l : Level) : (s.driveSda l).cack = s.cack := rfl
@[simp] theorem State.driveSda_cabort (s : State) (l : Level) : (s.driveSda l).cabort = s.cabort := rfl
@[simp] theorem State.driveSda_tpos (s : State) (l : Level) : (s.driveSda l).tpos = s.tpos := rfl
@[simp] theorem State.driveSda_tsr (s : State) (l : Level) : (s.driveSda l).tsr = s.tsr := rfl
@[simp] theorem State.driveSda_tdir (s : State) (l : Level) : (s.driveSda l).tdir = s.tdir := rfl
@[simp] theorem State.driveSda_tfirst (s : State) (l : Level) : (s.driveSda l).tfirst = s.tfirst := rfl
@[simp] theorem State.driveSda_handlerPend (s : State) (l : Level) : (s.driveSda l).handlerPend = s.handlerPend := rfl
@[simp] theorem State.driveSda_terr (s : State) (l : Level) : (s.driveSda l).terr = s.terr := rfl
@[simp] theorem State.driveSda_tlast (s : State) (l : Level) : (s.driveSda l).tlast = s.tlast := rfl
@[simp] theorem State.driveSda_mem (s : State) (l : Level) : (s.driveSda l).mem = s.mem := rfl
@[simp] theorem State.driveSda_got (s : State) (l : Level) : (s.driveSda l).got = s.got := rfl
@[simp] theorem State.driveSda_bitv (s : State) (l : Level) : (s.driveSda l).bitv = s.bitv := rfl
@[simp] theorem State.driveSda_det (s : State) (l : Level) : (s.driveSda l).det = s.det := rfl
@[simp] theorem State.driveSda_ans (s : State) (l : Level) : (s.driveSda l).ans = s.ans := rfl
@[simp] theorem State.driveSda_peerScl (s : State) (l : Level) : (s.driveSda l).peerScl = s.peerScl := rfl
@[simp] theorem State.driveSda_peerSda (s : State) (l : Level) : (s.driveSda l).peerSda = s.peerSda := rfl
@[simp] theorem State.driveSda_ppos (s : State) (l : Level) : (s.driveSda l).ppos = s.ppos := rfl
@[simp] theorem State.driveSda_port (s : State) (l : Level) : (s.driveSda l).port = s.port := rfl
@[simp] theorem State.driveSda_responses (s : State) (l : Level) : (s.driveSda l).responses = s.responses := rfl
@[simp] theorem State.driveSda_statusOut (s : State) (l : Level) : (s.driveSda l).statusOut = s.statusOut := rfl
@[simp] theorem State.driveSda_calls (s : State) (l : Level) : (s.driveSda l).calls = s.calls := rfl
@[simp] theorem State.driveSda_inputs (s : State) (l : Level) : (s.driveSda l).inputs = s.inputs := rfl
@[simp] theorem State.driveSda_answers (s : State) (l : Level) : (s.driveSda l).answers = s.answers := rfl
@[simp] theorem State.driveSda_tick (s : State) (l : Level) : (s.driveSda l).tick = s.tick := rfl
@[simp] theorem State.driveSda_elapsed (s : State) (l : Level) : (s.driveSda l).elapsed = s.elapsed := rfl

@[simp] theorem State.drivePeers_mode (s : State) (c d : Level) : (s.drivePeers c d).mode = s.mode := rfl
@[simp] theorem State.drivePeers_cfgValid (s : State) (c d : Level) : (s.drivePeers c d).cfgValid = s.cfgValid := rfl
@[simp] theorem State.drivePeers_speed (s : State) (c d : Level) : (s.drivePeers c d).speed = s.speed := rfl
@[simp] theorem State.drivePeers_low (s : State) (c d : Level) : (s.drivePeers c d).low = s.low := rfl
@[simp] theorem State.drivePeers_high (s : State) (c d : Level) : (s.drivePeers c d).high = s.high := rfl
@[simp] theorem State.drivePeers_tvalid (s : State) (c d : Level) : (s.drivePeers c d).tvalid = s.tvalid := rfl
@[simp] theorem State.drivePeers_taddr (s : State) (c d : Level) : (s.drivePeers c d).taddr = s.taddr := rfl
@[simp] theorem State.drivePeers_tfsm (s : State) (c d : Level) : (s.drivePeers c d).tfsm = s.tfsm := rfl
@[simp] theorem State.drivePeers_sclOut (s : State) (c d : Level) : (s.drivePeers c d).sclOut = s.sclOut := rfl
@[simp] theorem State.drivePeers_sdaOut (s : State) (c d : Level) : (s.drivePeers c d).sdaOut = s.sdaOut := rfl
@[simp] theorem State.drivePeers_busy (s : State) (c d : Level) : (s.drivePeers c d).busy = s.busy := rfl
@[simp] theorem State.drivePeers_cop (s : State) (c d : Level) : (s.drivePeers c d).cop = s.cop := rfl
@[simp] theorem State.drivePeers_result (s : State) (c d : Level) : (s.drivePeers c d).result = s.result := rfl
@[simp] theorem State.drivePeers_xaddr (s : State) (c d : Level) : (s.drivePeers c d).xaddr = s.xaddr := rfl
@[simp] theorem State.drivePeers_xsegs (s : State) (c d : Level) : (s.drivePeers c d).xsegs = s.xsegs := rfl
@[simp] theorem State.drivePeers_cpos (s : State) (c d : Level) : (s.drivePeers c d).cpos = s.cpos := rfl
@[simp] theorem State.drivePeers_csr (s : State) (c d : Level) : (s.drivePeers c d).csr = s.csr := rfl
@[simp] theorem State.drivePeers_cack (s : State) (c d : Level) : (s.drivePeers c d).cack = s.cack := rfl
@[simp] theorem State.drivePeers_cabort (s : State) (c d : Level) : (s.drivePeers c d).cabort = s.cabort := rfl
@[simp] theorem State.drivePeers_tpos (s : State) (c d : Level) : (s.drivePeers c d).tpos = s.tpos := rfl
@[simp] theorem State.drivePeers_tsr (s : State) (c d : Level) : (s.drivePeers c d).tsr = s.tsr := rfl
@[simp] theorem State.drivePeers_tdir (s : State) (c d : Level) : (s.drivePeers c d).tdir = s.tdir := rfl
@[simp] theorem State.drivePeers_tfirst (s : State) (c d : Level) : (s.drivePeers c d).tfirst = s.tfirst := rfl
@[simp] theorem State.drivePeers_handlerPend (s : State) (c d : Level) : (s.drivePeers c d).handlerPend = s.handlerPend := rfl
@[simp] theorem State.drivePeers_terr (s : State) (c d : Level) : (s.drivePeers c d).terr = s.terr := rfl
@[simp] theorem State.drivePeers_tlast (s : State) (c d : Level) : (s.drivePeers c d).tlast = s.tlast := rfl
@[simp] theorem State.drivePeers_mem (s : State) (c d : Level) : (s.drivePeers c d).mem = s.mem := rfl
@[simp] theorem State.drivePeers_got (s : State) (c d : Level) : (s.drivePeers c d).got = s.got := rfl
@[simp] theorem State.drivePeers_bitv (s : State) (c d : Level) : (s.drivePeers c d).bitv = s.bitv := rfl
@[simp] theorem State.drivePeers_det (s : State) (c d : Level) : (s.drivePeers c d).det = s.det := rfl
@[simp] theorem State.drivePeers_ans (s : State) (c d : Level) : (s.drivePeers c d).ans = s.ans := rfl
@[simp] theorem State.drivePeers_ppos (s : State) (c d : Level) : (s.drivePeers c d).ppos = s.ppos := rfl
@[simp] theorem State.drivePeers_port (s : State) (c d : Level) : (s.drivePeers c d).port = s.port := rfl
@[simp] theorem State.drivePeers_responses (s : State) (c d : Level) : (s.drivePeers c d).responses = s.responses := rfl
@[simp] theorem State.drivePeers_statusOut (s : State) (c d : Level) : (s.drivePeers c d).statusOut = s.statusOut := rfl
@[simp] theorem State.drivePeers_calls (s : State) (c d : Level) : (s.drivePeers c d).calls = s.calls := rfl
@[simp] theorem State.drivePeers_inputs (s : State) (c d : Level) : (s.drivePeers c d).inputs = s.inputs := rfl
@[simp] theorem State.drivePeers_answers (s : State) (c d : Level) : (s.drivePeers c d).answers = s.answers := rfl
@[simp] theorem State.drivePeers_tick (s : State) (c d : Level) : (s.drivePeers c d).tick = s.tick := rfl
@[simp] theorem State.drivePeers_elapsed (s : State) (c d : Level) : (s.drivePeers c d).elapsed = s.elapsed := rfl

@[simp] theorem State.peerClk_mode (s : State) (l : Level) : (s.peerClk l).mode = s.mode := rfl
@[simp] theorem State.peerClk_cfgValid (s : State) (l : Level) : (s.peerClk l).cfgValid = s.cfgValid := rfl
@[simp] theorem State.peerClk_speed (s : State) (l : Level) : (s.peerClk l).speed = s.speed := rfl
@[simp] theorem State.peerClk_low (s : State) (l : Level) : (s.peerClk l).low = s.low := rfl
@[simp] theorem State.peerClk_high (s : State) (l : Level) : (s.peerClk l).high = s.high := rfl
@[simp] theorem State.peerClk_tvalid (s : State) (l : Level) : (s.peerClk l).tvalid = s.tvalid := rfl
@[simp] theorem State.peerClk_taddr (s : State) (l : Level) : (s.peerClk l).taddr = s.taddr := rfl
@[simp] theorem State.peerClk_tfsm (s : State) (l : Level) : (s.peerClk l).tfsm = s.tfsm := rfl
@[simp] theorem State.peerClk_sclOut (s : State) (l : Level) : (s.peerClk l).sclOut = s.sclOut := rfl
@[simp] theorem State.peerClk_sdaOut (s : State) (l : Level) : (s.peerClk l).sdaOut = s.sdaOut := rfl
@[simp] theorem State.peerClk_busy (s : State) (l : Level) : (s.peerClk l).busy = s.busy := rfl
@[simp] theorem State.peerClk_cop (s : State) (l : Level) : (s.peerClk l).cop = s.cop := rfl
@[simp] theorem State.peerClk_result (s : State) (l : Level) : (s.peerClk l).result = s.result := rfl
@[simp] theorem State.peerClk_xaddr (s : State) (l : Level) : (s.peerClk l).xaddr = s.xaddr := rfl
@[simp] theorem State.peerClk_xsegs (s : State) (l : Level) : (s.peerClk l).xsegs = s.xsegs := rfl
@[simp] theorem State.peerClk_cpos (s : State) (l : Level) : (s.peerClk l).cpos = s.cpos := rfl
@[simp] theorem State.peerClk_csr (s : State) (l : Level) : (s.peerClk l).csr = s.csr := rfl
@[simp] theorem State.peerClk_cack (s : State) (l : Level) : (s.peerClk l).cack = s.cack := rfl
@[simp] theorem State.peerClk_cabort (s : State) (l : Level) : (s.peerClk l).cabort = s.cabort := rfl
@[simp] theorem State.peerClk_tpos (s : State) (l : Level) : (s.peerClk l).tpos = s.tpos := rfl
@[simp] theorem State.peerClk_tsr (s : State) (l : Level) : (s.peerClk l).tsr = s.tsr := rfl
@[simp] theorem State.peerClk_tdir (s : State) (l : Level) : (s.peerClk l).tdir = s.tdir := rfl
@[simp] theorem State.peerClk_tfirst (s : State) (l : Level) : (s.peerClk l).tfirst = s.tfirst := rfl
@[simp] theorem State.peerClk_handlerPend (s : State) (l : Level) : (s.peerClk l).handlerPend = s.handlerPend := rfl
@[simp] theorem State.peerClk_terr (s : State) (l : Level) : (s.peerClk l).terr = s.terr := rfl
@[simp] theorem State.peerClk_tlast (s : State) (l : Level) : (s.peerClk l).tlast = s.tlast := rfl
@[simp] theorem State.peerClk_mem (s : State) (l : Level) : (s.peerClk l).mem = s.mem := rfl
@[simp] theorem State.peerClk_got (s : State) (l : Level) : (s.peerClk l).got = s.got := rfl
@[simp] theorem State.peerClk_bitv (s : State) (l : Level) : (s.peerClk l).bitv = s.bitv := rfl
@[simp] theorem State.peerClk_det (s : State) (l : Level) : (s.peerClk l).det = s.det := rfl
@[simp] theorem State.peerClk_ans (s : State) (l : Level) : (s.peerClk l).ans = s.ans := rfl
@[simp] theorem State.peerClk_peerSda (s : State) (l : Level) : (s.peerClk l).peerSda = s.peerSda := rfl
@[simp] theorem State.peerClk_ppos (s : State) (l : Level) : (s.peerClk l).ppos = s.ppos := rfl
@[simp] theorem State.peerClk_port (s : State) (l : Level) : (s.peerClk l).port = s.port := rfl
@[simp] theorem State.peerClk_responses (s : State) (l : Level) : (s.peerClk l).responses = s.responses := rfl
@[simp] theorem State.peerClk_statusOut (s : State) (l : Level) : (s.peerClk l).statusOut = s.statusOut := rfl
@[simp] theorem State.peerClk_calls (s : State) (l : Level) : (s.peerClk l).calls = s.calls := rfl
@[simp] theorem State.peerClk_inputs (s : State) (l : Level) : (s.peerClk l).inputs = s.inputs := rfl
@[simp] theorem State.peerClk_answers (s : State) (l : Level) : (s.peerClk l).answers = s.answers := rfl
@[simp] theorem State.peerClk_tick (s : State) (l : Level) : (s.peerClk l).tick = s.tick := rfl
@[simp] theorem State.peerClk_elapsed (s : State) (l : Level) : (s.peerClk l).elapsed = s.elapsed := rfl

@[simp] theorem State.peerDat_mode (s : State) (l : Level) : (s.peerDat l).mode = s.mode := rfl
@[simp] theorem State.peerDat_cfgValid (s : State) (l : Level) : (s.peerDat l).cfgValid = s.cfgValid := rfl
@[simp] theorem State.peerDat_speed (s : State) (l : Level) : (s.peerDat l).speed = s.speed := rfl
@[simp] theorem State.peerDat_low (s : State) (l : Level) : (s.peerDat l).low = s.low := rfl
@[simp] theorem State.peerDat_high (s : State) (l : Level) : (s.peerDat l).high = s.high := rfl
@[simp] theorem State.peerDat_tvalid (s : State) (l : Level) : (s.peerDat l).tvalid = s.tvalid := rfl
@[simp] theorem State.peerDat_taddr (s : State) (l : Level) : (s.peerDat l).taddr = s.taddr := rfl
@[simp] theorem State.peerDat_tfsm (s : State) (l : Level) : (s.peerDat l).tfsm = s.tfsm := rfl
@[simp] theorem State.peerDat_sclOut (s : State) (l : Level) : (s.peerDat l).sclOut = s.sclOut := rfl
@[simp] theorem State.peerDat_sdaOut (s : State) (l : Level) : (s.peerDat l).sdaOut = s.sdaOut := rfl
@[simp] theorem State.peerDat_busy (s : State) (l : Level) : (s.peerDat l).busy = s.busy := rfl
@[simp] theorem State.peerDat_cop (s : State) (l : Level) : (s.peerDat l).cop = s.cop := rfl
@[simp] theorem State.peerDat_result (s : State) (l : Level) : (s.peerDat l).result = s.result := rfl
@[simp] theorem State.peerDat_xaddr (s : State) (l : Level) : (s.peerDat l).xaddr = s.xaddr := rfl
@[simp] theorem State.peerDat_xsegs (s : State) (l : Level) : (s.peerDat l).xsegs = s.xsegs := rfl
@[simp] theorem State.peerDat_cpos (s : State) (l : Level) : (s.peerDat l).cpos = s.cpos := rfl
@[simp] theorem State.peerDat_csr (s : State) (l : Level) : (s.peerDat l).csr = s.csr := rfl
@[simp] theorem State.peerDat_cack (s : State) (l : Level) : (s.peerDat l).cack = s.cack := rfl
@[simp] theorem State.peerDat_cabort (s : State) (l : Level) : (s.peerDat l).cabort = s.cabort := rfl
@[simp] theorem State.peerDat_tpos (s : State) (l : Level) : (s.peerDat l).tpos = s.tpos := rfl
@[simp] theorem State.peerDat_tsr (s : State) (l : Level) : (s.peerDat l).tsr = s.tsr := rfl
@[simp] theorem State.peerDat_tdir (s : State) (l : Level) : (s.peerDat l).tdir = s.tdir := rfl
@[simp] theorem State.peerDat_tfirst (s : State) (l : Level) : (s.peerDat l).tfirst = s.tfirst := rfl
@[simp] theorem State.peerDat_handlerPend (s : State) (l : Level) : (s.peerDat l).handlerPend = s.handlerPend := rfl
@[simp] theorem State.peerDat_terr (s : State) (l : Level) : (s.peerDat l).terr = s.terr := rfl
@[simp] theorem State.peerDat_tlast (s : State) (l : Level) : (s.peerDat l).tlast = s.tlast := rfl
@[simp] theorem State.peerDat_mem (s : State) (l : Level) : (s.peerDat l).mem = s.mem := rfl
@[simp] theorem State.peerDat_got (s : State) (l : Level) : (s.peerDat l).got = s.got := rfl
@[simp] theorem State.peerDat_bitv (s : State) (l : Level) : (s.peerDat l).bitv = s.bitv := rfl
@[simp] theorem State.peerDat_det (s : State) (l : Level) : (s.peerDat l).det = s.det := rfl
@[simp] theorem State.peerDat_ans (s : State) (l : Level) : (s.peerDat l).ans = s.ans := rfl
@[simp] theorem State.peerDat_peerScl (s : State) (l : Level) : (s.peerDat l).peerScl = s.peerScl := rfl
@[simp] theorem State.peerDat_ppos (s : State) (l : Level) : (s.peerDat l).ppos = s.ppos := rfl
@[simp] theorem State.peerDat_port (s : State) (l : Level) : (s.peerDat l).port = s.port := rfl
@[simp] theorem State.peerDat_responses (s : State) (l : Level) : (s.peerDat l).responses = s.responses := rfl
@[simp] theorem State.peerDat_statusOut (s : State) (l : Level) : (s.peerDat l).statusOut = s.statusOut := rfl
@[simp] theorem State.peerDat_calls (s : State) (l : Level) : (s.peerDat l).calls = s.calls := rfl
@[simp] theorem State.peerDat_inputs (s : State) (l : Level) : (s.peerDat l).inputs = s.inputs := rfl
@[simp] theorem State.peerDat_answers (s : State) (l : Level) : (s.peerDat l).answers = s.answers := rfl
@[simp] theorem State.peerDat_tick (s : State) (l : Level) : (s.peerDat l).tick = s.tick := rfl
@[simp] theorem State.peerDat_elapsed (s : State) (l : Level) : (s.peerDat l).elapsed = s.elapsed := rfl

@[simp] theorem State.waitAtLeast_mode (s : State) (d : Dur) : (s.waitAtLeast d).mode = s.mode := rfl
@[simp] theorem State.waitAtLeast_cfgValid (s : State) (d : Dur) : (s.waitAtLeast d).cfgValid = s.cfgValid := rfl
@[simp] theorem State.waitAtLeast_speed (s : State) (d : Dur) : (s.waitAtLeast d).speed = s.speed := rfl
@[simp] theorem State.waitAtLeast_low (s : State) (d : Dur) : (s.waitAtLeast d).low = s.low := rfl
@[simp] theorem State.waitAtLeast_high (s : State) (d : Dur) : (s.waitAtLeast d).high = s.high := rfl
@[simp] theorem State.waitAtLeast_tvalid (s : State) (d : Dur) : (s.waitAtLeast d).tvalid = s.tvalid := rfl
@[simp] theorem State.waitAtLeast_taddr (s : State) (d : Dur) : (s.waitAtLeast d).taddr = s.taddr := rfl
@[simp] theorem State.waitAtLeast_tfsm (s : State) (d : Dur) : (s.waitAtLeast d).tfsm = s.tfsm := rfl
@[simp] theorem State.waitAtLeast_sclOut (s : State) (d : Dur) : (s.waitAtLeast d).sclOut = s.sclOut := rfl
@[simp] theorem State.waitAtLeast_sdaOut (s : State) (d : Dur) : (s.waitAtLeast d).sdaOut = s.sdaOut := rfl
@[simp] theorem State.waitAtLeast_busy (s : State) (d : Dur) : (s.waitAtLeast d).busy = s.busy := rfl
@[simp] theorem State.waitAtLeast_cop (s : State) (d : Dur) : (s.waitAtLeast d).cop = s.cop := rfl
@[simp] theorem State.waitAtLeast_result (s : State) (d : Dur) : (s.waitAtLeast d).result = s.result := rfl
@[simp] theorem State.waitAtLeast_xaddr (s : State) (d : Dur) : (s.waitAtLeast d).xaddr = s.xaddr := rfl
@[simp] theorem State.waitAtLeast_xsegs (s : State) (d : Dur) : (s.waitAtLeast d).xsegs = s.xsegs := rfl
@[simp] theorem State.waitAtLeast_cpos (s : State) (d : Dur) : (s.waitAtLeast d).cpos = s.cpos := rfl
@[simp] theorem State.waitAtLeast_csr (s : State) (d : Dur) : (s.waitAtLeast d).csr = s.csr := rfl
@[simp] theorem State.waitAtLeast_cack (s : State) (d : Dur) : (s.waitAtLeast d).cack = s.cack := rfl
@[simp] theorem State.waitAtLeast_cabort (s : State) (d : Dur) : (s.waitAtLeast d).cabort = s.cabort := rfl
@[simp] theorem State.waitAtLeast_tpos (s : State) (d : Dur) : (s.waitAtLeast d).tpos = s.tpos := rfl
@[simp] theorem State.waitAtLeast_tsr (s : State) (d : Dur) : (s.waitAtLeast d).tsr = s.tsr := rfl
@[simp] theorem State.waitAtLeast_tdir (s : State) (d : Dur) : (s.waitAtLeast d).tdir = s.tdir := rfl
@[simp] theorem State.waitAtLeast_tfirst (s : State) (d : Dur) : (s.waitAtLeast d).tfirst = s.tfirst := rfl
@[simp] theorem State.waitAtLeast_edgePend (s : State) (d : Dur) : (s.waitAtLeast d).edgePend = s.edgePend := rfl
@[simp] theorem State.waitAtLeast_handlerPend (s : State) (d : Dur) : (s.waitAtLeast d).handlerPend = s.handlerPend := rfl
@[simp] theorem State.waitAtLeast_terr (s : State) (d : Dur) : (s.waitAtLeast d).terr = s.terr := rfl
@[simp] theorem State.waitAtLeast_tlast (s : State) (d : Dur) : (s.waitAtLeast d).tlast = s.tlast := rfl
@[simp] theorem State.waitAtLeast_mem (s : State) (d : Dur) : (s.waitAtLeast d).mem = s.mem := rfl
@[simp] theorem State.waitAtLeast_got (s : State) (d : Dur) : (s.waitAtLeast d).got = s.got := rfl
@[simp] theorem State.waitAtLeast_bitv (s : State) (d : Dur) : (s.waitAtLeast d).bitv = s.bitv := rfl
@[simp] theorem State.waitAtLeast_det (s : State) (d : Dur) : (s.waitAtLeast d).det = s.det := rfl
@[simp] theorem State.waitAtLeast_ans (s : State) (d : Dur) : (s.waitAtLeast d).ans = s.ans := rfl
@[simp] theorem State.waitAtLeast_peerScl (s : State) (d : Dur) : (s.waitAtLeast d).peerScl = s.peerScl := rfl
@[simp] theorem State.waitAtLeast_peerSda (s : State) (d : Dur) : (s.waitAtLeast d).peerSda = s.peerSda := rfl
@[simp] theorem State.waitAtLeast_ppos (s : State) (d : Dur) : (s.waitAtLeast d).ppos = s.ppos := rfl
@[simp] theorem State.waitAtLeast_port (s : State) (d : Dur) : (s.waitAtLeast d).port = s.port := rfl
@[simp] theorem State.waitAtLeast_responses (s : State) (d : Dur) : (s.waitAtLeast d).responses = s.responses := rfl
@[simp] theorem State.waitAtLeast_statusOut (s : State) (d : Dur) : (s.waitAtLeast d).statusOut = s.statusOut := rfl
@[simp] theorem State.waitAtLeast_calls (s : State) (d : Dur) : (s.waitAtLeast d).calls = s.calls := rfl
@[simp] theorem State.waitAtLeast_inputs (s : State) (d : Dur) : (s.waitAtLeast d).inputs = s.inputs := rfl
@[simp] theorem State.waitAtLeast_answers (s : State) (d : Dur) : (s.waitAtLeast d).answers = s.answers := rfl
@[simp] theorem State.waitAtLeast_tick (s : State) (d : Dur) : (s.waitAtLeast d).tick = s.tick := rfl
@[simp] theorem State.waitAtLeast_busOpen (s : State) (d : Dur) : (s.waitAtLeast d).busOpen = s.busOpen := rfl
@[simp] theorem State.waitAtLeast_lastCond (s : State) (d : Dur) : (s.waitAtLeast d).lastCond = s.lastCond := rfl
@[simp] theorem State.waitAtLeast_unsanctioned (s : State) (d : Dur) : (s.waitAtLeast d).unsanctioned = s.unsanctioned := rfl

@[simp] theorem State.deliver_mode (s : State) (r : Result) : (s.deliver r).mode = s.mode := rfl
@[simp] theorem State.deliver_cfgValid (s : State) (r : Result) : (s.deliver r).cfgValid = s.cfgValid := rfl
@[simp] theorem State.deliver_speed (s : State) (r : Result) : (s.deliver r).speed = s.speed := rfl
@[simp] theorem State.deliver_low (s : State) (r : Result) : (s.deliver r).low = s.low := rfl
@[simp] theorem State.deliver_high (s : State) (r : Result) : (s.deliver r).high = s.high := rfl
@[simp] theorem State.deliver_tvalid (s : State) (r : Result) : (s.deliver r).tvalid = s.tvalid := rfl
@[simp] theorem State.deliver_taddr (s : State) (r : Result) : (s.deliver r).taddr = s.taddr := rfl
@[simp] theorem State.deliver_tfsm (s : State) (r : Result) : (s.deliver r).tfsm = s.tfsm := rfl
@[simp] theorem State.deliver_sclOut (s : State) (r : Result) : (s.deliver r).sclOut = s.sclOut := rfl
@[simp] theorem State.deliver_sdaOut (s : State) (r : Result) : (s.deliver r).sdaOut = s.sdaOut := rfl
@[simp] theorem State.deliver_busy (s : State) (r : Result) : (s.deliver r).busy = s.busy := rfl
@[simp] theorem State.deliver_cop (s : State) (r : Result) : (s.deliver r).cop = s.cop := rfl
@[simp] theorem State.deliver_xaddr (s : State) (r : Result) : (s.deliver r).xaddr = s.xaddr := rfl
@[simp] theorem State.deliver_xsegs (s : State) (r : Result) : (s.deliver r).xsegs = s.xsegs := rfl
@[simp] theorem State.deliver_cpos (s : State) (r : Result) : (s.deliver r).cpos = s.cpos := rfl
@[simp] theorem State.deliver_csr (s : State) (r : Result) : (s.deliver r).csr = s.csr := rfl
@[simp] theorem State.deliver_cack (s : State) (r : Result) : (s.deliver r).cack = s.cack := rfl
@[simp] theorem State.deliver_cabort (s : State) (r : Result) : (s.deliver r).cabort = s.cabort := rfl
@[simp] theorem State.deliver_tpos (s : State) (r : Result) : (s.deliver r).tpos = s.tpos := rfl
@[simp] theorem State.deliver_tsr (s : State) (r : Result) : (s.deliver r).tsr = s.tsr := rfl
@[simp] theorem State.deliver_tdir (s : State) (r : Result) : (s.deliver r).tdir = s.tdir := rfl
@[simp] theorem State.deliver_tfirst (s : State) (r : Result) : (s.deliver r).tfirst = s.tfirst := rfl
@[simp] theorem State.deliver_edgePend (s : State) (r : Result) : (s.deliver r).edgePend = s.edgePend := rfl
@[simp] theorem State.deliver_handlerPend (s : State) (r : Result) : (s.deliver r).handlerPend = s.handlerPend := rfl
@[simp] theorem State.deliver_terr (s : State) (r : Result) : (s.deliver r).terr = s.terr := rfl
@[simp] theorem State.deliver_tlast (s : State) (r : Result) : (s.deliver r).tlast = s.tlast := rfl
@[simp] theorem State.deliver_mem (s : State) (r : Result) : (s.deliver r).mem = s.mem := rfl
@[simp] theorem State.deliver_got (s : State) (r : Result) : (s.deliver r).got = s.got := rfl
@[simp] theorem State.deliver_bitv (s : State) (r : Result) : (s.deliver r).bitv = s.bitv := rfl
@[simp] theorem State.deliver_det (s : State) (r : Result) : (s.deliver r).det = s.det := rfl
@[simp] theorem State.deliver_ans (s : State) (r : Result) : (s.deliver r).ans = s.ans := rfl
@[simp] theorem State.deliver_peerScl (s : State) (r : Result) : (s.deliver r).peerScl = s.peerScl := rfl
@[simp] theorem State.deliver_peerSda (s : State) (r : Result) : (s.deliver r).peerSda = s.peerSda := rfl
@[simp] theorem State.deliver_ppos (s : State) (r : Result) : (s.deliver r).ppos = s.ppos := rfl
@[simp] theorem State.deliver_port (s : State) (r : Result) : (s.deliver r).port = s.port := rfl
@[simp] theorem State.deliver_statusOut (s : State) (r : Result) : (s.deliver r).statusOut = s.statusOut := rfl
@[simp] theorem State.deliver_calls (s : State) (r : Result) : (s.deliver r).calls = s.calls := rfl
@[simp] theorem State.deliver_inputs (s : State) (r : Result) : (s.deliver r).inputs = s.inputs := rfl
@[simp] theorem State.deliver_answers (s : State) (r : Result) : (s.deliver r).answers = s.answers := rfl
@[simp] theorem State.deliver_tick (s : State) (r : Result) : (s.deliver r).tick = s.tick := rfl
@[simp] theorem State.deliver_busOpen (s : State) (r : Result) : (s.deliver r).busOpen = s.busOpen := rfl
@[simp] theorem State.deliver_lastCond (s : State) (r : Result) : (s.deliver r).lastCond = s.lastCond := rfl
@[simp] theorem State.deliver_unsanctioned (s : State) (r : Result) : (s.deliver r).unsanctioned = s.unsanctioned := rfl
@[simp] theorem State.deliver_elapsed (s : State) (r : Result) : (s.deliver r).elapsed = s.elapsed := rfl

@[simp] theorem State.complete_mode (s : State) (r : Result) : (s.complete r).mode = s.mode := rfl
@[simp] theorem State.complete_cfgValid (s : State) (r : Result) : (s.complete r).cfgValid = s.cfgValid := rfl
@[simp] theorem State.complete_speed (s : State) (r : Result) : (s.complete r).speed = s.speed := rfl
@[simp] theorem State.complete_low (s : State) (r : Result) : (s.complete r).low = s.low := rfl
@[simp] theorem State.complete_high (s : State) (r : Result) : (s.complete r).high = s.high := rfl
@[simp] theorem State.complete_tvalid (s : State) (r : Result) : (s.complete r).tvalid = s.tvalid := rfl
@[simp] theorem State.complete_taddr (s : State) (r : Result) : (s.complete r).taddr = s.taddr := rfl
@[simp] theorem State.complete_tfsm (s : State) (r : Result) : (s.complete r).tfsm = s.tfsm := rfl
@[simp] theorem State.complete_sclOut (s : State) (r : Result) : (s.complete r).sclOut = s.sclOut := rfl
@[simp] theorem State.complete_sdaOut (s : State) (r : Result) : (s.complete r).sdaOut = s.sdaOut := rfl
@[simp] theorem State.complete_xaddr (s : State) (r : Result) : (s.complete r).xaddr = s.xaddr := rfl
@[simp] theorem State.complete_xsegs (s : State) (r : Result) : (s.complete r).xsegs = s.xsegs := rfl
@[simp] theorem State.complete_csr (s : State) (r : Result) : (s.complete r).csr = s.csr := rfl
@[simp] theorem State.complete_cack (s : State) (r : Result) : (s.complete r).cack = s.cack := rfl
@[simp] theorem State.complete_cabort (s : State) (r : Result) : (s.complete r).cabort = s.cabort := rfl
@[simp] theorem State.complete_tpos (s : State) (r : Result) : (s.complete r).tpos = s.tpos := rfl
@[simp] theorem State.complete_tsr (s : State) (r : Result) : (s.complete r).tsr = s.tsr := rfl
@[simp] theorem State.complete_tdir (s : State) (r : Result) : (s.complete r).tdir = s.tdir := rfl
@[simp] theorem State.complete_tfirst (s : State) (r : Result) : (s.complete r).tfirst = s.tfirst := rfl
@[simp] theorem State.complete_edgePend (s : State) (r : Result) : (s.complete r).edgePend = s.edgePend := rfl
@[simp] theorem State.complete_handlerPend (s : State) (r : Result) : (s.complete r).handlerPend = s.handlerPend := rfl
@[simp] theorem State.complete_terr (s : State) (r : Result) : (s.complete r).terr = s.terr := rfl
@[simp] theorem State.complete_tlast (s : State) (r : Result) : (s.complete r).tlast = s.tlast := rfl
@[simp] theorem State.complete_mem (s : State) (r : Result) : (s.complete r).mem = s.mem := rfl
@[simp] theorem State.complete_got (s : State) (r : Result) : (s.complete r).got = s.got := rfl
@[simp] theorem State.complete_bitv (s : State) (r : Result) : (s.complete r).bitv = s.bitv := rfl
@[simp] theorem State.complete_det (s : State) (r : Result) : (s.complete r).det = s.det := rfl
@[simp] theorem State.complete_ans (s : State) (r : Result) : (s.complete r).ans = s.ans := rfl
@[simp] theorem State.complete_peerScl (s : State) (r : Result) : (s.complete r).peerScl = s.peerScl := rfl
@[simp] theorem State.complete_peerSda (s : State) (r : Result) : (s.complete r).peerSda = s.peerSda := rfl
@[simp] theorem State.complete_ppos (s : State) (r : Result) : (s.complete r).ppos = s.ppos := rfl
@[simp] theorem State.complete_port (s : State) (r : Result) : (s.complete r).port = s.port := rfl
@[simp] theorem State.complete_statusOut (s : State) (r : Result) : (s.complete r).statusOut = s.statusOut := rfl
@[simp] theorem State.complete_calls (s : State) (r : Result) : (s.complete r).calls = s.calls := rfl
@[simp] theorem State.complete_inputs (s : State) (r : Result) : (s.complete r).inputs = s.inputs := rfl
@[simp] theorem State.complete_answers (s : State) (r : Result) : (s.complete r).answers = s.answers := rfl
@[simp] theorem State.complete_tick (s : State) (r : Result) : (s.complete r).tick = s.tick := rfl
@[simp] theorem State.complete_busOpen (s : State) (r : Result) : (s.complete r).busOpen = s.busOpen := rfl
@[simp] theorem State.complete_lastCond (s : State) (r : Result) : (s.complete r).lastCond = s.lastCond := rfl
@[simp] theorem State.complete_unsanctioned (s : State) (r : Result) : (s.complete r).unsanctioned = s.unsanctioned := rfl
@[simp] theorem State.complete_elapsed (s : State) (r : Result) : (s.complete r).elapsed = s.elapsed := rfl

@[simp] theorem State.hold_mode (s : State) (i : Instr) : (s.hold i).mode = s.mode := rfl
@[simp] theorem State.hold_cfgValid (s : State) (i : Instr) : (s.hold i).cfgValid = s.cfgValid := rfl
@[simp] theorem State.hold_speed (s : State) (i : Instr) : (s.hold i).speed = s.speed := rfl
@[simp] theorem State.hold_low (s : State) (i : Instr) : (s.hold i).low = s.low := rfl
@[simp] theorem State.hold_high (s : State) (i : Instr) : (s.hold i).high = s.high := rfl
@[simp] theorem State.hold_tvalid (s : State) (i : Instr) : (s.hold i).tvalid = s.tvalid := rfl
@[simp] theorem State.hold_taddr (s : State) (i : Instr) : (s.hold i).taddr = s.taddr := rfl
@[simp] theorem State.hold_tfsm (s : State) (i : Instr) : (s.hold i).tfsm = s.tfsm := rfl
@[simp] theorem State.hold_sclOut (s : State) (i : Instr) : (s.hold i).sclOut = s.sclOut := rfl
@[simp] theorem State.hold_sdaOut (s : State) (i : Instr) : (s.hold i).sdaOut = s.sdaOut := rfl
@[simp] theorem State.hold_busy (s : State) (i : Instr) : (s.hold i).busy = s.busy := rfl
@[simp] theorem State.hold_cop (s : State) (i : Instr) : (s.hold i).cop = s.cop := rfl
@[simp] theorem State.hold_result (s : State) (i : Instr) : (s.hold i).result = s.result := rfl
@[simp] theorem State.hold_xaddr (s : State) (i : Instr) : (s.hold i).xaddr = s.xaddr := rfl
@[simp] theorem State.hold_xsegs (s : State) (i : Instr) : (s.hold i).xsegs = s.xsegs := rfl
@[simp] theorem State.hold_cpos (s : State) (i : Instr) : (s.hold i).cpos = s.cpos := rfl
@[simp] theorem State.hold_csr (s : State) (i : Instr) : (s.hold i).csr = s.csr := rfl
@[simp] theorem State.hold_cack (s : State) (i : Instr) : (s.hold i).cack = s.cack := rfl
@[simp] theorem State.hold_cabort (s : State) (i : Instr) : (s.hold i).cabort = s.cabort := rfl
@[simp] theorem State.hold_tpos (s : State) (i : Instr) : (s.hold i).tpos = s.tpos := rfl
@[simp] theorem State.hold_tsr (s : State) (i : Instr) : (s.hold i).tsr = s.tsr := rfl
@[simp] theorem State.hold_tdir (s : State) (i : Instr) : (s.hold i).tdir = s.tdir := rfl
@[simp] theorem State.hold_tfirst (s : State) (i : Instr) : (s.hold i).tfirst = s.tfirst := rfl
@[simp] theorem State.hold_edgePend (s : State) (i : Instr) : (s.hold i).edgePend = s.edgePend := rfl
@[simp] theorem State.hold_handlerPend (s : State) (i : Instr) : (s.hold i).handlerPend = s.handlerPend := rfl
@[simp] theorem State.hold_terr (s : State) (i : Instr) : (s.hold i).terr = s.terr := rfl
@[simp] theorem State.hold_tlast (s : State) (i : Instr) : (s.hold i).tlast = s.tlast := rfl
@[simp] theorem State.hold_mem (s : State) (i : Instr) : (s.hold i).mem = s.mem := rfl
@[simp] theorem State.hold_got (s : State) (i : Instr) : (s.hold i).got = s.got := rfl
@[simp] theorem State.hold_bitv (s : State) (i : Instr) : (s.hold i).bitv = s.bitv := rfl
@[simp] theorem State.hold_det (s : State) (i : Instr) : (s.hold i).det = s.det := rfl
@[simp] theorem State.hold_ans (s : State) (i : Instr) : (s.hold i).ans = s.ans := rfl
@[simp] theorem State.hold_peerScl (s : State) (i : Instr) : (s.hold i).peerScl = s.peerScl := rfl
@[simp] theorem State.hold_peerSda (s : State) (i : Instr) : (s.hold i).peerSda = s.peerSda := rfl
@[simp] theorem State.hold_ppos (s : State) (i : Instr) : (s.hold i).ppos = s.ppos := rfl
@[simp] theorem State.hold_responses (s : State) (i : Instr) : (s.hold i).responses = s.responses := rfl
@[simp] theorem State.hold_statusOut (s : State) (i : Instr) : (s.hold i).statusOut = s.statusOut := rfl
@[simp] theorem State.hold_calls (s : State) (i : Instr) : (s.hold i).calls = s.calls := rfl
@[simp] theorem State.hold_inputs (s : State) (i : Instr) : (s.hold i).inputs = s.inputs := rfl
@[simp] theorem State.hold_answers (s : State) (i : Instr) : (s.hold i).answers = s.answers := rfl
@[simp] theorem State.hold_tick (s : State) (i : Instr) : (s.hold i).tick = s.tick := rfl
@[simp] theorem State.hold_busOpen (s : State) (i : Instr) : (s.hold i).busOpen = s.busOpen := rfl
@[simp] theorem State.hold_lastCond (s : State) (i : Instr) : (s.hold i).lastCond = s.lastCond := rfl
@[simp] theorem State.hold_unsanctioned (s : State) (i : Instr) : (s.hold i).unsanctioned = s.unsanctioned := rfl
@[simp] theorem State.hold_elapsed (s : State) (i : Instr) : (s.hold i).elapsed = s.elapsed := rfl

@[simp] theorem State.callOut_mode (s : State) (c : AppCall) : (s.callOut c).mode = s.mode := rfl
@[simp] theorem State.callOut_cfgValid (s : State) (c : AppCall) : (s.callOut c).cfgValid = s.cfgValid := rfl
@[simp] theorem State.callOut_speed (s : State) (c : AppCall) : (s.callOut c).speed = s.speed := rfl
@[simp] theorem State.callOut_low (s : State) (c : AppCall) : (s.callOut c).low = s.low := rfl
@[simp] theorem State.callOut_high (s : State) (c : AppCall) : (s.callOut c).high = s.high := rfl
@[simp] theorem State.callOut_tvalid (s : State) (c : AppCall) : (s.callOut c).tvalid = s.tvalid := rfl
@[simp] theorem State.callOut_taddr (s : State) (c : AppCall) : (s.callOut c).taddr = s.taddr := rfl
@[simp] theorem State.callOut_tfsm (s : State) (c : AppCall) : (s.callOut c).tfsm = s.tfsm := rfl
@[simp] theorem State.callOut_sclOut (s : State) (c : AppCall) : (s.callOut c).sclOut = s.sclOut := rfl
@[simp] theorem State.callOut_sdaOut (s : State) (c : AppCall) : (s.callOut c).sdaOut = s.sdaOut := rfl
@[simp] theorem State.callOut_busy (s : State) (c : AppCall) : (s.callOut c).busy = s.busy := rfl
@[simp] theorem State.callOut_cop (s : State) (c : AppCall) : (s.callOut c).cop = s.cop := rfl
@[simp] theorem State.callOut_result (s : State) (c : AppCall) : (s.callOut c).result = s.result := rfl
@[simp] theorem State.callOut_xaddr (s : State) (c : AppCall) : (s.callOut c).xaddr = s.xaddr := rfl
@[simp] theorem State.callOut_xsegs (s : State) (c : AppCall) : (s.callOut c).xsegs = s.xsegs := rfl
@[simp] theorem State.callOut_cpos (s : State) (c : AppCall) : (s.callOut c).cpos = s.cpos := rfl
@[simp] theorem State.callOut_csr (s : State) (c : AppCall) : (s.callOut c).csr = s.csr := rfl
@[simp] theorem State.callOut_cack (s : State) (c : AppCall) : (s.callOut c).cack = s.cack := rfl
@[simp] theorem State.callOut_cabort (s : State) (c : AppCall) : (s.callOut c).cabort = s.cabort := rfl
@[simp] theorem State.callOut_tpos (s : State) (c : AppCall) : (s.callOut c).tpos = s.tpos := rfl
@[simp] theorem State.callOut_tsr (s : State) (c : AppCall) : (s.callOut c).tsr = s.tsr := rfl
@[simp] theorem State.callOut_tdir (s : State) (c : AppCall) : (s.callOut c).tdir = s.tdir := rfl
@[simp] theorem State.callOut_tfirst (s : State) (c : AppCall) : (s.callOut c).tfirst = s.tfirst := rfl
@[simp] theorem State.callOut_edgePend (s : State) (c : AppCall) : (s.callOut c).edgePend = s.edgePend := rfl
@[simp] theorem State.callOut_handlerPend (s : State) (c : AppCall) : (s.callOut c).handlerPend = s.handlerPend := rfl
@[simp] theorem State.callOut_terr (s : State) (c : AppCall) : (s.callOut c).terr = s.terr := rfl
@[simp] theorem State.callOut_tlast (s : State) (c : AppCall) : (s.callOut c).tlast = s.tlast := rfl
@[simp] theorem State.callOut_mem (s : State) (c : AppCall) : (s.callOut c).mem = s.mem := rfl
@[simp] theorem State.callOut_got (s : State) (c : AppCall) : (s.callOut c).got = s.got := rfl
@[simp] theorem State.callOut_bitv (s : State) (c : AppCall) : (s.callOut c).bitv = s.bitv := rfl
@[simp] theorem State.callOut_det (s : State) (c : AppCall) : (s.callOut c).det = s.det := rfl
@[simp] theorem State.callOut_ans (s : State) (c : AppCall) : (s.callOut c).ans = s.ans := rfl
@[simp] theorem State.callOut_peerScl (s : State) (c : AppCall) : (s.callOut c).peerScl = s.peerScl := rfl
@[simp] theorem State.callOut_peerSda (s : State) (c : AppCall) : (s.callOut c).peerSda = s.peerSda := rfl
@[simp] theorem State.callOut_ppos (s : State) (c : AppCall) : (s.callOut c).ppos = s.ppos := rfl
@[simp] theorem State.callOut_port (s : State) (c : AppCall) : (s.callOut c).port = s.port := rfl
@[simp] theorem State.callOut_responses (s : State) (c : AppCall) : (s.callOut c).responses = s.responses := rfl
@[simp] theorem State.callOut_statusOut (s : State) (c : AppCall) : (s.callOut c).statusOut = s.statusOut := rfl
@[simp] theorem State.callOut_inputs (s : State) (c : AppCall) : (s.callOut c).inputs = s.inputs := rfl
@[simp] theorem State.callOut_answers (s : State) (c : AppCall) : (s.callOut c).answers = s.answers := rfl
@[simp] theorem State.callOut_tick (s : State) (c : AppCall) : (s.callOut c).tick = s.tick := rfl
@[simp] theorem State.callOut_busOpen (s : State) (c : AppCall) : (s.callOut c).busOpen = s.busOpen := rfl
@[simp] theorem State.callOut_lastCond (s : State) (c : AppCall) : (s.callOut c).lastCond = s.lastCond := rfl
@[simp] theorem State.callOut_unsanctioned (s : State) (c : AppCall) : (s.callOut c).unsanctioned = s.unsanctioned := rfl
@[simp] theorem State.callOut_elapsed (s : State) (c : AppCall) : (s.callOut c).elapsed = s.elapsed := rfl

@[simp] theorem State.callFor_mode (s : State) (c : Byte → AppCall) : (s.callFor c).mode = s.mode := by
  unfold State.callFor State.dropAnswer; split <;> rfl
@[simp] theorem State.callFor_cfgValid (s : State) (c : Byte → AppCall) : (s.callFor c).cfgValid = s.cfgValid := by
  unfold State.callFor State.dropAnswer; split <;> rfl
@[simp] theorem State.callFor_speed (s : State) (c : Byte → AppCall) : (s.callFor c).speed = s.speed := by
  unfold State.callFor State.dropAnswer; split <;> rfl
@[simp] theorem State.callFor_low (s : State) (c : Byte → AppCall) : (s.callFor c).low = s.low := by
  unfold State.callFor State.dropAnswer; split <;> rfl
@[simp] theorem State.callFor_high (s : State) (c : Byte → AppCall) : (s.callFor c).high = s.high := by
  unfold State.callFor State.dropAnswer; split <;> rfl
@[simp] theorem State.callFor_tvalid (s : State) (c : Byte → AppCall) : (s.callFor c).tvalid = s.tvalid := by
  unfold State.callFor State.dropAnswer; split <;> rfl
@[simp] theorem State.callFor_taddr (s : State) (c : Byte → AppCall) : (s.callFor c).taddr = s.taddr := by
  unfold State.callFor State.dropAnswer; split <;> rfl
@[simp] theorem State.callFor_tfsm (s : State) (c : Byte → AppCall) : (s.callFor c).tfsm = s.tfsm := by
  unfold State.callFor State.dropAnswer; split <;> rfl
@[simp] theorem State.callFor_sclOut (s : State) (c : Byte → AppCall) : (s.callFor c).sclOut = s.sclOut := by
  unfold State.callFor State.dropAnswer; split <;> rfl
@[simp] theorem State.callFor_sdaOut (s : State) (c : Byte → AppCall) : (s.callFor c).sdaOut = s.sdaOut := by
  unfold State.callFor State.dropAnswer; split <;> rfl
@[simp] theorem State.callFor_busy (s : State) (c : Byte → AppCall) : (s.callFor c).busy = s.busy := by
  unfold State.callFor State.dropAnswer; split <;> rfl
@[simp] theorem State.callFor_cop (s : State) (c : Byte → AppCall) : (s.callFor c).cop = s.cop := by
  unfold State.callFor State.dropAnswer; split <;> rfl
@[simp] theorem State.callFor_result (s : State) (c : Byte → AppCall) : (s.callFor c).result = s.result := by
  unfold State.callFor State.dropAnswer; split <;> rfl
@[simp] theorem State.callFor_xaddr (s : State) (c : Byte → AppCall) : (s.callFor c).xaddr = s.xaddr := by
  unfold State.callFor State.dropAnswer; split <;> rfl
@[simp] theorem State.callFor_xsegs (s : State) (c : Byte → AppCall) : (s.callFor c).xsegs = s.xsegs := by
  unfold State.callFor State.dropAnswer; split <;> rfl
@[simp] theorem State.callFor_cpos (s : State) (c : Byte → AppCall) : (s.callFor c).cpos = s.cpos := by
  unfold State.callFor State.dropAnswer; split <;> rfl
@[simp] theorem State.callFor_csr (s : State) (c : Byte → AppCall) : (s.callFor c).csr = s.csr := by
  unfold State.callFor State.dropAnswer; split <;> rfl
@[simp] theorem State.callFor_cack (s : State) (c : Byte → AppCall) : (s.callFor c).cack = s.cack := by
  unfold State.callFor State.dropAnswer; split <;> rfl
@[simp] theorem State.callFor_cabort (s : State) (c : Byte → AppCall) : (s.callFor c).cabort = s.cabort := by
  unfold State.callFor State.dropAnswer; split <;> rfl
@[simp] theorem State.callFor_tpos (s : State) (c : Byte → AppCall) : (s.callFor c).tpos = s.tpos := by
  unfold State.callFor State.dropAnswer; split <;> rfl
@[simp] theorem State.callFor_tsr (s : State) (c : Byte → AppCall) : (s.callFor c).tsr = s.tsr := by
  unfold State.callFor State.dropAnswer; split <;> rfl
@[simp] theorem State.callFor_tdir (s : State) (c : Byte → AppCall) : (s.callFor c).tdir = s.tdir := by
  unfold State.callFor State.dropAnswer; split <;> rfl
@[simp] theorem State.callFor_tfirst (s : State) (c : Byte → AppCall) : (s.callFor c).tfirst = s.tfirst := by
  unfold State.callFor State.dropAnswer; split <;> rfl
@[simp] theorem State.callFor_edgePend (s : State) (c : Byte → AppCall) : (s.callFor c).edgePend = s.edgePend := by
  unfold State.callFor State.dropAnswer; split <;> rfl
@[simp] theorem State.callFor_handlerPend (s : State) (c : Byte → AppCall) : (s.callFor c).handlerPend = s.handlerPend := by
  unfold State.callFor State.dropAnswer; split <;> rfl
@[simp] theorem State.callFor_terr (s : State) (c : Byte → AppCall) : (s.callFor c).terr = s.terr := by
  unfold State.callFor State.dropAnswer; split <;> rfl
@[simp] theorem State.callFor_tlast (s : State) (c : Byte → AppCall) : (s.callFor c).tlast = s.tlast := by
  unfold State.callFor State.dropAnswer; split <;> rfl
@[simp] theorem State.callFor_mem (s : State) (c : Byte → AppCall) : (s.callFor c).mem = s.mem := by
  unfold State.callFor State.dropAnswer; split <;> rfl
@[simp] theorem State.callFor_got (s : State) (c : Byte → AppCall) : (s.callFor c).got = s.got := by
  unfold State.callFor State.dropAnswer; split <;> rfl
@[simp] theorem State.callFor_bitv (s : State) (c : Byte → AppCall) : (s.callFor c).bitv = s.bitv := by
  unfold State.callFor State.dropAnswer; split <;> rfl
@[simp] theorem State.callFor_det (s : State) (c : Byte → AppCall) : (s.callFor c).det = s.det := by
  unfold State.callFor State.dropAnswer; split <;> rfl
@[simp] theorem State.callFor_peerScl (s : State) (c : Byte → AppCall) : (s.callFor c).peerScl = s.peerScl := by
  unfold State.callFor State.dropAnswer; split <;> rfl
@[simp] theorem State.callFor_peerSda (s : State) (c : Byte → AppCall) : (s.callFor c).peerSda = s.peerSda := by
  unfold State.callFor State.dropAnswer; split <;> rfl
@[simp] theorem State.callFor_ppos (s : State) (c : Byte → AppCall) : (s.callFor c).ppos = s.ppos := by
  unfold State.callFor State.dropAnswer; split <;> rfl
@[simp] theorem State.callFor_port (s : State) (c : Byte → AppCall) : (s.callFor c).port = s.port := by
  unfold State.callFor State.dropAnswer; split <;> rfl
@[simp] theorem State.callFor_responses (s : State) (c : Byte → AppCall) : (s.callFor c).responses = s.responses := by
  unfold State.callFor State.dropAnswer; split <;> rfl
@[simp] theorem State.callFor_statusOut (s : State) (c : Byte → AppCall) : (s.callFor c).statusOut = s.statusOut := by
  unfold State.callFor State.dropAnswer; split <;> rfl
@[simp] theorem State.callFor_inputs (s : State) (c : Byte → AppCall) : (s.callFor c).inputs = s.inputs := by
  unfold State.callFor State.dropAnswer; split <;> rfl
@[simp] theorem State.callFor_busOpen (s : State) (c : Byte → AppCall) : (s.callFor c).busOpen = s.busOpen := by
  unfold State.callFor State.dropAnswer; split <;> rfl
@[simp] theorem State.callFor_lastCond (s : State) (c : Byte → AppCall) : (s.callFor c).lastCond = s.lastCond := by
  unfold State.callFor State.dropAnswer; split <;> rfl
@[simp] theorem State.callFor_unsanctioned (s : State) (c : Byte → AppCall) : (s.callFor c).unsanctioned = s.unsanctioned := by
  unfold State.callFor State.dropAnswer; split <;> rfl
@[simp] theorem State.callFor_elapsed (s : State) (c : Byte → AppCall) : (s.callFor c).elapsed = s.elapsed := by
  unfold State.callFor State.dropAnswer; split <;> rfl

@[simp] theorem State.takeEdge_mode (s : State) : (s.takeEdge).mode = s.mode := by
  unfold State.takeEdge; split <;> rfl
@[simp] theorem State.takeEdge_cfgValid (s : State) : (s.takeEdge).cfgValid = s.cfgValid := by
  unfold State.takeEdge; split <;> rfl
@[simp] theorem State.takeEdge_speed (s : State) : (s.takeEdge).speed = s.speed := by
  unfold State.takeEdge; split <;> rfl
@[simp] theorem State.takeEdge_low (s : State) : (s.takeEdge).low = s.low := by
  unfold State.takeEdge; split <;> rfl
@[simp] theorem State.takeEdge_high (s : State) : (s.takeEdge).high = s.high := by
  unfold State.takeEdge; split <;> rfl
@[simp] theorem State.takeEdge_tvalid (s : State) : (s.takeEdge).tvalid = s.tvalid := by
  unfold State.takeEdge; split <;> rfl
@[simp] theorem State.takeEdge_taddr (s : State) : (s.takeEdge).taddr = s.taddr := by
  unfold State.takeEdge; split <;> rfl
@[simp] theorem State.takeEdge_sclOut (s : State) : (s.takeEdge).sclOut = s.sclOut := by
  unfold State.takeEdge; split <;> rfl
@[simp] theorem State.takeEdge_sdaOut (s : State) : (s.takeEdge).sdaOut = s.sdaOut := by
  unfold State.takeEdge; split <;> rfl
@[simp] theorem State.takeEdge_busy (s : State) : (s.takeEdge).busy = s.busy := by
  unfold State.takeEdge; split <;> rfl
@[simp] theorem State.takeEdge_cop (s : State) : (s.takeEdge).cop = s.cop := by
  unfold State.takeEdge; split <;> rfl
@[simp] theorem State.takeEdge_result (s : State) : (s.takeEdge).result = s.result := by
  unfold State.takeEdge; split <;> rfl
@[simp] theorem State.takeEdge_xaddr (s : State) : (s.takeEdge).xaddr = s.xaddr := by
  unfold State.takeEdge; split <;> rfl
@[simp] theorem State.takeEdge_xsegs (s : State) : (s.takeEdge).xsegs = s.xsegs := by
  unfold State.takeEdge; split <;> rfl
@[simp] theorem State.takeEdge_cpos (s : State) : (s.takeEdge).cpos = s.cpos := by
  unfold State.takeEdge; split <;> rfl
@[simp] theorem State.takeEdge_csr (s : State) : (s.takeEdge).csr = s.csr := by
  unfold State.takeEdge; split <;> rfl
@[simp] theorem State.takeEdge_cack (s : State) : (s.takeEdge).cack = s.cack := by
  unfold State.takeEdge; split <;> rfl
@[simp] theorem State.takeEdge_cabort (s : State) : (s.takeEdge).cabort = s.cabort := by
  unfold State.takeEdge; split <;> rfl
@[simp] theorem State.takeEdge_tpos (s : State) : (s.takeEdge).tpos = s.tpos := by
  unfold State.takeEdge; split <;> rfl
@[simp] theorem State.takeEdge_tsr (s : State) : (s.takeEdge).tsr = s.tsr := by
  unfold State.takeEdge; split <;> rfl
@[simp] theorem State.takeEdge_tdir (s : State) : (s.takeEdge).tdir = s.tdir := by
  unfold State.takeEdge; split <;> rfl
@[simp] theorem State.takeEdge_tfirst (s : State) : (s.takeEdge).tfirst = s.tfirst := by
  unfold State.takeEdge; split <;> rfl
@[simp] theorem State.takeEdge_terr (s : State) : (s.takeEdge).terr = s.terr := by
  unfold State.takeEdge; split <;> rfl
@[simp] theorem State.takeEdge_tlast (s : State) : (s.takeEdge).tlast = s.tlast := by
  unfold State.takeEdge; split <;> rfl
@[simp] theorem State.takeEdge_mem (s : State) : (s.takeEdge).mem = s.mem := by
  unfold State.takeEdge; split <;> rfl
@[simp] theorem State.takeEdge_got (s : State) : (s.takeEdge).got = s.got := by
  unfold State.takeEdge; split <;> rfl
@[simp] theorem State.takeEdge_bitv (s : State) : (s.takeEdge).bitv = s.bitv := by
  unfold State.takeEdge; split <;> rfl
@[simp] theorem State.takeEdge_det (s : State) : (s.takeEdge).det = s.det := by
  unfold State.takeEdge; split <;> rfl
@[simp] theorem State.takeEdge_ans (s : State) : (s.takeEdge).ans = s.ans := by
  unfold State.takeEdge; split <;> rfl
@[simp] theorem State.takeEdge_peerScl (s : State) : (s.takeEdge).peerScl = s.peerScl := by
  unfold State.takeEdge; split <;> rfl
@[simp] theorem State.takeEdge_peerSda (s : State) : (s.takeEdge).peerSda = s.peerSda := by
  unfold State.takeEdge; split <;> rfl
@[simp] theorem State.takeEdge_ppos (s : State) : (s.takeEdge).ppos = s.ppos := by
  unfold State.takeEdge; split <;> rfl
@[simp] theorem State.takeEdge_port (s : State) : (s.takeEdge).port = s.port := by
  unfold State.takeEdge; split <;> rfl
@[simp] theorem State.takeEdge_responses (s : State) : (s.takeEdge).responses = s.responses := by
  unfold State.takeEdge; split <;> rfl
@[simp] theorem State.takeEdge_statusOut (s : State) : (s.takeEdge).statusOut = s.statusOut := by
  unfold State.takeEdge; split <;> rfl
@[simp] theorem State.takeEdge_calls (s : State) : (s.takeEdge).calls = s.calls := by
  unfold State.takeEdge; split <;> rfl
@[simp] theorem State.takeEdge_inputs (s : State) : (s.takeEdge).inputs = s.inputs := by
  unfold State.takeEdge; split <;> rfl
@[simp] theorem State.takeEdge_answers (s : State) : (s.takeEdge).answers = s.answers := by
  unfold State.takeEdge; split <;> rfl
@[simp] theorem State.takeEdge_tick (s : State) : (s.takeEdge).tick = s.tick := by
  unfold State.takeEdge; split <;> rfl
@[simp] theorem State.takeEdge_busOpen (s : State) : (s.takeEdge).busOpen = s.busOpen := by
  unfold State.takeEdge; split <;> rfl
@[simp] theorem State.takeEdge_lastCond (s : State) : (s.takeEdge).lastCond = s.lastCond := by
  unfold State.takeEdge; split <;> rfl
@[simp] theorem State.takeEdge_unsanctioned (s : State) : (s.takeEdge).unsanctioned = s.unsanctioned := by
  unfold State.takeEdge; split <;> rfl
@[simp] theorem State.takeEdge_elapsed (s : State) : (s.takeEdge).elapsed = s.elapsed := by
  unfold State.takeEdge; split <;> rfl

@[simp] theorem State.finishHandler_mode (s : State) (o : TLast) : (s.finishHandler o).mode = s.mode := rfl
@[simp] theorem State.finishHandler_cfgValid (s : State) (o : TLast) : (s.finishHandler o).cfgValid = s.cfgValid := rfl
@[simp] theorem State.finishHandler_speed (s : State) (o : TLast) : (s.finishHandler o).speed = s.speed := rfl
@[simp] theorem State.finishHandler_low (s : State) (o : TLast) : (s.finishHandler o).low = s.low := rfl
@[simp] theorem State.finishHandler_high (s : State) (o : TLast) : (s.finishHandler o).high = s.high := rfl
@[simp] theorem State.finishHandler_tvalid (s : State) (o : TLast) : (s.finishHandler o).tvalid = s.tvalid := rfl
@[simp] theorem State.finishHandler_taddr (s : State) (o : TLast) : (s.finishHandler o).taddr = s.taddr := rfl
@[simp] theorem State.finishHandler_sclOut (s : State) (o : TLast) : (s.finishHandler o).sclOut = s.sclOut := rfl
@[simp] theorem State.finishHandler_sdaOut (s : State) (o : TLast) : (s.finishHandler o).sdaOut = s.sdaOut := rfl
@[simp] theorem State.finishHandler_busy (s : State) (o : TLast) : (s.finishHandler o).busy = s.busy := rfl
@[simp] theorem State.finishHandler_cop (s : State) (o : TLast) : (s.finishHandler o).cop = s.cop := rfl
@[simp] theorem State.finishHandler_result (s : State) (o : TLast) : (s.finishHandler o).result = s.result := rfl
@[simp] theorem State.finishHandler_xaddr (s : State) (o : TLast) : (s.finishHandler o).xaddr = s.xaddr := rfl
@[simp] theorem State.finishHandler_xsegs (s : State) (o : TLast) : (s.finishHandler o).xsegs = s.xsegs := rfl
@[simp] theorem State.finishHandler_cpos (s : State) (o : TLast) : (s.finishHandler o).cpos = s.cpos := rfl
@[simp] theorem State.finishHandler_csr (s : State) (o : TLast) : (s.finishHandler o).csr = s.csr := rfl
@[simp] theorem State.finishHandler_cack (s : State) (o : TLast) : (s.finishHandler o).cack = s.cack := rfl
@[simp] theorem State.finishHandler_cabort (s : State) (o : TLast) : (s.finishHandler o).cabort = s.cabort := rfl
@[simp] theorem State.finishHandler_tsr (s : State) (o : TLast) : (s.finishHandler o).tsr = s.tsr := rfl
@[simp] theorem State.finishHandler_tdir (s : State) (o : TLast) : (s.finishHandler o).tdir = s.tdir := rfl
@[simp] theorem State.finishHandler_tfirst (s : State) (o : TLast) : (s.finishHandler o).tfirst = s.tfirst := rfl
@[simp] theorem State.finishHandler_edgePend (s : State) (o : TLast) : (s.finishHandler o).edgePend = s.edgePend := rfl
@[simp] theorem State.finishHandler_handlerPend (s : State) (o : TLast) : (s.finishHandler o).handlerPend = s.handlerPend := rfl
@[simp] theorem State.finishHandler_mem (s : State) (o : TLast) : (s.finishHandler o).mem = s.mem := rfl
@[simp] theorem State.finishHandler_got (s : State) (o : TLast) : (s.finishHandler o).got = s.got := rfl
@[simp] theorem State.finishHandler_bitv (s : State) (o : TLast) : (s.finishHandler o).bitv = s.bitv := rfl
@[simp] theorem State.finishHandler_det (s : State) (o : TLast) : (s.finishHandler o).det = s.det := rfl
@[simp] theorem State.finishHandler_ans (s : State) (o : TLast) : (s.finishHandler o).ans = s.ans := rfl
@[simp] theorem State.finishHandler_peerScl (s : State) (o : TLast) : (s.finishHandler o).peerScl = s.peerScl := rfl
@[simp] theorem State.finishHandler_peerSda (s : State) (o : TLast) : (s.finishHandler o).peerSda = s.peerSda := rfl
@[simp] theorem State.finishHandler_ppos (s : State) (o : TLast) : (s.finishHandler o).ppos = s.ppos := rfl
@[simp] theorem State.finishHandler_port (s : State) (o : TLast) : (s.finishHandler o).port = s.port := rfl
@[simp] theorem State.finishHandler_responses (s : State) (o : TLast) : (s.finishHandler o).responses = s.responses := rfl
@[simp] theorem State.finishHandler_statusOut (s : State) (o : TLast) : (s.finishHandler o).statusOut = s.statusOut := rfl
@[simp] theorem State.finishHandler_calls (s : State) (o : TLast) : (s.finishHandler o).calls = s.calls := rfl
@[simp] theorem State.finishHandler_inputs (s : State) (o : TLast) : (s.finishHandler o).inputs = s.inputs := rfl
@[simp] theorem State.finishHandler_answers (s : State) (o : TLast) : (s.finishHandler o).answers = s.answers := rfl
@[simp] theorem State.finishHandler_tick (s : State) (o : TLast) : (s.finishHandler o).tick = s.tick := rfl
@[simp] theorem State.finishHandler_busOpen (s : State) (o : TLast) : (s.finishHandler o).busOpen = s.busOpen := rfl
@[simp] theorem State.finishHandler_lastCond (s : State) (o : TLast) : (s.finishHandler o).lastCond = s.lastCond := rfl
@[simp] theorem State.finishHandler_unsanctioned (s : State) (o : TLast) : (s.finishHandler o).unsanctioned = s.unsanctioned := rfl
@[simp] theorem State.finishHandler_elapsed (s : State) (o : TLast) : (s.finishHandler o).elapsed = s.elapsed := rfl

@[simp] theorem State.readScl_mode (s : State) : (s.readScl).mode = s.mode := rfl
@[simp] theorem State.readScl_cfgValid (s : State) : (s.readScl).cfgValid = s.cfgValid := rfl
@[simp] theorem State.readScl_speed (s : State) : (s.readScl).speed = s.speed := rfl
@[simp] theorem State.readScl_low (s : State) : (s.readScl).low = s.low := rfl
@[simp] theorem State.readScl_high (s : State) : (s.readScl).high = s.high := rfl
@[simp] theorem State.readScl_tvalid (s : State) : (s.readScl).tvalid = s.tvalid := rfl
@[simp] theorem State.readScl_taddr (s : State) : (s.readScl).taddr = s.taddr := rfl
@[simp] theorem State.readScl_tfsm (s : State) : (s.readScl).tfsm = s.tfsm := rfl
@[simp] theorem State.readScl_sclOut (s : State) : (s.readScl).sclOut = s.sclOut := rfl
@[simp] theorem State.readScl_sdaOut (s : State) : (s.readScl).sdaOut = s.sdaOut := rfl
@[simp] theorem State.readScl_busy (s : State) : (s.readScl).busy = s.busy := rfl
@[simp] theorem State.readScl_cop (s : State) : (s.readScl).cop = s.cop := rfl
@[simp] theorem State.readScl_result (s : State) : (s.readScl).result = s.result := rfl
@[simp] theorem State.readScl_xaddr (s : State) : (s.readScl).xaddr = s.xaddr := rfl
@[simp] theorem State.readScl_xsegs (s : State) : (s.readScl).xsegs = s.xsegs := rfl
@[simp] theorem State.readScl_cpos (s : State) : (s.readScl).cpos = s.cpos := rfl
@[simp] theorem State.readScl_csr (s : State) : (s.readScl).csr = s.csr := rfl
@[simp] theorem State.readScl_cack (s : State) : (s.readScl).cack = s.cack := rfl
@[simp] theorem State.readScl_cabort (s : State) : (s.readScl).cabort = s.cabort := rfl
@[simp] theorem State.readScl_tpos (s : State) : (s.readScl).tpos = s.tpos := rfl
@[simp] theorem State.readScl_tsr (s : State) : (s.readScl).tsr = s.tsr := rfl
@[simp] theorem State.readScl_tdir (s : State) : (s.readScl).tdir = s.tdir := rfl
@[simp] theorem State.readScl_tfirst (s : State) : (s.readScl).tfirst = s.tfirst := rfl
@[simp] theorem State.readScl_edgePend (s : State) : (s.readScl).edgePend = s.edgePend := rfl
@[simp] theorem State.readScl_handlerPend (s : State) : (s.readScl).handlerPend = s.handlerPend := rfl
@[simp] theorem State.readScl_terr (s : State) : (s.readScl).terr = s.terr := rfl
@[simp] theorem State.readScl_tlast (s : State) : (s.readScl).tlast = s.tlast := rfl
@[simp] theorem State.readScl_mem (s : State) : (s.readScl).mem = s.mem := rfl
@[simp] theorem State.readScl_bitv (s : State) : (s.readScl).bitv = s.bitv := rfl
@[simp] theorem State.readScl_det (s : State) : (s.readScl).det = s.det := rfl
@[simp] theorem State.readScl_ans (s : State) : (s.readScl).ans = s.ans := rfl
@[simp] theorem State.readScl_peerScl (s : State) : (s.readScl).peerScl = s.peerScl := rfl
@[simp] theorem State.readScl_peerSda (s : State) : (s.readScl).peerSda = s.peerSda := rfl
@[simp] theorem State.readScl_ppos (s : State) : (s.readScl).ppos = s.ppos := rfl
@[simp] theorem State.readScl_port (s : State) : (s.readScl).port = s.port := rfl
@[simp] theorem State.readScl_responses (s : State) : (s.readScl).responses = s.responses := rfl
@[simp] theorem State.readScl_statusOut (s : State) : (s.readScl).statusOut = s.statusOut := rfl
@[simp] theorem State.readScl_calls (s : State) : (s.readScl).calls = s.calls := rfl
@[simp] theorem State.readScl_inputs (s : State) : (s.readScl).inputs = s.inputs := rfl
@[simp] theorem State.readScl_answers (s : State) : (s.readScl).answers = s.answers := rfl
@[simp] theorem State.readScl_tick (s : State) : (s.readScl).tick = s.tick := rfl
@[simp] theorem State.readScl_busOpen (s : State) : (s.readScl).busOpen = s.busOpen := rfl
@[simp] theorem State.readScl_lastCond (s : State) : (s.readScl).lastCond = s.lastCond := rfl
@[simp] theorem State.readScl_unsanctioned (s : State) : (s.readScl).unsanctioned = s.unsanctioned := rfl
@[simp] theorem State.readScl_elapsed (s : State) : (s.readScl).elapsed = s.elapsed := rfl

@[simp] theorem State.readSda_mode (s : State) : (s.readSda).mode = s.mode := rfl
@[simp] theorem State.readSda_cfgValid (s : State) : (s.readSda).cfgValid = s.cfgValid := rfl
@[simp] theorem State.readSda_speed (s : State) : (s.readSda).speed = s.speed := rfl
@[simp] theorem State.readSda_low (s : State) : (s.readSda).low = s.low := rfl
@[simp] theorem State.readSda_high (s : State) : (s.readSda).high = s.high := rfl
@[simp] theorem State.readSda_tvalid (s : State) : (s.readSda).tvalid = s.tvalid := rfl
@[simp] theorem State.readSda_taddr (s : State) : (s.readSda).taddr = s.taddr := rfl
@[simp] theorem State.readSda_tfsm (s : State) : (s.readSda).tfsm = s.tfsm := rfl
@[simp] theorem State.readSda_sclOut (s : State) : (s.readSda).sclOut = s.sclOut := rfl
@[simp] theorem State.readSda_sdaOut (s : State) : (s.readSda).sdaOut = s.sdaOut := rfl
@[simp] theorem State.readSda_busy (s : State) : (s.readSda).busy = s.busy := rfl
@[simp] theorem State.readSda_cop (s : State) : (s.readSda).cop = s.cop := rfl
@[simp] theorem State.readSda_result (s : State) : (s.readSda).result = s.result := rfl
@[simp] theorem State.readSda_xaddr (s : State) : (s.readSda).xaddr = s.xaddr := rfl
@[simp] theorem State.readSda_xsegs (s : State) : (s.readSda).xsegs = s.xsegs := rfl
@[simp] theorem State.readSda_cpos (s : State) : (s.readSda).cpos = s.cpos := rfl
@[simp] theorem State.readSda_csr (s : State) : (s.readSda).csr = s.csr := rfl
@[simp] theorem State.readSda_cack (s : State) : (s.readSda).cack = s.cack := rfl
@[simp] theorem State.readSda_cabort (s : State) : (s.readSda).cabort = s.cabort := rfl
@[simp] theorem State.readSda_tpos (s : State) : (s.readSda).tpos = s.tpos := rfl
@[simp] theorem State.readSda_tsr (s : State) : (s.readSda).tsr = s.tsr := rfl
@[simp] theorem State.readSda_tdir (s : State) : (s.readSda).tdir = s.tdir := rfl
@[simp] theorem State.readSda_tfirst (s : State) : (s.readSda).tfirst = s.tfirst := rfl
@[simp] theorem State.readSda_edgePend (s : State) : (s.readSda).edgePend = s.edgePend := rfl
@[simp] theorem State.readSda_handlerPend (s : State) : (s.readSda).handlerPend = s.handlerPend := rfl
@[simp] theorem State.readSda_terr (s : State) : (s.readSda).terr = s.terr := rfl
@[simp] theorem State.readSda_tlast (s : State) : (s.readSda).tlast = s.tlast := rfl
@[simp] theorem State.readSda_mem (s : State) : (s.readSda).mem = s.mem := rfl
@[simp] theorem State.readSda_bitv (s : State) : (s.readSda).bitv = s.bitv := rfl
@[simp] theorem State.readSda_det (s : State) : (s.readSda).det = s.det := rfl
@[simp] theorem State.readSda_ans (s : State) : (s.readSda).ans = s.ans := rfl
@[simp] theorem State.readSda_peerScl (s : State) : (s.readSda).peerScl = s.peerScl := rfl
@[simp] theorem State.readSda_peerSda (s : State) : (s.readSda).peerSda = s.peerSda := rfl
@[simp] theorem State.readSda_ppos (s : State) : (s.readSda).ppos = s.ppos := rfl
@[simp] theorem State.readSda_port (s : State) : (s.readSda).port = s.port := rfl
@[simp] theorem State.readSda_responses (s : State) : (s.readSda).responses = s.responses := rfl
@[simp] theorem State.readSda_statusOut (s : State) : (s.readSda).statusOut = s.statusOut := rfl
@[simp] theorem State.readSda_calls (s : State) : (s.readSda).calls = s.calls := rfl
@[simp] theorem State.readSda_inputs (s : State) : (s.readSda).inputs = s.inputs := rfl
@[simp] theorem State.readSda_answers (s : State) : (s.readSda).answers = s.answers := rfl
@[simp] theorem State.readSda_tick (s : State) : (s.readSda).tick = s.tick := rfl
@[simp] theorem State.readSda_busOpen (s : State) : (s.readSda).busOpen = s.busOpen := rfl
@[simp] theorem State.readSda_lastCond (s : State) : (s.readSda).lastCond = s.lastCond := rfl
@[simp] theorem State.readSda_unsanctioned (s : State) : (s.readSda).unsanctioned = s.unsanctioned := rfl
@[simp] theorem State.readSda_elapsed (s : State) : (s.readSda).elapsed = s.elapsed := rfl

@[simp] theorem State.thenC_mode (s : State) (ts : List CTask) : (s.thenC ts).mode = s.mode := rfl
@[simp] theorem State.thenC_cfgValid (s : State) (ts : List CTask) : (s.thenC ts).cfgValid = s.cfgValid := rfl
@[simp] theorem State.thenC_speed (s : State) (ts : List CTask) : (s.thenC ts).speed = s.speed := rfl
@[simp] theorem State.thenC_low (s : State) (ts : List CTask) : (s.thenC ts).low = s.low := rfl
@[simp] theorem State.thenC_high (s : State) (ts : List CTask) : (s.thenC ts).high = s.high := rfl
@[simp] theorem State.thenC_tvalid (s : State) (ts : List CTask) : (s.thenC ts).tvalid = s.tvalid := rfl
@[simp] theorem State.thenC_taddr (s : State) (ts : List CTask) : (s.thenC ts).taddr = s.taddr := rfl
@[simp] theorem State.thenC_tfsm (s : State) (ts : List CTask) : (s.thenC ts).tfsm = s.tfsm := rfl
@[simp] theorem State.thenC_sclOut (s : State) (ts : List CTask) : (s.thenC ts).sclOut = s.sclOut := rfl
@[simp] theorem State.thenC_sdaOut (s : State) (ts : List CTask) : (s.thenC ts).sdaOut = s.sdaOut := rfl
@[simp] theorem State.thenC_busy (s : State) (ts : List CTask) : (s.thenC ts).busy = s.busy := rfl
@[simp] theorem State.thenC_cop (s : State) (ts : List CTask) : (s.thenC ts).cop = s.cop := rfl
@[simp] theorem State.thenC_result (s : State) (ts : List CTask) : (s.thenC ts).result = s.result := rfl
@[simp] theorem State.thenC_xaddr (s : State) (ts : List CTask) : (s.thenC ts).xaddr = s.xaddr := rfl
@[simp] theorem State.thenC_xsegs (s : State) (ts : List CTask) : (s.thenC ts).xsegs = s.xsegs := rfl
@[simp] theorem State.thenC_csr (s : State) (ts : List CTask) : (s.thenC ts).csr = s.csr := rfl
@[simp] theorem State.thenC_cack (s : State) (ts : List CTask) : (s.thenC ts).cack = s.cack := rfl
@[simp] theorem State.thenC_cabort (s : State) (ts : List CTask) : (s.thenC ts).cabort = s.cabort := rfl
@[simp] theorem State.thenC_tpos (s : State) (ts : List CTask) : (s.thenC ts).tpos = s.tpos := rfl
@[simp] theorem State.thenC_tsr (s : State) (ts : List CTask) : (s.thenC ts).tsr = s.tsr := rfl
@[simp] theorem State.thenC_tdir (s : State) (ts : List CTask) : (s.thenC ts).tdir = s.tdir := rfl
@[simp] theorem State.thenC_tfirst (s : State) (ts : List CTask) : (s.thenC ts).tfirst = s.tfirst := rfl
@[simp] theorem State.thenC_edgePend (s : State) (ts : List CTask) : (s.thenC ts).edgePend = s.edgePend := rfl
@[simp] theorem State.thenC_handlerPend (s : State) (ts : List CTask) : (s.thenC ts).handlerPend = s.handlerPend := rfl
@[simp] theorem State.thenC_terr (s : State) (ts : List CTask) : (s.thenC ts).terr = s.terr := rfl
@[simp] theorem State.thenC_tlast (s : State) (ts : List CTask) : (s.thenC ts).tlast = s.tlast := rfl
@[simp] theorem State.thenC_mem (s : State) (ts : List CTask) : (s.thenC ts).mem = s.mem := rfl
@[simp] theorem State.thenC_got (s : State) (ts : List CTask) : (s.thenC ts).got = s.got := rfl
@[simp] theorem State.thenC_bitv (s : State) (ts : List CTask) : (s.thenC ts).bitv = s.bitv := rfl
@[simp] theorem State.thenC_det (s : State) (ts : List CTask) : (s.thenC ts).det = s.det := rfl
@[simp] theorem State.thenC_ans (s : State) (ts : List CTask) : (s.thenC ts).ans = s.ans := rfl
@[simp] theorem State.thenC_peerScl (s : State) (ts : List CTask) : (s.thenC ts).peerScl = s.peerScl := rfl
@[simp] theorem State.thenC_peerSda (s : State) (ts : List CTask) : (s.thenC ts).peerSda = s.peerSda := rfl
@[simp] theorem State.thenC_ppos (s : State) (ts : List CTask) : (s.thenC ts).ppos = s.ppos := rfl
@[simp] theorem State.thenC_port (s : State) (ts : List CTask) : (s.thenC ts).port = s.port := rfl
@[simp] theorem State.thenC_responses (s : State) (ts : List CTask) : (s.thenC ts).responses = s.responses := rfl
@[simp] theorem State.thenC_statusOut (s : State) (ts : List CTask) : (s.thenC ts).statusOut = s.statusOut := rfl
@[simp] theorem State.thenC_calls (s : State) (ts : List CTask) : (s.thenC ts).calls = s.calls := rfl
@[simp] theorem State.thenC_inputs (s : State) (ts : List CTask) : (s.thenC ts).inputs = s.inputs := rfl
@[simp] theorem State.thenC_answers (s : State) (ts : List CTask) : (s.thenC ts).answers = s.answers := rfl
@[simp] theorem State.thenC_tick (s : State) (ts : List CTask) : (s.thenC ts).tick = s.tick := rfl
@[simp] theorem State.thenC_busOpen (s : State) (ts : List CTask) : (s.thenC ts).busOpen = s.busOpen := rfl
@[simp] theorem State.thenC_lastCond (s : State) (ts : List CTask) : (s.thenC ts).lastCond = s.lastCond := rfl
@[simp] theorem State.thenC_unsanctioned (s : State) (ts : List CTask) : (s.thenC ts).unsanctioned = s.unsanctioned := rfl
@[simp] theorem State.thenC_elapsed (s : State) (ts : List CTask) : (s.thenC ts).elapsed = s.elapsed := rfl

@[simp] theorem State.thenT_mode (s : State) (ts : List TTask) : (s.thenT ts).mode = s.mode := rfl
@[simp] theorem State.thenT_cfgValid (s : State) (ts : List TTask) : (s.thenT ts).cfgValid = s.cfgValid := rfl
@[simp] theorem State.thenT_speed (s : State) (ts : List TTask) : (s.thenT ts).speed = s.speed := rfl
@[simp] theorem State.thenT_low (s : State) (ts : List TTask) : (s.thenT ts).low = s.low := rfl
@[simp] theorem State.thenT_high (s : State) (ts : List TTask) : (s.thenT ts).high = s.high := rfl
@[simp] theorem State.thenT_tvalid (s : State) (ts : List TTask) : (s.thenT ts).tvalid = s.tvalid := rfl
@[simp] theorem State.thenT_taddr (s : State) (ts : List TTask) : (s.thenT ts).taddr = s.taddr := rfl
@[simp] theorem State.thenT_tfsm (s : State) (ts : List TTask) : (s.thenT ts).tfsm = s.tfsm := rfl
@[simp] theorem State.thenT_sclOut (s : State) (ts : List TTask) : (s.thenT ts).sclOut = s.sclOut := rfl
@[simp] theorem State.thenT_sdaOut (s : State) (ts : List TTask) : (s.thenT ts).sdaOut = s.sdaOut := rfl
@[simp] theorem State.thenT_busy (s : State) (ts : List TTask) : (s.thenT ts).busy = s.busy := rfl
@[simp] theorem State.thenT_cop (s : State) (ts : List TTask) : (s.thenT ts).cop = s.cop := rfl
@[simp] theorem State.thenT_result (s : State) (ts : List TTask) : (s.thenT ts).result = s.result := rfl
@[simp] theorem State.thenT_xaddr (s : State) (ts : List TTask) : (s.thenT ts).xaddr = s.xaddr := rfl
@[simp] theorem State.thenT_xsegs (s : State) (ts : List TTask) : (s.thenT ts).xsegs = s.xsegs := rfl
@[simp] theorem State.thenT_cpos (s : State) (ts : List TTask) : (s.thenT ts).cpos = s.cpos := rfl
@[simp] theorem State.thenT_csr (s : State) (ts : List TTask) : (s.thenT ts).csr = s.csr := rfl
@[simp] theorem State.thenT_cack (s : State) (ts : List TTask) : (s.thenT ts).cack = s.cack := rfl
@[simp] theorem State.thenT_cabort (s : State) (ts : List TTask) : (s.thenT ts).cabort = s.cabort := rfl
@[simp] theorem State.thenT_tsr (s : State) (ts : List TTask) : (s.thenT ts).tsr = s.tsr := rfl
@[simp] theorem State.thenT_tdir (s : State) (ts : List TTask) : (s.thenT ts).tdir = s.tdir := rfl
@[simp] theorem State.thenT_tfirst (s : State) (ts : List TTask) : (s.thenT ts).tfirst = s.tfirst := rfl
@[simp] theorem State.thenT_edgePend (s : State) (ts : List TTask) : (s.thenT ts).edgePend = s.edgePend := rfl
@[simp] theorem State.thenT_handlerPend (s : State) (ts : List TTask) : (s.thenT ts).handlerPend = s.handlerPend := rfl
@[simp] theorem State.thenT_terr (s : State) (ts : List TTask) : (s.thenT ts).terr = s.terr := rfl
@[simp] theorem State.thenT_tlast (s : State) (ts : List TTask) : (s.thenT ts).tlast = s.tlast := rfl
@[simp] theorem State.thenT_mem (s : State) (ts : List TTask) : (s.thenT ts).mem = s.mem := rfl
@[simp] theorem State.thenT_got (s : State) (ts : List TTask) : (s.thenT ts).got = s.got := rfl
@[simp] theorem State.thenT_bitv (s : State) (ts : List TTask) : (s.thenT ts).bitv = s.bitv := rfl
@[simp] theorem State.thenT_det (s : State) (ts : List TTask) : (s.thenT ts).det = s.det := rfl
@[simp] theorem State.thenT_ans (s : State) (ts : List TTask) : (s.thenT ts).ans = s.ans := rfl
@[simp] theorem State.thenT_peerScl (s : State) (ts : List TTask) : (s.thenT ts).peerScl = s.peerScl := rfl
@[simp] theorem State.thenT_peerSda (s : State) (ts : List TTask) : (s.thenT ts).peerSda = s.peerSda := rfl
@[simp] theorem State.thenT_ppos (s : State) (ts : List TTask) : (s.thenT ts).ppos = s.ppos := rfl
@[simp] theorem State.thenT_port (s : State) (ts : List TTask) : (s.thenT ts).port = s.port := rfl
@[simp] theorem State.thenT_responses (s : State) (ts : List TTask) : (s.thenT ts).responses = s.responses := rfl
@[simp] theorem State.thenT_statusOut (s : State) (ts : List TTask) : (s.thenT ts).statusOut = s.statusOut := rfl
@[simp] theorem State.thenT_calls (s : State) (ts : List TTask) : (s.thenT ts).calls = s.calls := rfl
@[simp] theorem State.thenT_inputs (s : State) (ts : List TTask) : (s.thenT ts).inputs = s.inputs := rfl
@[simp] theorem State.thenT_answers (s : State) (ts : List TTask) : (s.thenT ts).answers = s.answers := rfl
@[simp] theorem State.thenT_tick (s : State) (ts : List TTask) : (s.thenT ts).tick = s.tick := rfl
@[simp] theorem State.thenT_busOpen (s : State) (ts : List TTask) : (s.thenT ts).busOpen = s.busOpen := rfl
@[simp] theorem State.thenT_lastCond (s : State) (ts : List TTask) : (s.thenT ts).lastCond = s.lastCond := rfl
@[simp] theorem State.thenT_unsanctioned (s : State) (ts : List TTask) : (s.thenT ts).unsanctioned = s.unsanctioned := rfl
@[simp] theorem State.thenT_elapsed (s : State) (ts : List TTask) : (s.thenT ts).elapsed = s.elapsed := rfl

@[simp] theorem State.thenP_mode (s : State) (ts : List PTask) : (s.thenP ts).mode = s.mode := rfl
@[simp] theorem State.thenP_cfgValid (s : State) (ts : List PTask) : (s.thenP ts).cfgValid = s.cfgValid := rfl
@[simp] theorem State.thenP_speed (s : State) (ts : List PTask) : (s.thenP ts).speed = s.speed := rfl
@[simp] theorem State.thenP_low (s : State) (ts : List PTask) : (s.thenP ts).low = s.low := rfl
@[simp] theorem State.thenP_high (s : State) (ts : List PTask) : (s.thenP ts).high = s.high := rfl
@[simp] theorem State.thenP_tvalid (s : State) (ts : List PTask) : (s.thenP ts).tvalid = s.tvalid := rfl
@[simp] theorem State.thenP_taddr (s : State) (ts : List PTask) : (s.thenP ts).taddr = s.taddr := rfl
@[simp] theorem State.thenP_tfsm (s : State) (ts : List PTask) : (s.thenP ts).tfsm = s.tfsm := rfl
@[simp] theorem State.thenP_sclOut (s : State) (ts : List PTask) : (s.thenP ts).sclOut = s.sclOut := rfl
@[simp] theorem State.thenP_sdaOut (s : State) (ts : List PTask) : (s.thenP ts).sdaOut = s.sdaOut := rfl
@[simp] theorem State.thenP_busy (s : State) (ts : List PTask) : (s.thenP ts).busy = s.busy := rfl
@[simp] theorem State.thenP_cop (s : State) (ts : List PTask) : (s.thenP ts).cop = s.cop := rfl
@[simp] theorem State.thenP_result (s : State) (ts : List PTask) : (s.thenP ts).result = s.result := rfl
@[simp] theorem State.thenP_xaddr (s : State) (ts : List PTask) : (s.thenP ts).xaddr = s.xaddr := rfl
@[simp] theorem State.thenP_xsegs (s : State) (ts : List PTask) : (s.thenP ts).xsegs = s.xsegs := rfl
@[simp] theorem State.thenP_cpos (s : State) (ts : List PTask) : (s.thenP ts).cpos = s.cpos := rfl
@[simp] theorem State.thenP_csr (s : State) (ts : List PTask) : (s.thenP ts).csr = s.csr := rfl
@[simp] theorem State.thenP_cack (s : State) (ts : List PTask) : (s.thenP ts).cack = s.cack := rfl
@[simp] theorem State.thenP_cabort (s : State) (ts : List PTask) : (s.thenP ts).cabort = s.cabort := rfl
@[simp] theorem State.thenP_tpos (s : State) (ts : List PTask) : (s.thenP ts).tpos = s.tpos := rfl
@[simp] theorem State.thenP_tsr (s : State) (ts : List PTask) : (s.thenP ts).tsr = s.tsr := rfl
@[simp] theorem State.thenP_tdir (s : State) (ts : List PTask) : (s.thenP ts).tdir = s.tdir := rfl
@[simp] theorem State.thenP_tfirst (s : State) (ts : List PTask) : (s.thenP ts).tfirst = s.tfirst := rfl
@[simp] theorem State.thenP_edgePend (s : State) (ts : List PTask) : (s.thenP ts).edgePend = s.edgePend := rfl
@[simp] theorem State.thenP_handlerPend (s : State) (ts : List PTask) : (s.thenP ts).handlerPend = s.handlerPend := rfl
@[simp] theorem State.thenP_terr (s : State) (ts : List PTask) : (s.thenP ts).terr = s.terr := rfl
@[simp] theorem State.thenP_tlast (s : State) (ts : List PTask) : (s.thenP ts).tlast = s.tlast := rfl
@[simp] theorem State.thenP_mem (s : State) (ts : List PTask) : (s.thenP ts).mem = s.mem := rfl
@[simp] theorem State.thenP_got (s : State) (ts : List PTask) : (s.thenP ts).got = s.got := rfl
@[simp] theorem State.thenP_bitv (s : State) (ts : List PTask) : (s.thenP ts).bitv = s.bitv := rfl
@[simp] theorem State.thenP_det (s : State) (ts : List PTask) : (s.thenP ts).det = s.det := rfl
@[simp] theorem State.thenP_ans (s : State) (ts : List PTask) : (s.thenP ts).ans = s.ans := rfl
@[simp] theorem State.thenP_peerScl (s : State) (ts : List PTask) : (s.thenP ts).peerScl = s.peerScl := rfl
@[simp] theorem State.thenP_peerSda (s : State) (ts : List PTask) : (s.thenP ts).peerSda = s.peerSda := rfl
@[simp] theorem State.thenP_port (s : State) (ts : List PTask) : (s.thenP ts).port = s.port := rfl
@[simp] theorem State.thenP_responses (s : State) (ts : List PTask) : (s.thenP ts).responses = s.responses := rfl
@[simp] theorem State.thenP_statusOut (s : State) (ts : List PTask) : (s.thenP ts).statusOut = s.statusOut := rfl
@[simp] theorem State.thenP_calls (s : State) (ts : List PTask) : (s.thenP ts).calls = s.calls := rfl
@[simp] theorem State.thenP_inputs (s : State) (ts : List PTask) : (s.thenP ts).inputs = s.inputs := rfl
@[simp] theorem State.thenP_answers (s : State) (ts : List PTask) : (s.thenP ts).answers = s.answers := rfl
@[simp] theorem State.thenP_tick (s : State) (ts : List PTask) : (s.thenP ts).tick = s.tick := rfl
@[simp] theorem State.thenP_busOpen (s : State) (ts : List PTask) : (s.thenP ts).busOpen = s.busOpen := rfl
@[simp] theorem State.thenP_lastCond (s : State) (ts : List PTask) : (s.thenP ts).lastCond = s.lastCond := rfl
@[simp] theorem State.thenP_unsanctioned (s : State) (ts : List PTask) : (s.thenP ts).unsanctioned = s.unsanctioned := rfl
@[simp] theorem State.thenP_elapsed (s : State) (ts : List PTask) : (s.thenP ts).elapsed = s.elapsed := rfl

@[simp] theorem State.beginWbit_mode (s : State) (b : Level) : (s.beginWbit b).mode = s.mode := rfl
@[simp] theorem State.beginWbit_cfgValid (s : State) (b : Level) : (s.beginWbit b).cfgValid = s.cfgValid := rfl
@[simp] theorem State.beginWbit_speed (s : State) (b : Level) : (s.beginWbit b).speed = s.speed := rfl
@[simp] theorem State.beginWbit_low (s : State) (b : Level) : (s.beginWbit b).low = s.low := rfl
@[simp] theorem State.beginWbit_high (s : State) (b : Level) : (s.beginWbit b).high = s.high := rfl
@[simp] theorem State.beginWbit_tvalid (s : State) (b : Level) : (s.beginWbit b).tvalid = s.tvalid := rfl
@[simp] theorem State.beginWbit_taddr (s : State) (b : Level) : (s.beginWbit b).taddr = s.taddr := rfl
@[simp] theorem State.beginWbit_tfsm (s : State) (b : Level) : (s.beginWbit b).tfsm = s.tfsm := rfl
@[simp] theorem State.beginWbit_sclOut (s : State) (b : Level) : (s.beginWbit b).sclOut = s.sclOut := rfl
@[simp] theorem State.beginWbit_busy (s : State) (b : Level) : (s.beginWbit b).busy = s.busy := rfl
@[simp] theorem State.beginWbit_cop (s : State) (b : Level) : (s.beginWbit b).cop = s.cop := rfl
@[simp] theorem State.beginWbit_result (s : State) (b : Level) : (s.beginWbit b).result = s.result := rfl
@[simp] theorem State.beginWbit_xaddr (s : State) (b : Level) : (s.beginWbit b).xaddr = s.xaddr := rfl
@[simp] theorem State.beginWbit_xsegs (s : State) (b : Level) : (s.beginWbit b).xsegs = s.xsegs := rfl
@[simp] theorem State.beginWbit_csr (s : State) (b : Level) : (s.beginWbit b).csr = s.csr := rfl
@[simp] theorem State.beginWbit_cack (s : State) (b : Level) : (s.beginWbit b).cack = s.cack := rfl
@[simp] theorem State.beginWbit_cabort (s : State) (b : Level) : (s.beginWbit b).cabort = s.cabort := rfl
@[simp] theorem State.beginWbit_tpos (s : State) (b : Level) : (s.beginWbit b).tpos = s.tpos := rfl
@[simp] theorem State.beginWbit_tsr (s : State) (b : Level) : (s.beginWbit b).tsr = s.tsr := rfl
@[simp] theorem State.beginWbit_tdir (s : State) (b : Level) : (s.beginWbit b).tdir = s.tdir := rfl
@[simp] theorem State.beginWbit_tfirst (s : State) (b : Level) : (s.beginWbit b).tfirst = s.tfirst := rfl
@[simp] theorem State.beginWbit_handlerPend (s : State) (b : Level) : (s.beginWbit b).handlerPend = s.handlerPend := rfl
@[simp] theorem State.beginWbit_terr (s : State) (b : Level) : (s.beginWbit b).terr = s.terr := rfl
@[simp] theorem State.beginWbit_tlast (s : State) (b : Level) : (s.beginWbit b).tlast = s.tlast := rfl
@[simp] theorem State.beginWbit_mem (s : State) (b : Level) : (s.beginWbit b).mem = s.mem := rfl
@[simp] theorem State.beginWbit_got (s : State) (b : Level) : (s.beginWbit b).got = s.got := rfl
@[simp] theorem State.beginWbit_bitv (s : State) (b : Level) : (s.beginWbit b).bitv = s.bitv := rfl
@[simp] theorem State.beginWbit_det (s : State) (b : Level) : (s.beginWbit b).det = s.det := rfl
@[simp] theorem State.beginWbit_ans (s : State) (b : Level) : (s.beginWbit b).ans = s.ans := rfl
@[simp] theorem State.beginWbit_peerScl (s : State) (b : Level) : (s.beginWbit b).peerScl = s.peerScl := rfl
@[simp] theorem State.beginWbit_peerSda (s : State) (b : Level) : (s.beginWbit b).peerSda = s.peerSda := rfl
@[simp] theorem State.beginWbit_ppos (s : State) (b : Level) : (s.beginWbit b).ppos = s.ppos := rfl
@[simp] theorem State.beginWbit_port (s : State) (b : Level) : (s.beginWbit b).port = s.port := rfl
@[simp] theorem State.beginWbit_responses (s : State) (b : Level) : (s.beginWbit b).responses = s.responses := rfl
@[simp] theorem State.beginWbit_statusOut (s : State) (b : Level) : (s.beginWbit b).statusOut = s.statusOut := rfl
@[simp] theorem State.beginWbit_calls (s : State) (b : Level) : (s.beginWbit b).calls = s.calls := rfl
@[simp] theorem State.beginWbit_inputs (s : State) (b : Level) : (s.beginWbit b).inputs = s.inputs := rfl
@[simp] theorem State.beginWbit_answers (s : State) (b : Level) : (s.beginWbit b).answers = s.answers := rfl
@[simp] theorem State.beginWbit_tick (s : State) (b : Level) : (s.beginWbit b).tick = s.tick := rfl
@[simp] theorem State.beginWbit_elapsed (s : State) (b : Level) : (s.beginWbit b).elapsed = s.elapsed := rfl

@[simp] theorem State.beginRbit_mode (s : State) : (s.beginRbit).mode = s.mode := rfl
@[simp] theorem State.beginRbit_cfgValid (s : State) : (s.beginRbit).cfgValid = s.cfgValid := rfl
@[simp] theorem State.beginRbit_speed (s : State) : (s.beginRbit).speed = s.speed := rfl
@[simp] theorem State.beginRbit_low (s : State) : (s.beginRbit).low = s.low := rfl
@[simp] theorem State.beginRbit_high (s : State) : (s.beginRbit).high = s.high := rfl
@[simp] theorem State.beginRbit_tvalid (s : State) : (s.beginRbit).tvalid = s.tvalid := rfl
@[simp] theorem State.beginRbit_taddr (s : State) : (s.beginRbit).taddr = s.taddr := rfl
@[simp] theorem State.beginRbit_tfsm (s : State) : (s.beginRbit).tfsm = s.tfsm := rfl
@[simp] theorem State.beginRbit_sclOut (s : State) : (s.beginRbit).sclOut = s.sclOut := rfl
@[simp] theorem State.beginRbit_busy (s : State) : (s.beginRbit).busy = s.busy := rfl
@[simp] theorem State.beginRbit_cop (s : State) : (s.beginRbit).cop = s.cop := rfl
@[simp] theorem State.beginRbit_result (s : State) : (s.beginRbit).result = s.result := rfl
@[simp] theorem State.beginRbit_xaddr (s : State) : (s.beginRbit).xaddr = s.xaddr := rfl
@[simp] theorem State.beginRbit_xsegs (s : State) : (s.beginRbit).xsegs = s.xsegs := rfl
@[simp] theorem State.beginRbit_csr (s : State) : (s.beginRbit).csr = s.csr := rfl
@[simp] theorem State.beginRbit_cack (s : State) : (s.beginRbit).cack = s.cack := rfl
@[simp] theorem State.beginRbit_cabort (s : State) : (s.beginRbit).cabort = s.cabort := rfl
@[simp] theorem State.beginRbit_tpos (s : State) : (s.beginRbit).tpos = s.tpos := rfl
@[simp] theorem State.beginRbit_tsr (s : State) : (s.beginRbit).tsr = s.tsr := rfl
@[simp] theorem State.beginRbit_tdir (s : State) : (s.beginRbit).tdir = s.tdir := rfl
@[simp] theorem State.beginRbit_tfirst (s : State) : (s.beginRbit).tfirst = s.tfirst := rfl
@[simp] theorem State.beginRbit_handlerPend (s : State) : (s.beginRbit).handlerPend = s.handlerPend := rfl
@[simp] theorem State.beginRbit_terr (s : State) : (s.beginRbit).terr = s.terr := rfl
@[simp] theorem State.beginRbit_tlast (s : State) : (s.beginRbit).tlast = s.tlast := rfl
@[simp] theorem State.beginRbit_mem (s : State) : (s.beginRbit).mem = s.mem := rfl
@[simp] theorem State.beginRbit_got (s : State) : (s.beginRbit).got = s.got := rfl
@[simp] theorem State.beginRbit_bitv (s : State) : (s.beginRbit).bitv = s.bitv := rfl
@[simp] theorem State.beginRbit_det (s : State) : (s.beginRbit).det = s.det := rfl
@[simp] theorem State.beginRbit_ans (s : State) : (s.beginRbit).ans = s.ans := rfl
@[simp] theorem State.beginRbit_peerScl (s : State) : (s.beginRbit).peerScl = s.peerScl := rfl
@[simp] theorem State.beginRbit_peerSda (s : State) : (s.beginRbit).peerSda = s.peerSda := rfl
@[simp] theorem State.beginRbit_ppos (s : State) : (s.beginRbit).ppos = s.ppos := rfl
@[simp] theorem State.beginRbit_port (s : State) : (s.beginRbit).port = s.port := rfl
@[simp] theorem State.beginRbit_responses (s : State) : (s.beginRbit).responses = s.responses := rfl
@[simp] theorem State.beginRbit_statusOut (s : State) : (s.beginRbit).statusOut = s.statusOut := rfl
@[simp] theorem State.beginRbit_calls (s : State) : (s.beginRbit).calls = s.calls := rfl
@[simp] theorem State.beginRbit_inputs (s : State) : (s.beginRbit).inputs = s.inputs := rfl
@[simp] theorem State.beginRbit_answers (s : State) : (s.beginRbit).answers = s.answers := rfl
@[simp] theorem State.beginRbit_tick (s : State) : (s.beginRbit).tick = s.tick := rfl
@[simp] theorem State.beginRbit_elapsed (s : State) : (s.beginRbit).elapsed = s.elapsed := rfl

@[simp] theorem State.pollScl_mode (s : State) (l : Level) (i : Instr) : (s.pollScl l i).mode = s.mode := by
  unfold State.pollScl; split <;> rfl
@[simp] theorem State.pollScl_cfgValid (s : State) (l : Level) (i : Instr) : (s.pollScl l i).cfgValid = s.cfgValid := by
  unfold State.pollScl; split <;> rfl
@[simp] theorem State.pollScl_speed (s : State) (l : Level) (i : Instr) : (s.pollScl l i).speed = s.speed := by
  unfold State.pollScl; split <;> rfl
@[simp] theorem State.pollScl_low (s : State) (l : Level) (i : Instr) : (s.pollScl l i).low = s.low := by
  unfold State.pollScl; split <;> rfl
@[simp] theorem State.pollScl_high (s : State) (l : Level) (i : Instr) : (s.pollScl l i).high = s.high := by
  unfold State.pollScl; split <;> rfl
@[simp] theorem State.pollScl_tvalid (s : State) (l : Level) (i : Instr) : (s.pollScl l i).tvalid = s.tvalid := by
  unfold State.pollScl; split <;> rfl
@[simp] theorem State.pollScl_taddr (s : State) (l : Level) (i : Instr) : (s.pollScl l i).taddr = s.taddr := by
  unfold State.pollScl; split <;> rfl
@[simp] theorem State.pollScl_tfsm (s : State) (l : Level) (i : Instr) : (s.pollScl l i).tfsm = s.tfsm := by
  unfold State.pollScl; split <;> rfl
@[simp] theorem State.pollScl_sclOut (s : State) (l : Level) (i : Instr) : (s.pollScl l i).sclOut = s.sclOut := by
  unfold State.pollScl; split <;> rfl
@[simp] theorem State.pollScl_sdaOut (s : State) (l : Level) (i : Instr) : (s.pollScl l i).sdaOut = s.sdaOut := by
  unfold State.pollScl; split <;> rfl
@[simp] theorem State.pollScl_busy (s : State) (l : Level) (i : Instr) : (s.pollScl l i).busy = s.busy := by
  unfold State.pollScl; split <;> rfl
@[simp] theorem State.pollScl_cop (s : State) (l : Level) (i : Instr) : (s.pollScl l i).cop = s.cop := by
  unfold State.pollScl; split <;> rfl
@[simp] theorem State.pollScl_result (s : State) (l : Level) (i : Instr) : (s.pollScl l i).result = s.result := by
  unfold State.pollScl; split <;> rfl
@[simp] theorem State.pollScl_xaddr (s : State) (l : Level) (i : Instr) : (s.pollScl l i).xaddr = s.xaddr := by
  unfold State.pollScl; split <;> rfl
@[simp] theorem State.pollScl_xsegs (s : State) (l : Level) (i : Instr) : (s.pollScl l i).xsegs = s.xsegs := by
  unfold State.pollScl; split <;> rfl
@[simp] theorem State.pollScl_cpos (s : State) (l : Level) (i : Instr) : (s.pollScl l i).cpos = s.cpos := by
  unfold State.pollScl; split <;> rfl
@[simp] theorem State.pollScl_csr (s : State) (l : Level) (i : Instr) : (s.pollScl l i).csr = s.csr := by
  unfold State.pollScl; split <;> rfl
@[simp] theorem State.pollScl_cack (s : State) (l : Level) (i : Instr) : (s.pollScl l i).cack = s.cack := by
  unfold State.pollScl; split <;> rfl
@[simp] theorem State.pollScl_cabort (s : State) (l : Level) (i : Instr) : (s.pollScl l i).cabort = s.cabort := by
  unfold State.pollScl; split <;> rfl
@[simp] theorem State.pollScl_tsr (s : State) (l : Level) (i : Instr) : (s.pollScl l i).tsr = s.tsr := by
  unfold State.pollScl; split <;> rfl
@[simp] theorem State.pollScl_tdir (s : State) (l : Level) (i : Instr) : (s.pollScl l i).tdir = s.tdir := by
  unfold State.pollScl; split <;> rfl
@[simp] theorem State.pollScl_tfirst (s : State) (l : Level) (i : Instr) : (s.pollScl l i).tfirst = s.tfirst := by
  unfold State.pollScl; split <;> rfl
@[simp] theorem State.pollScl_edgePend (s : State) (l : Level) (i : Instr) : (s.pollScl l i).edgePend = s.edgePend := by
  unfold State.pollScl; split <;> rfl
@[simp] theorem State.pollScl_handlerPend (s : State) (l : Level) (i : Instr) : (s.pollScl l i).handlerPend = s.handlerPend := by
  unfold State.pollScl; split <;> rfl
@[simp] theorem State.pollScl_terr (s : State) (l : Level) (i : Instr) : (s.pollScl l i).terr = s.terr := by
  unfold State.pollScl; split <;> rfl
@[simp] theorem State.pollScl_tlast (s : State) (l : Level) (i : Instr) : (s.pollScl l i).tlast = s.tlast := by
  unfold State.pollScl; split <;> rfl
@[simp] theorem State.pollScl_mem (s : State) (l : Level) (i : Instr) : (s.pollScl l i).mem = s.mem := by
  unfold State.pollScl; split <;> rfl
@[simp] theorem State.pollScl_bitv (s : State) (l : Level) (i : Instr) : (s.pollScl l i).bitv = s.bitv := by
  unfold State.pollScl; split <;> rfl
@[simp] theorem State.pollScl_det (s : State) (l : Level) (i : Instr) : (s.pollScl l i).det = s.det := by
  unfold State.pollScl; split <;> rfl
@[simp] theorem State.pollScl_ans (s : State) (l : Level) (i : Instr) : (s.pollScl l i).ans = s.ans := by
  unfold State.pollScl; split <;> rfl
@[simp] theorem State.pollScl_peerScl (s : State) (l : Level) (i : Instr) : (s.pollScl l i).peerScl = s.peerScl := by
  unfold State.pollScl; split <;> rfl
@[simp] theorem State.pollScl_peerSda (s : State) (l : Level) (i : Instr) : (s.pollScl l i).peerSda = s.peerSda := by
  unfold State.pollScl; split <;> rfl
@[simp] theorem State.pollScl_ppos (s : State) (l : Level) (i : Instr) : (s.pollScl l i).ppos = s.ppos := by
  unfold State.pollScl; split <;> rfl
@[simp] theorem State.pollScl_port (s : State) (l : Level) (i : Instr) : (s.pollScl l i).port = s.port := by
  unfold State.pollScl; split <;> rfl
@[simp] theorem State.pollScl_responses (s : State) (l : Level) (i : Instr) : (s.pollScl l i).responses = s.responses := by
  unfold State.pollScl; split <;> rfl
@[simp] theorem State.pollScl_statusOut (s : State) (l : Level) (i : Instr) : (s.pollScl l i).statusOut = s.statusOut := by
  unfold State.pollScl; split <;> rfl
@[simp] theorem State.pollScl_calls (s : State) (l : Level) (i : Instr) : (s.pollScl l i).calls = s.calls := by
  unfold State.pollScl; split <;> rfl
@[simp] theorem State.pollScl_inputs (s : State) (l : Level) (i : Instr) : (s.pollScl l i).inputs = s.inputs := by
  unfold State.pollScl; split <;> rfl
@[simp] theorem State.pollScl_answers (s : State) (l : Level) (i : Instr) : (s.pollScl l i).answers = s.answers := by
  unfold State.pollScl; split <;> rfl
@[simp] theorem State.pollScl_tick (s : State) (l : Level) (i : Instr) : (s.pollScl l i).tick = s.tick := by
  unfold State.pollScl; split <;> rfl
@[simp] theorem State.pollScl_busOpen (s : State) (l : Level) (i : Instr) : (s.pollScl l i).busOpen = s.busOpen := by
  unfold State.pollScl; split <;> rfl
@[simp] theorem State.pollScl_lastCond (s : State) (l : Level) (i : Instr) : (s.pollScl l i).lastCond = s.lastCond := by
  unfold State.pollScl; split <;> rfl
@[simp] theorem State.pollScl_unsanctioned (s : State) (l : Level) (i : Instr) : (s.pollScl l i).unsanctioned = s.unsanctioned := by
  unfold State.pollScl; split <;> rfl
@[simp] theorem State.pollScl_elapsed (s : State) (l : Level) (i : Instr) : (s.pollScl l i).elapsed = s.elapsed := by
  unfold State.pollScl; split <;> rfl

@[simp] theorem State.beginTrbit_mode (s : State) : (s.beginTrbit).mode = s.mode := by
  unfold State.beginTrbit State.pollScl; split <;> rfl
@[simp] theorem State.beginTrbit_cfgValid (s : State) : (s.beginTrbit).cfgValid = s.cfgValid := by
  unfold State.beginTrbit State.pollScl; split <;> rfl
@[simp] theorem State.beginTrbit_speed (s : State) : (s.beginTrbit).speed = s.speed := by
  unfold State.beginTrbit State.pollScl; split <;> rfl
@[simp] theorem State.beginTrbit_low (s : State) : (s.beginTrbit).low = s.low := by
  unfold State.beginTrbit State.pollScl; split <;> rfl
@[simp] theorem State.beginTrbit_high (s : State) : (s.beginTrbit).high = s.high := by
  unfold State.beginTrbit State.pollScl; split <;> rfl
@[simp] theorem State.beginTrbit_tvalid (s : State) : (s.beginTrbit).tvalid = s.tvalid := by
  unfold State.beginTrbit State.pollScl; split <;> rfl
@[simp] theorem State.beginTrbit_taddr (s : State) : (s.beginTrbit).taddr = s.taddr := by
  unfold State.beginTrbit State.pollScl; split <;> rfl
@[simp] theorem State.beginTrbit_tfsm (s : State) : (s.beginTrbit).tfsm = s.tfsm := by
  unfold State.beginTrbit State.pollScl; split <;> rfl
@[simp] theorem State.beginTrbit_sclOut (s : State) : (s.beginTrbit).sclOut = s.sclOut := by
  unfold State.beginTrbit State.pollScl; split <;> rfl
@[simp] theorem State.beginTrbit_sdaOut (s : State) : (s.beginTrbit).sdaOut = s.sdaOut := by
  unfold State.beginTrbit State.pollScl; split <;> rfl
@[simp] theorem State.beginTrbit_busy (s : State) : (s.beginTrbit).busy = s.busy := by
  unfold State.beginTrbit State.pollScl; split <;> rfl
@[simp] theorem State.beginTrbit_cop (s : State) : (s.beginTrbit).cop = s.cop := by
  unfold State.beginTrbit State.pollScl; split <;> rfl
@[simp] theorem State.beginTrbit_result (s : State) : (s.beginTrbit).result = s.result := by
  unfold State.beginTrbit State.pollScl; split <;> rfl
@[simp] theorem State.beginTrbit_xaddr (s : State) : (s.beginTrbit).xaddr = s.xaddr := by
  unfold State.beginTrbit State.pollScl; split <;> rfl
@[simp] theorem State.beginTrbit_xsegs (s : State) : (s.beginTrbit).xsegs = s.xsegs := by
  unfold State.beginTrbit State.pollScl; split <;> rfl
@[simp] theorem State.beginTrbit_cpos (s : State) : (s.beginTrbit).cpos = s.cpos := by
  unfold State.beginTrbit State.pollScl; split <;> rfl
@[simp] theorem State.beginTrbit_csr (s : State) : (s.beginTrbit).csr = s.csr := by
  unfold State.beginTrbit State.pollScl; split <;> rfl
@[simp] theorem State.beginTrbit_cack (s : State) : (s.beginTrbit).cack = s.cack := by
  unfold State.beginTrbit State.pollScl; split <;> rfl
@[simp] theorem State.beginTrbit_cabort (s : State) : (s.beginTrbit).cabort = s.cabort := by
  unfold State.beginTrbit State.pollScl; split <;> rfl
@[simp] theorem State.beginTrbit_tsr (s : State) : (s.beginTrbit).tsr = s.tsr := by
  unfold State.beginTrbit State.pollScl; split <;> rfl
@[simp] theorem State.beginTrbit_tdir (s : State) : (s.beginTrbit).tdir = s.tdir := by
  unfold State.beginTrbit State.pollScl; split <;> rfl
@[simp] theorem State.beginTrbit_tfirst (s : State) : (s.beginTrbit).tfirst = s.tfirst := by
  unfold State.beginTrbit State.pollScl; split <;> rfl
@[simp] theorem State.beginTrbit_edgePend (s : State) : (s.beginTrbit).edgePend = s.edgePend := by
  unfold State.beginTrbit State.pollScl; split <;> rfl
@[simp] theorem State.beginTrbit_handlerPend (s : State) : (s.beginTrbit).handlerPend = s.handlerPend := by
  unfold State.beginTrbit State.pollScl; split <;> rfl
@[simp] theorem State.beginTrbit_terr (s : State) : (s.beginTrbit).terr = s.terr := by
  unfold State.beginTrbit State.pollScl; split <;> rfl
@[simp] theorem State.beginTrbit_tlast (s : State) : (s.beginTrbit).tlast = s.tlast := by
  unfold State.beginTrbit State.pollScl; split <;> rfl
@[simp] theorem State.beginTrbit_mem (s : State) : (s.beginTrbit).mem = s.mem := by
  unfold State.beginTrbit State.pollScl; split <;> rfl
@[simp] theorem State.beginTrbit_bitv (s : State) : (s.beginTrbit).bitv = s.bitv := by
  unfold State.beginTrbit State.pollScl; split <;> rfl
@[simp] theorem State.beginTrbit_det (s : State) : (s.beginTrbit).det = s.det := by
  unfold State.beginTrbit State.pollScl; split <;> rfl
@[simp] theorem State.beginTrbit_ans (s : State) : (s.beginTrbit).ans = s.ans := by
  unfold State.beginTrbit State.pollScl; split <;> rfl
@[simp] theorem State.beginTrbit_peerScl (s : State) : (s.beginTrbit).peerScl = s.peerScl := by
  unfold State.beginTrbit State.pollScl; split <;> rfl
@[simp] theorem State.beginTrbit_peerSda (s : State) : (s.beginTrbit).peerSda = s.peerSda := by
  unfold State.beginTrbit State.pollScl; split <;> rfl
@[simp] theorem State.beginTrbit_ppos (s : State) : (s.beginTrbit).ppos = s.ppos := by
  unfold State.beginTrbit State.pollScl; split <;> rfl
@[simp] theorem State.beginTrbit_port (s : State) : (s.beginTrbit).port = s.port := by
  unfold State.beginTrbit State.pollScl; split <;> rfl
@[simp] theorem State.beginTrbit_responses (s : State) : (s.beginTrbit).responses = s.responses := by
  unfold State.beginTrbit State.pollScl; split <;> rfl
@[simp] theorem State.beginTrbit_statusOut (s : State) : (s.beginTrbit).statusOut = s.statusOut := by
  unfold State.beginTrbit State.pollScl; split <;> rfl
@[simp] theorem State.beginTrbit_calls (s : State) : (s.beginTrbit).calls = s.calls := by
  unfold State.beginTrbit State.pollScl; split <;> rfl
@[simp] theorem State.beginTrbit_inputs (s : State) : (s.beginTrbit).inputs = s.inputs := by
  unfold State.beginTrbit State.pollScl; split <;> rfl
@[simp] theorem State.beginTrbit_answers (s : State) : (s.beginTrbit).answers = s.answers := by
  unfold State.beginTrbit State.pollScl; split <;> rfl
@[simp] theorem State.beginTrbit_tick (s : State) : (s.beginTrbit).tick = s.tick := by
  unfold State.beginTrbit State.pollScl; split <;> rfl
@[simp] theorem State.beginTrbit_busOpen (s : State) : (s.beginTrbit).busOpen = s.busOpen := by
  unfold State.beginTrbit State.pollScl; split <;> rfl
@[simp] theorem State.beginTrbit_lastCond (s : State) : (s.beginTrbit).lastCond = s.lastCond := by
  unfold State.beginTrbit State.pollScl; split <;> rfl
@[simp] theorem State.beginTrbit_unsanctioned (s : State) : (s.beginTrbit).unsanctioned = s.unsanctioned := by
  unfold State.beginTrbit State.pollScl; split <;> rfl
@[simp] theorem State.beginTrbit_elapsed (s : State) : (s.beginTrbit).elapsed = s.elapsed := by
  unfold State.beginTrbit State.pollScl; split <;> rfl

@[simp] theorem State.beginTwbit_mode (s : State) (b : Level) : (s.beginTwbit b).mode = s.mode := rfl
@[simp] theorem State.beginTwbit_cfgValid (s : State) (b : Level) : (s.beginTwbit b).cfgValid = s.cfgValid := rfl
@[simp] theorem State.beginTwbit_speed (s : State) (b : Level) : (s.beginTwbit b).speed = s.speed := rfl
@[simp] theorem State.beginTwbit_low (s : State) (b : Level) : (s.beginTwbit b).low = s.low := rfl
@[simp] theorem State.beginTwbit_high (s : State) (b : Level) : (s.beginTwbit b).high = s.high := rfl
@[simp] theorem State.beginTwbit_tvalid (s : State) (b : Level) : (s.beginTwbit b).tvalid = s.tvalid := rfl
@[simp] theorem State.beginTwbit_taddr (s : State) (b : Level) : (s.beginTwbit b).taddr = s.taddr := rfl
@[simp] theorem State.beginTwbit_tfsm (s : State) (b : Level) : (s.beginTwbit b).tfsm = s.tfsm := rfl
@[simp] theorem State.beginTwbit_sclOut (s : State) (b : Level) : (s.beginTwbit b).sclOut = s.sclOut := rfl
@[simp] theorem State.beginTwbit_busy (s : State) (b : Level) : (s.beginTwbit b).busy = s.busy := rfl
@[simp] theorem State.beginTwbit_cop (s : State) (b : Level) : (s.beginTwbit b).cop = s.cop := rfl
@[simp] theorem State.beginTwbit_result (s : State) (b : Level) : (s.beginTwbit b).result = s.result := rfl
@[simp] theorem State.beginTwbit_xaddr (s : State) (b : Level) : (s.beginTwbit b).xaddr = s.xaddr := rfl
@[simp] theorem State.beginTwbit_xsegs (s : State) (b : Level) : (s.beginTwbit b).xsegs = s.xsegs := rfl
@[simp] theorem State.beginTwbit_cpos (s : State) (b : Level) : (s.beginTwbit b).cpos = s.cpos := rfl
@[simp] theorem State.beginTwbit_csr (s : State) (b : Level) : (s.beginTwbit b).csr = s.csr := rfl
@[simp] theorem State.beginTwbit_cack (s : State) (b : Level) : (s.beginTwbit b).cack = s.cack := rfl
@[simp] theorem State.beginTwbit_cabort (s : State) (b : Level) : (s.beginTwbit b).cabort = s.cabort := rfl
@[simp] theorem State.beginTwbit_tsr (s : State) (b : Level) : (s.beginTwbit b).tsr = s.tsr := rfl
@[simp] theorem State.beginTwbit_tdir (s : State) (b : Level) : (s.beginTwbit b).tdir = s.tdir := rfl
@[simp] theorem State.beginTwbit_tfirst (s : State) (b : Level) : (s.beginTwbit b).tfirst = s.tfirst := rfl
@[simp] theorem State.beginTwbit_handlerPend (s : State) (b : Level) : (s.beginTwbit b).handlerPend = s.handlerPend := rfl
@[simp] theorem State.beginTwbit_terr (s : State) (b : Level) : (s.beginTwbit b).terr = s.terr := rfl
@[simp] theorem State.beginTwbit_tlast (s : State) (b : Level) : (s.beginTwbit b).tlast = s.tlast := rfl
@[simp] theorem State.beginTwbit_mem (s : State) (b : Level) : (s.beginTwbit b).mem = s.mem := rfl
@[simp] theorem State.beginTwbit_got (s : State) (b : Level) : (s.beginTwbit b).got = s.got := rfl
@[simp] theorem State.beginTwbit_bitv (s : State) (b : Level) : (s.beginTwbit b).bitv = s.bitv := rfl
@[simp] theorem State.beginTwbit_det (s : State) (b : Level) : (s.beginTwbit b).det = s.det := rfl
@[simp] theorem State.beginTwbit_ans (s : State) (b : Level) : (s.beginTwbit b).ans = s.ans := rfl
@[simp] theorem State.beginTwbit_peerScl (s : State) (b : Level) : (s.beginTwbit b).peerScl = s.peerScl := rfl
@[simp] theorem State.beginTwbit_peerSda (s : State) (b : Level) : (s.beginTwbit b).peerSda = s.peerSda := rfl
@[simp] theorem State.beginTwbit_ppos (s : State) (b : Level) : (s.beginTwbit b).ppos = s.ppos := rfl
@[simp] theorem State.beginTwbit_port (s : State) (b : Level) : (s.beginTwbit b).port = s.port := rfl
@[simp] theorem State.beginTwbit_responses (s : State) (b : Level) : (s.beginTwbit b).responses = s.responses := rfl
@[simp] theorem State.beginTwbit_statusOut (s : State) (b : Level) : (s.beginTwbit b).statusOut = s.statusOut := rfl
@[simp] theorem State.beginTwbit_calls (s : State) (b : Level) : (s.beginTwbit b).calls = s.calls := rfl
@[simp] theorem State.beginTwbit_inputs (s : State) (b : Level) : (s.beginTwbit b).inputs = s.inputs := rfl
@[simp] theorem State.beginTwbit_answers (s : State) (b : Level) : (s.beginTwbit b).answers = s.answers := rfl
@[simp] theorem State.beginTwbit_tick (s : State) (b : Level) : (s.beginTwbit b).tick = s.tick := rfl
@[simp] theorem State.beginTwbit_elapsed (s : State) (b : Level) : (s.beginTwbit b).elapsed = s.elapsed := rfl

@[simp] theorem State.beginCells_mode (s : State) (bits : List Level) : (s.beginCells bits).mode = s.mode := by
  unfold State.beginCells; split <;> rfl
@[simp] theorem State.beginCells_cfgValid (s : State) (bits : List Level) : (s.beginCells bits).cfgValid = s.cfgValid := by
  unfold State.beginCells; split <;> rfl
@[simp] theorem State.beginCells_speed (s : State) (bits : List Level) : (s.beginCells bits).speed = s.speed := by
  unfold State.beginCells; split <;> rfl
@[simp] theorem State.beginCells_low (s : State) (bits : List Level) : (s.beginCells bits).low = s.low := by
  unfold State.beginCells; split <;> rfl
@[simp] theorem State.beginCells_high (s : State) (bits : List Level) : (s.beginCells bits).high = s.high := by
  unfold State.beginCells; split <;> rfl
@[simp] theorem State.beginCells_tvalid (s : State) (bits : List Level) : (s.beginCells bits).tvalid = s.tvalid := by
  unfold State.beginCells; split <;> rfl
@[simp] theorem State.beginCells_taddr (s : State) (bits : List Level) : (s.beginCells bits).taddr = s.taddr := by
  unfold State.beginCells; split <;> rfl
@[simp] theorem State.beginCells_tfsm (s : State) (bits : List Level) : (s.beginCells bits).tfsm = s.tfsm := by
  unfold State.beginCells; split <;> rfl
@[simp] theorem State.beginCells_sclOut (s : State) (bits : List Level) : (s.beginCells bits).sclOut = s.sclOut := by
  unfold State.beginCells; split <;> rfl
@[simp] theorem State.beginCells_sdaOut (s : State) (bits : List Level) : (s.beginCells bits).sdaOut = s.sdaOut := by
  unfold State.beginCells; split <;> rfl
@[simp] theorem State.beginCells_busy (s : State) (bits : List Level) : (s.beginCells bits).busy = s.busy := by
  unfold State.beginCells; split <;> rfl
@[simp] theorem State.beginCells_cop (s : State) (bits : List Level) : (s.beginCells bits).cop = s.cop := by
  unfold State.beginCells; split <;> rfl
@[simp] theorem State.beginCells_result (s : State) (bits : List Level) : (s.beginCells bits).result = s.result := by
  unfold State.beginCells; split <;> rfl
@[simp] theorem State.beginCells_xaddr (s : State) (bits : List Level) : (s.beginCells bits).xaddr = s.xaddr := by
  unfold State.beginCells; split <;> rfl
@[simp] theorem State.beginCells_xsegs (s : State) (bits : List Level) : (s.beginCells bits).xsegs = s.xsegs := by
  unfold State.beginCells; split <;> rfl
@[simp] theorem State.beginCells_cpos (s : State) (bits : List Level) : (s.beginCells bits).cpos = s.cpos := by
  unfold State.beginCells; split <;> rfl
@[simp] theorem State.beginCells_csr (s : State) (bits : List Level) : (s.beginCells bits).csr = s.csr := by
  unfold State.beginCells; split <;> rfl
@[simp] theorem State.beginCells_cack (s : State) (bits : List Level) : (s.beginCells bits).cack = s.cack := by
  unfold State.beginCells; split <;> rfl
@[simp] theorem State.beginCells_cabort (s : State) (bits : List Level) : (s.beginCells bits).cabort = s.cabort := by
  unfold State.beginCells; split <;> rfl
@[simp] theorem State.beginCells_tpos (s : State) (bits : List Level) : (s.beginCells bits).tpos = s.tpos := by
  unfold State.beginCells; split <;> rfl
@[simp] theorem State.beginCells_tsr (s : State) (bits : List Level) : (s.beginCells bits).tsr = s.tsr := by
  unfold State.beginCells; split <;> rfl
@[simp] theorem State.beginCells_tdir (s : State) (bits : List Level) : (s.beginCells bits).tdir = s.tdir := by
  unfold State.beginCells; split <;> rfl
@[simp] theorem State.beginCells_tfirst (s : State) (bits : List Level) : (s.beginCells bits).tfirst = s.tfirst := by
  unfold State.beginCells; split <;> rfl
@[simp] theorem State.beginCells_handlerPend (s : State) (bits : List Level) : (s.beginCells bits).handlerPend = s.handlerPend := by
  unfold State.beginCells; split <;> rfl
@[simp] theorem State.beginCells_terr (s : State) (bits : List Level) : (s.beginCells bits).terr = s.terr := by
  unfold State.beginCells; split <;> rfl
@[simp] theorem State.beginCells_tlast (s : State) (bits : List Level) : (s.beginCells bits).tlast = s.tlast := by
  unfold State.beginCells; split <;> rfl
@[simp] theorem State.beginCells_mem (s : State) (bits : List Level) : (s.beginCells bits).mem = s.mem := by
  unfold State.beginCells; split <;> rfl
@[simp] theorem State.beginCells_got (s : State) (bits : List Level) : (s.beginCells bits).got = s.got := by
  unfold State.beginCells; split <;> rfl
@[simp] theorem State.beginCells_bitv (s : State) (bits : List Level) : (s.beginCells bits).bitv = s.bitv := by
  unfold State.beginCells; split <;> rfl
@[simp] theorem State.beginCells_det (s : State) (bits : List Level) : (s.beginCells bits).det = s.det := by
  unfold State.beginCells; split <;> rfl
@[simp] theorem State.beginCells_ans (s : State) (bits : List Level) : (s.beginCells bits).ans = s.ans := by
  unfold State.beginCells; split <;> rfl
@[simp] theorem State.beginCells_peerSda (s : State) (bits : List Level) : (s.beginCells bits).peerSda = s.peerSda := by
  unfold State.beginCells; split <;> rfl
@[simp] theorem State.beginCells_port (s : State) (bits : List Level) : (s.beginCells bits).port = s.port := by
  unfold State.beginCells; split <;> rfl
@[simp] theorem State.beginCells_responses (s : State) (bits : List Level) : (s.beginCells bits).responses = s.responses := by
  unfold State.beginCells; split <;> rfl
@[simp] theorem State.beginCells_statusOut (s : State) (bits : List Level) : (s.beginCells bits).statusOut = s.statusOut := by
  unfold State.beginCells; split <;> rfl
@[simp] theorem State.beginCells_calls (s : State) (bits : List Level) : (s.beginCells bits).calls = s.calls := by
  unfold State.beginCells; split <;> rfl
@[simp] theorem State.beginCells_inputs (s : State) (bits : List Level) : (s.beginCells bits).inputs = s.inputs := by
  unfold State.beginCells; split <;> rfl
@[simp] theorem State.beginCells_answers (s : State) (bits : List Level) : (s.beginCells bits).answers = s.answers := by
  unfold State.beginCells; split <;> rfl
@[simp] theorem State.beginCells_tick (s : State) (bits : List Level) : (s.beginCells bits).tick = s.tick := by
  unfold State.beginCells; split <;> rfl
@[simp] theorem State.beginCells_elapsed (s : State) (bits : List Level) : (s.beginCells bits).elapsed = s.elapsed := by
  unfold State.beginCells; split <;> rfl

@[simp] theorem State.fillWrite_mode (s : State) (bytes : List Byte) : (s.fillWrite bytes).mode = s.mode := rfl
@[simp] theorem State.fillWrite_cfgValid (s : State) (bytes : List Byte) : (s.fillWrite bytes).cfgValid = s.cfgValid := rfl
@[simp] theorem State.fillWrite_speed (s : State) (bytes : List Byte) : (s.fillWrite bytes).speed = s.speed := rfl
@[simp] theorem State.fillWrite_low (s : State) (bytes : List Byte) : (s.fillWrite bytes).low = s.low := rfl
@[simp] theorem State.fillWrite_high (s : State) (bytes : List Byte) : (s.fillWrite bytes).high = s.high := rfl
@[simp] theorem State.fillWrite_tvalid (s : State) (bytes : List Byte) : (s.fillWrite bytes).tvalid = s.tvalid := rfl
@[simp] theorem State.fillWrite_taddr (s : State) (bytes : List Byte) : (s.fillWrite bytes).taddr = s.taddr := rfl
@[simp] theorem State.fillWrite_tfsm (s : State) (bytes : List Byte) : (s.fillWrite bytes).tfsm = s.tfsm := rfl
@[simp] theorem State.fillWrite_sclOut (s : State) (bytes : List Byte) : (s.fillWrite bytes).sclOut = s.sclOut := rfl
@[simp] theorem State.fillWrite_sdaOut (s : State) (bytes : List Byte) : (s.fillWrite bytes).sdaOut = s.sdaOut := rfl
@[simp] theorem State.fillWrite_busy (s : State) (bytes : List Byte) : (s.fillWrite bytes).busy = s.busy := rfl
@[simp] theorem State.fillWrite_cop (s : State) (bytes : List Byte) : (s.fillWrite bytes).cop = s.cop := rfl
@[simp] theorem State.fillWrite_result (s : State) (bytes : List Byte) : (s.fillWrite bytes).result = s.result := rfl
@[simp] theorem State.fillWrite_xaddr (s : State) (bytes : List Byte) : (s.fillWrite bytes).xaddr = s.xaddr := rfl
@[simp] theorem State.fillWrite_xsegs (s : State) (bytes : List Byte) : (s.fillWrite bytes).xsegs = s.xsegs := rfl
@[simp] theorem State.fillWrite_cpos (s : State) (bytes : List Byte) : (s.fillWrite bytes).cpos = s.cpos := rfl
@[simp] theorem State.fillWrite_csr (s : State) (bytes : List Byte) : (s.fillWrite bytes).csr = s.csr := rfl
@[simp] theorem State.fillWrite_cack (s : State) (bytes : List Byte) : (s.fillWrite bytes).cack = s.cack := rfl
@[simp] theorem State.fillWrite_cabort (s : State) (bytes : List Byte) : (s.fillWrite bytes).cabort = s.cabort := rfl
@[simp] theorem State.fillWrite_tpos (s : State) (bytes : List Byte) : (s.fillWrite bytes).tpos = s.tpos := rfl
@[simp] theorem State.fillWrite_tsr (s : State) (bytes : List Byte) : (s.fillWrite bytes).tsr = s.tsr := rfl
@[simp] theorem State.fillWrite_tdir (s : State) (bytes : List Byte) : (s.fillWrite bytes).tdir = s.tdir := rfl
@[simp] theorem State.fillWrite_tfirst (s : State) (bytes : List Byte) : (s.fillWrite bytes).tfirst = s.tfirst := rfl
@[simp] theorem State.fillWrite_edgePend (s : State) (bytes : List Byte) : (s.fillWrite bytes).edgePend = s.edgePend := rfl
@[simp] theorem State.fillWrite_handlerPend (s : State) (bytes : List Byte) : (s.fillWrite bytes).handlerPend = s.handlerPend := rfl
@[simp] theorem State.fillWrite_terr (s : State) (bytes : List Byte) : (s.fillWrite bytes).terr = s.terr := rfl
@[simp] theorem State.fillWrite_tlast (s : State) (bytes : List Byte) : (s.fillWrite bytes).tlast = s.tlast := rfl
@[simp] theorem State.fillWrite_got (s : State) (bytes : List Byte) : (s.fillWrite bytes).got = s.got := rfl
@[simp] theorem State.fillWrite_bitv (s : State) (bytes : List Byte) : (s.fillWrite bytes).bitv = s.bitv := rfl
@[simp] theorem State.fillWrite_det (s : State) (bytes : List Byte) : (s.fillWrite bytes).det = s.det := rfl
@[simp] theorem State.fillWrite_ans (s : State) (bytes : List Byte) : (s.fillWrite bytes).ans = s.ans := rfl
@[simp] theorem State.fillWrite_peerScl (s : State) (bytes : List Byte) : (s.fillWrite bytes).peerScl = s.peerScl := rfl
@[simp] theorem State.fillWrite_peerSda (s : State) (bytes : List Byte) : (s.fillWrite bytes).peerSda = s.peerSda := rfl
@[simp] theorem State.fillWrite_ppos (s : State) (bytes : List Byte) : (s.fillWrite bytes).ppos = s.ppos := rfl
@[simp] theorem State.fillWrite_port (s : State) (bytes : List Byte) : (s.fillWrite bytes).port = s.port := rfl
@[simp] theorem State.fillWrite_responses (s : State) (bytes : List Byte) : (s.fillWrite bytes).responses = s.responses := rfl
@[simp] theorem State.fillWrite_statusOut (s : State) (bytes : List Byte) : (s.fillWrite bytes).statusOut = s.statusOut := rfl
@[simp] theorem State.fillWrite_calls (s : State) (bytes : List Byte) : (s.fillWrite bytes).calls = s.calls := rfl
@[simp] theorem State.fillWrite_inputs (s : State) (bytes : List Byte) : (s.fillWrite bytes).inputs = s.inputs := rfl
@[simp] theorem State.fillWrite_answers (s : State) (bytes : List Byte) : (s.fillWrite bytes).answers = s.answers := rfl
@[simp] theorem State.fillWrite_tick (s : State) (bytes : List Byte) : (s.fillWrite bytes).tick = s.tick := rfl
@[simp] theorem State.fillWrite_busOpen (s : State) (bytes : List Byte) : (s.fillWrite bytes).busOpen = s.busOpen := rfl
@[simp] theorem State.fillWrite_lastCond (s : State) (bytes : List Byte) : (s.fillWrite bytes).lastCond = s.lastCond := rfl
@[simp] theorem State.fillWrite_unsanctioned (s : State) (bytes : List Byte) : (s.fillWrite bytes).unsanctioned = s.unsanctioned := rfl
@[simp] theorem State.fillWrite_elapsed (s : State) (bytes : List Byte) : (s.fillWrite bytes).elapsed = s.elapsed := rfl

@[simp] theorem State.goTo_mode (s : State) (k i : Nat) : (s.goTo k i).mode = s.mode := by
  unfold State.goTo; split <;> rfl
@[simp] theorem State.goTo_cfgValid (s : State) (k i : Nat) : (s.goTo k i).cfgValid = s.cfgValid := by
  unfold State.goTo; split <;> rfl
@[simp] theorem State.goTo_speed (s : State) (k i : Nat) : (s.goTo k i).speed = s.speed := by
  unfold State.goTo; split <;> rfl
@[simp] theorem State.goTo_low (s : State) (k i : Nat) : (s.goTo k i).low = s.low := by
  unfold State.goTo; split <;> rfl
@[simp] theorem State.goTo_high (s : State) (k i : Nat) : (s.goTo k i).high = s.high := by
  unfold State.goTo; split <;> rfl
@[simp] theorem State.goTo_tvalid (s : State) (k i : Nat) : (s.goTo k i).tvalid = s.tvalid := by
  unfold State.goTo; split <;> rfl
@[simp] theorem State.goTo_taddr (s : State) (k i : Nat) : (s.goTo k i).taddr = s.taddr := by
  unfold State.goTo; split <;> rfl
@[simp] theorem State.goTo_tfsm (s : State) (k i : Nat) : (s.goTo k i).tfsm = s.tfsm := by
  unfold State.goTo; split <;> rfl
@[simp] theorem State.goTo_sclOut (s : State) (k i : Nat) : (s.goTo k i).sclOut = s.sclOut := by
  unfold State.goTo; split <;> rfl
@[simp] theorem State.goTo_sdaOut (s : State) (k i : Nat) : (s.goTo k i).sdaOut = s.sdaOut := by
  unfold State.goTo; split <;> rfl
@[simp] theorem State.goTo_busy (s : State) (k i : Nat) : (s.goTo k i).busy = s.busy := by
  unfold State.goTo; split <;> rfl
@[simp] theorem State.goTo_cop (s : State) (k i : Nat) : (s.goTo k i).cop = s.cop := by
  unfold State.goTo; split <;> rfl
@[simp] theorem State.goTo_result (s : State) (k i : Nat) : (s.goTo k i).result = s.result := by
  unfold State.goTo; split <;> rfl
@[simp] theorem State.goTo_xaddr (s : State) (k i : Nat) : (s.goTo k i).xaddr = s.xaddr := by
  unfold State.goTo; split <;> rfl
@[simp] theorem State.goTo_xsegs (s : State) (k i : Nat) : (s.goTo k i).xsegs = s.xsegs := by
  unfold State.goTo; split <;> rfl
@[simp] theorem State.goTo_csr (s : State) (k i : Nat) : (s.goTo k i).csr = s.csr := by
  unfold State.goTo; split <;> rfl
@[simp] theorem State.goTo_cack (s : State) (k i : Nat) : (s.goTo k i).cack = s.cack := by
  unfold State.goTo; split <;> rfl
@[simp] theorem State.goTo_tpos (s : State) (k i : Nat) : (s.goTo k i).tpos = s.tpos := by
  unfold State.goTo; split <;> rfl
@[simp] theorem State.goTo_tsr (s : State) (k i : Nat) : (s.goTo k i).tsr = s.tsr := by
  unfold State.goTo; split <;> rfl
@[simp] theorem State.goTo_tdir (s : State) (k i : Nat) : (s.goTo k i).tdir = s.tdir := by
  unfold State.goTo; split <;> rfl
@[simp] theorem State.goTo_tfirst (s : State) (k i : Nat) : (s.goTo k i).tfirst = s.tfirst := by
  unfold State.goTo; split <;> rfl
@[simp] theorem State.goTo_edgePend (s : State) (k i : Nat) : (s.goTo k i).edgePend = s.edgePend := by
  unfold State.goTo; split <;> rfl
@[simp] theorem State.goTo_handlerPend (s : State) (k i : Nat) : (s.goTo k i).handlerPend = s.handlerPend := by
  unfold State.goTo; split <;> rfl
@[simp] theorem State.goTo_terr (s : State) (k i : Nat) : (s.goTo k i).terr = s.terr := by
  unfold State.goTo; split <;> rfl
@[simp] theorem State.goTo_tlast (s : State) (k i : Nat) : (s.goTo k i).tlast = s.tlast := by
  unfold State.goTo; split <;> rfl
@[simp] theorem State.goTo_mem (s : State) (k i : Nat) : (s.goTo k i).mem = s.mem := by
  unfold State.goTo; split <;> rfl
@[simp] theorem State.goTo_got (s : State) (k i : Nat) : (s.goTo k i).got = s.got := by
  unfold State.goTo; split <;> rfl
@[simp] theorem State.goTo_bitv (s : State) (k i : Nat) : (s.goTo k i).bitv = s.bitv := by
  unfold State.goTo; split <;> rfl
@[simp] theorem State.goTo_det (s : State) (k i : Nat) : (s.goTo k i).det = s.det := by
  unfold State.goTo; split <;> rfl
@[simp] theorem State.goTo_ans (s : State) (k i : Nat) : (s.goTo k i).ans = s.ans := by
  unfold State.goTo; split <;> rfl
@[simp] theorem State.goTo_peerScl (s : State) (k i : Nat) : (s.goTo k i).peerScl = s.peerScl := by
  unfold State.goTo; split <;> rfl
@[simp] theorem State.goTo_peerSda (s : State) (k i : Nat) : (s.goTo k i).peerSda = s.peerSda := by
  unfold State.goTo; split <;> rfl
@[simp] theorem State.goTo_ppos (s : State) (k i : Nat) : (s.goTo k i).ppos = s.ppos := by
  unfold State.goTo; split <;> rfl
@[simp] theorem State.goTo_port (s : State) (k i : Nat) : (s.goTo k i).port = s.port := by
  unfold State.goTo; split <;> rfl
@[simp] theorem State.goTo_responses (s : State) (k i : Nat) : (s.goTo k i).responses = s.responses := by
  unfold State.goTo; split <;> rfl
@[simp] theorem State.goTo_statusOut (s : State) (k i : Nat) : (s.goTo k i).statusOut = s.statusOut := by
  unfold State.goTo; split <;> rfl
@[simp] theorem State.goTo_calls (s : State) (k i : Nat) : (s.goTo k i).calls = s.calls := by
  unfold State.goTo; split <;> rfl
@[simp] theorem State.goTo_inputs (s : State) (k i : Nat) : (s.goTo k i).inputs = s.inputs := by
  unfold State.goTo; split <;> rfl
@[simp] theorem State.goTo_answers (s : State) (k i : Nat) : (s.goTo k i).answers = s.answers := by
  unfold State.goTo; split <;> rfl
@[simp] theorem State.goTo_tick (s : State) (k i : Nat) : (s.goTo k i).tick = s.tick := by
  unfold State.goTo; split <;> rfl
@[simp] theorem State.goTo_busOpen (s : State) (k i : Nat) : (s.goTo k i).busOpen = s.busOpen := by
  unfold State.goTo; split <;> rfl
@[simp] theorem State.goTo_lastCond (s : State) (k i : Nat) : (s.goTo k i).lastCond = s.lastCond := by
  unfold State.goTo; split <;> rfl
@[simp] theorem State.goTo_unsanctioned (s : State) (k i : Nat) : (s.goTo k i).unsanctioned = s.unsanctioned := by
  unfold State.goTo; split <;> rfl
@[simp] theorem State.goTo_elapsed (s : State) (k i : Nat) : (s.goTo k i).elapsed = s.elapsed := by
  unfold State.goTo; split <;> rfl

@[simp] theorem State.abort_mode (s : State) (r : Result) : (s.abort r).mode = s.mode := rfl
@[simp] theorem State.abort_cfgValid (s : State) (r : Result) : (s.abort r).cfgValid = s.cfgValid := rfl
@[simp] theorem State.abort_speed (s : State) (r : Result) : (s.abort r).speed = s.speed := rfl
@[simp] theorem State.abort_low (s : State) (r : Result) : (s.abort r).low = s.low := rfl
@[simp] theorem State.abort_high (s : State) (r : Result) : (s.abort r).high = s.high := rfl
@[simp] theorem State.abort_tvalid (s : State) (r : Result) : (s.abort r).tvalid = s.tvalid := rfl
@[simp] theorem State.abort_taddr (s : State) (r : Result) : (s.abort r).taddr = s.taddr := rfl
@[simp] theorem State.abort_tfsm (s : State) (r : Result) : (s.abort r).tfsm = s.tfsm := rfl
@[simp] theorem State.abort_sclOut (s : State) (r : Result) : (s.abort r).sclOut = s.sclOut := rfl
@[simp] theorem State.abort_sdaOut (s : State) (r : Result) : (s.abort r).sdaOut = s.sdaOut := rfl
@[simp] theorem State.abort_busy (s : State) (r : Result) : (s.abort r).busy = s.busy := rfl
@[simp] theorem State.abort_cop (s : State) (r : Result) : (s.abort r).cop = s.cop := rfl
@[simp] theorem State.abort_result (s : State) (r : Result) : (s.abort r).result = s.result := rfl
@[simp] theorem State.abort_xaddr (s : State) (r : Result) : (s.abort r).xaddr = s.xaddr := rfl
@[simp] theorem State.abort_xsegs (s : State) (r : Result) : (s.abort r).xsegs = s.xsegs := rfl
@[simp] theorem State.abort_csr (s : State) (r : Result) : (s.abort r).csr = s.csr := rfl
@[simp] theorem State.abort_cack (s : State) (r : Result) : (s.abort r).cack = s.cack := rfl
@[simp] theorem State.abort_tpos (s : State) (r : Result) : (s.abort r).tpos = s.tpos := rfl
@[simp] theorem State.abort_tsr (s : State) (r : Result) : (s.abort r).tsr = s.tsr := rfl
@[simp] theorem State.abort_tdir (s : State) (r : Result) : (s.abort r).tdir = s.tdir := rfl
@[simp] theorem State.abort_tfirst (s : State) (r : Result) : (s.abort r).tfirst = s.tfirst := rfl
@[simp] theorem State.abort_edgePend (s : State) (r : Result) : (s.abort r).edgePend = s.edgePend := rfl
@[simp] theorem State.abort_handlerPend (s : State) (r : Result) : (s.abort r).handlerPend = s.handlerPend := rfl
@[simp] theorem State.abort_terr (s : State) (r : Result) : (s.abort r).terr = s.terr := rfl
@[simp] theorem State.abort_tlast (s : State) (r : Result) : (s.abort r).tlast = s.tlast := rfl
@[simp] theorem State.abort_mem (s : State) (r : Result) : (s.abort r).mem = s.mem := rfl
@[simp] theorem State.abort_got (s : State) (r : Result) : (s.abort r).got = s.got := rfl
@[simp] theorem State.abort_bitv (s : State) (r : Result) : (s.abort r).bitv = s.bitv := rfl
@[simp] theorem State.abort_det (s : State) (r : Result) : (s.abort r).det = s.det := rfl
@[simp] theorem State.abort_ans (s : State) (r : Result) : (s.abort r).ans = s.ans := rfl
@[simp] theorem State.abort_peerScl (s : State) (r : Result) : (s.abort r).peerScl = s.peerScl := rfl
@[simp] theorem State.abort_peerSda (s : State) (r : Result) : (s.abort r).peerSda = s.peerSda := rfl
@[simp] theorem State.abort_ppos (s : State) (r : Result) : (s.abort r).ppos = s.ppos := rfl
@[simp] theorem State.abort_port (s : State) (r : Result) : (s.abort r).port = s.port := rfl
@[simp] theorem State.abort_responses (s : State) (r : Result) : (s.abort r).responses = s.responses := rfl
@[simp] theorem State.abort_statusOut (s : State) (r : Result) : (s.abort r).statusOut = s.statusOut := rfl
@[simp] theorem State.abort_calls (s : State) (r : Result) : (s.abort r).calls = s.calls := rfl
@[simp] theorem State.abort_inputs (s : State) (r : Result) : (s.abort r).inputs = s.inputs := rfl
@[simp] theorem State.abort_answers (s : State) (r : Result) : (s.abort r).answers = s.answers := rfl
@[simp] theorem State.abort_tick (s : State) (r : Result) : (s.abort r).tick = s.tick := rfl
@[simp] theorem State.abort_busOpen (s : State) (r : Result) : (s.abort r).busOpen = s.busOpen := rfl
@[simp] theorem State.abort_lastCond (s : State) (r : Result) : (s.abort r).lastCond = s.lastCond := rfl
@[simp] theorem State.abort_unsanctioned (s : State) (r : Result) : (s.abort r).unsanctioned = s.unsanctioned := rfl
@[simp] theorem State.abort_elapsed (s : State) (r : Result) : (s.abort r).elapsed = s.elapsed := rfl

@[simp] theorem State.enterAddress_mode (s : State) : (s.enterAddress).mode = s.mode := rfl
@[simp] theorem State.enterAddress_cfgValid (s : State) : (s.enterAddress).cfgValid = s.cfgValid := rfl
@[simp] theorem State.enterAddress_speed (s : State) : (s.enterAddress).speed = s.speed := rfl
@[simp] theorem State.enterAddress_low (s : State) : (s.enterAddress).low = s.low := rfl
@[simp] theorem State.enterAddress_high (s : State) : (s.enterAddress).high = s.high := rfl
@[simp] theorem State.enterAddress_tvalid (s : State) : (s.enterAddress).tvalid = s.tvalid := rfl
@[simp] theorem State.enterAddress_taddr (s : State) : (s.enterAddress).taddr = s.taddr := rfl
@[simp] theorem State.enterAddress_sclOut (s : State) : (s.enterAddress).sclOut = s.sclOut := rfl
@[simp] theorem State.enterAddress_sdaOut (s : State) : (s.enterAddress).sdaOut = s.sdaOut := rfl
@[simp] theorem State.enterAddress_busy (s : State) : (s.enterAddress).busy = s.busy := rfl
@[simp] theorem State.enterAddress_cop (s : State) : (s.enterAddress).cop = s.cop := rfl
@[simp] theorem State.enterAddress_result (s : State) : (s.enterAddress).result = s.result := rfl
@[simp] theorem State.enterAddress_xaddr (s : State) : (s.enterAddress).xaddr = s.xaddr := rfl
@[simp] theorem State.enterAddress_xsegs (s : State) : (s.enterAddress).xsegs = s.xsegs := rfl
@[simp] theorem State.enterAddress_cpos (s : State) : (s.enterAddress).cpos = s.cpos := rfl
@[simp] theorem State.enterAddress_csr (s : State) : (s.enterAddress).csr = s.csr := rfl
@[simp] theorem State.enterAddress_cack (s : State) : (s.enterAddress).cack = s.cack := rfl
@[simp] theorem State.enterAddress_cabort (s : State) : (s.enterAddress).cabort = s.cabort := rfl
@[simp] theorem State.enterAddress_tsr (s : State) : (s.enterAddress).tsr = s.tsr := rfl
@[simp] theorem State.enterAddress_tdir (s : State) : (s.enterAddress).tdir = s.tdir := rfl
@[simp] theorem State.enterAddress_tfirst (s : State) : (s.enterAddress).tfirst = s.tfirst := rfl
@[simp] theorem State.enterAddress_edgePend (s : State) : (s.enterAddress).edgePend = s.edgePend := rfl
@[simp] theorem State.enterAddress_handlerPend (s : State) : (s.enterAddress).handlerPend = s.handlerPend := rfl
@[simp] theorem State.enterAddress_terr (s : State) : (s.enterAddress).terr = s.terr := rfl
@[simp] theorem State.enterAddress_tlast (s : State) : (s.enterAddress).tlast = s.tlast := rfl
@[simp] theorem State.enterAddress_mem (s : State) : (s.enterAddress).mem = s.mem := rfl
@[simp] theorem State.enterAddress_got (s : State) : (s.enterAddress).got = s.got := rfl
@[simp] theorem State.enterAddress_bitv (s : State) : (s.enterAddress).bitv = s.bitv := rfl
@[simp] theorem State.enterAddress_det (s : State) : (s.enterAddress).det = s.det := rfl
@[simp] theorem State.enterAddress_ans (s : State) : (s.enterAddress).ans = s.ans := rfl
@[simp] theorem State.enterAddress_peerScl (s : State) : (s.enterAddress).peerScl = s.peerScl := rfl
@[simp] theorem State.enterAddress_peerSda (s : State) : (s.enterAddress).peerSda = s.peerSda := rfl
@[simp] theorem State.enterAddress_ppos (s : State) : (s.enterAddress).ppos = s.ppos := rfl
@[simp] theorem State.enterAddress_port (s : State) : (s.enterAddress).port = s.port := rfl
@[simp] theorem State.enterAddress_responses (s : State) : (s.enterAddress).responses = s.responses := rfl
@[simp] theorem State.enterAddress_statusOut (s : State) : (s.enterAddress).statusOut = s.statusOut := rfl
@[simp] theorem State.enterAddress_calls (s : State) : (s.enterAddress).calls = s.calls := rfl
@[simp] theorem State.enterAddress_inputs (s : State) : (s.enterAddress).inputs = s.inputs := rfl
@[simp] theorem State.enterAddress_answers (s : State) : (s.enterAddress).answers = s.answers := rfl
@[simp] theorem State.enterAddress_tick (s : State) : (s.enterAddress).tick = s.tick := rfl
@[simp] theorem State.enterAddress_busOpen (s : State) : (s.enterAddress).busOpen = s.busOpen := rfl
@[simp] theorem State.enterAddress_lastCond (s : State) : (s.enterAddress).lastCond = s.lastCond := rfl
@[simp] theorem State.enterAddress_unsanctioned (s : State) : (s.enterAddress).unsanctioned = s.unsanctioned := rfl
@[simp] theorem State.enterAddress_elapsed (s : State) : (s.enterAddress).elapsed = s.elapsed := rfl

@[simp] theorem State.dropInput_mode (s : State) : (s.dropInput).mode = s.mode := by
  unfold State.dropInput; split <;> rfl
@[simp] theorem State.dropInput_cfgValid (s : State) : (s.dropInput).cfgValid = s.cfgValid := by
  unfold State.dropInput; split <;> rfl
@[simp] theorem State.dropInput_speed (s : State) : (s.dropInput).speed = s.speed := by
  unfold State.dropInput; split <;> rfl
@[simp] theorem State.dropInput_low (s : State) : (s.dropInput).low = s.low := by
  unfold State.dropInput; split <;> rfl
@[simp] theorem State.dropInput_high (s : State) : (s.dropInput).high = s.high := by
  unfold State.dropInput; split <;> rfl
@[simp] theorem State.dropInput_tvalid (s : State) : (s.dropInput).tvalid = s.tvalid := by
  unfold State.dropInput; split <;> rfl
@[simp] theorem State.dropInput_taddr (s : State) : (s.dropInput).taddr = s.taddr := by
  unfold State.dropInput; split <;> rfl
@[simp] theorem State.dropInput_tfsm (s : State) : (s.dropInput).tfsm = s.tfsm := by
  unfold State.dropInput; split <;> rfl
@[simp] theorem State.dropInput_sclOut (s : State) : (s.dropInput).sclOut = s.sclOut := by
  unfold State.dropInput; split <;> rfl
@[simp] theorem State.dropInput_sdaOut (s : State) : (s.dropInput).sdaOut = s.sdaOut := by
  unfold State.dropInput; split <;> rfl
@[simp] theorem State.dropInput_busy (s : State) : (s.dropInput).busy = s.busy := by
  unfold State.dropInput; split <;> rfl
@[simp] theorem State.dropInput_cop (s : State) : (s.dropInput).cop = s.cop := by
  unfold State.dropInput; split <;> rfl
@[simp] theorem State.dropInput_result (s : State) : (s.dropInput).result = s.result := by
  unfold State.dropInput; split <;> rfl
@[simp] theorem State.dropInput_xaddr (s : State) : (s.dropInput).xaddr = s.xaddr := by
  unfold State.dropInput; split <;> rfl
@[simp] theorem State.dropInput_xsegs (s : State) : (s.dropInput).xsegs = s.xsegs := by
  unfold State.dropInput; split <;> rfl
@[simp] theorem State.dropInput_cpos (s : State) : (s.dropInput).cpos = s.cpos := by
  unfold State.dropInput; split <;> rfl
@[simp] theorem State.dropInput_csr (s : State) : (s.dropInput).csr = s.csr := by
  unfold State.dropInput; split <;> rfl
@[simp] theorem State.dropInput_cack (s : State) : (s.dropInput).cack = s.cack := by
  unfold State.dropInput; split <;> rfl
@[simp] theorem State.dropInput_cabort (s : State) : (s.dropInput).cabort = s.cabort := by
  unfold State.dropInput; split <;> rfl
@[simp] theorem State.dropInput_tpos (s : State) : (s.dropInput).tpos = s.tpos := by
  unfold State.dropInput; split <;> rfl
@[simp] theorem State.dropInput_tsr (s : State) : (s.dropInput).tsr = s.tsr := by
  unfold State.dropInput; split <;> rfl
@[simp] theorem State.dropInput_tdir (s : State) : (s.dropInput).tdir = s.tdir := by
  unfold State.dropInput; split <;> rfl
@[simp] theorem State.dropInput_tfirst (s : State) : (s.dropInput).tfirst = s.tfirst := by
  unfold State.dropInput; split <;> rfl
@[simp] theorem State.dropInput_edgePend (s : State) : (s.dropInput).edgePend = s.edgePend := by
  unfold State.dropInput; split <;> rfl
@[simp] theorem State.dropInput_handlerPend (s : State) : (s.dropInput).handlerPend = s.handlerPend := by
  unfold State.dropInput; split <;> rfl
@[simp] theorem State.dropInput_terr (s : State) : (s.dropInput).terr = s.terr := by
  unfold State.dropInput; split <;> rfl
@[simp] theorem State.dropInput_tlast (s : State) : (s.dropInput).tlast = s.tlast := by
  unfold State.dropInput; split <;> rfl
@[simp] theorem State.dropInput_mem (s : State) : (s.dropInput).mem = s.mem := by
  unfold State.dropInput; split <;> rfl
@[simp] theorem State.dropInput_got (s : State) : (s.dropInput).got = s.got := by
  unfold State.dropInput; split <;> rfl
@[simp] theorem State.dropInput_bitv (s : State) : (s.dropInput).bitv = s.bitv := by
  unfold State.dropInput; split <;> rfl
@[simp] theorem State.dropInput_det (s : State) : (s.dropInput).det = s.det := by
  unfold State.dropInput; split <;> rfl
@[simp] theorem State.dropInput_ans (s : State) : (s.dropInput).ans = s.ans := by
  unfold State.dropInput; split <;> rfl
@[simp] theorem State.dropInput_peerScl (s : State) : (s.dropInput).peerScl = s.peerScl := by
  unfold State.dropInput; split <;> rfl
@[simp] theorem State.dropInput_peerSda (s : State) : (s.dropInput).peerSda = s.peerSda := by
  unfold State.dropInput; split <;> rfl
@[simp] theorem State.dropInput_ppos (s : State) : (s.dropInput).ppos = s.ppos := by
  unfold State.dropInput; split <;> rfl
@[simp] theorem State.dropInput_port (s : State) : (s.dropInput).port = s.port := by
  unfold State.dropInput; split <;> rfl
@[simp] theorem State.dropInput_responses (s : State) : (s.dropInput).responses = s.responses := by
  unfold State.dropInput; split <;> rfl
@[simp] theorem State.dropInput_statusOut (s : State) : (s.dropInput).statusOut = s.statusOut := by
  unfold State.dropInput; split <;> rfl
@[simp] theorem State.dropInput_calls (s : State) : (s.dropInput).calls = s.calls := by
  unfold State.dropInput; split <;> rfl
@[simp] theorem State.dropInput_answers (s : State) : (s.dropInput).answers = s.answers := by
  unfold State.dropInput; split <;> rfl
@[simp] theorem State.dropInput_busOpen (s : State) : (s.dropInput).busOpen = s.busOpen := by
  unfold State.dropInput; split <;> rfl
@[simp] theorem State.dropInput_lastCond (s : State) : (s.dropInput).lastCond = s.lastCond := by
  unfold State.dropInput; split <;> rfl
@[simp] theorem State.dropInput_unsanctioned (s : State) : (s.dropInput).unsanctioned = s.unsanctioned := by
  unfold State.dropInput; split <;> rfl
@[simp] theorem State.dropInput_elapsed (s : State) : (s.dropInput).elapsed = s.elapsed := by
  unfold State.dropInput; split <;> rfl

@[simp] theorem State.setCpos_cpos (s : State) (ts : List CTask) : (s.setCpos ts).cpos = ts := rfl
@[simp] theorem State.setTpos_tpos (s : State) (ts : List TTask) : (s.setTpos ts).tpos = ts := rfl
@[simp] theorem State.setPpos_ppos (s : State) (ts : List PTask) : (s.setPpos ts).ppos = ts := rfl
@[simp] theorem State.setPort_port (s : State) (ps : List PortItem) : (s.setPort ps).port = ps := rfl
@[simp] theorem State.setCsr_csr (s : State) (x : Byte) : (s.setCsr x).csr = x := rfl
@[simp] theorem State.setCack_cack (s : State) (l : Level) : (s.setCack l).cack = l := rfl
@[simp] theorem State.setCabort_cabort (s : State) (r : Result) : (s.setCabort r).cabort = r := rfl
@[simp] theorem State.setTsr_tsr (s : State) (x : Byte) : (s.setTsr x).tsr = x := rfl
@[simp] theorem State.setTdir_tdir (s : State) (b : Bool) : (s.setTdir b).tdir = b := rfl
@[simp] theorem State.setTfsm_tfsm (s : State) (x : Tfsm) : (s.setTfsm x).tfsm = x := rfl
@[simp] theorem State.setBitv_bitv (s : State) (l : Level) : (s.setBitv l).bitv = l := rfl
@[simp] theorem State.setMem_mem (s : State) (m : Memory) : (s.setMem m).mem = m := rfl
@[simp] theorem State.setDetect_det (s : State) (d : Detect) (o : Option Level) : (s.setDetect d o).det = d := rfl
@[simp] theorem State.setDetect_tfirst (s : State) (d : Detect) (o : Option Level) : (s.setDetect d o).tfirst = o := rfl
@[simp] theorem State.startHandler_handlerPend (s : State) : s.startHandler.handlerPend = false := rfl
@[simp] theorem State.startHandler_tfsm (s : State) : s.startHandler.tfsm = .receivingAddress := rfl
@[simp] theorem State.startHandler_tpos (s : State) : s.startHandler.tpos = addressTasks := rfl
@[simp] theorem State.driveScl_sclOut (s : State) (l : Level) : (s.driveScl l).sclOut = l := rfl
@[simp] theorem State.driveSda_sdaOut (s : State) (l : Level) : (s.driveSda l).sdaOut = l := rfl
@[simp] theorem State.drivePeers_peerScl (s : State) (c d : Level) : (s.drivePeers c d).peerScl = c := rfl
@[simp] theorem State.drivePeers_peerSda (s : State) (c d : Level) : (s.drivePeers c d).peerSda = d := rfl
@[simp] theorem State.peerClk_peerScl (s : State) (l : Level) : (s.peerClk l).peerScl = l := rfl
@[simp] theorem State.peerDat_peerSda (s : State) (l : Level) : (s.peerDat l).peerSda = l := rfl
@[simp] theorem State.waitAtLeast_elapsed (s : State) (d : Dur) : (s.waitAtLeast d).elapsed = s.elapsed + s.duration d := rfl
@[simp] theorem State.deliver_result (s : State) (r : Result) : (s.deliver r).result = r := rfl
@[simp] theorem State.deliver_responses (s : State) (r : Result) : (s.deliver r).responses = r :: s.responses := rfl
@[simp] theorem State.complete_result (s : State) (r : Result) : (s.complete r).result = r := rfl
@[simp] theorem State.complete_responses (s : State) (r : Result) : (s.complete r).responses = r :: s.responses := rfl
@[simp] theorem State.complete_busy (s : State) (r : Result) : (s.complete r).busy = false := rfl
@[simp] theorem State.complete_cop (s : State) (r : Result) : (s.complete r).cop = .idle := rfl
@[simp] theorem State.complete_cpos (s : State) (r : Result) : (s.complete r).cpos = [] := rfl
@[simp] theorem State.hold_port (s : State) (i : Instr) : (s.hold i).port = s.port ++ portItems i := rfl
@[simp] theorem State.callOut_calls (s : State) (c : AppCall) : (s.callOut c).calls = c :: s.calls := rfl
@[simp] theorem State.callFor_calls (s : State) (c : Byte → AppCall) : (s.callFor c).calls = c s.answer :: s.calls := by
  unfold State.callFor State.dropAnswer; rfl
@[simp] theorem State.callFor_ans (s : State) (c : Byte → AppCall) : (s.callFor c).ans = s.answer := by
  unfold State.callFor State.dropAnswer; rfl
@[simp] theorem State.finishHandler_tlast (s : State) (o : TLast) : (s.finishHandler o).tlast = o := rfl
@[simp] theorem State.finishHandler_terr (s : State) (o : TLast) : (s.finishHandler o).terr = (s.terr || o == .callbackError) := rfl
@[simp] theorem State.finishHandler_tfsm (s : State) (o : TLast) : (s.finishHandler o).tfsm = .idle := rfl
@[simp] theorem State.finishHandler_tpos (s : State) (o : TLast) : (s.finishHandler o).tpos = [] := rfl
@[simp] theorem State.readScl_got (s : State) : s.readScl.got = s.scl := rfl
@[simp] theorem State.readSda_got (s : State) : s.readSda.got = s.sda := rfl
@[simp] theorem State.thenC_cpos (s : State) (ts : List CTask) : (s.thenC ts).cpos = ts ++ s.cpos := rfl
@[simp] theorem State.thenT_tpos (s : State) (ts : List TTask) : (s.thenT ts).tpos = ts ++ s.tpos := rfl
@[simp] theorem State.thenP_ppos (s : State) (ts : List PTask) : (s.thenP ts).ppos = ts ++ s.ppos := rfl
@[simp] theorem State.beginWbit_sdaOut (s : State) (b : Level) : (s.beginWbit b).sdaOut = b := rfl
@[simp] theorem State.beginWbit_cpos (s : State) (b : Level) : (s.beginWbit b).cpos = wbitRest ++ s.cpos := rfl
@[simp] theorem State.beginRbit_sdaOut (s : State) : s.beginRbit.sdaOut = true := rfl
@[simp] theorem State.beginRbit_cpos (s : State) : s.beginRbit.cpos = rbitRest ++ s.cpos := rfl
@[simp] theorem State.beginTwbit_sdaOut (s : State) (b : Level) : (s.beginTwbit b).sdaOut = b := rfl
@[simp] theorem State.beginTwbit_tpos (s : State) (b : Level) : (s.beginTwbit b).tpos = twbitRest ++ s.tpos := rfl
@[simp] theorem State.fillWrite_mem (s : State) (bytes : List Byte) : (s.fillWrite bytes).mem = s.mem.fill 0 bytes := rfl
@[simp] theorem State.abort_cabort (s : State) (r : Result) : (s.abort r).cabort = r := rfl
@[simp] theorem State.abort_cpos (s : State) (r : Result) : (s.abort r).cpos = stopTasks := rfl
@[simp] theorem State.enterAddress_tfsm (s : State) : s.enterAddress.tfsm = .receivingAddress := rfl
@[simp] theorem State.enterAddress_tpos (s : State) : s.enterAddress.tpos = .op .tWaitL :: addressTasks := rfl

/-- The lines are a function of the two latches and the peers' two outputs. -/
theorem State.scl_congr {s t : State} (h : s.sclOut = t.sclOut) (h' : s.peerScl = t.peerScl) : s.scl = t.scl := by
  simp [State.scl, h, h']

theorem State.sda_congr {s t : State} (h : s.sdaOut = t.sdaOut) (h' : s.peerSda = t.peerSda) : s.sda = t.sda := by
  simp [State.sda, h, h']

end Sys2Proof.Machine
end

