-- ==== Sys2Proof/Laws/Operations.lean ====
section
/-! SUPPORT. What each shared operation can do, said once: acceptance at the command port, the access to a buffer byte, a poll of the
clock, a callback, the observation of the lines, the edge event. -/

namespace Sys2Proof.Machine

/-- With no command in execution a command has its effect (41_controller_ops.md R160). -/
theorem State.accept_idle {s : State} (h : s.busy = false) (i : Instr) (f : State → State) :
    s.accept i f = .next (f s) := by
  unfold State.accept
  rw [if_neg (by rw [h]; exact Bool.false_ne_true)]

/-- With a command in execution a command is held, nothing else (R160). -/
theorem State.accept_busy {s : State} (h : s.busy = true) (i : Instr) (f : State → State) :
    s.accept i f = .next (s.hold i) := by
  unfold State.accept
  rw [if_pos h]

/-- Whatever holds of the state held and of the effect holds of what acceptance answers. -/
theorem State.accept_rel {s t : State} {i : Instr} {f : State → State} (R : State → State → Prop)
    (h : s.accept i f = .next t) (held : R s (s.hold i)) (effect : s.busy = false → R s (f s)) : R s t := by
  cases hb : s.busy
  · rw [State.accept_idle hb] at h
    cases h; exact effect hb
  · rw [State.accept_busy hb] at h
    cases h; exact held

/-- A byte exists exactly when its segment does and is that long (20_memory.md R66). -/
theorem State.hasByte_iff (s : State) (k i : Nat) :
    s.hasByte k i = true ↔ ∃ g, s.xsegs[k]? = some g ∧ i < g.len.toNat := by
  unfold State.hasByte
  cases s.xsegs[k]? <;> simp

/-- A load answers the byte where there is one. -/
theorem State.bufLoad_some {s : State} {k i : Nat} {g : Seg} (hg : s.xsegs[k]? = some g) (hi : i < g.len.toNat) :
    s.bufLoad k i = some (s.mem.read (bufKey k i)) := by
  unfold State.bufLoad
  rw [if_pos ((s.hasByte_iff k i).2 ⟨g, hg, hi⟩)]

/-- A store writes the byte where there is one. -/
theorem State.bufStore_some {s : State} {k i : Nat} {g : Seg} (hg : s.xsegs[k]? = some g) (hi : i < g.len.toNat)
    (b : Byte) : s.bufStore k i b = some (s.setMem (s.mem.write (bufKey k i) b)) := by
  unfold State.bufStore
  rw [if_pos ((s.hasByte_iff k i).2 ⟨g, hg, hi⟩)]

/-- What a store answers is the write of that byte. -/
theorem State.bufStore_eq {s t : State} {k i : Nat} {b : Byte} (h : s.bufStore k i b = some t) :
    t = s.setMem (s.mem.write (bufKey k i) b) := by
  unfold State.bufStore at h
  split at h
  · exact (Option.some.inj h).symm
  · cases h

/-- A poll that finds its level is over (42_target_ops.md R200, R201). -/
theorem State.pollScl_found {s : State} {l : Level} {i : Instr} (h : s.scl = l) : s.pollScl l i = s.readScl := by
  unfold State.pollScl
  rw [if_pos (by rw [h]; exact beq_self_eq_true l)]

/-- A poll that does not find its level is repeated. -/
theorem State.pollScl_again {s : State} {l : Level} {i : Instr} (h : s.scl ≠ l) :
    s.pollScl l i = s.readScl.thenT [.op i] := by
  unfold State.pollScl
  rw [if_neg (by simpa using h)]

/-- A callback leaves alone everything but the answer, the exchanges made, the answers laid down and the count of free values. -/
theorem State.callFor_frame (s : State) (c : Byte → AppCall) :
    { s.callFor c with ans := s.ans, calls := s.calls, answers := s.answers, tick := s.tick } = s := by
  unfold State.callFor State.dropAnswer
  split <;> rfl

/-- A step that changes outputs sets nothing else but the edge latch and the observations of the wire. -/
theorem State.observe_frame (before s : State) :
    { before.observe s with
      edgePend := s.edgePend, busOpen := s.busOpen, lastCond := s.lastCond, unsanctioned := s.unsanctioned } = s := rfl

/-- Whether the edge latch is set after a step that changed outputs (60_exceptions.md R250). -/
theorem State.observe_edgePend_iff (before s : State) :
    (before.observe s).edgePend = true ↔ s.edgePend = true ∨ (s.armed = true ∧ before.sda ≠ s.sda) := by
  simp [State.observe]

/-- Whether the mark of unsanctioned line behaviour is set after a step that changed outputs (93_implementation_defined.md U1 to U3). -/
theorem State.observe_unsanctioned_iff (before s : State) :
    (before.observe s).unsanctioned = true ↔ s.unsanctioned = true ∨
      (s.inTransaction = true ∧ (s.watching = false ∨ before.sdaOut ≠ s.sdaOut) ∧ (before.scl = true ∧ s.scl = true) ∧
        (before.sda ≠ s.sda ∨ before.peerSda ≠ s.peerSda)) := by
  simp [State.observe, and_assoc]

/-- `T_EDGE` on a START (42_target_ops.md R195). -/
theorem State.takeEdge_start {s : State} (hc : s.scl = true) (hd : s.sda = false) :
    s.takeEdge = { s with edgePend := false, tfsm := .receivingAddress, handlerPend := true } := by
  unfold State.takeEdge
  rw [if_pos (by rw [hc, hd]; rfl)]

/-- `T_EDGE` on anything else. -/
theorem State.takeEdge_other {s : State} (h : s.scl = false ∨ s.sda = true) : s.takeEdge = { s with edgePend := false } := by
  unfold State.takeEdge
  rw [if_neg (by rcases h with h | h <;> simp [h])]

end Sys2Proof.Machine
end

