-- ==== Sys2Proof/Laws/Runs.lean ====
section
/-! SUPPORT. How one agent's turns compose, and what the controller sequencer's turns through one primitive come to, in front of any
continuation. -/

namespace Sys2Proof.Machine

/-! ## Turns -/

/-- A step with an input laid down does what that input does. -/
theorem stepWith_eq (i : Input) (s : State) : stepWith i s = carryOut (fetchInput i s) := rfl

/-- An operation run in the environment's context is `exec` of it. -/
theorem carryOut_environment (i : Instr) (s : State) : carryOut (.run .environment i s) = exec i s := by
  simp only [carryOut]
  cases exec i s <;> rfl

/-- The first input, then the others. -/
theorem runInputs_cons (i : Input) (is : List Input) (s : State) :
    runInputs (i :: is) s = afterwards (stepWith i s) is := by
  simp only [runInputs, afterwards]

/-- Inputs in two parts. -/
theorem runInputs_append (a b : List Input) (s : State) : runInputs (a ++ b) s = afterwards (runInputs a s) b := by
  induction a generalizing s with
  | nil => rfl
  | cons i a ih =>
    simp only [List.cons_append, runInputs_cons]
    cases h : stepWith i s <;> simp only [afterwards]
    exact ih _

/-- An outcome and inputs in two parts. -/
theorem afterwards_append (o : Out) (a b : List Input) : afterwards o (a ++ b) = afterwards (afterwards o a) b := by
  cases o <;> simp only [afterwards, runInputs_append]

/-- Turns of one agent in two parts. -/
theorem turns_add (m n : Nat) (t : Turn) : turns (m + n) t = turns m t ++ turns n t := by
  exact List.replicate_add ..

/-- One turn of the controller sequencer with an operation in front. -/
theorem controller_turn {s v : State} {i : Instr} {rest : List CTask} (hc : s.cpos = .op i :: rest)
    (he : exec i (s.setCpos rest) = .next v) : stepWith (.turn .controller) s = settleC v.cpos v := by
  rw [stepWith_eq]; simp only [fetchInput, fetchTurn, fetchController, hc, carryOut, he, settle]

/-- A turn that leaves an operation in front decides nothing. -/
theorem run_turn {s v : State} {i j : Instr} {rest k : List CTask} {n : Nat} (hc : s.cpos = .op i :: rest)
    (he : exec i (s.setCpos rest) = .next v) (hv : v.cpos = .op j :: k) :
    runInputs (turns (n + 1) .controller) s = runInputs (turns n .controller) v := by
  show runInputs (_ :: turns n .controller) s = _
  rw [runInputs_cons, controller_turn hc he, hv]
  show runInputs _ (v.setCpos _) = _
  rw [← hv]; rfl

/-- The last turn of a run. -/
theorem run_last {s v : State} {i : Instr} {rest : List CTask} (hc : s.cpos = .op i :: rest)
    (he : exec i (s.setCpos rest) = .next v) : runInputs (turns 1 .controller) s = settleC v.cpos v := by
  show runInputs [_] s = _
  rw [runInputs_cons, controller_turn hc he]
  cases settleC v.cpos v <;> rfl

/-! ## What a run inside a primitive leaves alone -/

/-- The state with everything hidden that a run inside a primitive may change. -/
def State.hidePrimitive (s : State) : State :=
  { s with
    sclOut := false, sdaOut := false, edgePend := false, busOpen := false, lastCond := none
    unsanctioned := false, cpos := [], csr := 0#8, cack := false, got := false, bitv := false
    elapsed := 0 }

@[simp] theorem hidePrimitive_setCpos (s : State) (l : List CTask) : (s.setCpos l).hidePrimitive = s.hidePrimitive := rfl
@[simp] theorem hidePrimitive_thenC (s : State) (l : List CTask) : (s.thenC l).hidePrimitive = s.hidePrimitive := rfl
@[simp] theorem hidePrimitive_driveScl (s : State) (l : Level) : (s.driveScl l).hidePrimitive = s.hidePrimitive := rfl
@[simp] theorem hidePrimitive_driveSda (s : State) (l : Level) : (s.driveSda l).hidePrimitive = s.hidePrimitive := rfl
@[simp] theorem hidePrimitive_waitAtLeast (s : State) (d : Dur) : (s.waitAtLeast d).hidePrimitive = s.hidePrimitive := rfl
@[simp] theorem hidePrimitive_readScl (s : State) : s.readScl.hidePrimitive = s.hidePrimitive := rfl
@[simp] theorem hidePrimitive_readSda (s : State) : s.readSda.hidePrimitive = s.hidePrimitive := rfl
@[simp] theorem hidePrimitive_setCsr (s : State) (x : Byte) : (s.setCsr x).hidePrimitive = s.hidePrimitive := rfl
@[simp] theorem hidePrimitive_setCack (s : State) (l : Level) : (s.setCack l).hidePrimitive = s.hidePrimitive := rfl
@[simp] theorem hidePrimitive_setBitv (s : State) (l : Level) : (s.setBitv l).hidePrimitive = s.hidePrimitive := rfl

/-- Equal but for what is hidden: the frame of a primitive. -/
theorem framePrimitive_of_hide {s t : State} (h : t.hidePrimitive = s.hidePrimitive) : FramePrimitive s t := by
  unfold FramePrimitive
  obtain ⟨⟩ := s; obtain ⟨⟩ := t
  simp only [State.hidePrimitive, State.mk.injEq] at h ⊢
  simp [h]

/-- A run of so many turns of the controller sequencer comes to the decisions `k` in the state `t`: with these output levels, after so many
low and high delays, with nothing else changed. -/
structure ControllerRun (n lo hi : Nat) (c d : Level) (s : State) (k : List CTask) (t : State) : Prop where
  run : runInputs (turns n .controller) s = settleC k t
  scl : t.sclOut = c
  sda : t.sdaOut = d
  cpos : t.cpos = k
  elapsed : t.elapsed = s.elapsed + lo * s.low + hi * s.high
  hide : t.hidePrimitive = s.hidePrimitive

/-! A field that is not hidden is as before. -/

theorem hidePrimitive_mode {s t : State} (h : t.hidePrimitive = s.hidePrimitive) : t.mode = s.mode :=
  (congrArg State.mode h :)
theorem hidePrimitive_cfgValid {s t : State} (h : t.hidePrimitive = s.hidePrimitive) : t.cfgValid = s.cfgValid :=
  (congrArg State.cfgValid h :)
theorem hidePrimitive_speed {s t : State} (h : t.hidePrimitive = s.hidePrimitive) : t.speed = s.speed :=
  (congrArg State.speed h :)
theorem hidePrimitive_low {s t : State} (h : t.hidePrimitive = s.hidePrimitive) : t.low = s.low :=
  (congrArg State.low h :)
theorem hidePrimitive_high {s t : State} (h : t.hidePrimitive = s.hidePrimitive) : t.high = s.high :=
  (congrArg State.high h :)
theorem hidePrimitive_tvalid {s t : State} (h : t.hidePrimitive = s.hidePrimitive) : t.tvalid = s.tvalid :=
  (congrArg State.tvalid h :)
theorem hidePrimitive_taddr {s t : State} (h : t.hidePrimitive = s.hidePrimitive) : t.taddr = s.taddr :=
  (congrArg State.taddr h :)
theorem hidePrimitive_tfsm {s t : State} (h : t.hidePrimitive = s.hidePrimitive) : t.tfsm = s.tfsm :=
  (congrArg State.tfsm h :)
theorem hidePrimitive_busy {s t : State} (h : t.hidePrimitive = s.hidePrimitive) : t.busy = s.busy :=
  (congrArg State.busy h :)
theorem hidePrimitive_cop {s t : State} (h : t.hidePrimitive = s.hidePrimitive) : t.cop = s.cop :=
  (congrArg State.cop h :)
theorem hidePrimitive_result {s t : State} (h : t.hidePrimitive = s.hidePrimitive) : t.result = s.result :=
  (congrArg State.result h :)
theorem hidePrimitive_xaddr {s t : State} (h : t.hidePrimitive = s.hidePrimitive) : t.xaddr = s.xaddr :=
  (congrArg State.xaddr h :)
theorem hidePrimitive_xsegs {s t : State} (h : t.hidePrimitive = s.hidePrimitive) : t.xsegs = s.xsegs :=
  (congrArg State.xsegs h :)
theorem hidePrimitive_cabort {s t : State} (h : t.hidePrimitive = s.hidePrimitive) : t.cabort = s.cabort :=
  (congrArg State.cabort h :)
theorem hidePrimitive_tpos {s t : State} (h : t.hidePrimitive = s.hidePrimitive) : t.tpos = s.tpos :=
  (congrArg State.tpos h :)
theorem hidePrimitive_tsr {s t : State} (h : t.hidePrimitive = s.hidePrimitive) : t.tsr = s.tsr :=
  (congrArg State.tsr h :)
theorem hidePrimitive_tdir {s t : State} (h : t.hidePrimitive = s.hidePrimitive) : t.tdir = s.tdir :=
  (congrArg State.tdir h :)
theorem hidePrimitive_tfirst {s t : State} (h : t.hidePrimitive = s.hidePrimitive) : t.tfirst = s.tfirst :=
  (congrArg State.tfirst h :)
theorem hidePrimitive_handlerPend {s t : State} (h : t.hidePrimitive = s.hidePrimitive) : t.handlerPend = s.handlerPend :=
  (congrArg State.handlerPend h :)
theorem hidePrimitive_terr {s t : State} (h : t.hidePrimitive = s.hidePrimitive) : t.terr = s.terr :=
  (congrArg State.terr h :)
theorem hidePrimitive_tlast {s t : State} (h : t.hidePrimitive = s.hidePrimitive) : t.tlast = s.tlast :=
  (congrArg State.tlast h :)
theorem hidePrimitive_mem {s t : State} (h : t.hidePrimitive = s.hidePrimitive) : t.mem = s.mem :=
  (congrArg State.mem h :)
theorem hidePrimitive_det {s t : State} (h : t.hidePrimitive = s.hidePrimitive) : t.det = s.det :=
  (congrArg State.det h :)
theorem hidePrimitive_ans {s t : State} (h : t.hidePrimitive = s.hidePrimitive) : t.ans = s.ans :=
  (congrArg State.ans h :)
theorem hidePrimitive_peerScl {s t : State} (h : t.hidePrimitive = s.hidePrimitive) : t.peerScl = s.peerScl :=
  (congrArg State.peerScl h :)
theorem hidePrimitive_peerSda {s t : State} (h : t.hidePrimitive = s.hidePrimitive) : t.peerSda = s.peerSda :=
  (congrArg State.peerSda h :)
theorem hidePrimitive_ppos {s t : State} (h : t.hidePrimitive = s.hidePrimitive) : t.ppos = s.ppos :=
  (congrArg State.ppos h :)
theorem hidePrimitive_port {s t : State} (h : t.hidePrimitive = s.hidePrimitive) : t.port = s.port :=
  (congrArg State.port h :)
theorem hidePrimitive_responses {s t : State} (h : t.hidePrimitive = s.hidePrimitive) : t.responses = s.responses :=
  (congrArg State.responses h :)
theorem hidePrimitive_statusOut {s t : State} (h : t.hidePrimitive = s.hidePrimitive) : t.statusOut = s.statusOut :=
  (congrArg State.statusOut h :)
theorem hidePrimitive_calls {s t : State} (h : t.hidePrimitive = s.hidePrimitive) : t.calls = s.calls :=
  (congrArg State.calls h :)
theorem hidePrimitive_inputs {s t : State} (h : t.hidePrimitive = s.hidePrimitive) : t.inputs = s.inputs :=
  (congrArg State.inputs h :)
theorem hidePrimitive_answers {s t : State} (h : t.hidePrimitive = s.hidePrimitive) : t.answers = s.answers :=
  (congrArg State.answers h :)
theorem hidePrimitive_tick {s t : State} (h : t.hidePrimitive = s.hidePrimitive) : t.tick = s.tick :=
  (congrArg State.tick h :)

/-- `C_RAISE` in front of an operation, with the clock line rising when released: one turn and the polls. -/
theorem run_raise {s : State} {j : Instr} {k : List CTask} {n : Nat} (hp : s.peerScl = true)
    (hc : s.cpos = .op .cRaise :: .op j :: k) :
    ∃ v, runInputs (turns (n + (1 + raisePolls)) .controller) s = runInputs (turns n .controller) v ∧
      v.cpos = .op j :: k ∧ v.hidePrimitive = s.hidePrimitive ∧ v.sclOut = true ∧ v.sdaOut = s.sdaOut ∧
      v.elapsed = s.elapsed ∧ v.csr = s.csr ∧ v.cack = s.cack ∧ v.bitv = s.bitv := by
  cases h : Config.stretchWait
  · have hr : raisePolls = 0 := by simp [raisePolls, h]
    rw [hr]
    refine ⟨(s.setCpos (.op j :: k)).driveScl true, ?_, rfl, rfl, rfl, rfl, rfl, rfl, rfl, rfl⟩
    refine run_turn hc ?_ rfl
    show Host.Outcome.next (State.thenC _ (stretchTasks Config.stretchWait)) = _
    rw [h]; rfl
  · have hr : raisePolls = 1 := by simp [raisePolls, h]
    rw [hr]
    refine ⟨((s.setCpos (.op j :: k)).driveScl true).readScl, ?_, rfl, rfl, rfl, rfl, rfl, rfl, rfl, rfl⟩
    have he : exec .cRaise (s.setCpos (.op j :: k))
        = .next (((s.setCpos (.op j :: k)).driveScl true).thenC [.op .getScl, .untilHigh]) := by
      show Host.Outcome.next (State.thenC _ (stretchTasks Config.stretchWait)) = _
      rw [h]; rfl
    rw [run_turn (n := n + 1) hc he rfl]
    show runInputs (_ :: turns n .controller) _ = _
    rw [runInputs_cons, controller_turn (i := .getScl) rfl rfl]
    have hset : ∀ u : State, u.got = true → settleC (.untilHigh :: .op j :: k) u = .next (u.setCpos (.op j :: k)) := by
      intro u hu
      simp [settleC, hu]
    refine (congrArg (fun o => afterwards o (turns n .controller)) (hset _ ?_)).trans rfl
    show (true && s.peerScl) = true
    rw [hp]; rfl

/-- One micro-operation other than a raise, with an operation behind it, as a run. -/
theorem ControllerRun.single {s v : State} {i : Instr} {k : List CTask} (hc : s.cpos = .op i :: k)
    (he : exec i (s.setCpos k) = .next v) (hv : v.cpos = k) : runInputs (turns 1 .controller) s = settleC k v := by
  rw [run_last hc he, hv]

/-- A bit sent (R140). -/
theorem run_wbit {s : State} (b : Level) {k : List CTask} (hp : s.peerScl = true) (hc : s.cpos = .op (.cWbit b) :: k) :
    ∃ t, ControllerRun (5 + raisePolls) 1 1 false b s k t ∧ t.csr = s.csr ∧ t.cack = s.cack ∧ t.bitv = s.bitv := by
  have e : 5 + raisePolls = (3 + (1 + raisePolls)) + 1 := by omega
  have r1 := run_turn (n := 3 + (1 + raisePolls)) (v := (s.setCpos k).beginWbit b) hc rfl rfl
  obtain ⟨v, hv, h1, h2, h3, h4, h5, h6, h7, h8⟩ :=
    run_raise (n := 3) (s := (s.setCpos k).beginWbit b) (j := .delay .high)
      (k := .op (.setScl false) :: .op (.delay .low) :: k) hp rfl
  have r2 := run_turn (n := 2) (v := (v.setCpos (.op (.setScl false) :: .op (.delay .low) :: k)).waitAtLeast .high) h1 rfl rfl
  have r3 := run_turn (n := 1) (s := (v.setCpos (.op (.setScl false) :: .op (.delay .low) :: k)).waitAtLeast .high)
    (v := (((v.setCpos (.op (.setScl false) :: .op (.delay .low) :: k)).waitAtLeast .high).setCpos (.op (.delay .low) :: k)).driveScl false) rfl rfl rfl
  let t : State := (((((v.setCpos (.op (.setScl false) :: .op (.delay .low) :: k)).waitAtLeast .high).setCpos
    (.op (.delay .low) :: k)).driveScl false).setCpos k).waitAtLeast .low
  have r4 := run_last (s := (((v.setCpos (.op (.setScl false) :: .op (.delay .low) :: k)).waitAtLeast .high).setCpos
    (.op (.delay .low) :: k)).driveScl false) (v := t) rfl rfl
  simp only [State.beginWbit] at h2 h4 h5 h6 h7 h8
  simp at h2 h4 h5 h6 h7 h8
  have hl := hidePrimitive_low h2
  have hh := hidePrimitive_high h2
  refine ⟨t, ⟨by rw [e, r1, hv, r2, r3, r4]; simp [t], by simp [t], by simp [t, h4], by simp [t], ?_, by simp [t, h2]⟩,
    by simp [t, h6], by simp [t, h7], by simp [t, h8]⟩
  simp [t, State.duration, h5, hl, hh]; omega

/-- The defensive pulse (R136). -/
theorem run_prestart {s : State} {k : List CTask} (hp : s.peerScl = true) (hc : s.cpos = .op .cPrestart :: k) :
    ∃ t, ControllerRun (4 + raisePolls) 2 0 true s.sdaOut s k t := by
  have e : 4 + raisePolls = 1 + (1 + raisePolls) + 1 + 1 := by omega
  have r1 := run_turn (n := 1 + (1 + raisePolls) + 1)
    (v := ((s.setCpos k).driveScl false).thenC prestartRest) hc rfl rfl
  have r2 := run_turn (n := 1 + (1 + raisePolls)) (s := ((s.setCpos k).driveScl false).thenC prestartRest)
    (v := ((((s.setCpos k).driveScl false).thenC prestartRest).setCpos (.op .cRaise :: .op (.delay .low) :: k)).waitAtLeast .low) rfl rfl rfl
  obtain ⟨v, hv, h1, h2, h3, h4, h5, h6, h7, h8⟩ :=
    run_raise (n := 1) (s := ((((s.setCpos k).driveScl false).thenC prestartRest).setCpos (.op .cRaise :: .op (.delay .low) :: k)).waitAtLeast .low)
      (j := .delay .low) (k := k) hp rfl
  let t : State := (v.setCpos k).waitAtLeast .low
  have r4 := run_last (v := t) h1 rfl
  simp at h2 h4 h5
  have hl := hidePrimitive_low h2
  refine ⟨t, by rw [e, r1, r2, hv, r4]; simp [t], by simp [t, h3], by simp [t, h4], by simp [t], ?_, by simp [t, h2]⟩
  simp [t, State.duration, h5, hl]; omega

/-- START (R137). -/
theorem run_start {s : State} {k : List CTask} (hc : s.cpos = .op .cStart :: k) :
    ∃ t, ControllerRun 4 1 1 false false s k t := by
  let a : State := ((s.setCpos k).driveSda false).thenC startRest
  let b : State := (a.setCpos (.op (.setScl false) :: .op (.delay .low) :: k)).waitAtLeast .high
  let c : State := (b.setCpos (.op (.delay .low) :: k)).driveScl false
  let t : State := (c.setCpos k).waitAtLeast .low
  have r1 := run_turn (n := 3) (v := a) hc rfl rfl
  have r2 := run_turn (n := 2) (s := a) (v := b) rfl rfl rfl
  have r3 := run_turn (n := 1) (s := b) (v := c) rfl rfl rfl
  have r4 := run_last (s := c) (v := t) rfl rfl
  refine ⟨t, by rw [r1, r2, r3, r4]; simp [t], by simp [t, c], by simp [t, c, b, a], by simp [t], ?_, by simp [t, c, b, a]⟩
  simp [t, c, b, a, State.duration]; omega

/-- REPEATED-START (R138). -/
theorem run_rstart {s : State} {k : List CTask} (hp : s.peerScl = true) (hc : s.cpos = .op .cRstart :: k) :
    ∃ t, ControllerRun (7 + raisePolls) 2 1 false false s k t := by
  have e : 7 + raisePolls = 5 + (1 + raisePolls) + 1 := by omega
  let a : State := ((s.setCpos k).driveSda true).thenC rstartRest
  have r1 := run_turn (n := 5 + (1 + raisePolls)) (v := a) hc rfl rfl
  obtain ⟨v, hv, h1, h2, h3, h4, h5, h6, h7, h8⟩ :=
    run_raise (n := 5) (s := a) (j := .delay .low) (k := .op .cStart :: k) hp rfl
  let b : State := (v.setCpos (.op .cStart :: k)).waitAtLeast .low
  have r2 := run_turn (n := 4) (v := b) h1 rfl rfl
  obtain ⟨t, ht⟩ := run_start (s := b) (k := k) rfl
  have hh := ht.hide
  have he := ht.elapsed
  simp [a] at h2 h5
  simp [b, h2] at hh
  have hl := hidePrimitive_low h2
  have hi := hidePrimitive_high h2
  refine ⟨t, by rw [e, r1, hv, r2, ht.run], ht.scl, ht.sda, ht.cpos, ?_, hh⟩
  simp [b, State.duration, h5, hl, hi] at he
  omega

/-- STOP (R139); with no peer holding the data line low it appears on the wire. -/
theorem run_stop {s : State} {k : List CTask} (hp : s.peerScl = true) (hc : s.cpos = .op .cStop :: k) :
    ∃ t, ControllerRun (6 + raisePolls) 2 1 true true s k t ∧
      (s.peerSda = true → t.lastCond = some .stop ∧ t.busOpen = false) := by
  have e : 6 + raisePolls = 3 + (1 + raisePolls) + 1 + 1 := by omega
  let a : State := ((s.setCpos k).driveSda false).thenC stopRest
  let b : State := (a.setCpos (.op .cRaise :: .op (.delay .high) :: .op (.setSda true) :: .op (.delay .low) :: k)).waitAtLeast .low
  have r1 := run_turn (n := 3 + (1 + raisePolls) + 1) (v := a) hc rfl rfl
  have r2 := run_turn (n := 3 + (1 + raisePolls)) (s := a) (v := b) rfl rfl rfl
  obtain ⟨v, hv, h1, h2, h3, h4, h5, h6, h7, h8⟩ :=
    run_raise (n := 3) (s := b) (j := .delay .high) (k := .op (.setSda true) :: .op (.delay .low) :: k) hp rfl
  let c : State := (v.setCpos (.op (.setSda true) :: .op (.delay .low) :: k)).waitAtLeast .high
  let d : State := (c.setCpos (.op (.delay .low) :: k)).driveSda true
  let t : State := (d.setCpos k).waitAtLeast .low
  have r3 := run_turn (n := 2) (v := c) h1 rfl rfl
  have r4 := run_turn (n := 1) (s := c) (v := d) rfl rfl rfl
  have r5 := run_last (s := d) (v := t) rfl rfl
  simp [b, a] at h2 h5
  have hl := hidePrimitive_low h2
  have hh := hidePrimitive_high h2
  refine ⟨t, ⟨by rw [e, r1, r2, hv, r3, r4, r5]; simp [t], by simp [t, d, c, h3], by simp [t, d], by simp [t], ?_, by simp [t, d, c, h2]⟩,
    fun hd => ?_⟩
  · simp [t, d, c, State.duration, h5, hl, hh]; omega
  · have hps : v.peerSda = true := (hidePrimitive_peerSda h2).trans hd
    have hpc : v.peerScl = true := (hidePrimitive_peerScl h2).trans hp
    have hsd : v.sdaOut = false := h4
    exact ⟨by simp [t, d, c, State.waitAtLeast, State.driveSda, State.observe, State.scl, State.sda, State.setCpos, h3, hps, hpc, hsd],
      by simp [t, d, c, State.waitAtLeast, State.driveSda, State.observe, State.scl, State.sda, State.setCpos, h3, hps, hpc, hsd]⟩

/-- A bit received: the level the peers hold (R141). -/
theorem run_rbit {s : State} {k : List CTask} (hp : s.peerScl = true) (hc : s.cpos = .op .cRbit :: k) :
    ∃ t, ControllerRun (6 + raisePolls) 1 1 false true s k t ∧ t.bitv = s.peerSda ∧ t.csr = s.csr ∧ t.cack = s.cack := by
  have e : 6 + raisePolls = 4 + (1 + raisePolls) + 1 := by omega
  let a : State := (s.setCpos k).beginRbit
  have r1 := run_turn (n := 4 + (1 + raisePolls)) (v := a) hc rfl rfl
  obtain ⟨v, hv, h1, h2, h3, h4, h5, h6, h7, h8⟩ :=
    run_raise (n := 4) (s := a) (j := .delay .high) (k := .op .getSda :: .takeBit :: .op (.setScl false) :: .op (.delay .low) :: k) hp rfl
  let b : State := (v.setCpos (.op .getSda :: .takeBit :: .op (.setScl false) :: .op (.delay .low) :: k)).waitAtLeast .high
  let g : State := (b.setCpos (.takeBit :: .op (.setScl false) :: .op (.delay .low) :: k)).readSda
  let c : State := (g.setBitv g.got).setCpos (.op (.setScl false) :: .op (.delay .low) :: k)
  let d : State := (c.setCpos (.op (.delay .low) :: k)).driveScl false
  let t : State := (d.setCpos k).waitAtLeast .low
  have r2 := run_turn (n := 3) (v := b) h1 rfl rfl
  have r3 : runInputs (turns 3 .controller) b = runInputs (turns 2 .controller) c := by
    show runInputs (_ :: turns 2 .controller) b = _
    rw [runInputs_cons, controller_turn (s := b) (v := g) rfl rfl]
    rfl
  have r4 := run_turn (n := 1) (s := c) (v := d) rfl rfl rfl
  have r5 := run_last (s := d) (v := t) rfl rfl
  simp only [a, State.beginRbit] at h2 h4 h5 h6 h7
  simp at h2 h4 h5 h6 h7
  have hl := hidePrimitive_low h2
  have hh := hidePrimitive_high h2
  have hd := hidePrimitive_peerSda h2
  refine ⟨t, ⟨by rw [e, r1, hv, r2, r3, r4, r5]; simp [t], by simp [t, d], by simp [t, d, c, g, b, h4], by simp [t], ?_, by simp [t, d, c, g, b, h2]⟩, ?_, by simp [t, d, c, g, b, h6], by simp [t, d, c, g, b, h7]⟩
  · simp [t, d, c, g, b, State.duration, h5, hl, hh]; omega
  · simp [t, d, c, g, b, State.sda, h4, hd]

/-- With an operation in front there is nothing to decide. -/
theorem settleC_operation {i : Instr} {k : List CTask} {t : State} (h : t.cpos = .op i :: k) :
    settleC (.op i :: k) t = .next t := by
  show Host.Outcome.next (t.setCpos _) = _
  rw [← h]; rfl

/-- Bits sent one after another. -/
theorem run_bits {j : Instr} {k : List CTask} (bits : List Level) {s : State} (hp : s.peerScl = true)
    (hc : s.cpos = bits.map (fun b => CTask.op (.cWbit b)) ++ .op j :: k) :
    ∃ t, runInputs (turns (bits.length * (5 + raisePolls)) .controller) s = .next t ∧ t.cpos = .op j :: k ∧
      t.hidePrimitive = s.hidePrimitive ∧ t.elapsed = s.elapsed + bits.length * s.low + bits.length * s.high ∧
      t.csr = s.csr ∧ t.cack = s.cack := by
  induction bits generalizing s with
  | nil =>
    refine ⟨s, ?_, hc, rfl, ?_, rfl, rfl⟩
    · simp [turns, runInputs]
    · simp
  | cons b rest ih =>
    obtain ⟨t, ht, hcsr, hcack, _⟩ := run_wbit b (k := rest.map (fun b => CTask.op (.cWbit b)) ++ .op j :: k) hp hc
    have hst : settleC (rest.map (fun b => CTask.op (.cWbit b)) ++ .op j :: k) t = .next t := by
      have h2 := ht.cpos
      cases rest with
      | nil => exact settleC_operation h2
      | cons b' rest' => exact settleC_operation h2
    obtain ⟨u, hu, h1, h2, h3, h4, h5⟩ := ih (s := t) ((hidePrimitive_peerScl ht.hide).trans hp) ht.cpos
    refine ⟨u, ?_, h1, h2.trans ht.hide, ?_, h4.trans hcsr, h5.trans hcack⟩
    · have : (b :: rest).length * (5 + raisePolls) = (5 + raisePolls) + rest.length * (5 + raisePolls) := by
        simp only [List.length_cons]; ring
      rw [this, turns_add, runInputs_append, ht.run, hst]
      exact hu
    · rw [h3, ht.elapsed, hidePrimitive_low ht.hide, hidePrimitive_high ht.hide]
      simp only [List.length_cons]; ring

/-- Two states whose next turn is the same run alike. -/
theorem run_congr {s u : State} {n : Nat} (h : stepWith (.turn .controller) s = stepWith (.turn .controller) u) :
    runInputs (turns (n + 1) .controller) s = runInputs (turns (n + 1) .controller) u := by
  show runInputs (_ :: turns n .controller) s = runInputs (_ :: turns n .controller) u
  rw [runInputs_cons, runInputs_cons, h]

/-- Where a transfer goes does not depend on the position it finds. -/
theorem goTo_setCpos (s : State) (l : List CTask) (a b : Nat) : (s.setCpos l).goTo a b = s.goTo a b := by
  simp only [State.goTo, State.setCpos_xaddr, State.setCpos_xsegs]
  split <;> rfl

/-- The decisions do not read the position they find. -/
theorem settleC_setCpos (l k : List CTask) (s : State) : settleC k (s.setCpos l) = settleC k s := by
  induction k generalizing s with
  | nil => rfl
  | cons x k ih =>
    cases x with
    | op i => rfl
    | send a b => rfl
    | untilHigh => simp only [settleC, State.setCpos_got, ih]; rfl
    | takeBit => exact ih (s.setBitv s.got)
    | takeAck => exact ih (s.setCack s.bitv)
    | shiftCsr => exact ih (s.setCsr (shiftIn s.csr s.bitv))
    | entryTest => simp only [settleC, State.setCpos_got, ih]; rfl
    | addrCheck a => simp only [settleC, State.setCpos_cack, goTo_setCpos]; split <;> rfl
    | dataCheck a b => simp only [settleC, State.setCpos_cack, goTo_setCpos]; split <;> rfl
    | store a b =>
      have hl : ∀ x, (s.setCpos l).bufStore a b x = (s.bufStore a b x).map (fun t => t.setCpos l) := by
        intro x
        have hh : (s.setCpos l).hasByte a b = s.hasByte a b := rfl
        simp only [State.bufStore, hh]
        split <;> rfl
      simp only [settleC, State.setCpos_csr, hl]
      cases s.bufStore a b s.csr with
      | none => rfl
      | some t => exact ih t
    | nextByte a b => simp only [settleC, goTo_setCpos]
    | complete => rfl
    | recCheck => rfl

/-- Entering `C_WBYTE` is entering its first cell with the other seven and the acknowledge behind it (R142). -/
theorem turn_wbyte {s : State} {x : Byte} {k : List CTask} (hc : s.cpos = .op (.cWbyte x) :: k) :
    stepWith (.turn .controller) s
      = stepWith (.turn .controller)
          (s.setCpos ((bitsOf x).map (fun b => CTask.op (.cWbit b)) ++ .op .cRbit :: .takeAck :: k)) := by
  rw [controller_turn hc rfl, controller_turn (i := .cWbit (x.getLsbD 7))
    (rest := (bitsOf x).tail.map (fun b => CTask.op (.cWbit b)) ++ .op .cRbit :: .takeAck :: k)
    (s := s.setCpos ((bitsOf x).map (fun b => CTask.op (.cWbit b)) ++ .op .cRbit :: .takeAck :: k)) rfl rfl]
  rfl

/-- A byte frame sent, its acknowledge sampled (R142). -/
theorem run_wbyte {s : State} {x : Byte} {k : List CTask} (hp : s.peerScl = true) (hc : s.cpos = .op (.cWbyte x) :: k) :
    ∃ t, ControllerRun (46 + 9 * raisePolls) 9 9 false true s k t ∧ t.cack = s.peerSda ∧ t.csr = s.csr := by
  have e : 46 + 9 * raisePolls = (45 + 9 * raisePolls) + 1 := by omega
  obtain ⟨a, ha, h1, h2, h3, h4, _⟩ := run_bits (bitsOf x)
    (s := s.setCpos ((bitsOf x).map (fun b => CTask.op (.cWbit b)) ++ .op .cRbit :: .takeAck :: k)) (by simpa using hp) rfl
  simp at h2 h3 h4
  obtain ⟨b, hb, hv, hcsr, _⟩ := run_rbit (s := a) ((hidePrimitive_peerScl h2).trans hp) h1
  let t : State := (b.setCack b.bitv).setCpos k
  have hl := hidePrimitive_low h2
  have hh := hidePrimitive_high h2
  have hsd := hidePrimitive_peerSda h2
  have hlen : (bitsOf x).length = 8 := rfl
  have hbc := hb.cpos
  refine ⟨t, ⟨?_, by simp [t, hb.scl], by simp [t, hb.sda], by simp [t], ?_, by simp [t, hb.hide, h2]⟩, by simp [t, hv, hsd], by simp [t, hcsr, h4]⟩
  · rw [e, run_congr (turn_wbyte hc), ← e]
    have e2 : 46 + 9 * raisePolls = (bitsOf x).length * (5 + raisePolls) + (6 + raisePolls) := by rw [hlen]; omega
    rw [e2, turns_add, runInputs_append, ha]
    show runInputs _ a = _
    rw [hb.run]
    exact (settleC_setCpos k k (b.setCack b.bitv)).symm
  · simp [t, hb.elapsed, h3, hl, hh, hlen]; omega

/-- Entering `C_RBYTE` is clearing `CSR` and entering its first cell, with each of the eight shifted in (R143). -/
theorem turn_rbyte {s : State} {k : List CTask} (hc : s.cpos = .op .cRbyte :: k) :
    stepWith (.turn .controller) s
      = stepWith (.turn .controller)
          ((s.setCsr 0#8).setCpos ((List.replicate 8 [CTask.op .cRbit, .shiftCsr]).flatten ++ k)) := by
  rw [controller_turn hc rfl, controller_turn (i := .cRbit) (rest := rbyteRest ++ k)
    (s := (s.setCsr 0#8).setCpos ((List.replicate 8 [CTask.op .cRbit, .shiftCsr]).flatten ++ k)) rfl rfl]
  rfl

/-- Cells received from peers that hold the data line, each shifted in: `n` of them and one more. -/
theorem run_cells {k : List CTask} (n : Nat) {s : State} (hp : s.peerScl = true)
    (hc : s.cpos = (List.replicate (n + 1) [CTask.op .cRbit, .shiftCsr]).flatten ++ k) :
    ∃ t, ControllerRun ((n + 1) * (6 + raisePolls)) (n + 1) (n + 1) false true s k t ∧
      t.csr = (List.replicate (n + 1) s.peerSda).foldl shiftIn s.csr ∧ t.cack = s.cack := by
  induction n generalizing s with
  | zero =>
    obtain ⟨t, ht, hv, hcsr, hcack⟩ := run_rbit (k := .shiftCsr :: k) hp hc
    refine ⟨(t.setCsr (shiftIn t.csr t.bitv)).setCpos k,
      ⟨?_, by simp [ht.scl], by simp [ht.sda], by simp, by simp [ht.elapsed], by simp [ht.hide]⟩,
      by simp [hcsr, hv, List.replicate], by simp [hcack]⟩
    rw [settleC_setCpos]
    have e : (0 + 1) * (6 + raisePolls) = 6 + raisePolls := by omega
    rw [e, ht.run]; rfl
  | succ n ih =>
    obtain ⟨t, ht, hv, hcsr, hcack⟩ := run_rbit
      (k := .shiftCsr :: ((List.replicate (n + 1) [CTask.op .cRbit, .shiftCsr]).flatten ++ k)) hp hc
    let u : State := (t.setCsr (shiftIn t.csr t.bitv)).setCpos ((List.replicate (n + 1) [CTask.op .cRbit, .shiftCsr]).flatten ++ k)
    have hst : settleC (.shiftCsr :: ((List.replicate (n + 1) [CTask.op .cRbit, .shiftCsr]).flatten ++ k)) t = .next u := rfl
    have hu : u.hidePrimitive = s.hidePrimitive := by simp [u, ht.hide]
    obtain ⟨w, hw, h4, h5⟩ := ih (s := u) ((hidePrimitive_peerScl hu).trans hp) rfl
    have hue : u.elapsed = t.elapsed := by simp [u]
    have huc : u.csr = shiftIn s.csr s.peerSda := by simp [u, hcsr, hv]
    refine ⟨w, ⟨?_, hw.scl, hw.sda, hw.cpos, ?_, hw.hide.trans hu⟩, ?_, ?_⟩
    · have : (n + 1 + 1) * (6 + raisePolls) = (6 + raisePolls) + (n + 1) * (6 + raisePolls) := by ring
      rw [this, turns_add, runInputs_append, ht.run, hst]
      exact hw.run
    · rw [hw.elapsed, hidePrimitive_low hu, hidePrimitive_high hu, hue, ht.elapsed]; ring
    · rw [h4, hidePrimitive_peerSda hu, huc]; rfl
    · rw [h5]; simp [u, hcack]

/-- A byte received from peers that hold the data line (R143). -/
theorem run_rbyte {s : State} {k : List CTask} (hp : s.peerScl = true) (hc : s.cpos = .op .cRbyte :: k) :
    ∃ t, ControllerRun (48 + 8 * raisePolls) 8 8 false true s k t ∧
      t.csr = (List.replicate 8 s.peerSda).foldl shiftIn 0#8 ∧ t.cack = s.cack := by
  have e : 48 + 8 * raisePolls = (47 + 8 * raisePolls) + 1 := by omega
  obtain ⟨t, ht, h4, h5⟩ := run_cells 7 (k := k)
    (s := (s.setCsr 0#8).setCpos ((List.replicate 8 [CTask.op .cRbit, .shiftCsr]).flatten ++ k)) (by simpa using hp) rfl
  have he := ht.elapsed
  have hh := ht.hide
  simp at h4 h5 he hh
  refine ⟨t, ⟨?_, ht.scl, ht.sda, ht.cpos, he, hh⟩, h4, h5⟩
  rw [e, run_congr (turn_rbyte hc), ← e]
  have e2 : 48 + 8 * raisePolls = (7 + 1) * (6 + raisePolls) := by omega
  rw [e2, ht.run]

/-- A written byte is read from its buffer when its frame begins (R164 step 5). -/
theorem turn_send {s : State} {a i : Nat} {x : Byte} {k : List CTask} (hc : s.cpos = .send a i :: k)
    (hx : s.bufLoad a i = some x) :
    stepWith (.turn .controller) s = stepWith (.turn .controller) (s.setCpos (.op (.cWbyte x) :: k)) := by
  rw [controller_turn (s := s.setCpos (.op (.cWbyte x) :: k)) rfl rfl, stepWith_eq]
  simp only [fetchInput, fetchTurn, fetchController, hc, hx, carryOut]
  rfl

end Sys2Proof.Machine
end

