-- ==== Sys2Proof/Laws/HandlerRuns.lean ====
section
/-! SUPPORT. What a turn of the deferred context comes to, and the halves of a clock pulse as the target handler sees them, in front of
any continuation. -/

namespace Sys2Proof.Machine

/-- One turn of the deferred context with an operation in front. -/
theorem handler_turn {s v : State} {i : Instr} {rest : List TTask} (hp : s.handlerPend = false)
    (hc : s.tpos = .op i :: rest)
    (he : exec i (s.setTpos rest) = .next v) : stepWith (.turn .handler) s = .next (settleT v.tpos v) := by
  have hf : fetchHandler s = .run .handler i (s.setTpos rest) := by
    unfold fetchHandler; rw [hp]; simp [hc]
  show carryOut (fetchHandler s) = _
  rw [hf]; simp only [carryOut, he, settle]

/-- A wait for the clock high that finds it so. -/
theorem run_waitH {a : State} {k : List TTask} (hp : a.handlerPend = false) (h : a.scl = true)
    (hc : a.tpos = .op .tWaitH :: k) :
    stepWith (.turn .handler) a = .next (settleT k { a with got := true, tpos := k }) := by
  have he : exec .tWaitH (a.setTpos k) = .next { a with got := true, tpos := k } := by
    show Host.Outcome.next (State.pollScl _ true .tWaitH) = _
    rw [State.pollScl_found (by exact h)]
    simp [State.readScl, State.setTpos]
    exact h
  exact handler_turn hp hc he

/-- A wait for the clock low that finds it so, and the decisions after it. -/
theorem turn_waitL {a : State} {k : List TTask} (hp : a.handlerPend = false) (h : a.scl = false)
    (hc : a.tpos = .op .tWaitL :: k) :
    stepWith (.turn .handler) a = .next (settleT k { a with got := false, tpos := k }) := by
  have he : exec .tWaitL (a.setTpos k) = .next { a with got := false, tpos := k } := by
    show Host.Outcome.next (State.pollScl _ false .tWaitL) = _
    rw [State.pollScl_found (by exact h)]
    simp [State.readScl, State.setTpos]
    exact h
  exact handler_turn hp hc he

/-- The high half of a received bit: the level is sampled (42_target_ops.md R202). -/
theorem run_trbit_high {a : State} {k : List TTask} (hp : a.handlerPend = false) (h : a.scl = true)
    (hc : a.tpos = .op .tRbit :: k) :
    runInputs [.turn .handler, .turn .handler] a
      = .next { a with got := a.sda, bitv := a.sda, tpos := .op .tWaitL :: k } := by
  have he : exec .tRbit (a.setTpos k) = .next { a with got := true, tpos := .op .getSda :: .takeBit :: .op .tWaitL :: k } := by
    show Host.Outcome.next (State.pollScl _ true .tWaitH) = _
    rw [State.pollScl_found (by exact h)]
    simp [State.readScl, State.thenT, State.setTpos, trbitRest]
    exact h
  have r1 := handler_turn hp hc he
  have r2 := handler_turn 
    (s := { a with got := true, tpos := .op .getSda :: .takeBit :: .op .tWaitL :: k }) (i := .getSda)
    (v := { a with got := a.sda, tpos := .takeBit :: .op .tWaitL :: k }) hp rfl rfl
  simp only [runInputs, r1]
  simp only [settleT, State.setTpos]
  simp only [r2]
  rfl

/-- A bit put on the line while the clock is low, and the clock raised (R203). -/
theorem run_twbit_high {s : State} {b : Level} {i : Instr} {k0 k : List TTask} (hp : s.handlerPend = false)
    (hc : s.tpos = .op i :: k0)
    (he : exec i (s.setTpos k0) = .next (((s.setTpos k0).driveSda b).setTpos (.op .tWaitH :: .op .tWaitL :: k))) :
    ∃ t, runInputs [.turn .handler, .drive true true] s = .next t ∧ t.tpos = .op .tWaitH :: .op .tWaitL :: k ∧
      t.handlerPend = false ∧ t.sclOut = s.sclOut ∧ t.sdaOut = b ∧ t.peerScl = true ∧ t.peerSda = true ∧
      t.mode = s.mode ∧ t.tfsm = s.tfsm := by
  have r := handler_turn hp hc he
  refine ⟨(((s.setTpos k0).driveSda b).setTpos (.op .tWaitH :: .op .tWaitL :: k)).drivePeers true true, ?_, rfl, hp, rfl, rfl, rfl, rfl, rfl, rfl⟩
  simp only [runInputs, r]
  rfl

/-- The rest of the pulse: the clock seen high, lowered, seen low (R203). -/
theorem run_twbit_low {a : State} {k : List TTask} (hp : a.handlerPend = false) (hs : a.sclOut = true)
    (hpe : a.peerScl = true) (hc : a.tpos = .op .tWaitH :: .op .tWaitL :: k) :
    ∃ t, runInputs [.turn .handler, .drive false true, .turn .handler] a = .next (settleT k t) ∧ t.tpos = k ∧
      t.handlerPend = false ∧ t.sclOut = true ∧ t.sdaOut = a.sdaOut ∧ t.peerScl = false ∧ t.peerSda = true ∧
      t.mode = a.mode ∧ t.tfsm = a.tfsm := by
  have r1 := run_waitH hp (by show (a.sclOut && a.peerScl) = true; rw [hs, hpe]; rfl) hc
  generalize hb : State.drivePeers { a with got := true, tpos := .op .tWaitL :: k } false true = b
  have b1 : b.handlerPend = false := by rw [← hb]; exact hp
  have b2 : b.tpos = .op .tWaitL :: k := by rw [← hb]; rfl
  have b3 : b.scl = false := by rw [← hb]; show (a.sclOut && false) = false; simp
  have r2 := turn_waitL b1 b3 b2
  refine ⟨{ b with got := false, tpos := k }, ?_, rfl, b1, ?_, ?_, ?_, ?_, ?_, ?_⟩
  · have d : stepWith (.drive false true) { a with got := true, tpos := .op .tWaitL :: k } = .next b := by rw [← hb]; rfl
    have d0 : settleT (.op .tWaitL :: k) { a with got := true, tpos := .op .tWaitL :: k }
        = { a with got := true, tpos := .op .tWaitL :: k } := rfl
    simp only [runInputs, r1, d0, d, r2]
  all_goals (rw [← hb]; first | exact hs | rfl)

end Sys2Proof.Machine
end

