-- ==== Sys2Proof/Laws/Memory.lean ====
section
/-! SUPPORT. Every memory operation keeps the canonical form. -/

namespace Sys2Proof.Machine

/-- A lower bound may be lowered. -/
theorem Memory.wfFrom_mono {lo hi : Nat} (h : lo ≤ hi) {m : Memory} (w : Memory.wfFrom hi m = true) :
    Memory.wfFrom lo m = true := by
  cases m with
  | nil => rfl
  | cons c rest =>
    obtain ⟨k, b⟩ := c
    simp only [Memory.wfFrom, Bool.and_eq_true, decide_eq_true_eq] at w ⊢
    exact ⟨⟨by omega, w.1.2⟩, w.2⟩

/-- A write at an address not below the bound keeps the bounded form. -/
theorem Memory.write_wfFrom {m : Memory} {lo a : Nat} (b : Byte) (ha : lo ≤ a) (w : Memory.wfFrom lo m = true) :
    Memory.wfFrom lo (m.write a b) = true := by
  induction m generalizing lo with
  | nil =>
    by_cases hb : b = absentByte
    · simp [Memory.write, hb, Memory.wfFrom]
    · simp [Memory.write, hb, Memory.wfFrom, ha]
  | cons c rest ih =>
    obtain ⟨k, v⟩ := c
    simp only [Memory.wfFrom, Bool.and_eq_true, decide_eq_true_eq, Bool.not_eq_true', beq_eq_false_iff_ne] at w
    obtain ⟨⟨hk, hv⟩, hr⟩ := w
    unfold Memory.write
    by_cases h1 : a < k
    · by_cases hb : b = absentByte
      · simp [h1, hb, Memory.wfFrom, hk, hv, hr]
      · have : a + 1 ≤ k := h1
        simp [h1, hb, Memory.wfFrom, ha, this, hv, hr]
    · by_cases h2 : a = k
      · subst h2
        by_cases hb : b = absentByte
        · simpa [hb] using Memory.wfFrom_mono (by omega) hr
        · simp [hb, Memory.wfFrom, hk, hr]
      · have hlt : k + 1 ≤ a := by omega
        simp [h1, h2, Memory.wfFrom, hk, hv, ih hlt hr]

/-- A write keeps the canonical form. -/
theorem Memory.write_wf {m : Memory} (a : Nat) (b : Byte) (w : m.wf = true) : (m.write a b).wf = true :=
  Memory.write_wfFrom b (Nat.zero_le a) w

/-- Filling a buffer keeps the canonical form. -/
theorem Memory.fill_wf {m : Memory} (i : Nat) (bytes : List Byte) (w : m.wf = true) : (m.fill i bytes).wf = true := by
  induction bytes generalizing m i with
  | nil => exact w
  | cons b rest ih => exact ih (i + 1) (Memory.write_wf _ b w)

/-- A store to a buffer keeps the canonical form. -/
theorem State.bufStore_wf {s t : State} {k i : Nat} {b : Byte} (h : s.bufStore k i b = some t) (w : s.mem.wf = true) :
    t.mem.wf = true := by
  unfold State.bufStore at h
  split at h
  · obtain rfl := Option.some.inj h
    exact Memory.write_wf _ b w
  · simp at h

/-- Memory at reset has the canonical form. -/
theorem reset_mem_wf : State.reset.mem.wf = true := rfl

end Sys2Proof.Machine
end

