-- ==== Sys2Proof/Laws/Invariant.lean ====
section
/-! SUPPORT. What the invariant needs of each operation, of the two sequencers' decisions and of each command. -/

namespace Sys2Proof.Machine

@[simp] theorem storesReached_nil : storesReached [] = [] := rfl
@[simp] theorem storesReached_op (i : Instr) (rest : List CTask) : storesReached (.op i :: rest) = [] := rfl
@[simp] theorem storesReached_send (k i : Nat) (rest : List CTask) : storesReached (.send k i :: rest) = [] := rfl
@[simp] theorem storesReached_store (k i : Nat) (rest : List CTask) :
    storesReached (.store k i :: rest) = (k, i) :: storesReached rest := rfl

/-- `FlagsInv` reads only these fields; the edge latch may also be set by an armed detector. -/
theorem FlagsInv.congr {s t : State} (h : FlagsInv s) (h1 : t.mode = s.mode) (h2 : t.cfgValid = s.cfgValid)
  (h3 : t.speed = s.speed) (h4 : t.low = s.low) (h5 : t.high = s.high) (h6 : t.tvalid = s.tvalid) (h7 :
      t.tfsm = s.tfsm)
  (h8 : t.busy = s.busy) (h9 : t.cop = s.cop) (h10 : t.edgePend = true → s.edgePend = true ∨ s.armed = true)
  (h11 : t.handlerPend = s.handlerPend) (h12 : t.mem.wf = true) : FlagsInv t := by
  obtain ⟨a,b,c,d,e,f,g,i,j,k⟩ := h
  constructor <;> simp_all
  intro hh
  rcases h10 hh with h | h
  · exact g h
  · simpa [State.armed] using h

/-- The edge latch is set only by an armed detector. -/
theorem observe_edge (b s : State) : (b.observe s).edgePend = true → s.edgePend = true ∨ s.armed = true := by
  simp only [State.observe, Bool.or_eq_true, Bool.and_eq_true]
  rintro (h | h)
  · exact .inl h
  · exact .inr h.1

/-- Where a transfer goes on, it stands at an operation of the controller, names existing buffer bytes, and comes to a decision. -/
theorem tasksAt_ok (addr : Addr) (segs : List Seg) (k i : Nat) (ts : List CTask) (h :
    tasksAt addr segs k i = some ts) :
   frontRuns ts ∧ (∀ t ∈ ts, t.sound segs) ∧ ∀ c d, endsReleased ts c d := by
  have hb : ∀ k i g, segs[k]? = some g → i < g.len.toNat → frontRuns (byteTasks segs k i g) ∧ (∀ t ∈ byteTasks segs k i g, t.sound segs) ∧ ∀ c d, endsReleased (byteTasks segs k i g) c d := by
    intro k i g hg hi
    unfold byteTasks
    cases g.dir <;> simp [frontRuns, CTask.sound, endsReleased, isControllerOp, hg, hi]
  have hl : ∀ (l : List Seg) k, l = segs.drop k → ∀ ts, laterTasks addr segs l k = some ts → frontRuns ts ∧ (∀ t ∈ ts, t.sound segs) ∧ ∀ c d, endsReleased ts c d := by
    intro l
    induction l with
    | nil => intro k _ ts h; simp [laterTasks] at h
    | cons g rest ih =>
      intro k hk ts h
      have hg : segs[k]? = some g := by
        have := congrArg (fun l => l[0]?) hk
        simpa using this.symm
      unfold laterTasks at h
      split at h
      · obtain rfl := Option.some.inj h
        simp [reopenTasks, frontRuns, CTask.sound, endsReleased, isControllerOp]
      · split at h
        · rename_i hlen
          obtain rfl := Option.some.inj h
          exact hb k 0 g hg hlen
        · refine ih (k+1) ?_ ts h
          rw [← List.drop_drop (i := 1), ← hk]; simp
  unfold tasksAt at h
  split at h
  · simp at h
  · rename_i g hg
    split at h
    · obtain rfl := Option.some.inj h
      exact hb k i g hg (by assumption)
    · exact hl _ _ rfl _ h

/-- Between an operation of the controller sequencer and its decisions. -/
structure MidC (l : List CTask) (s : State) : Prop where
  flags : FlagsInv s
  target : TargetInv s
  busy : s.busy = true
  sound : ∀ t ∈ l, t.sound s.xsegs
  rel : endsReleased l s.sclOut s.sdaOut

/-- The controller sequencer does not run in `Target` mode. -/
theorem MidC.notTarget {l s} (m : MidC l s) : s.mode ≠ .target := (m.flags.busyNotTarget m.busy).1

/-- `TargetInv` reads only these fields. -/
theorem TargetInv.congr {s t : State} (h : TargetInv s) (h1 : t.mode = s.mode) (h2 : t.tfsm = s.tfsm) (h3 :
    t.tpos = s.tpos)
   (h4 : t.handlerPend = s.handlerPend) (h5 : t.sdaOut = s.sdaOut) (h6 : t.tdir = s.tdir := by rfl) : TargetInv t := by
  obtain ⟨a,b,c,d,e,f,g,i⟩ := h
  constructor <;> simp_all

/-- `FlagsInv` reads only these fields. -/
theorem FlagsInv.congr' {s t : State} (h : FlagsInv s) (h1 : t.mode = s.mode) (h2 : t.cfgValid = s.cfgValid)
  (h3 : t.speed = s.speed) (h4 : t.low = s.low) (h5 : t.high = s.high) (h6 : t.tvalid = s.tvalid) (h7 :
      t.tfsm = s.tfsm)
  (h8 : t.busy = s.busy) (h9 : t.cop = s.cop) (h10 : t.edgePend = s.edgePend)
  (h11 : t.handlerPend = s.handlerPend) (h12 : t.mem = s.mem) : FlagsInv t :=
  h.congr h1 h2 h3 h4 h5 h6 h7 h8 h9 (by rw [h10]; exact .inl) h11 (by rw [h12]; exact h.memWf)

/-- `MidC` reads only these fields. -/
theorem MidC.congr {l s t} (m : MidC l s) (hf : FlagsInv t) (h1 : t.mode = s.mode) (h2 : t.tfsm = s.tfsm) (h3 :
    t.tpos = s.tpos)
   (h4 : t.handlerPend = s.handlerPend) (h5 : t.sdaOut = s.sdaOut) (h6 : t.busy = s.busy) (h7 :
       t.xsegs = s.xsegs) (h8 : t.sclOut = s.sclOut) (h9 : t.tdir = s.tdir := by rfl) : MidC l t :=
  ⟨hf, m.target.congr h1 h2 h3 h4 h5 h9, by rw [h6]; exact m.busy, by rw [h7]; exact m.sound, by rw [h5, h8]; exact m.rel⟩

/-- A decision made, the next is due. -/
theorem MidC.tail {x l s} (m : MidC (x :: l) s) (h : endsReleased l s.sclOut s.sdaOut) : MidC l s :=
  ⟨m.flags, m.target, m.busy, fun t ht => m.sound t (List.mem_cons_of_mem _ ht), h⟩

/-- The decisions over, the invariant holds again. -/
theorem inv_of_mid {l s} (m : MidC l s) (hf : frontRuns l) : Inv (s.setCpos l) where
  flags := m.flags.congr' rfl rfl rfl rfl rfl rfl rfl rfl rfl rfl rfl rfl
  controller := by
    have := m.busy
    constructor <;> simp_all [m.rel]
    exact m.sound
  target := m.target.congr rfl rfl rfl rfl rfl

/-- The end of a transfer is a fit position. -/
theorem mid_stop {s} (hf : FlagsInv s) (ht : TargetInv s) (hb : s.busy = true) : MidC stopTasks s :=
  ⟨hf, ht, hb, by simp [stopTasks, CTask.sound, isControllerOp], by simp [stopTasks, endsReleased, outsAfter]⟩

/-- An abort keeps the invariant. -/
theorem abort_inv {l s r} (m : MidC l s) : Inv (s.abort r) :=
  inv_of_mid (s := s.setCabort r) (mid_stop (m.flags.congr' rfl rfl rfl rfl rfl rfl rfl rfl rfl rfl rfl rfl) (m.target.congr rfl rfl rfl rfl rfl) m.busy)
   (by simp [stopTasks, frontRuns])

/-- Going on keeps the invariant. -/
theorem goTo_inv {l s k i} (m : MidC l s) : Inv (s.goTo k i) := by
  unfold State.goTo
  split
  · rename_i ts h
    obtain ⟨h1, h2, h3⟩ := tasksAt_ok _ _ _ _ _ h
    exact inv_of_mid (l := ts) ⟨m.flags, m.target, m.busy, h2, h3 _ _⟩ h1
  · exact abort_inv m

/-- A completion with both lines released keeps the invariant. -/
theorem complete_inv {l s r} (m : MidC l s) (hc : s.sclOut = true ∧ s.sdaOut = true) : Inv (s.complete r) where
  flags := by
    obtain ⟨a,b,c,d,e,f,g,i,j,k⟩ := m.flags
    constructor <;> simp_all
  controller := by
    constructor <;> simp_all
  target := m.target.congr rfl rfl rfl rfl rfl

/-- The decisions of the controller sequencer lead to a state with the invariant. -/
theorem settleC_inv (l : List CTask) : ∀ s t, MidC l s → settleC l s = .next t → Inv t := by
  induction l with
  | nil => intro s t m h; exact absurd m.rel (by simp [endsReleased])
  | cons x rest ih =>
    intro s t m h
    have hr := m.rel
    cases x with
    | op i => simp only [settleC] at h; cases h; exact inv_of_mid m trivial
    | send k i => simp only [settleC] at h; cases h; exact inv_of_mid m trivial
    | untilHigh =>
      simp only [settleC] at h
      split at h
      · exact ih s t (m.tail hr) h
      · cases h
        refine inv_of_mid (l := .op .getScl :: .untilHigh :: rest) ⟨m.flags, m.target, m.busy, ?_, ?_⟩ trivial
        · intro t ht
          rcases List.mem_cons.1 ht with rfl | ht
          · rfl
          · exact m.sound t ht
        · simpa [endsReleased, outsAfter] using hr
    | takeBit =>
      simp only [settleC] at h
      exact ih (s.setBitv s.got) t ((m.tail hr).congr (m.flags.congr' rfl rfl rfl rfl rfl rfl rfl rfl rfl rfl rfl rfl) rfl rfl rfl rfl rfl rfl rfl rfl) h
    | takeAck =>
      simp only [settleC] at h
      exact ih (s.setCack s.bitv) t ((m.tail hr).congr (m.flags.congr' rfl rfl rfl rfl rfl rfl rfl rfl rfl rfl rfl rfl) rfl rfl rfl rfl rfl rfl rfl rfl) h
    | shiftCsr =>
      simp only [settleC] at h
      exact ih (s.setCsr (shiftIn s.csr s.bitv)) t ((m.tail hr).congr (m.flags.congr' rfl rfl rfl rfl rfl rfl rfl rfl rfl rfl rfl rfl) rfl rfl rfl rfl rfl rfl rfl rfl) h
    | entryTest =>
      simp only [settleC] at h
      simp only [endsReleased] at hr
      split at h
      · exact ih s t (m.tail hr.1) h
      · cases h
        refine inv_of_mid (l := .op .cPrestart :: rest) ⟨m.flags, m.target, m.busy, ?_, ?_⟩ trivial
        · intro t ht
          rcases List.mem_cons.1 ht with rfl | ht
          · rfl
          · exact m.sound t (List.mem_cons_of_mem _ ht)
        · simpa [endsReleased, outsAfter] using hr.2
    | addrCheck k =>
      simp only [settleC] at h
      cases h
      split
      · exact abort_inv m
      · exact goTo_inv m
    | dataCheck k i =>
      simp only [settleC] at h
      cases h
      split
      · exact abort_inv m
      · exact goTo_inv m
    | nextByte k i => simp only [settleC] at h; cases h; exact goTo_inv m
    | complete => simp only [settleC] at h; cases h; exact complete_inv m m.rel
    | recCheck => simp only [settleC] at h; cases h; exact complete_inv m m.rel
    | store k i =>
      simp only [settleC] at h
      split at h
      · rename_i u hu
        refine ih u t ?_ h
        have hw := State.bufStore_wf hu m.flags.memWf
        unfold State.bufStore at hu
        split at hu
        · obtain rfl := Option.some.inj hu
          exact (m.tail hr).congr (m.flags.congr rfl rfl rfl rfl rfl rfl rfl rfl rfl .inl rfl hw) rfl rfl rfl rfl rfl rfl rfl rfl
        · simp at hu
      · simp at h

/-- Outside `Target` mode no edge is latched. -/
theorem observe_edge_of_not {b s : State} (hh : s.mode ≠ .target) : (b.observe s).edgePend = s.edgePend := by
  simp [State.observe, State.armed, hh]

/-- The state with everything hidden that an operation of the controller may change. -/
def State.hideC (s : State) : State :=
  { s with
    sclOut := false, sdaOut := false, cpos := [], csr := 0#8, got := false, elapsed := 0, edgePend := false
    busOpen := false, lastCond := none, unsanctioned := false }

theorem hideC_driveScl (s : State) (l) : (s.driveScl l).hideC = s.hideC := rfl
theorem hideC_driveSda (s : State) (l) : (s.driveSda l).hideC = s.hideC := rfl
theorem hideC_setCpos (s : State) (l) : (s.setCpos l).hideC = s.hideC := rfl
theorem hideC_thenC (s : State) (l) : (s.thenC l).hideC = s.hideC := rfl
theorem hideC_setCsr (s : State) (l) : (s.setCsr l).hideC = s.hideC := rfl
theorem hideC_readScl (s : State) : (s.readScl).hideC = s.hideC := rfl
theorem hideC_readSda (s : State) : (s.readSda).hideC = s.hideC := rfl
theorem hideC_wait (s : State) (d) : (s.waitAtLeast d).hideC = s.hideC := rfl

/-- What an operation of the controller leaves alone. -/
theorem exec_controller_frame {i : Instr} (hi : isControllerOp i = true) {s t : State} (h : exec i s = .next t) :
    t.hideC = s.hideC := by
  cases i <;> first | (exact absurd hi Bool.false_ne_true) | (obtain rfl := Host.Outcome.next.inj h; simp only [State.beginWbit, State.beginRbit, hideC_driveScl, hideC_driveSda, hideC_thenC, hideC_setCsr, hideC_readScl, hideC_readSda, hideC_wait])

/-- An operation of the controller latches no edge. -/
theorem exec_controller_edge {i : Instr} (hi : isControllerOp i = true) {s t : State} (h : exec i s = .next t)
    (hm : s.mode ≠ .target) :
    t.edgePend = s.edgePend := by
  cases i <;> first | (exact absurd hi Bool.false_ne_true) | (cases h; first | rfl | exact observe_edge_of_not hm) 

/-- An operation of the controller leaves a position that still releases the lines. -/
theorem exec_controller_rel {i : Instr} (hi : isControllerOp i = true) {s t : State} (h : exec i s = .next t) 
   (hr : endsReleased s.cpos (outsAfter i s.sclOut s.sdaOut).1 (outsAfter i s.sclOut s.sdaOut).2) :
       endsReleased t.cpos t.sclOut t.sdaOut := by
  have hst : ∀ b r c d, endsReleased (stretchTasks b ++ r) c d = endsReleased r c d := by intro b r c d; cases b <;> rfl
  cases i <;> first | (exact absurd hi Bool.false_ne_true) | (cases h; first | exact hr | (show endsReleased (stretchTasks _ ++ _) _ _; rw [hst]; exact hr))

/-- An operation of the controller leaves only sound tasks. -/
theorem exec_controller_sound {i : Instr} (hi : isControllerOp i = true) {s t : State} (h :
    exec i s = .next t) {segs}
   (hr : ∀ x ∈ s.cpos, x.sound segs) : ∀ x ∈ t.cpos, x.sound segs := by
  have happ : ∀ l : List CTask, (∀ x ∈ l, x.sound segs) → ∀ r : List CTask, (∀ x ∈ r, x.sound segs) → ∀ x ∈ l ++ r, x.sound segs := by
    intro l hl r hr x hx
    rcases List.mem_append.1 hx with h | h
    · exact hl x h
    · exact hr x h
  have hst : ∀ b, ∀ x ∈ stretchTasks b, x.sound segs := by
    intro b; cases b <;> simp [stretchTasks, CTask.sound, isControllerOp]
  have hw : ∀ x ∈ wbitRest, x.sound segs := by simp [wbitRest, CTask.sound, isControllerOp]
  have hb : ∀ x ∈ rbitRest, x.sound segs := by simp [rbitRest, CTask.sound, isControllerOp]
  cases i <;> first | (exact absurd hi Bool.false_ne_true) | skip
  all_goals cases h
  case setScl | setSda | getScl | getSda | delay => exact hr
  case cRaise => exact happ _ (hst _) _ hr
  case cPrestart => exact happ prestartRest (by simp [prestartRest, CTask.sound, isControllerOp]) _ hr
  case cStart => exact happ startRest (by simp [startRest, CTask.sound, isControllerOp]) _ hr
  case cRstart => exact happ rstartRest (by simp [rstartRest, CTask.sound, isControllerOp]) _ hr
  case cStop => exact happ stopRest (by simp [stopRest, CTask.sound, isControllerOp]) _ hr
  case cWbit => exact happ wbitRest hw _ hr
  case cRbit => exact happ rbitRest hb _ hr
  case cWbyte => exact happ wbitRest hw _ (happ (wbyteRest _) (by simp [wbyteRest, bitsOf, CTask.sound, isControllerOp]) _ hr)
  case cRbyte => exact happ rbitRest hb _ (happ rbyteRest (by simp [rbyteRest, List.replicate, CTask.sound, isControllerOp]) _ hr)

/-- `ControllerInv` reads only these fields. -/
theorem ControllerInv.congr {s t : State} (h : ControllerInv s) (h1 : t.busy = s.busy) (h2 : t.cpos = s.cpos) (h3 :
    t.sclOut = s.sclOut) (h4 : t.mode = s.mode)
   (h5 : s.mode ≠ .target → t.sdaOut = s.sdaOut) (h6 : t.xsegs = s.xsegs) (h7 : s.busy = true
       → t.sdaOut = s.sdaOut) : ControllerInv t := by
  obtain ⟨a,b,c,d,e,f⟩ := h
  refine ⟨?_, ?_, ?_, ?_, ?_, ?_⟩
  · rw [h1, h2]; exact a
  · rw [h1, h3]; exact b
  · rw [h1, h4]; intro hb hm; rw [h5 hm]; exact c hb hm
  · rw [h1, h2]; exact d
  · rw [h2, h6]; exact e
  · rw [h1, h2, h3]; intro hb; rw [h7 hb]; exact f hb

/-- A turn of the controller sequencer keeps the invariant. -/
theorem carry_controller {i : Instr} (hi : isControllerOp i = true) {rest : List CTask} {u v t : State}
   (m : MidC (.op i :: rest) u) (hu : u.cpos = rest) (h : exec i u = .next v) (ht : settleC v.cpos v = .next t) :
       Inv t := by
  have hm := m.notTarget
  have hf := exec_controller_frame hi h
  have he := exec_controller_edge hi h hm
  refine settleC_inv v.cpos v t ?_ ht
  have ti : u.tfsm = .idle := by
    by_contra hc
    exact hm (m.flags.transactionIsTarget hc)
  have hp : u.handlerPend = false := by
    cases hh : u.handlerPend
    · rfl
    · have := m.flags.handlerPendAddress hh; simp [ti] at this
  have e1 : v.mode = u.mode := (congrArg State.mode hf :)
  have e2 : v.tfsm = u.tfsm := (congrArg State.tfsm hf :)
  have e3 : v.handlerPend = u.handlerPend := (congrArg State.handlerPend hf :)
  have e4 : v.tpos = u.tpos := (congrArg State.tpos hf :)
  have e5 : v.busy = u.busy := (congrArg State.busy hf :)
  have e6 : v.xsegs = u.xsegs := (congrArg State.xsegs hf :)
  refine ⟨m.flags.congr' e1 (congrArg State.cfgValid hf :) (congrArg State.speed hf :) (congrArg State.low hf :) (congrArg State.high hf :) (congrArg State.tvalid hf :) e2 e5 (congrArg State.cop hf :) he e3 (congrArg State.mem hf :), ?_, by rw [e5]; exact m.busy, ?_, ?_⟩
  · have hte := m.target.idleEmpty ti
    constructor <;> simp_all
  · rw [e6]
    exact exec_controller_sound hi h (by rw [hu]; exact fun x hx => m.sound x (List.mem_cons_of_mem _ hx))
  · exact exec_controller_rel hi h (by rw [hu]; exact m.rel)

/-- Between an operation of the target handler and its decisions. -/
structure MidT (l : List TTask) (s : State) : Prop where
  flags : FlagsInv s
  controller : ControllerInv s
  mode : s.mode = .target
  run : s.tfsm ≠ .idle
  pend : s.handlerPend = false
  sound : ∀ t ∈ l, t.sound
  rel : endsReleasedT l s.sdaOut
  phase : phaseFits l s.tfsm s.tdir

/-- `MidT` reads only these fields. -/
theorem MidT.congr {l s t} (m : MidT l s) (h1 : t.mode = s.mode) (h2 : t.cfgValid = s.cfgValid)
  (h3 : t.speed = s.speed) (h4 : t.low = s.low) (h5 : t.high = s.high) (h6 : t.tvalid = s.tvalid) 
  (h8 : t.busy = s.busy) (h9 : t.cop = s.cop) (h10 : t.edgePend = s.edgePend)
  (h11 : t.handlerPend = s.handlerPend) (h12 : t.mem = s.mem) (h13 : t.cpos = s.cpos) (h14 :
      t.sclOut = s.sclOut) (h15 : t.xsegs = s.xsegs)
  (hrun : t.tfsm ≠ .idle) {l' : List TTask} (hs : ∀ t ∈ l', t.sound) (hr : endsReleasedT l' t.sdaOut) (hph :
      phaseFits l' t.tfsm t.tdir) : MidT l' t := by
  have hm := m.mode
  have hb : s.busy = false := by
    cases hh : s.busy
    · rfl
    · exact absurd hm (m.flags.busyNotTarget hh).1
  have he : s.edgePend = false := by
    cases hh : s.edgePend
    · rfl
    · exact absurd (m.flags.edgePendArmed hh).2 m.run
  refine ⟨?_, m.controller.congr h8 h13 h14 h1 (fun h => absurd hm h) h15 (fun h => by simp [hb] at h), by rw [h1]; exact hm, hrun, by rw [h11]; exact m.pend, hs, hr, hph⟩
  have hp := m.pend
  obtain ⟨a,b,c,d,e,f,g,i,j,k⟩ := m.flags
  constructor <;> simp_all

/-- The decisions over, the invariant holds again. -/
theorem inv_of_midT {l s} (m : MidT l s) (hf : frontRunsT l) : Inv (s.setTpos l) where
  flags := m.flags.congr' rfl rfl rfl rfl rfl rfl rfl rfl rfl rfl rfl rfl
  controller := m.controller.congr rfl rfl rfl rfl (fun _ => rfl) rfl (fun _ => rfl)
  target := by
    have := m.run; have := m.pend
    constructor <;> simp_all [m.rel, m.phase]
    exact m.sound

/-- The end of the handler keeps the invariant. -/
theorem finish_inv {l s o} (m : MidT l s) (hd : s.sdaOut = true) : Inv (s.finishHandler o) where
  flags := by
    have hm := m.mode; have hp := m.pend
    obtain ⟨a,b,c,d,e,f,g,i,j,k⟩ := m.flags
    constructor <;> simp_all
  controller := m.controller.congr rfl rfl rfl rfl (fun _ => rfl) rfl (fun _ => rfl)
  target := by
    have hp := m.pend
    constructor <;> simp_all

/-- The decisions of the handler lead to a state with the invariant. -/
theorem settleT_inv (l : List TTask) : ∀ s, MidT l s → Inv (settleT l s) := by
  induction l with
  | nil => intro s m; exact absurd m.rel (by simp [endsReleasedT])
  | cons x rest ih =>
    intro s m
    have hr := m.rel
    have hph := m.phase
    have hs := m.sound
    have go : ∀ {u : State} {l' : List TTask}, u.mode = s.mode → u.cfgValid = s.cfgValid → u.speed = s.speed → u.low = s.low → u.high = s.high → u.tvalid = s.tvalid → u.busy = s.busy → u.cop = s.cop → u.edgePend = s.edgePend → u.handlerPend = s.handlerPend → u.mem = s.mem → u.cpos = s.cpos → u.sclOut = s.sclOut → u.xsegs = s.xsegs → u.tfsm ≠ .idle → frontRunsT l' → (∀ t ∈ l', t.sound) → endsReleasedT l' u.sdaOut → phaseFits l' u.tfsm u.tdir → Inv (u.setTpos l') := by
      intro u l' h1 h2 h3 h4 h5 h6 h8 h9 h10 h11 h12 h13 h14 h15 h16 h17 h18 h19 h20
      exact inv_of_midT (m.congr h1 h2 h3 h4 h5 h6 h8 h9 h10 h11 h12 h13 h14 h15 h16 h18 h19 h20) h17
    have hs' : ∀ t ∈ rest, t.sound := fun t ht => hs t (List.mem_cons_of_mem _ ht)
    cases x with
    | op i => exact inv_of_midT m trivial
    | takeBit => exact ih (s.setBitv s.got) (m.congr (t := s.setBitv s.got) rfl rfl rfl rfl rfl rfl rfl rfl rfl rfl rfl rfl rfl rfl m.run hs' hr hph)
    | shiftTsr => exact ih _ (m.congr (t := s.setTsr (shiftIn s.tsr s.bitv)) rfl rfl rfl rfl rfl rfl rfl rfl rfl rfl rfl rfl rfl rfl m.run hs' hr hph)
    | watchFirst =>
      refine go rfl rfl rfl rfl rfl rfl rfl rfl rfl rfl rfl rfl rfl rfl m.run trivial ?_ hr hph
      simp [TTask.sound, isTargetOp]; exact hs'
    | watchClk d0 =>
      simp only [settleT]
      split
      · refine go rfl rfl rfl rfl rfl rfl rfl rfl rfl rfl rfl rfl rfl rfl m.run trivial ?_ hr hph
        simp [TTask.sound, isTargetOp]; exact hs'
      · exact ih _ (m.congr (t := s.setDetect .bit (some d0)) rfl rfl rfl rfl rfl rfl rfl rfl rfl rfl rfl rfl rfl rfl m.run hs' hr hph)
    | watchDat d0 =>
      simp only [settleT]
      split
      · refine go rfl rfl rfl rfl rfl rfl rfl rfl rfl rfl rfl rfl rfl rfl m.run trivial ?_ hr hph
        simp [TTask.sound, isTargetOp]; exact hs'
      · exact ih _ (m.congr (t := s.setDetect (if d0 then .restart else .stop) none) rfl rfl rfl rfl rfl rfl rfl rfl rfl rfl rfl rfl rfl rfl m.run hs' hr hph)
    | addrDecide =>
      simp only [settleT, State.addressPhaseEnd]
      simp only [endsReleasedT] at hr
      have m' : MidT (.addrDecide :: rest) (s.setTdir (directionOf s.tsr)) := m.congr (t := s.setTdir (directionOf s.tsr)) rfl rfl rfl rfl rfl rfl rfl rfl rfl rfl rfl rfl rfl rfl m.run hs hr hph
      split
      · exact finish_inv m' hr
      · split
        · rename_i hrd
          refine go rfl rfl rfl rfl rfl rfl rfl rfl rfl rfl rfl rfl rfl rfl m.run trivial ?_ trivial ⟨hph, hrd⟩
          simp [TTask.sound, isTargetOp]
        · rename_i hrd
          refine go rfl rfl rfl rfl rfl rfl rfl rfl rfl rfl rfl rfl rfl rfl m.run trivial ?_ rfl
            ⟨hph, by simpa using hrd⟩
          simp [ackThenDetect, TTask.sound, isTargetOp]
    | beginSend =>
      refine go rfl rfl rfl rfl rfl rfl rfl rfl rfl rfl rfl rfl rfl rfl ?_ trivial ?_ trivial ⟨rfl, hph.2⟩
      · simp
      · simp [TTask.sound, isTargetOp]
    | loadByte =>
      refine go rfl rfl rfl rfl rfl rfl rfl rfl rfl rfl rfl rfl rfl rfl m.run trivial ?_ rfl hph
      simp [TTask.sound, isTargetOp]
    | rackDecide =>
      simp only [settleT]
      split
      · exact finish_inv m hr
      · refine go rfl rfl rfl rfl rfl rfl rfl rfl rfl rfl rfl rfl rfl rfl m.run trivial ?_ trivial hph
        simp [TTask.sound, isTargetOp]
    | afterDetect first =>
      simp only [settleT, State.afterDetection]
      simp only [endsReleasedT] at hr
      split
      · refine go rfl rfl rfl rfl rfl rfl rfl rfl rfl rfl rfl rfl rfl rfl m.run trivial ?_ hr ?_
        · simp [TTask.sound, isTargetOp]
        · refine ⟨rfl, ?_, hph.2⟩
          show s.tfsm = _ ∨ s.tfsm = _
          rw [hph.1]; cases first <;> simp
      · refine go rfl rfl rfl rfl rfl rfl rfl rfl rfl rfl rfl rfl rfl rfl ?_ trivial ?_ hr rfl
        · simp
        · simp [TTask.sound, isTargetOp, addressTasks]
      · cases first
        · refine go rfl rfl rfl rfl rfl rfl rfl rfl rfl rfl rfl rfl rfl rfl m.run trivial ?_ hr hph
          simp [TTask.sound, isTargetOp]
        · refine go rfl rfl rfl rfl rfl rfl rfl rfl rfl rfl rfl rfl rfl rfl ?_ trivial ?_ hr ⟨rfl, hph.2⟩
          · simp
          · simp [TTask.sound, isTargetOp]
    | readData =>
      refine go rfl rfl rfl rfl rfl rfl rfl rfl rfl rfl rfl rfl rfl rfl m.run trivial ?_ hr hph
      simp [TTask.sound, isTargetOp]
    | deliver =>
      refine go rfl rfl rfl rfl rfl rfl rfl rfl rfl rfl rfl rfl rfl rfl m.run trivial ?_ hr hph
      simp [TTask.sound, isTargetOp]
    | statusDecide =>
      simp only [settleT]
      split
      · refine go rfl rfl rfl rfl rfl rfl rfl rfl rfl rfl rfl rfl rfl rfl m.run trivial ?_ rfl hph
        simp [TTask.sound, isTargetOp, ackThenDetect]
      · exact finish_inv m hr
    | finish o => exact finish_inv m hr

/-- The state with everything hidden that an operation of the handler may change. -/
def State.hideT (s : State) : State :=
  { s with
    sdaOut := false, tpos := [], tsr := 0#8, got := false, ans := 0#8, calls := [], answers := [], tick := 0
    edgePend := false, busOpen := false, lastCond := none, unsanctioned := false }

theorem hideT_driveSda (s : State) (l) : (s.driveSda l).hideT = s.hideT := rfl
theorem hideT_thenT (s : State) (l) : (s.thenT l).hideT = s.hideT := rfl
theorem hideT_setTsr (s : State) (l) : (s.setTsr l).hideT = s.hideT := rfl
theorem hideT_readScl (s : State) : (s.readScl).hideT = s.hideT := rfl
theorem hideT_readSda (s : State) : (s.readSda).hideT = s.hideT := rfl
theorem hideT_callOut (s : State) (c) : (s.callOut c).hideT = s.hideT := rfl
theorem hideT_dropAnswer (s : State) : s.dropAnswer.hideT = s.hideT := by
  unfold State.dropAnswer; split <;> rfl
theorem hideT_callFor (s : State) (c) : (s.callFor c).hideT = s.hideT := by
  show s.dropAnswer.hideT = _
  exact hideT_dropAnswer s
theorem hideT_pollScl (s : State) (l i) : (s.pollScl l i).hideT = s.hideT := by
  unfold State.pollScl; split <;> rfl

/-- What an operation of the handler leaves alone. -/
theorem exec_target_frame {i : Instr} (hi : isTargetOp i = true) {s t : State} (h : exec i s = .next t) :
    t.hideT = s.hideT := by
  cases i <;> first | (exact absurd hi Bool.false_ne_true) | skip
  case tRbyte first => cases first <;> (obtain rfl := Host.Outcome.next.inj h; simp only [State.beginTrbit, hideT_pollScl, hideT_thenT, hideT_setTsr])
  case tDetect => obtain rfl := Host.Outcome.next.inj h; split <;> simp only [hideT_thenT, hideT_readScl]
  all_goals (obtain rfl := Host.Outcome.next.inj h; simp only [State.beginTrbit, State.beginTwbit, hideT_driveSda, hideT_thenT, hideT_readScl, hideT_readSda, hideT_callOut, hideT_callFor, hideT_pollScl])

/-- While a transaction runs no edge is latched. -/
theorem observe_edge_of_run {b s : State} (hh : s.tfsm ≠ .idle) : (b.observe s).edgePend = s.edgePend := by
  simp [State.observe, State.armed, hh]

/-- A poll latches no edge. -/
theorem pollScl_edge (s : State) (l i) : (s.pollScl l i).edgePend = s.edgePend :=
    by unfold State.pollScl; split <;> rfl

/-- A callback latches no edge. -/
theorem callFor_edge (s : State) (c) : (s.callFor c).edgePend = s.edgePend := by
  show s.dropAnswer.edgePend = _
  unfold State.dropAnswer; split <;> rfl

/-- An operation of the handler latches no edge. -/
theorem exec_target_edge {i : Instr} (hi : isTargetOp i = true) {s t : State} (h : exec i s = .next t) (hm :
    s.tfsm ≠ .idle) :
    t.edgePend = s.edgePend := by
  have e1 : ∀ l, (s.driveSda l).edgePend = s.edgePend := fun l => observe_edge_of_run hm
  have e2 : ∀ l, ∀ u : State, (u.thenT l).edgePend = u.edgePend := fun l u => rfl
  have e4 : ∀ l, ∀ u : State, (u.setTsr l).edgePend = u.edgePend := fun l u => rfl
  cases i <;> first | (exact absurd hi Bool.false_ne_true) | skip
  case tRbyte first => cases first <;> (obtain rfl := Host.Outcome.next.inj h; simp only [State.beginTrbit, pollScl_edge, e2, e4])
  case tDetect => obtain rfl := Host.Outcome.next.inj h; split <;> rfl
  case tWbyte x => obtain rfl := Host.Outcome.next.inj h; exact observe_edge_of_run hm
  all_goals (obtain rfl := Host.Outcome.next.inj h; first | rfl | simp only [State.beginTrbit, State.beginTwbit, e2, e1, pollScl_edge, callFor_edge])

/-- A callback leaves the position. -/
theorem callFor_tpos (s : State) (c) : (s.callFor c).tpos = s.tpos := by
  show s.dropAnswer.tpos = _
  unfold State.dropAnswer; split <;> rfl

/-- A callback leaves the data output. -/
theorem callFor_sda (s : State) (c) : (s.callFor c).sdaOut = s.sdaOut := by
  show s.dropAnswer.sdaOut = _
  unfold State.dropAnswer; split <;> rfl

/-- A poll leaves a position that still releases the data line. -/
theorem pollScl_rel {s : State} {l i} (hi : (outsAfter i true s.sdaOut).2 = s.sdaOut) (h :
    endsReleasedT s.tpos s.sdaOut) : endsReleasedT (s.pollScl l i).tpos (s.pollScl l i).sdaOut := by
  unfold State.pollScl; split
  · exact h
  · show endsReleasedT s.tpos (outsAfter i true s.sdaOut).2
    rw [hi]; exact h

/-- A poll leaves a position that fits its phase. -/
theorem pollScl_phase {s : State} {l i p rd} (h : phaseFits s.tpos p rd) : phaseFits (s.pollScl l i).tpos p rd := by
  unfold State.pollScl; split <;> exact h

/-- A poll leaves only sound tasks. -/
theorem pollScl_sound {s : State} {l i} (hi : isTargetOp i = true) (h : ∀ x ∈ s.tpos, x.sound) : ∀ x ∈
    (s.pollScl l i).tpos, x.sound := by
  unfold State.pollScl; split
  · exact h
  · intro x hx
    rcases List.mem_cons.1 hx with rfl | hx
    · exact hi
    · exact h x hx

/-- An operation of the handler leaves a position that still releases the data line. -/
theorem exec_target_rel {i : Instr} (hi : isTargetOp i = true) {s t : State} (h : exec i s = .next t) 
   (hr : endsReleasedT s.tpos (outsAfter i true s.sdaOut).2) : endsReleasedT t.tpos t.sdaOut := by
  cases i <;> first | (exact absurd hi Bool.false_ne_true) | skip
  case tRbyte first => cases first <;> (obtain rfl := Host.Outcome.next.inj h; exact pollScl_rel rfl hr)
  case tDetect => obtain rfl := Host.Outcome.next.inj h; split <;> exact hr
  case onWriteReceived | onReadRequested | onReadProcessed => obtain rfl := Host.Outcome.next.inj h; rw [callFor_tpos, callFor_sda]; exact hr
  case tWaitH | tWaitL | tRbit | tRack => obtain rfl := Host.Outcome.next.inj h; first | exact pollScl_rel rfl hr | exact hr
  all_goals (obtain rfl := Host.Outcome.next.inj h; exact hr)

/-- An operation of the handler leaves a position that fits its phase. -/
theorem exec_target_phase {i : Instr} (hi : isTargetOp i = true) {s t : State} (h : exec i s = .next t) {p rd}
   (hr : phaseFits s.tpos p rd) : phaseFits t.tpos p rd := by
  cases i <;> first | (exact absurd hi Bool.false_ne_true) | skip
  case tRbyte first => cases first <;> (obtain rfl := Host.Outcome.next.inj h; exact pollScl_phase hr)
  case tDetect => obtain rfl := Host.Outcome.next.inj h; split <;> exact hr
  case onWriteReceived | onReadRequested | onReadProcessed => obtain rfl := Host.Outcome.next.inj h; rw [callFor_tpos]; exact hr
  case tWaitH | tWaitL | tRbit | tRack => obtain rfl := Host.Outcome.next.inj h; first | exact pollScl_phase hr | exact hr
  all_goals (obtain rfl := Host.Outcome.next.inj h; exact hr)

/-- An operation of the handler leaves only sound tasks. -/
theorem exec_target_sound {i : Instr} (hi : isTargetOp i = true) {s t : State} (h : exec i s = .next t)
   (hr : ∀ x ∈ s.tpos, x.sound) : ∀ x ∈ t.tpos, x.sound := by
  have happ : ∀ l : List TTask, (∀ x ∈ l, x.sound) → ∀ r : List TTask, (∀ x ∈ r, x.sound) → ∀ x ∈ l ++ r, x.sound := by
    intro l hl r hr x hx
    rcases List.mem_append.1 hx with h | h
    · exact hl x h
    · exact hr x h
  have hb : ∀ x ∈ trbitRest, x.sound := by simp [trbitRest, TTask.sound, isTargetOp]
  have hw : ∀ x ∈ twbitRest, x.sound := by simp [twbitRest, TTask.sound, isTargetOp]
  cases i <;> first | (exact absurd hi Bool.false_ne_true) | skip
  case tRbyte first =>
    cases first <;> obtain rfl := Host.Outcome.next.inj h
    · exact pollScl_sound rfl (happ trbitRest hb _ (happ (trbyteRest 8) (by simp [trbyteRest, List.replicate, TTask.sound, isTargetOp]) _ hr))
    · exact pollScl_sound rfl (happ trbitRest hb _ (happ (trbyteRest 7) (by simp [trbyteRest, List.replicate, TTask.sound, isTargetOp]) _ hr))
  case tDetect =>
    obtain rfl := Host.Outcome.next.inj h
    split
    · exact happ [.op .getSda, .watchFirst] (by simp [TTask.sound, isTargetOp]) _ hr
    · exact happ [.op .tDetect] (by simp [TTask.sound, isTargetOp]) _ hr
  case onWriteReceived | onReadRequested | onReadProcessed => obtain rfl := Host.Outcome.next.inj h; rw [callFor_tpos]; exact hr
  case tWaitH | tWaitL => obtain rfl := Host.Outcome.next.inj h; exact pollScl_sound rfl hr
  case tRbit => obtain rfl := Host.Outcome.next.inj h; exact pollScl_sound rfl (happ trbitRest hb _ hr)
  case tRack => obtain rfl := Host.Outcome.next.inj h; exact happ [.op .tRbit] (by simp [TTask.sound, isTargetOp]) _ hr
  case tWbit => obtain rfl := Host.Outcome.next.inj h; exact happ twbitRest hw _ hr
  case tWbyte x => obtain rfl := Host.Outcome.next.inj h; exact happ twbitRest hw _ (happ ((bitsOf x).tail.map fun b => TTask.op (.tWbit b)) (by simp [bitsOf, TTask.sound, isTargetOp]) _ hr)
  case tAck => obtain rfl := Host.Outcome.next.inj h; exact happ tackRest (by simp [tackRest, TTask.sound, isTargetOp]) _ hr
  all_goals (obtain rfl := Host.Outcome.next.inj h; exact hr)

/-- A turn of the running handler keeps the invariant. -/
theorem carry_handler {i : Instr} (hi : isTargetOp i = true) {rest : List TTask} {u v : State}
   (m : MidT (.op i :: rest) u) (hu : u.tpos = rest) (h : exec i u = .next v) : Inv (settleT v.tpos v) := by
  have hf := exec_target_frame hi h
  have he := exec_target_edge hi h m.run
  have e2 : v.tfsm = u.tfsm := (congrArg State.tfsm hf :)
  have e3 : v.tdir = u.tdir := (congrArg State.tdir hf :)
  refine settleT_inv v.tpos v (m.congr (t := v) (congrArg State.mode hf :) (congrArg State.cfgValid hf :) (congrArg State.speed hf :) (congrArg State.low hf :) (congrArg State.high hf :) (congrArg State.tvalid hf :) (congrArg State.busy hf :) (congrArg State.cop hf :) he (congrArg State.handlerPend hf :) (congrArg State.mem hf :) (congrArg State.cpos hf :) (congrArg State.sclOut hf :) (congrArg State.xsegs hf :) (by rw [e2]; exact m.run) ?_ ?_ ?_)
  · exact exec_target_sound hi h (by rw [hu]; exact fun x hx => m.sound x (List.mem_cons_of_mem _ hx))
  · exact exec_target_rel hi h (by rw [hu]; exact m.rel)
  · rw [e2, e3]; exact exec_target_phase hi h (by rw [hu]; exact m.phase)

/-- `Inv` reads only these fields. -/
theorem Inv.congr {s t : State} (h : Inv s) (h1 : t.mode = s.mode) (h2 : t.cfgValid = s.cfgValid)
  (h3 : t.speed = s.speed) (h4 : t.low = s.low) (h5 : t.high = s.high) (h6 : t.tvalid = s.tvalid) (h7 :
      t.tfsm = s.tfsm)
  (h8 : t.busy = s.busy) (h9 : t.cop = s.cop) (h10 : t.edgePend = true → s.edgePend = true ∨ s.armed = true)
  (h11 : t.handlerPend = s.handlerPend) (h12 : t.mem.wf = true) (h13 : t.cpos = s.cpos) (h14 :
      t.tpos = s.tpos) (h15 : t.sclOut = s.sclOut) (h16 : t.sdaOut = s.sdaOut) (h17 : t.xsegs = s.xsegs)
  (h18 : t.tdir = s.tdir := by rfl) : Inv t :=
  ⟨h.flags.congr h1 h2 h3 h4 h5 h6 h7 h8 h9 h10 h11 h12, h.controller.congr h8 h13 h15 h1 (fun _ => h16) h17 (fun _ => h16), h.target.congr h1 h7 h14 h11 h16 h18⟩

/-- This update keeps the invariant. -/
theorem Inv.drivePeers {s : State} (h : Inv s) (c d : Level) : Inv (s.drivePeers c d) :=
  h.congr rfl rfl rfl rfl rfl rfl rfl rfl rfl (fun hh => observe_edge s { s with peerScl := c, peerSda := d } hh) rfl h.flags.memWf rfl rfl rfl rfl rfl

/-- This update keeps the invariant. -/
theorem Inv.setPort {s : State} (h : Inv s) (p) : Inv (s.setPort p) :=
  h.congr rfl rfl rfl rfl rfl rfl rfl rfl rfl .inl rfl h.flags.memWf rfl rfl rfl rfl rfl

/-- This update keeps the invariant. -/
theorem Inv.setPpos {s : State} (h : Inv s) (p) : Inv (s.setPpos p) :=
  h.congr rfl rfl rfl rfl rfl rfl rfl rfl rfl .inl rfl h.flags.memWf rfl rfl rfl rfl rfl

/-- This update keeps the invariant. -/
theorem Inv.setMem {s : State} (h : Inv s) {m : Memory} (hm : m.wf = true) : Inv (s.setMem m) :=
  h.congr rfl rfl rfl rfl rfl rfl rfl rfl rfl .inl rfl hm rfl rfl rfl rfl rfl

/-- This update keeps the invariant. -/
theorem Inv.deliver {s : State} (h : Inv s) (r) : Inv (s.deliver r) :=
  h.congr rfl rfl rfl rfl rfl rfl rfl rfl rfl .inl rfl h.flags.memWf rfl rfl rfl rfl rfl

/-- This update keeps the invariant. -/
theorem Inv.dropInput {s : State} (h : Inv s) : Inv s.dropInput := by
  unfold State.dropInput
  split
  · exact h.congr rfl rfl rfl rfl rfl rfl rfl rfl rfl .inl rfl h.flags.memWf rfl rfl rfl rfl rfl
  · exact h.congr rfl rfl rfl rfl rfl rfl rfl rfl rfl .inl rfl h.flags.memWf rfl rfl rfl rfl rfl

/-- This update keeps the invariant. -/
theorem Inv.layAnswer {s : State} (h : Inv s) (b) : Inv (s.layAnswer b) :=
  h.congr rfl rfl rfl rfl rfl rfl rfl rfl rfl .inl rfl h.flags.memWf rfl rfl rfl rfl rfl

/-- This update keeps the invariant. -/
theorem Inv.configure {s : State} (h : Inv s) (code a10) : Inv (s.configure code a10) := by
  unfold State.configure
  split
  · rename_i g hg
    refine ⟨?_, h.controller.congr rfl rfl rfl rfl (fun _ => rfl) rfl (fun _ => rfl), h.target.congr rfl rfl rfl rfl rfl⟩
    obtain ⟨a,b,c,d,e,f,g,i,j,k⟩ := h.flags
    refine ⟨a, b, fun hb => ⟨(c hb).1, rfl⟩, d, e, f, g, fun _ => ⟨_, rfl, rfl, rfl⟩, fun hh => by simp at hh, k⟩
  · exact h.deliver _

/-- This update keeps the invariant. -/
theorem Inv.startTransfer {s : State} (h : Inv s) (hb : s.busy = false) (addr segs) : Inv
    (s.startTransfer addr segs) := by
  unfold State.startTransfer
  split
  · exact h.deliver _
  · rename_i hm
    split
    · exact h.deliver _
    · rename_i hc
      have hti : s.tfsm = .idle := by
        by_contra hx; exact hm (h.flags.transactionIsTarget hx)
      have htp := h.target.idleEmpty hti
      have hsda := h.controller.restData hb hm
      have hscl := h.controller.restClock hb
      have hcp := h.controller.restDone hb
      have hhp : s.handlerPend = false := by
        cases hh : s.handlerPend
        · rfl
        · have := h.flags.handlerPendAddress hh; simp [hti] at this
      have hep : s.edgePend = false := by
        cases hh : s.edgePend
        · rfl
        · exact absurd (h.flags.edgePendArmed hh).1 hm
      have htv : s.tvalid = false := by
        cases hh : s.tvalid
        · rfl
        · exact absurd (h.flags.tvalidIff.1 hh) hm
      have hcop : s.cop = .idle := by
        by_contra hx; have := h.flags.copBusy.1 hx; simp [hb] at this
      have t1 := h.flags.timing
      have t2 := h.flags.memWf
      cases segs with
      | nil => 
        refine Inv.deliver ?_ _
        refine ⟨⟨?_, ?_, ?_, ?_, ?_, ?_, ?_, t1, ?_, t2⟩, ⟨?_, ?_, ?_, ?_, ?_, ?_⟩, ⟨?_, ?_, ?_, ?_, ?_, ?_, ?_, ?_⟩⟩ <;> simp_all
      | cons g rest =>
        refine ⟨⟨?_, ?_, ?_, ?_, ?_, ?_, ?_, t1, ?_, t2⟩, ⟨?_, ?_, ?_, ?_, ?_, ?_⟩, ⟨?_, ?_, ?_, ?_, ?_, ?_, ?_, ?_⟩⟩ <;> simp_all [transferTasks, frontRuns, endsReleased, CTask.sound, isControllerOp]
      

/-- This update keeps the invariant. -/
theorem Inv.startRecover {s : State} (h : Inv s) (hb : s.busy = false) : Inv s.startRecover := by
  unfold State.startRecover
  split
  · exact h.deliver _
  · rename_i hm
    split
    · exact h.deliver _
    · rename_i hc
      have hti : s.tfsm = .idle := by
        by_contra hx; exact hm (h.flags.transactionIsTarget hx)
      have htp := h.target.idleEmpty hti
      have hsda := h.controller.restData hb hm
      have hscl := h.controller.restClock hb
      have hhp : s.handlerPend = false := by
        cases hh : s.handlerPend
        · rfl
        · have := h.flags.handlerPendAddress hh; simp [hti] at this
      have hep : s.edgePend = false := by
        cases hh : s.edgePend
        · rfl
        · exact absurd (h.flags.edgePendArmed hh).1 hm
      have htv : s.tvalid = false := by
        cases hh : s.tvalid
        · rfl
        · exact absurd (h.flags.tvalidIff.1 hh) hm
      have t1 := h.flags.timing
      have t2 := h.flags.memWf
      refine ⟨⟨?_, ?_, ?_, ?_, ?_, ?_, ?_, t1, ?_, t2⟩, ⟨?_, ?_, ?_, ?_, ?_, ?_⟩, ⟨?_, ?_, ?_, ?_, ?_, ?_, ?_, ?_⟩⟩ <;> simp_all [recoverTasks, List.replicate, frontRuns, endsReleased, outsAfter, CTask.sound, isControllerOp]

/-- This update keeps the invariant. -/
theorem Inv.register {s : State} (h : Inv s) (hb : s.busy = false) (addr) : Inv (s.register addr) := by
  unfold State.register
  split
  · rename_i hm
    refine Inv.deliver ?_ _
    have h1 : s.tfsm = .idle := by
      by_contra hx; have := h.flags.transactionIsTarget hx; simp [hm] at this
    have htp := h.target.idleEmpty h1
    have hcop : s.cop = .idle := by
      by_contra hx; have := h.flags.copBusy.1 hx; simp [hb] at this
    have hsda := h.controller.restData hb (by simp [hm])
    have hscl := h.controller.restClock hb
    have hcp := h.controller.restDone hb
    have t1 := h.flags.timing
    have t3 := h.flags.unsetSpeed
    have t2 := h.flags.memWf
    refine ⟨⟨?_, ?_, ?_, ?_, ?_, ?_, ?_, t1, t3, t2⟩, ⟨?_, ?_, ?_, ?_, ?_, ?_⟩, ⟨?_, ?_, ?_, ?_, ?_, ?_, ?_, ?_⟩⟩ <;> simp_all
  · exact h.deliver _

/-- This update keeps the invariant. -/
theorem Inv.unregister {s : State} (h : Inv s) (hb : s.busy = false) : Inv s.unregister := by
  unfold State.unregister
  split
  · exact h.deliver _
  · rename_i hm
    split
    · exact h.deliver _
    · rename_i ht
      refine Inv.deliver ?_ _
      have hm : s.mode = .target := by simpa using hm
      have ht : s.tfsm = .idle := by simpa using ht
      have htp := h.target.idleEmpty ht
      have hsda := h.target.idleData hm ht
      have hcop : s.cop = .idle := by
        by_contra hx; have := h.flags.copBusy.1 hx; simp [hb] at this
      have hscl := h.controller.restClock hb
      have hcp := h.controller.restDone hb
      have hhp : s.handlerPend = false := by
        cases hh : s.handlerPend
        · rfl
        · have := h.flags.handlerPendAddress hh; simp [ht] at this
      have t1 := h.flags.timing
      have t3 := h.flags.unsetSpeed
      have t2 := h.flags.memWf
      refine ⟨⟨?_, ?_, ?_, ?_, ?_, ?_, ?_, t1, t3, t2⟩, ⟨?_, ?_, ?_, ?_, ?_, ?_⟩, ⟨?_, ?_, ?_, ?_, ?_, ?_, ?_, ?_⟩⟩ <;> simp_all

/-- This update keeps the invariant. -/
theorem Inv.release {s : State} (h : Inv s) (hb : s.busy = false) : Inv s.release := by
  unfold State.release
  split
  · exact h.deliver _
  · rename_i hm
    refine Inv.deliver ?_ _
    have hti : s.tfsm = .idle := by
      by_contra hx; exact hm (h.flags.transactionIsTarget hx)
    have htp := h.target.idleEmpty hti
    have hsda := h.controller.restData hb hm
    have hscl := h.controller.restClock hb
    have hcp := h.controller.restDone hb
    have hcop : s.cop = .idle := by
      by_contra hx; have := h.flags.copBusy.1 hx; simp [hb] at this
    have hhp : s.handlerPend = false := by
      cases hh : s.handlerPend
      · rfl
      · have := h.flags.handlerPendAddress hh; simp [hti] at this
    have hep : s.edgePend = false := by
      cases hh : s.edgePend
      · rfl
      · exact absurd (h.flags.edgePendArmed hh).1 hm
    have htv : s.tvalid = false := by
      cases hh : s.tvalid
      · rfl
      · exact absurd (h.flags.tvalidIff.1 hh) hm
    have t1 := h.flags.timing
    have t3 := h.flags.unsetSpeed
    have t2 := h.flags.memWf
    refine ⟨⟨?_, ?_, ?_, ?_, ?_, ?_, ?_, t1, t3, t2⟩, ⟨?_, ?_, ?_, ?_, ?_, ?_⟩, ⟨?_, ?_, ?_, ?_, ?_, ?_, ?_, ?_⟩⟩ <;> simp_all

/-- An operation of the command port keeps the invariant when its effect does. -/
theorem inv_accept {s t : State} {i : Instr} {f : State → State} (h : Inv s) (hf : s.busy = false → Inv (f s))
    (ht : s.accept i f = .next t) : Inv t := by
  unfold State.accept at ht
  split at ht
  · cases ht; exact h.setPort _
  · rename_i hb; cases ht; exact hf (by simpa using hb)

/-- This update keeps the invariant. -/
theorem Inv.fillWrite {s : State} (h : Inv s) (b) : Inv (s.fillWrite b) := h.setMem
    (Memory.fill_wf 0 b h.flags.memWf)

/-- `T_EDGE` keeps the invariant. -/
theorem inv_edge {s : State} (h : Inv s) (he : s.edgePend = true) : Inv s.takeEdge := by
  obtain ⟨hm, hti⟩ := h.flags.edgePendArmed he
  have htp := h.target.idleEmpty hti
  have hsda := h.target.idleData hm hti
  have hb : s.busy = false := by
    cases hh : s.busy
    · rfl
    · exact absurd hm (h.flags.busyNotTarget hh).1
  have hcop : s.cop = .idle := by
    by_contra hx; have := h.flags.copBusy.1 hx; simp [hb] at this
  have hscl := h.controller.restClock hb
  have hcp := h.controller.restDone hb
  have htv := h.flags.tvalidIff.2 hm
  have hhp : s.handlerPend = false := by
    cases hh : s.handlerPend
    · rfl
    · have := h.flags.handlerPendAddress hh; simp [hti] at this
  have t1 := h.flags.timing
  have t3 := h.flags.unsetSpeed
  have t2 := h.flags.memWf
  unfold State.takeEdge
  split
  · refine ⟨⟨?_, ?_, ?_, ?_, ?_, ?_, ?_, t1, t3, t2⟩, ⟨?_, ?_, ?_, ?_, ?_, ?_⟩, ⟨?_, ?_, ?_, ?_, ?_, ?_, ?_, ?_⟩⟩ <;> simp_all
  · refine ⟨⟨?_, ?_, ?_, ?_, ?_, ?_, ?_, t1, t3, t2⟩, ⟨?_, ?_, ?_, ?_, ?_, ?_⟩, ⟨?_, ?_, ?_, ?_, ?_, ?_, ?_, ?_⟩⟩ <;> simp_all

/-- The start of the handler keeps the invariant. -/
theorem inv_start {s : State} (h : Inv s) (hp : s.handlerPend = true) : Inv (settleT
    (s.startHandler.pollScl false .tWaitL).tpos (s.startHandler.pollScl false .tWaitL)) := by
  have hti := h.flags.handlerPendAddress hp
  have hm := h.flags.transactionIsTarget (by simp [hti])
  have hd := h.target.pendData hp
  have hep : s.edgePend = false := by
    cases hh : s.edgePend
    · rfl
    · have := (h.flags.edgePendArmed hh).2; simp [hti] at this
  have hb : s.busy = false := by
    cases hh : s.busy
    · rfl
    · exact absurd hm (h.flags.busyNotTarget hh).1
  have m0 : MidT addressTasks s.startHandler := by
    refine ⟨?_, h.controller.congr rfl rfl rfl rfl (fun _ => rfl) rfl (fun _ => rfl), hm, ?_, rfl, by simp [addressTasks, TTask.sound, isTargetOp], by simp [addressTasks, endsReleasedT, outsAfter, hd, State.startHandler], by simp [addressTasks, phaseFits]⟩
    · obtain ⟨a,b,c,d,e,f,g,i,j,k⟩ := h.flags
      constructor <;> simp_all
    · simp
  refine settleT_inv _ _ ?_
  have ht : (s.startHandler.pollScl false .tWaitL).tfsm ≠ .idle := by
    have : (s.startHandler.pollScl false .tWaitL).tfsm = s.startHandler.tfsm := (congrArg State.tfsm (hideT_pollScl s.startHandler false .tWaitL) :)
    rw [this]; simp
  have hf := hideT_pollScl s.startHandler false .tWaitL
  exact m0.congr (t := s.startHandler.pollScl false .tWaitL) (congrArg State.mode hf :) (congrArg State.cfgValid hf :) (congrArg State.speed hf :) (congrArg State.low hf :) (congrArg State.high hf :) (congrArg State.tvalid hf :) (congrArg State.busy hf :) (congrArg State.cop hf :) (pollScl_edge _ _ _) (congrArg State.handlerPend hf :) (congrArg State.mem hf :) (congrArg State.cpos hf :) (congrArg State.sclOut hf :) (congrArg State.xsegs hf :) ht 
    (pollScl_sound rfl (by simp [State.startHandler, addressTasks, TTask.sound, isTargetOp])) (pollScl_rel rfl (by simp [State.startHandler, addressTasks, endsReleasedT, outsAfter, hd])) (by
      have : (s.startHandler.pollScl false .tWaitL).tfsm = s.startHandler.tfsm := (congrArg State.tfsm hf :)
      rw [this]; exact pollScl_phase (by simp [State.startHandler, addressTasks, phaseFits]))

/-- An operation run in the environment keeps the invariant. -/
theorem inv_env {i : Instr} {s t : State} (h : Inv s) (h1 : isControllerOp i = false) (h2 : isTargetOp i = false)
    (h3 : i = .tEdge → s.edgePend = true) (h4 : i ≠ .tHandler) (ht : exec i s = .next t) : Inv t := by
  cases i <;> simp only [isControllerOp, isTargetOp, Bool.true_eq_false] at h1 h2
  case configure code a10 => exact inv_accept (i := .configure code a10) (f := fun s => s.configure code a10) h (fun _ => h.configure _ _) ht
  case transfer a g => exact inv_accept (i := .transfer a g) (f := fun s => s.startTransfer a g) h (fun hb => h.startTransfer hb _ _) ht
  case segdesc => cases ht; exact h.setPort _
  case recover => exact inv_accept h (fun hb => h.startRecover hb) ht
  case registerTarget a => exact inv_accept (i := .registerTarget a) (f := fun s => s.register a) h (fun hb => h.register hb _) ht
  case unregisterTarget => exact inv_accept h (fun hb => h.unregister hb) ht
  case release => exact inv_accept h (fun hb => h.release hb) ht
  case illegal w => exact inv_accept (i := .illegal w) (f := fun s => s.deliver .invalidCommand) h (fun _ => h.deliver _) ht
  case statusRead => cases ht; exact h.congr rfl rfl rfl rfl rfl rfl rfl rfl rfl .inl rfl h.flags.memWf rfl rfl rfl rfl rfl
  case write a b => exact inv_accept (i := .write a b) (f := fun s => (s.fillWrite b).startTransfer a [writeSeg b true]) h (fun hb => (h.fillWrite _).startTransfer hb _ _) ht
  case read a n => exact inv_accept (i := .read a n) (f := fun s => s.startTransfer a [readSeg n false]) h (fun hb => h.startTransfer hb _ _) ht
  case writeRead a b n => exact inv_accept (i := .writeRead a b n) (f := fun s => (s.fillWrite b).startTransfer a [writeSeg b false, readSeg n true]) h (fun hb => (h.fillWrite _).startTransfer hb _ _) ht
  case probe a => exact inv_accept (i := .probe a) (f := fun s => s.startTransfer a [writeSeg [] true]) h (fun hb => h.startTransfer hb _ _) ht
  case tEdge => cases ht; exact inv_edge h (h3 rfl)
  case tHandler => exact absurd rfl h4
  case wireStart => cases ht; exact h.drivePeers _ _
  case wireRestart | wireStop | acknowledge => cases ht; exact (h.drivePeers _ _).setPpos _
  case bitCell => cases ht; exact (h.drivePeers _ _).setPpos _
  case byteFrame => cases ht; exact (h.drivePeers _ _).setPpos _
  case addressByte => cases ht; exact (h.drivePeers _ _).setPpos _

/-- What decodes is a command. -/
theorem decode_isCommand {ws : List Word} {i : Instr} {rest} (h : decode ws = .ok (i, rest)) :
    i.isCommand = true := by
  cases ws with
  | nil => cases h
  | cons w ws =>
    simp only [decode] at h
    split at h
    · cases h
    · injection h with h
      injection h with h _
      subst h
      unfold decodeCommand
      repeat' split
      all_goals rfl

/-- A command or a pseudo-operation keeps the invariant. -/
theorem inv_envOp {i : Instr} {s t : State} (h : Inv s) (hi : i.isCommand = true ∨ i.isPseudo = true) (ht :
    exec i s = .next t) : Inv t := by
  refine inv_env h ?_ ?_ ?_ ?_ ht
  · cases i <;> first | rfl | (rcases hi with hi | hi <;> exact absurd hi Bool.false_ne_true)
  · cases i <;> first | rfl | (rcases hi with hi | hi <;> exact absurd hi Bool.false_ne_true)
  · rintro rfl; rcases hi with hi | hi <;> exact absurd hi Bool.false_ne_true
  · rintro rfl; rcases hi with hi | hi <;> exact absurd hi Bool.false_ne_true

/-- An operation run in the environment is `exec` of it. -/
theorem run_env {i : Instr} {s t : State} (h : carryOut (.run .environment i s) = .next t) : exec i s = .next t :=
    by
  simp only [carryOut] at h
  rcases ho : exec i s with v | f | r <;> rw [ho] at h <;> cases h
  rfl

/-- An element of the wire format keeps the invariant. -/
theorem inv_fetchWire {i : Instr} {s t : State} (h : Inv s) (ht : carryOut (fetchWire i s) = .next t) : Inv t := by
  unfold fetchWire at ht
  split at ht
  · rename_i hi
    refine inv_env h ?_ ?_ ?_ ?_ (run_env ht)
    · cases i <;> first | rfl | exact absurd hi Bool.false_ne_true
    · cases i <;> first | rfl | exact absurd hi Bool.false_ne_true
    · rintro rfl; exact absurd hi Bool.false_ne_true
    · rintro rfl; exact absurd hi Bool.false_ne_true
  · cases ht; exact h

end Sys2Proof.Machine
end

