-- ==== Sys2Proof/Tests/Slice0.lean ====
section
/-! SUPPORT. Tests, one step each on a small state, and for every obligation with hypotheses a state and operands that meet them. Expected
results are those of spec/95_test_vectors.md (V<n>) or of the rule named, worked out by hand. -/

namespace Sys2Proof.Machine

/-! ## Small states -/

/-- The state an outcome leaves; after a stop, a state no test looks for. -/
def landed : Out → State
  | .next t => t
  | _ => { State.reset with elapsed := 77 }

/-- After `CONFIGURE Standard`. -/
def configured : State :=
  { State.reset with
    cfgValid := true, speed := .standard, low := Config.nsToUnits 4700, high := Config.nsToUnits 4000 }

/-- In a transfer of one write byte and two read bytes to 0x42, with this left to do. -/
def transferring (ts : List CTask) : State :=
  { configured with
    mode := .controller, busy := true, cop := .transfer, xaddr := 0x42#7
    xsegs := [⟨.write, false, false, 1#16⟩, ⟨.read, true, true, 2#16⟩], cpos := ts }

/-- A target at 0x42 that waits for a START. -/
def registered : State := { State.reset with mode := .target, tvalid := true, taddr := 0x42#7 }

/-- The handler in a phase, with this left to do, the data line released, in the write direction unless said otherwise. -/
def handling (p : Tfsm) (ts : List TTask) (rd : Bool := false) : State := { registered with tfsm := p, tpos := ts, tdir := rd }

/-! ## Well-formedness: each check refuses an ill-formed operation -/

theorem test_wellFormed_transfer (g : Seg) : (Instr.transfer 0x42#7 (List.replicate 255 g)).wellFormed = true := by
  rw [Instr.wellFormed, List.length_replicate]; rfl

theorem test_illFormed_transfer_of_256_segments (g : Seg) :
    (Instr.transfer 0x42#7 (List.replicate 256 g)).wellFormed = false := by
  rw [Instr.wellFormed, List.length_replicate]; rfl

theorem test_illFormed_write_of_65536_bytes (b : Byte) : (Instr.write 0x42#7 (List.replicate 65536 b)).wellFormed = false := by
  rw [Instr.wellFormed, List.length_replicate]; rfl

theorem test_illFormed_writeRead_of_65536_bytes (b : Byte) :
    (Instr.writeRead 0x42#7 (List.replicate 65536 b) 1#16).wellFormed = false := by
  rw [Instr.wellFormed, List.length_replicate]; rfl

theorem test_illFormed_illegal_that_is_legal : (Instr.illegal [0x30000000#32]).wellFormed = false := by decide

theorem test_illFormed_illegal_of_two_commands : (Instr.illegal [0x00000000#32, 0x00000000#32]).wellFormed = false := by
  decide

/-! ## Decoding: words written out bit by bit from the formats of R101 to R103 -/

theorem test_decode_configure : -- V40, V44: `0001`, zeros, `a`, `sss`
    decode [0b00010000000000000000000000000001#32] = .ok (.configure 1#3 false, []) ∧
    decode [0b00010000000000000000000000001001#32] = .ok (.configure 1#3 true, []) := by decide

theorem test_decode_transfer : -- V47: `0010`, zeros, `nnnnnnnn`, `0`, `aaaaaaa`; then `len`, zeros, `srd`
    decode [0b00100000000000000000001001000010#32, 0b00000000000000010000000000000000#32,
        0b00000000000000100000000000000111#32]
      = .ok (.transfer 0x42#7 [⟨.write, false, false, 1#16⟩, ⟨.read, true, true, 2#16⟩], []) := by decide

theorem test_decode_flags_of_a_descriptor : -- R102: bit 0 `DIR`, bit 1 `RB`, bit 2 `SA`
    decodeSeg 0xFFFF0001#32 = ⟨.read, false, false, 0xFFFF#16⟩ ∧ decodeSeg 0x00000002#32 = ⟨.write, true, false, 0#16⟩ ∧
    decodeSeg 0x80000004#32 = ⟨.write, false, true, 0x8000#16⟩ := by decide

theorem test_decode_recover : decode [0b00110000000000000000000000000000#32] = .ok (.recover, []) := by decide -- V50

theorem test_decode_register : -- V51
    decode [0b01000000000000000000000001000010#32] = .ok (.registerTarget 0x42#7, []) := by decide

theorem test_decode_unregister_release : -- V53
    decode [0b01010000000000000000000000000000#32] = .ok (.unregisterTarget, []) ∧
    decode [0b01100000000000000000000000000000#32] = .ok (.release, []) := by decide

theorem test_decode_illegal : -- V45, V48, V49, V52, V54, V55
    decode [0x10000011#32] = .ok (.illegal [0x10000011#32], []) ∧
    decode [0x200001D0#32, 0#32] = .ok (.illegal [0x200001D0#32, 0#32], []) ∧
    decode [0x20000150#32, 0x00010008#32] = .ok (.illegal [0x20000150#32, 0x00010008#32], []) ∧
    decode [0x400000C2#32] = .ok (.illegal [0x400000C2#32], []) ∧
    decode [0x00000000#32] = .ok (.illegal [0x00000000#32], []) ∧
    decode [0x70000000#32] = .ok (.illegal [0x70000000#32], []) ∧
    decode [0xF0000000#32] = .ok (.illegal [0xF0000000#32], []) ∧
    decode [0x30000001#32] = .ok (.illegal [0x30000001#32], []) := by decide

theorem test_decode_waits_for_descriptors : -- R108
    decode [0x20000242#32, 0x00010000#32] = .error .truncated ∧ decode [] = .error .nothingPresented := by decide

/-- No word belongs to two command rows: their masks share the opcode bits, where their values differ. -/
theorem test_command_rows_disjoint :
    commandRows.Pairwise fun a b => ((a.mask &&& b.mask) &&& (a.value ^^^ b.value)) ≠ 0#32 := by decide

theorem test_encode : -- V46, V47
    encode (.transfer 0x50#7 [⟨.write, false, false, 1#16⟩]) = [0x20000150#32, 0x00010000#32] ∧
    encode (.registerTarget 0x42#7) = [0x40000042#32] ∧ encode (.configure 2#3 false) = [0x10000002#32] := by decide

/-! ## Host commands and pseudo-operations -/

theorem test_configure_unsupported : -- V42
    (landed (exec (.configure 0#3 false) configured)).result = .configError ∧
    (landed (exec (.configure 0#3 false) configured)).speed = .standard := by decide

theorem test_transfer_not_configured : -- V60
    (landed (exec (.transfer 0x50#7 [⟨.write, false, false, 1#16⟩]) State.reset)).status = 0x03700000#32 := by decide

theorem test_transfer_empty : -- V21
    (landed (exec (.transfer 0x50#7 []) configured)).status = 0x03000061#32 := by decide

theorem test_recover_in_target_mode : (landed (exec .recover registered)).result = .modeError := by decide -- V33

theorem test_register : -- V71
    (landed (exec (.registerTarget 0x50#7) State.reset)).status = 0x0300A102#32 := by decide

theorem test_register_twice : -- V63
    (landed (exec (.registerTarget 0x43#7) registered)).taddr = 0x42#7 := by decide

theorem test_unregister_while_receiving : -- V69
    (landed (exec .unregisterTarget (handling .receivingData []))).result = .engineBusy := by decide

theorem test_unregister : -- V68
    (landed (exec .unregisterTarget { registered with edgePend := true })).edgePend = false := by decide

theorem test_release : -- V64
    (landed (exec .release { configured with mode := .controller })).status = 0x03000060#32 := by decide

theorem test_illegal : (landed (exec (.illegal [0x00000000#32]) State.reset)).result = .invalidCommand := by decide -- V54

theorem test_descriptor_word : -- V46
    (landed (exec (.segdesc ⟨.write, false, false, 1#16⟩) State.reset)).port = [.word 0x00010000#32] := by decide

theorem test_status_read : -- V120, V125
    (landed (exec .statusRead State.reset)).statusOut = 0x03000000#32 ∧
    (landed (exec .statusRead { transferring [] with sclOut := false, sdaOut := false })).statusOut = 0x00000071#32 := by decide

theorem test_status_after_callback_error : -- V128
    State.status { registered with taddr := 0x50#7, tlast := .callbackError, terr := true } = 0x0305A102#32 := by decide

theorem test_status_after_busBusy : -- V130
    State.status { configured with speed := .fast, result := .busBusy, peerSda := false } = 0x014000A0#32 := by decide

theorem test_write_fills_and_transfers : -- R111: `WRITE a {bytes}` is `TRANSFER a [W{bytes}+ST]`
    let t := landed (exec (.write 0x50#7 [0x11#8, 0x22#8]) configured)
    t.xsegs = [⟨.write, false, true, 2#16⟩] ∧ t.bufLoad 0 1 = some 0x22#8 ∧ t.bufLoad 0 2 = none := by decide

theorem test_read_transfers : -- R111
    (landed (exec (.read 0x50#7 3#16) configured)).xsegs = [⟨.read, false, true, 3#16⟩] := by decide

theorem test_writeRead_transfers : -- R111, V47
    (landed (exec (.writeRead 0x42#7 [0x10#8] 2#16) configured)).xsegs
      = [⟨.write, false, false, 1#16⟩, ⟨.read, true, true, 2#16⟩] := by decide

theorem test_probe_transfers : -- R111
    (landed (exec (.probe 0x42#7) configured)).xsegs = [⟨.write, false, true, 0#16⟩] := by decide

/-! ## Micro-operations (V1 to V8) -/

theorem test_setSda_start : -- V4
    (landed (exec (.setSda false) configured)).lastCond = some .start := by decide

theorem test_setSda_rise_with_clock_low : -- V8
    (landed (exec (.setSda true) { configured with sclOut := false, sdaOut := false })).lastCond = none := by decide

theorem test_setScl_stretched : -- V5
    (landed (exec (.setScl true) { configured with sclOut := false, peerScl := false })).scl = false := by decide

theorem test_getScl_stretched : (landed (exec .getScl { configured with peerScl := false })).got = false := by decide -- V5

theorem test_getSda_reads_the_line : (landed (exec .getSda { configured with peerSda := false })).got = false := by decide -- V2

theorem test_delay_changes_no_line : -- V6
    (landed (exec (.delay .low) configured)).scl = true ∧ (landed (exec (.delay .low) configured)).sda = true := by decide

/-! ## Controller primitives: the first micro-operation (V9) and how many are left -/

theorem test_cRaise : (landed (exec .cRaise { configured with sclOut := false })).scl = true := by decide

theorem test_cPrestart : (landed (exec .cPrestart configured)).scl = false := by decide -- V9b

theorem test_cStart : -- V9a: `D0`, then three more
    (landed (exec .cStart configured)).sda = false ∧
    (landed (exec .cStart configured)).cpos = [.op (.delay .high), .op (.setScl false), .op (.delay .low)] := by decide

theorem test_cRstart : -- V9c
    (landed (exec .cRstart { configured with sclOut := false, sdaOut := false })).sda = true := by decide

theorem test_cStop : (landed (exec .cStop { configured with sclOut := false })).sda = false := by decide -- V9d

theorem test_cWbit : (landed (exec (.cWbit false) { configured with sclOut := false })).sda = false := by decide -- V9f

theorem test_cRbit_releases_data : -- V9g
    (landed (exec .cRbit { configured with sclOut := false, sdaOut := false })).sda = true := by decide

theorem test_cWbyte : -- V9i: 0xA0 is 1, then 0, 1, 0, 0, 0, 0, 0, then the acknowledge
    (landed (exec (.cWbyte 0xA0#8) { configured with sclOut := false, sdaOut := false })).sda = true ∧
    ((landed (exec (.cWbyte 0xA0#8) configured)).cpos.drop 4).take 3
      = [.op (.cWbit false), .op (.cWbit true), .op (.cWbit false)] := by decide

theorem test_cRbyte_clears_the_shift_register : (landed (exec .cRbyte { configured with csr := 0xFF#8 })).csr = 0#8 := by decide

/-! ## What a transfer does (V17 to V26) and what the sequencer decides -/

theorem test_restart : -- V17 none, V18 and V20 a REPEATED-START
    restart [⟨.write, false, false, 1#16⟩, ⟨.write, false, false, 1#16⟩] 1 = false ∧
    restart [⟨.write, false, false, 1#16⟩, ⟨.read, false, false, 2#16⟩] 1 = true ∧
    restart [⟨.write, false, true, 1#16⟩, ⟨.write, false, false, 1#16⟩] 1 = true ∧
    restart [⟨.write, true, true, 1#16⟩] 0 = false := by decide

theorem test_nack : -- V25 the second byte, V26 none of the first segment
    nack [⟨.read, false, false, 2#16⟩, ⟨.write, false, false, 1#16⟩] 0 0 = false ∧
    nack [⟨.read, false, false, 2#16⟩, ⟨.write, false, false, 1#16⟩] 0 1 = true ∧
    nack [⟨.read, false, false, 1#16⟩, ⟨.read, true, false, 1#16⟩] 0 0 = false := by decide

theorem test_address_bytes : -- V11
    addressByte 0x50#7 false = 0xA0#8 ∧ addressByte 0x42#7 true = 0x85#8 ∧ addressOf 0xA1#8 = 0x50#7 ∧
    directionOf 0x84#8 = false := by decide

theorem test_transfer_counts : -- V12: 57 turns with no device, less the data; V17: 149; V18: 262, plus the 4 of `C_PRESTART`
    transferTurns 0 [⟨.write, false, false, 0#16⟩] = 61 ∧
    transferTurns 0 [⟨.write, false, false, 1#16⟩, ⟨.write, false, false, 1#16⟩] = 149 + 4 ∧
    transferTurns 0 [⟨.write, false, false, 1#16⟩, ⟨.read, true, false, 2#16⟩] = 262 + 4 := by decide

/-! ## Target primitives (V90 to V103) -/

theorem test_tWaitH_again : -- V103
    (landed (exec .tWaitH { registered with peerScl := false })).tpos = [.op .tWaitH] := by decide

theorem test_tWaitL_over : (landed (exec .tWaitL { registered with peerScl := false })).tpos = [] := by decide

theorem test_tRbit_samples_next : -- V90: `gC=1` seen, then `gD`
    (landed (exec .tRbit registered)).tpos = [.op .getSda, .takeBit, .op .tWaitL] := by decide

theorem test_tWbit : -- V93
    (landed (exec (.tWbit false) { registered with peerScl := false })).sda = false := by decide

theorem test_tRbyte_after_a_bit : -- V92
    (landed (exec (.tRbyte (some true)) registered)).tsr = 0x01#8 := by decide

theorem test_tWbyte : -- V94: 0x80 is 1, then seven times 0
    (landed (exec (.tWbyte 0x80#8) { registered with peerScl := false, sdaOut := false })).sdaOut = true ∧
    ((landed (exec (.tWbyte 0x80#8) registered)).tpos.drop 2).length = 7 := by decide

theorem test_tAck : (landed (exec .tAck { registered with peerScl := false })).sda = false := by decide -- V95

theorem test_tAck_late : -- U1: the handler's own fall with the clock high, before either direction goes on
    (landed (exec .tAck (handling .receivingAddress [.op .tDetect, .afterDetect true]))).unsanctioned = true ∧
    (landed (exec .tAck (handling .receivingAddress [.beginSend] true))).unsanctioned = true := by decide

theorem test_tRack : -- V96
    (landed (exec .tRack { registered with sdaOut := false, peerScl := false })).sda = true := by decide

theorem test_tDetect_waits : -- V102
    (landed (exec .tDetect { registered with peerScl := false })).tpos = [.op .tDetect] := by decide

/-! ## The edge event and the handler (V80 to V87, V110 to V118) -/

theorem test_tEdge_start : -- V80
    (landed (exec .tEdge { registered with edgePend := true, peerSda := false })).tfsm = .receivingAddress := by decide

theorem test_tEdge_stop : -- V81
    (landed (exec .tEdge { registered with edgePend := true })).tfsm = .idle := by decide

theorem test_tHandler_starts : -- R210, R211
    (landed (exec .tHandler { handling .receivingAddress [] with handlerPend := true })).handlerPend = false := by decide

theorem test_edge_only_while_idle : -- V86, V87
    (registered.drivePeers true false).edgePend = true ∧
    ((handling .receivingData []).drivePeers true false).edgePend = false ∧
    (configured.drivePeers true false).edgePend = false := by decide

theorem test_mismatch : -- V113
    (settleT [.addrDecide] { registered with tfsm := .receivingAddress, tsr := 0x66#8 }).tlast = .addressMismatch := by decide

theorem test_refused_byte : -- V112
    (settleT [.statusDecide] { handling .receivingData [] with ans := 5#8 }).terr = true := by decide

/-! ## Callbacks (R109) -/

theorem test_onWriteRequested : (landed (exec .onWriteRequested registered)).calls = [.writeRequested] := by decide

theorem test_onWriteReceived :
    (landed (exec (.onWriteReceived 0x11#8) { registered with answers := [1#8] })).calls = [.writeReceived 0x11#8 1#8] := by decide

theorem test_onReadRequested :
    (landed (exec .onReadRequested { registered with answers := [0x3C#8] })).ans = 0x3C#8 := by decide

theorem test_onReadProcessed :
    (landed (exec .onReadProcessed { registered with answers := [0x34#8, 1#8] })).answers = [1#8] := by decide

theorem test_onStop : (landed (exec .onStop registered)).calls = [.stop] := by decide

theorem test_callback_kinds :
    AppCall.kind .writeRequested = 0 ∧ AppCall.kind (.writeReceived 0#8 0#8) = 1 ∧ AppCall.kind (.readRequested 0#8) = 2 ∧
    AppCall.kind (.readProcessed 0#8) = 3 ∧ AppCall.kind .stop = 4 := by decide

/-! ## The wire (R91 to R95) -/

theorem test_wireStart : (landed (exec .wireStart State.reset)).lastCond = some .start := by decide

theorem test_wireRestart : (landed (exec .wireRestart { State.reset with busOpen := true })).scl = false := by decide

theorem test_wireStop : (landed (exec .wireStop State.reset)).ppos = [.dat false, .clk true, .dat true] := by decide

theorem test_bitCell : (landed (exec (.bitCell true) State.reset)).ppos = [.dat true, .clk true, .clk false] := by decide

theorem test_byteFrame_has_nine_cells : -- R93
    (landed (exec (.byteFrame 0xA5#8 true) State.reset)).ppos.length = 3 + 8 := by decide

theorem test_addressByte_cells : -- V11c: 1 0 0 0 0 1 0 0, then the acknowledge cell, released
    (landed (exec (.addressByte 0x42#7 false) State.reset)).ppos
      = [.dat true, .clk true, .clk false, .op (.bitCell false), .op (.bitCell false), .op (.bitCell false), .op (.bitCell false),
        .op (.bitCell true), .op (.bitCell false), .op (.bitCell false), .op (.bitCell true)] := by decide

theorem test_acknowledge : (landed (exec (.acknowledge false) State.reset)).sda = false := by decide

/-! ## Memory and the fetch -/

theorem test_memory_canonical : -- a byte equal to what an unlisted one reads as is not listed
    Memory.write (Memory.write (Memory.write [] 5 7#8) 3 9#8) 5 0#8 = [(3, 9#8)] := by decide

theorem test_fetch_of_a_table_word :
    decodeTableWord 32 0x10000001 = some (.configure 1#3 false) ∧
    decodeTableWord 32 0x20000150 = some (.transfer 0x50#7 [⟨.write, false, false, 0#16⟩]) ∧
    (landed (step (State.reset.withFetchWord 32 0x40000050))).status = 0x0300A102#32 := by decide

/-! ## For each obligation with hypotheses: concrete values that meet them -/

/-- A state of the tests in a transfer has the invariant when what is left to do is fit to be left. -/
theorem transferring_inv (ts : List CTask) (front : frontRuns ts) (sound : ∀ t ∈ ts, t.sound (transferring ts).xsegs)
    (releases : endsReleased ts true true) : Inv (transferring ts) := by
  refine ⟨⟨?_, ?_, ?_, ?_, ?_, ?_, ?_, ?_, ?_, ?_⟩, ⟨?_, ?_, ?_, fun _ => front, sound, fun _ => releases⟩,
    ⟨?_, ?_, ?_, ?_, ?_, ?_, ?_, ?_⟩⟩
  case refine_8 => exact fun _ => ⟨.standard, rfl, rfl, rfl⟩
  all_goals simp [transferring, configured, State.reset, State.resetWith, Memory.wf, Memory.wfFrom]

/-- After `CONFIGURE` the invariant holds. -/
theorem configured_inv : Inv configured := by
  refine ⟨⟨?_, ?_, ?_, ?_, ?_, ?_, ?_, fun _ => ⟨.standard, rfl, rfl, rfl⟩, ?_, ?_⟩, ⟨?_, ?_, ?_, ?_, ?_, ?_⟩,
    ⟨?_, ?_, ?_, ?_, ?_, ?_, ?_, ?_⟩⟩ <;>
    simp [configured, State.reset, State.resetWith, Memory.wf, Memory.wfFrom]

/-- After `REGISTER_TARGET` the invariant holds. -/
theorem registered_inv : Inv registered := by
  refine ⟨⟨?_, ?_, ?_, ?_, ?_, ?_, ?_, ?_, ?_, ?_⟩, ⟨?_, ?_, ?_, ?_, ?_, ?_⟩, ⟨?_, ?_, ?_, ?_, ?_, ?_, ?_, ?_⟩⟩ <;>
    simp [registered, State.reset, State.resetWith, Config.resetSpeed, Memory.wf, Memory.wfFrom]

/-- A state of the tests in which the handler runs has the invariant when what is left to do is fit to be left. -/
theorem handling_inv (p : Tfsm) (ts : List TTask) {rd : Bool} (run : p ≠ .idle) (front : frontRunsT ts) (sound : ∀ t ∈ ts, t.sound)
    (releases : endsReleasedT ts true) (phase : phaseFits ts p rd) : Inv (handling p ts rd) := by
  refine ⟨⟨?_, ?_, ?_, ?_, ?_, ?_, ?_, ?_, ?_, ?_⟩, ⟨?_, ?_, ?_, ?_, ?_, ?_⟩,
    ⟨?_, ?_, ?_, ?_, fun _ _ => front, sound, fun _ _ => releases, fun _ _ => phase⟩⟩ <;>
    simp [handling, registered, State.reset, State.resetWith, Config.resetSpeed, Memory.wf, Memory.wfFrom, run]

/-- What is laid down for the next steps, and values no invariant reads, do not matter to it. -/
theorem Inv.withNext {s : State} (h : Inv s) (is : List Input) (as : List Byte) (d : Detect) (b r : Bool) :
    Inv { s with inputs := is, answers := as, det := d, bitv := b, terr := r } :=
  h.congr rfl rfl rfl rfl rfl rfl rfl rfl rfl .inl rfl h.flags.memWf rfl rfl rfl rfl rfl

theorem witness_CommandRoundTrip (g : Seg) :
    (Instr.transfer 0x7F#7 (List.replicate 255 g)).isCommand = true ∧
    (Instr.transfer 0x7F#7 (List.replicate 255 g)).wellFormed = true ∧
    (Instr.transfer 0#7 []).wellFormed = true ∧
    (Instr.illegal [0x20000150#32, 0x00010008#32]).isCommand = true ∧
    (Instr.illegal [0x20000150#32, 0x00010008#32]).wellFormed = true :=
  ⟨rfl, by rw [Instr.wellFormed, List.length_replicate]; rfl, by decide, by decide, by decide⟩

theorem witness_DecodedWordsEncodeBack :
    decode [0x20000150#32, 0x00010000#32, 0x30000000#32]
      = .ok (.transfer 0x50#7 [⟨.write, false, false, 1#16⟩], [0x30000000#32]) := by decide

theorem witness_IllegalCommands :
    ([0x00010008#32] : List Word).length = descCount 0x20000150#32 ∧ badCommand 0x20000150#32 [0x00010008#32] ∧
    ([0x00010000#32] : List Word).length = descCount 0x20000150#32 ∧ ¬ badCommand 0x20000150#32 [0x00010000#32] ∧
    ([] : List Word).length = descCount 0x70000000#32 ∧ badCommand 0x70000000#32 [] ∧
    ¬ badCommand 0x60000000#32 [] ∧ configured.busy = false := by
  refine ⟨by decide, ?_, by decide, ?_, by decide, ?_, ?_, by decide⟩ <;> simp [badCommand]

theorem witness_PortStepRunsCommand :
    let s := { configured with port := [.word 0x20000150#32, .word 0x00010000#32, .call (.probe 0x42#7)] }
    let u := { configured with port := [.call (.probe 0x42#7), .word 0x30000000#32] }
    decode [0x20000150#32, 0x00010000#32] = .ok (.transfer 0x50#7 [⟨.write, false, false, 1#16⟩], []) ∧ s.busy = false ∧
    s.port = [0x20000150#32, 0x00010000#32].map PortItem.word ++ [.call (.probe 0x42#7)] ∧
    (Instr.probe 0x42#7).isPseudo = true ∧ u.busy = false ∧ u.port = .call (.probe 0x42#7) :: [.word 0x30000000#32] := by
  decide

theorem witness_AgentStepRunsOperation :
    (transferring [.op .cStop, .complete]).cpos = .op .cStop :: [.complete] ∧
    (transferring [.send 0 0, .dataCheck 0 0]).cpos = .send 0 0 :: [.dataCheck 0 0] ∧
    (transferring [.send 0 0, .dataCheck 0 0]).xsegs[0]? = some ⟨.write, false, false, 1#16⟩ ∧ (0 : Nat) < (1#16).toNat ∧
    State.edgePend { registered with edgePend := true } = true ∧
    State.handlerPend { handling .receivingAddress [] with handlerPend := true } = true ∧
    (handling .receivingData [.op .tAck, .op .tDetect, .afterDetect false]).handlerPend = false ∧
    (handling .receivingData [.op .tAck, .op .tDetect, .afterDetect false]).tpos
      = .op .tAck :: [.op .tDetect, .afterDetect false] ∧
    Instr.isWire (.byteFrame 0xA5#8 true) = true ∧
    State.ppos { registered with ppos := [.op .wireStop] } = .op .wireStop :: [] ∧ Instr.isWire .wireStop = true ∧
    (transferring []).busy = true ∧ registered.cpos = [] ∧ registered.edgePend = false ∧ registered.handlerPend = false ∧
    registered.tpos = [] ∧ registered.ppos = [] := by decide

theorem witness_NothingStops : Inv (transferring [.op .cRbit, .store 1 1, .op .cStop, .complete]) :=
  transferring_inv _ trivial (by simp [CTask.sound, isControllerOp, transferring]) (by simp [endsReleased, outsAfter])

theorem witness_BusyHoldsCommands :
    (Instr.configure 2#3 false).isCommand = true ∧ (Instr.probe 0x42#7).isPseudo = true ∧
    (Instr.probe 0x42#7).wellFormed = true ∧ (Instr.write 0x42#7 [0x11#8]).isPseudo = true ∧
    (Instr.write 0x42#7 [0x11#8]).wellFormed = true ∧ (transferring []).busy = true := by decide

theorem witness_ConfigureResult :
    configured.busy = false ∧ (3#3 : BitVec 3) ≠ 1#3 ∧ (3#3 : BitVec 3) ≠ 2#3 ∧ (0#3 : BitVec 3) ≠ 1#3 ∧
    (0#3 : BitVec 3) ≠ 2#3 ∧ (7#3 : BitVec 3) ≠ 1#3 ∧ (7#3 : BitVec 3) ≠ 2#3 := by decide

theorem witness_TransferAcceptance :
    registered.busy = false ∧ registered.mode = .target ∧ State.reset.busy = false ∧ State.reset.mode ≠ .target ∧
    State.reset.cfgValid = false ∧ configured.busy = false ∧ configured.mode ≠ .target ∧ configured.cfgValid = true ∧
    State.mode { configured with mode := .controller } ≠ .target := by decide

theorem witness_RecoverAcceptance :
    registered.busy = false ∧ registered.mode = .target ∧ State.reset.busy = false ∧ State.reset.mode ≠ .target ∧
    State.reset.cfgValid = false ∧ configured.busy = false ∧ configured.mode ≠ .target ∧ configured.cfgValid = true := by
  decide

theorem witness_RegisterTargetResult :
    configured.busy = false ∧ configured.mode = .unconfigured ∧ registered.busy = false ∧ registered.mode ≠ .unconfigured ∧
    State.mode { configured with mode := .controller } ≠ .unconfigured := by decide

theorem witness_UnregisterTargetResult :
    registered.busy = false ∧ registered.mode = .target ∧ registered.tfsm = .idle ∧
    (handling .receivingAddress []).busy = false ∧ (handling .receivingAddress []).mode = .target ∧
    (handling .receivingAddress []).tfsm ≠ .idle ∧ configured.mode ≠ .target := by decide

theorem witness_ReleaseResult :
    configured.busy = false ∧ configured.mode ≠ .target ∧ registered.busy = false ∧ registered.mode = .target := by decide

theorem witness_PseudoOperations :
    let s := { configured with mem := [(0, 9#8), (65536, 1#8)] }
    s.busy = false ∧ s.mem.wf = true ∧ (1 : Nat) < ([0x11#8, 0x22#8] : List Byte).length ∧
    ¬ (2 : Nat) < ([0x11#8, 0x22#8] : List Byte).length := by decide

theorem witness_SetLinesAndDelay : (true : Level) = configured.sclOut ∧ (false : Level) ≠ configured.sdaOut := by decide

theorem witness_ControllerPrimitivesRunToTheirEnd :
    let s := transferring [.op (.cWbyte 0x84#8), .addrCheck 0]
    let u := transferring [.op .cStop, .complete]
    isPrimitive (.cWbyte 0x84#8) = true ∧ s.cpos = .op (.cWbyte 0x84#8) :: [.addrCheck 0] ∧ s.peerScl = true ∧
    isPrimitive .cStop = true ∧ u.cpos = .op .cStop :: [.complete] ∧ u.peerScl = true ∧
    isPrimitive .cPrestart = true ∧ isPrimitive .cStart = true ∧ isPrimitive .cRstart = true ∧
    isPrimitive (.cWbit true) = true ∧ isPrimitive .cRbit = true ∧ isPrimitive .cRbyte = true := by decide

theorem witness_ControllerSendsMostSignificantFirst :
    let s := transferring [.op (.cWbyte 0x84#8), .addrCheck 0]
    s.cpos = .op (.cWbyte 0x84#8) :: [.addrCheck 0] ∧ s.peerScl = true ∧ s.peerSda = true ∧ (0 : Nat) < 8 ∧ (7 : Nat) < 8 := by
  decide

theorem witness_ControllerReceivesMostSignificantFirst :
    let s := transferring [.op .cRbyte, .store 1 0, .op (.cWbit false), .nextByte 1 1]
    ([true, false, true, false, false, false, false, true] : List Level).length = 8 ∧
    s.cpos = .op .cRbyte :: [.store 1 0, .op (.cWbit false), .nextByte 1 1] ∧ (0 : Nat) < 8 ∧ (7 : Nat) < 8 := by decide

theorem witness_TransferOrder :
    let segs : List Seg := [⟨.write, false, false, 1#16⟩, ⟨.read, false, false, 2#16⟩]
    (remaining segs 0 0).head? = some (.byte 0 0 ⟨.write, false, false, 1#16⟩) ∧
    (remaining segs 0 1).head? = some (.reopen 1 ⟨.read, false, false, 2#16⟩) ∧
    Seg.dir ⟨.write, false, false, 1#16⟩ = .write ∧ Seg.dir ⟨.read, false, false, 2#16⟩ = .read := by decide

theorem witness_AcknowledgeDecides :
    State.cack { transferring [] with cack := true } = true ∧ (transferring []).cack = false ∧
    tasksAt 0x42#7 (transferring []).xsegs 0 0 = some [.send 0 0, .dataCheck 0 0] ∧
    (tasksAt 0x42#7 (transferring []).xsegs 0 (0 + 1)).isSome = true ∧
    tasksAt 0x42#7 [⟨.write, false, true, 0#16⟩] 0 0 = none ∧
    tasksAt 0x42#7 [⟨.write, false, true, 1#16⟩] 0 (0 + 1) = none ∧
    (tasksAt 0x42#7 (transferring []).xsegs 1 1).isSome = true ∧ tasksAt 0x42#7 (transferring []).xsegs 1 2 = none := by decide

theorem witness_ReceivedByteIsStored :
    let s := transferring []
    s.xsegs[1]? = some ⟨.read, true, true, 2#16⟩ ∧ (1 : Nat) < (2#16).toNat ∧ (0 : Nat) < (2#16).toNat ∧ s.mem.wf = true := by
  decide

theorem witness_CommandCompletion :
    State.got { transferring [.recCheck] with got := true } = true ∧ (transferring [.recCheck]).got = false := by decide

theorem witness_RecoverRun :
    let s := { configured with peerSda := false }
    configured.busy = false ∧ configured.mode ≠ .target ∧ configured.cfgValid = true ∧ configured.peerScl = true ∧
    s.busy = false ∧ s.mode ≠ .target ∧ s.cfgValid = true ∧ s.peerScl = true := by decide

theorem witness_TransferWithNoDevice :
    configured.busy = false ∧ configured.mode ≠ .target ∧ configured.cfgValid = true ∧ configured.sclOut = true ∧
    configured.sdaOut = true ∧ configured.peerScl = true ∧ configured.peerSda = true := by decide

theorem witness_TransferOnLowDataLine :
    let s := { configured with peerSda := false, mem := [(0, 5#8), (65537, 3#8)] }
    let segs : List Seg := [⟨.write, false, false, 1#16⟩, ⟨.read, true, true, 2#16⟩]
    s.busy = false ∧ s.mode ≠ .target ∧ s.cfgValid = true ∧ s.sclOut = true ∧ s.sdaOut = true ∧ s.peerScl = true ∧
    s.peerSda = false ∧ s.mem.wf = true ∧ segs[1]? = some ⟨.read, true, true, 2#16⟩ ∧ (1 : Nat) < (2#16).toNat := by decide

theorem witness_BufferMemory : Memory.wf [(3, 9#8), (5, 7#8)] = true ∧ Memory.wf [(5, 0#8)] = false := by decide

theorem witness_HostWritesABufferByte :
    let s := { transferring [] with mem := [(0, 5#8), (65537, 3#8)] }
    s.mem.wf = true ∧ s.busy = true ∧ (1 : Nat) < 65536 ∧ (65535 : Nat) < 65536 ∧ bufKey 1 65535 = bufKey 1 65535 := by
  refine ⟨by decide, by decide, by decide, by decide, rfl⟩

theorem witness_WaitsNeverTimeOut :
    let s := { handling .receivingData [.op .tWaitH, .op .tWaitL] with peerScl := false }
    let u := { handling .receivingData [.op .tDetect, .afterDetect true] with peerScl := false }
    let v := handling .receivingData [.op .tWaitL, .op .tAck]
    let w := handling .receivingData [.op .getScl, .watchClk true, .afterDetect true]
    let c := transferring [.op .getScl, .untilHigh, .op (.delay .high)]
    s.handlerPend = false ∧ s.scl = false ∧ s.tpos = .op .tWaitH :: [.op .tWaitL] ∧ u.handlerPend = false ∧ u.scl = false ∧
    u.tpos = .op .tDetect :: [.afterDetect true] ∧ v.handlerPend = false ∧ v.scl = true ∧
    v.tpos = .op .tWaitL :: [.op .tAck] ∧ w.handlerPend = false ∧ w.scl = true ∧
    w.tpos = .op .getScl :: .watchClk w.sda :: [.afterDetect true] ∧
    c.cpos = .op .getScl :: .untilHigh :: [.op (.delay .high)] ∧ c.scl = true ∧ State.scl { c with peerScl := false } = false := by
  decide

theorem witness_TargetReceivesMostSignificantFirst :
    let s := handling .receivingAddress [.op (.tRbyte none), .addrDecide]
    let u := handling .receivingData [.op (.tRbyte (some true)), .deliver]
    s.handlerPend = false ∧ s.sclOut = true ∧ s.sdaOut = true ∧
    ([true, false, true, false, false, false, false, true] : List Level).length = 8 ∧
    s.tpos = .op (.tRbyte none) :: [.addrDecide] ∧ u.handlerPend = false ∧ u.sclOut = true ∧ u.sdaOut = true ∧
    ([false, true, false, false, true, false, true] : List Level).length = 7 ∧
    u.tpos = .op (.tRbyte (some true)) :: [.deliver] := by decide

theorem witness_TargetSendsMostSignificantFirst :
    let s := { handling .sendingData [.op (.tWbyte 0x80#8), .op .tRack, .rackDecide] true with peerScl := false }
    s.handlerPend = false ∧ s.sclOut = true ∧ s.peerScl = false ∧ s.peerSda = true ∧
    s.tpos = .op (.tWbyte 0x80#8) :: [.op .tRack, .rackDecide] ∧ (0 : Nat) < 8 ∧ (7 : Nat) < 8 := by decide

theorem witness_TargetAcknowledgePulse :
    let s := { handling .receivingAddress [.op .tAck, .beginSend] true with peerScl := false }
    s.handlerPend = false ∧ s.sclOut = true ∧ s.peerScl = false ∧ s.tpos = .op .tAck :: [.beginSend] := by decide

theorem witness_DetectOutcomes :
    let s := handling .receivingData [.op .tDetect, .afterDetect false]
    let u := { s with peerSda := false }
    s.handlerPend = false ∧ s.sclOut = true ∧ s.sdaOut = true ∧ s.peerScl = true ∧ s.peerSda = true ∧
    s.tpos = .op .tDetect :: [.afterDetect false] ∧ u.handlerPend = false ∧ u.peerScl = true ∧ u.peerSda = false ∧
    u.tpos = .op .tDetect :: [.afterDetect false] := by decide

theorem witness_EdgeLatch :
    let s := { registered with inputs := [.drive true false], answers := [], det := .bit, bitv := false, terr := false }
    Inv s ∧ ∃ t, step s = .next t ∧ s.armed = true ∧ s.sda ≠ t.sda ∧ t.edgePend = true :=
  ⟨registered_inv.withNext _ _ _ _ _, _, rfl, by decide, by decide, by decide⟩

theorem witness_EventEntry :
    State.scl { registered with peerSda := false } = true ∧ State.sda { registered with peerSda := false } = false ∧
    State.scl { registered with peerScl := false } = false ∧ registered.scl = true ∧ registered.sda = true := by decide

theorem witness_AddressPhaseEnd :
    let s := handling .receivingAddress [.addrDecide]
    State.taddr { s with tsr := 0x84#8 } = (0x84#8).extractLsb' 1 7 ∧ (0x84#8).getLsbD 0 = false ∧
    State.taddr { s with tsr := 0x85#8 } = (0x85#8).extractLsb' 1 7 ∧ (0x85#8).getLsbD 0 = true ∧
    (0x86#8).extractLsb' 1 7 ≠ State.taddr { s with tsr := 0x86#8 } := by decide

theorem witness_HandlerBranches :
    let s := handling .receivingData [.statusDecide]
    State.det { s with det := .stop } = .stop ∧ State.det { s with det := .restart } = .restart ∧ s.det = .bit ∧
    s.ans = 0#8 ∧ State.ans { s with ans := 5#8 } ≠ 0#8 ∧ State.bitv { s with bitv := true } = true ∧ s.bitv = false := by
  decide

theorem witness_CallbackExchange :
    State.answers { registered with answers := [1#8, 2#8] } = 1#8 :: [2#8] ∧ registered.answers = [] := by decide

theorem witness_TfsmTransitions_idle :
    let s := { registered with edgePend := true, peerSda := false, inputs := [.turn .edge] }
    Inv s ∧ ∃ t, step s = .next t ∧ s.nextInput ≠ .reset ∧ s.tfsm ≠ t.tfsm ∧ s.tfsm = .idle :=
  ⟨registered_inv.congr rfl rfl rfl rfl rfl rfl rfl rfl rfl (fun _ => .inr rfl) rfl registered_inv.flags.memWf rfl rfl rfl rfl rfl,
    _, rfl, by decide, by decide, by decide⟩

theorem witness_TfsmTransitions_receivingAddress :
    let s := { handling .receivingAddress [.op .getScl, .addrDecide] with
      inputs := [.turn .handler], answers := [], det := .bit, bitv := false, terr := false }
    let u := { handling .receivingAddress [.op .getScl, .afterDetect true] with
      inputs := [.turn .handler], answers := [], det := .bit, bitv := false, terr := false }
    let v := { handling .receivingAddress [.op .getScl, .beginSend] true with
      inputs := [.turn .handler], answers := [], det := .bit, bitv := false, terr := false }
    (Inv s ∧ s.nextInput ≠ .reset ∧ ∃ t, step s = .next t ∧ t.tfsm = .idle ∧ t.tlast = .addressMismatch) ∧
    (Inv u ∧ u.nextInput ≠ .reset ∧ ∃ t, step u = .next t ∧ t.tfsm = .receivingData ∧ t.tdir = false) ∧
    Inv v ∧ v.nextInput ≠ .reset ∧ ∃ t, step v = .next t ∧ t.tfsm = .sendingData ∧ t.tdir = true := by
  have h : ∀ ts, frontRunsT ts → (∀ t ∈ ts, t.sound) → endsReleasedT ts true → phaseFits ts .receivingAddress false →
      Inv (handling .receivingAddress ts) := fun ts => handling_inv .receivingAddress ts (by decide)
  refine ⟨⟨(h [.op .getScl, .addrDecide] trivial ?_ rfl rfl).withNext _ _ _ _ _, by decide, _, rfl, by decide, by decide⟩,
    ⟨(h [.op .getScl, .afterDetect true] trivial ?_ rfl ⟨rfl, rfl⟩).withNext _ _ _ _ _, by decide, _, rfl, by decide, by decide⟩,
    (handling_inv .receivingAddress [.op .getScl, .beginSend] (by decide) trivial ?_ trivial ⟨rfl, rfl⟩).withNext _ _ _ _ _, by decide, _, rfl, by decide, by decide⟩ <;> simp [TTask.sound, isTargetOp]

theorem witness_TfsmTransitions_receivingData :
    let s := { handling .receivingData [.op (.onWriteReceived 0#8), .statusDecide] with
      inputs := [.turn .handler], answers := [1#8], det := .bit, bitv := false, terr := false }
    let u := { handling .receivingData [.op .getScl, .afterDetect false] with
      inputs := [.turn .handler], answers := [], det := .restart, bitv := false, terr := false }
    let v := { handling .receivingData [.op .onStop, .finish .stopDetected] with
      inputs := [.turn .handler], answers := [], det := .stop, bitv := false, terr := false }
    (Inv s ∧ s.nextInput ≠ .reset ∧ ∃ t, step s = .next t ∧ t.tfsm = .idle ∧ t.tlast = .callbackError ∧ t.terr = true) ∧
    (Inv u ∧ u.nextInput ≠ .reset ∧ ∃ t, step u = .next t ∧ t.tfsm = .receivingAddress) ∧
    Inv v ∧ v.nextInput ≠ .reset ∧ ∃ t, step v = .next t ∧ t.tfsm = .idle ∧ t.tlast = .stopDetected := by
  have h : ∀ ts, frontRunsT ts → (∀ t ∈ ts, t.sound) → endsReleasedT ts true → phaseFits ts .receivingData false →
      Inv (handling .receivingData ts) := fun ts => handling_inv .receivingData ts (by decide)
  refine ⟨⟨(h [.op (.onWriteReceived 0#8), .statusDecide] trivial ?_ rfl ⟨rfl, rfl⟩).withNext _ _ _ _ _, by decide, _, rfl,
      by decide, by decide, by decide⟩,
    ⟨(h [.op .getScl, .afterDetect false] trivial ?_ rfl ⟨rfl, rfl⟩).withNext _ _ _ _ _, by decide, _, rfl, by decide⟩,
    (h [.op .onStop, .finish .stopDetected] trivial ?_ rfl ⟨rfl, .inr rfl, rfl⟩).withNext _ _ _ _ _, by decide, _, rfl, by decide, by decide⟩ <;>
    simp [TTask.sound, isTargetOp]

theorem witness_TfsmTransitions_sendingData :
    let s := { handling .sendingData [.op .getScl, .rackDecide] true with
      inputs := [.turn .handler], answers := [], det := .bit, bitv := true, terr := false }
    Inv s ∧ s.nextInput ≠ .reset ∧ ∃ t, step s = .next t ∧ s.tfsm = .sendingData ∧ t.tfsm = .idle ∧ t.tlast = .masterNacked :=
  ⟨(handling_inv .sendingData [.op .getScl, .rackDecide] (by decide) trivial (by simp [TTask.sound, isTargetOp]) rfl ⟨rfl, rfl⟩).withNext _ _ _ _ _,
    by decide, _, rfl, by decide, by decide, by decide⟩

theorem witness_ConditionsOnTheWire :
    let s := { registered with inputs := [.drive true false] }
    let u := { registered with peerSda := false, busOpen := true, inputs := [.drive true true] }
    let v := { registered with busOpen := true, inputs := [.drive true false] }
    (∃ t, step s = .next t ∧ s.scl = true ∧ t.scl = true ∧ s.sda = true ∧ t.sda = false ∧ s.busOpen = false) ∧
    (∃ t, step u = .next t ∧ u.scl = true ∧ t.scl = true ∧ u.sda = false ∧ t.sda = true) ∧
    (∃ t, step v = .next t ∧ v.scl = true ∧ t.scl = true ∧ v.sda = true ∧ t.sda = false ∧ v.busOpen = true) ∧
    ∃ t, step { registered with inputs := [.drive false true] } = .next t ∧ t.scl = false :=
  ⟨⟨_, rfl, by decide⟩, ⟨_, rfl, by decide⟩, ⟨_, rfl, by decide⟩, ⟨_, rfl, by decide⟩⟩

theorem witness_WireElementsOnTheWire :
    let s := { State.reset with peerScl := false, busOpen := true }
    let u := { transferring [.op .cRbit, .takeAck, .addrCheck 0] with sclOut := false, sdaOut := false }
    State.reset.sclOut = true ∧ State.reset.sdaOut = true ∧ State.reset.ppos = [] ∧ State.reset.peerScl = true ∧
    State.reset.peerSda = true ∧ State.reset.busOpen = false ∧ s.sclOut = true ∧ s.sdaOut = true ∧ s.ppos = [] ∧
    s.peerScl = false ∧ s.busOpen = true ∧ (0 : Nat) < 9 ∧ (8 : Nat) < 9 ∧ u.sclOut = false ∧ u.peerScl = true ∧
    u.ppos = [] ∧ u.cpos = .op .cRbit :: [.takeAck, .addrCheck 0] := by decide

theorem witness_StepKeepsInvariant :
    let s := { transferring [.op .cRbit, .store 1 1, .op .cStop, .complete] with
      inputs := [.turn .controller], answers := [], det := .bit, bitv := false, terr := false }
    Inv s ∧ ∃ t, step s = .next t ∧ t.sdaOut = true ∧ t.cpos.length = 9 :=
  ⟨witness_NothingStops.withNext _ _ _ _ _, _, rfl, by decide, by decide⟩

theorem witness_ReachableStates :
    Reachable { State.reset with inputs := [.turn .edge, .reset], answers := [1#8] } :=
  Reachable.lay State.reset _ _ Reachable.reset

theorem witness_WhoWritesWhat :
    Inv { configured with port := [.word 0x30000000#32] } ∧
    (∃ t, stepWith (.turn .port) { configured with port := [.word 0x30000000#32] } = .next t ∧ t.busy = true) ∧
    Inv (transferring [.op .cRbit, .store 1 1, .op .cStop, .complete]) ∧
    (∃ t, stepWith (.turn .controller) (transferring [.op .cRbit, .store 1 1, .op .cStop, .complete]) = .next t ∧
      t.sdaOut = true) ∧
    Inv { registered with edgePend := true, peerSda := false } ∧
    (∃ t, stepWith (.turn .edge) { registered with edgePend := true, peerSda := false } = .next t ∧ t.handlerPend = true) ∧
    Inv (handling .receivingData [.op .tAck, .op .tDetect, .afterDetect false]) ∧
    (∃ t, stepWith (.turn .handler) (handling .receivingData [.op .tAck, .op .tDetect, .afterDetect false]) = .next t ∧
      t.sdaOut = false) ∧
    Inv { registered with ppos := [.dat false] } ∧
    (∃ t, stepWith (.turn .peer) { registered with ppos := [.dat false] } = .next t ∧ t.edgePend = true) ∧
    Inv { configured with port := [.call (.write 0x50#7 [0x11#8])] } ∧
    (∃ t, stepWith (.turn .port) { configured with port := [.call (.write 0x50#7 [0x11#8])] } = .next t ∧
      t.mem.read (bufKey 0 0) = 0x11#8) ∧
    Inv (transferring [.op .getSda, .store 1 1, .op .cStop, .complete]) ∧
    storesReached (transferring [.op .getSda, .store 1 1, .op .cStop, .complete]).cpos.tail = [(1, 1)] ∧
    ∃ t, stepWith (.turn .controller) (transferring [.op .getSda, .store 1 1, .op .cStop, .complete]) = .next t ∧
      t.cpos = [.op .cStop, .complete] := by
  refine ⟨configured_inv.setPort _, ⟨_, rfl, by decide⟩, witness_NothingStops, ⟨_, rfl, by decide⟩, ?_, ⟨_, rfl, by decide⟩, ?_,
    ⟨_, rfl, by decide⟩, registered_inv.setPpos _, ⟨_, rfl, by decide⟩, configured_inv.setPort _, ⟨_, rfl, by decide⟩,
    transferring_inv _ trivial (by simp [CTask.sound, isControllerOp, transferring]) (by simp [endsReleased, outsAfter]), rfl,
    ⟨_, rfl, by decide⟩⟩
  · exact registered_inv.congr rfl rfl rfl rfl rfl rfl rfl rfl rfl (fun _ => .inr rfl) rfl registered_inv.flags.memWf rfl rfl rfl
      rfl rfl
  · exact handling_inv .receivingData [.op .tAck, .op .tDetect, .afterDetect false] (by decide) trivial (by simp [TTask.sound, isTargetOp]) rfl ⟨rfl, rfl⟩

theorem witness_RolesAreReleased :
    let s := { configured with mode := .controller, port := [.word 0x60000000#32], inputs := [.turn .port] }
    ∃ t, step s = .next t ∧ s.mode = .controller ∧ t.mode = .unconfigured := ⟨_, rfl, by decide⟩

theorem witness_ResultsAreDelivered :
    Inv { configured with inputs := [.turn .port], answers := [], det := .bit, bitv := false, terr := false } ∧
    ∃ t, step { configured with inputs := [.turn .port], answers := [], det := .bit, bitv := false, terr := false } = .next t ∧
      t.responses = [] :=
  ⟨configured_inv.withNext _ _ _ _ _, _, rfl, by decide⟩

theorem witness_TerrIsSticky :
    let s := { registered with inputs := [.drive true false], answers := [], det := .bit, bitv := false, terr := true }
    let u := { handling .receivingData [.op (.onWriteReceived 0#8), .statusDecide] with
      inputs := [.turn .handler], answers := [1#8], det := .bit, bitv := false, terr := false }
    let v := { configured.setPort [.word 0x40000042#32] with
      inputs := [.turn .port], answers := [], det := .bit, bitv := false, terr := true }
    (Inv s ∧ s.terr = true ∧ s.nextInput ≠ .reset ∧ s.nextInput ≠ .turn .port ∧ ∃ t, step s = .next t ∧ t.edgePend = true) ∧
    (Inv u ∧ u.terr = false ∧ ∃ t, step u = .next t ∧ t.terr = true) ∧
    Inv v ∧ v.terr = true ∧ ∃ t, step v = .next t ∧ t.terr = false :=
  ⟨⟨registered_inv.withNext _ _ _ _ _, by decide, by decide, by decide, _, rfl, by decide⟩,
    ⟨(handling_inv .receivingData [.op (.onWriteReceived 0#8), .statusDecide] (by decide) trivial
      (by simp [TTask.sound, isTargetOp]) rfl ⟨rfl, rfl⟩).withNext _ _ _ _ _,
    by decide, _, rfl, by decide⟩,
    (configured_inv.setPort _).withNext _ _ _ _ _, by decide, _, rfl, by decide⟩

theorem witness_UnsanctionedIsSticky :
    let s := { registered with inputs := [.drive true false], unsanctioned := true }
    let u := handling .receivingData [.op .tWaitL, .op .tAck]
    let v := u.setPpos [.dat false]
    let w := { registered with inputs := [.drive true false], answers := [], det := .bit, bitv := false, terr := false }
    (∃ t, step s = .next t ∧ s.unsanctioned = true) ∧
    (u.mode = .target ∧ u.tfsm ≠ .idle ∧ u.watching = false ∧ u.sclOut = true ∧ u.peerScl = true ∧ (false : Level) ≠ u.peerSda) ∧
    (v.mode = .target ∧ v.tfsm ≠ .idle ∧ v.watching = false ∧ v.scl = true ∧
      ∃ t, stepWith (.turn .peer) v = .next t ∧ t.scl = true ∧ v.sda ≠ t.sda ∧ t.unsanctioned = true) ∧
    (∃ t, stepWith (.wire .wireStart) u = .next t ∧ u.scl = true ∧ t.scl = true ∧ u.sda ≠ t.sda ∧ t.unsanctioned = true) ∧
    (let x := handling .receivingData [.op .tAck, .op .tDetect, .afterDetect false]
     Inv x ∧ x.mode = .target ∧ x.tfsm ≠ .idle ∧ x.watching = false ∧ x.scl = true ∧
      ∃ t, stepWith (.turn .handler) x = .next t ∧ t.scl = true ∧ x.sda ≠ t.sda ∧ t.unsanctioned = true) ∧
    Inv w ∧ w.tfsm = .idle ∧ ∃ t, step w = .next t ∧ w.sda ≠ t.sda ∧ t.unsanctioned = false :=
  ⟨⟨_, rfl, by decide⟩, by decide, ⟨by decide, by decide, by decide, by decide, _, rfl, by decide⟩, ⟨_, rfl, by decide⟩,
    ⟨handling_inv .receivingData [.op .tAck, .op .tDetect, .afterDetect false] (by decide) trivial
      (by simp [TTask.sound, isTargetOp]) rfl ⟨rfl, rfl⟩, by decide, by decide, by decide, by decide, _, rfl, by decide⟩,
    registered_inv.withNext _ _ _ _ _, by decide, _, rfl, by decide⟩

end Sys2Proof.Machine
end

section
/-! The family of 10_state.md. First what a step can do, said once: which operation each agent's turn runs, what a command
accepted does, what the decisions of the two sequencers may set. The invariant, the frames of R38 and the rules about `RESULT`
and `TERR` are read off from it. -/

namespace Sys2Proof.Machine

/-! ## Buffers -/

/-- A write leaves every other byte. -/
theorem Memory.read_write_of_ne (m : Memory) {a k : Nat} (b : Byte) (h : a ≠ k) : (m.write k b).read a = m.read a := by
  induction m with
  | nil =>
    unfold Memory.write
    split
    · rfl
    · simp [Memory.read, h.symm]
  | cons c rest ih =>
    obtain ⟨j, v⟩ := c
    unfold Memory.write
    by_cases hlt : k < j
    · by_cases hb : b = absentByte <;> simp [hlt, hb, Memory.read, h.symm]
    · by_cases hj : k = j
      · subst hj
        by_cases hb : b = absentByte <;> simp [hb, Memory.read, h.symm]
      · simp [hlt, hj, Memory.read, ih]

/-- Filling the buffer of segment 0 leaves every byte outside the bytes filled. -/
theorem Memory.read_fill_of_ne (m : Memory) (i : Nat) (bytes : List Byte) {a : Nat}
    (h : ∀ j, j < bytes.length → a ≠ bufKey 0 (i + j)) : (m.fill i bytes).read a = m.read a := by
  induction bytes generalizing m i with
  | nil => rfl
  | cons b rest ih =>
    have later : ∀ j, j < rest.length → a ≠ bufKey 0 (i + 1 + j) := fun j hj => by
      have := h (j + 1) (by simpa using hj)
      rwa [show i + (j + 1) = i + 1 + j by omega] at this
    calc (Memory.fill (m.write (bufKey 0 i) b) (i + 1) rest).read a
        = (m.write (bufKey 0 i) b).read a := ih _ _ later
      _ = m.read a := m.read_write_of_ne b (h 0 (by simp))

/-! ## A command accepted -/

/-- The host's buffers when an operation is accepted: as they are, but for the bytes a `WRITE` or `WRITE_READ` gives (log 21). -/
inductive HostFills (m : Memory) : Instr → Memory → Prop
  | none (i : Instr) : HostFills m i m
  | write (addr : Addr) (bytes : List Byte) : HostFills m (.write addr bytes) (m.fill 0 bytes)
  | writeRead (addr : Addr) (bytes : List Byte) (n : BitVec 16) : HostFills m (.writeRead addr bytes n) (m.fill 0 bytes)

/-- What an accepted command can do to the state that finds it (41_controller_ops.md R160 to R176, 42_target_ops.md R190, R191). -/
inductive Accepted (s : State) (i : Instr) : State → Prop
  | refused (m : Memory) (r : Result) : HostFills s.mem i m → Accepted s i ((s.setMem m).deliver r)
  | configured (g : Grade) : Accepted s i
    ({ s with
      speed := Speed.ofGrade g, low := Config.nsToUnits (Config.lowNs g), high := Config.nsToUnits (Config.highNs g)
      cfgValid := true }.deliver .ok)
  | noSegment (m : Memory) : HostFills s.mem i m → s.mode ≠ .target →
    Accepted s i ({ s.setMem m with mode := .controller }.deliver .ok)
  | transferring (m : Memory) (addr : Addr) (segs : List Seg) (ts : List CTask) : HostFills s.mem i m → s.mode ≠ .target →
    Accepted s i
      { s.setMem m with mode := .controller, busy := true, cop := .transfer, xaddr := addr, xsegs := segs, cpos := ts }
  | recovering : s.mode ≠ .target → Accepted s i { s with busy := true, cop := .recover, cpos := recoverTasks }
  | registered (addr : Addr) : i = .registerTarget addr → s.mode = .unconfigured → Accepted s i
    ({ s with
      taddr := addr, tvalid := true, mode := .target, tfsm := .idle, edgePend := false, handlerPend := false
      terr := false, tlast := .notYet }.deliver .ok)
  | unregistered : s.mode = .target →
    Accepted s i ({ s with tvalid := false, mode := .unconfigured, edgePend := false }.deliver .ok)
  | released : s.mode ≠ .target → Accepted s i ({ s with mode := .unconfigured }.deliver .ok)

/-- A result delivered and nothing else. -/
theorem accepted_deliver (s : State) (i : Instr) (r : Result) : Accepted s i (s.deliver r) := .refused s.mem r (.none i)

/-- A transfer is refused, ends at once or starts (R163, R171). -/
theorem accepted_startTransfer {s : State} {i : Instr} {m : Memory} (hf : HostFills s.mem i m) (addr : Addr)
    (segs : List Seg) : Accepted s i ((s.setMem m).startTransfer addr segs) := by
  unfold State.startTransfer
  split
  · exact .refused m .modeError hf
  next hm =>
    split
    · exact .refused m .notConfigured hf
    · split
      · exact .noSegment m hf hm
      · exact .transferring m addr _ _ hf hm

/-- `CONFIGURE` is refused or takes its grade (R161). -/
theorem accepted_configure (s : State) (i : Instr) (code : BitVec 3) (a10 : Bool) : Accepted s i (s.configure code a10) := by
  unfold State.configure
  split
  · exact .configured _
  · exact accepted_deliver ..

/-- A recovery is refused or starts (R174). -/
theorem accepted_startRecover (s : State) (i : Instr) : Accepted s i s.startRecover := by
  unfold State.startRecover
  split
  · exact accepted_deliver ..
  next hm =>
    split
    · exact accepted_deliver ..
    · exact .recovering hm

/-- `REGISTER_TARGET` is refused or takes the role (R190). -/
theorem accepted_register (s : State) (addr : Addr) : Accepted s (.registerTarget addr) (s.register addr) := by
  unfold State.register
  split
  next hm => exact .registered addr rfl hm
  · exact accepted_deliver ..

/-- `UNREGISTER_TARGET` is refused or leaves the role (R191). -/
theorem accepted_unregister (s : State) (i : Instr) : Accepted s i s.unregister := by
  unfold State.unregister
  split
  · exact accepted_deliver ..
  next hm =>
    split
    · exact accepted_deliver ..
    · exact .unregistered (by simpa using hm)

/-- `RELEASE` is refused or leaves the role (R176). -/
theorem accepted_release (s : State) (i : Instr) : Accepted s i s.release := by
  unfold State.release
  split
  · exact accepted_deliver ..
  next hm => exact .released hm

/-- What acceptance answers with no command in execution is its effect. -/
theorem accepted_of_accept {s t : State} {i j : Instr} {f : State → State} (hb : s.busy = false) (hf : Accepted s i (f s))
    (h : s.accept j f = .next t) : Accepted s i t := by
  rw [State.accept_idle hb] at h
  exact Host.Outcome.next.inj h ▸ hf

/-- A command or pseudo-operation run with no command in execution is accepted. -/
theorem exec_accepted {i : Instr} {s t : State} (hi : i.isCommand = true ∨ i.isPseudo = true) (hb : s.busy = false)
    (h : exec i s = .next t) : Accepted s i t := by
  cases i
  case configure code a10 => exact accepted_of_accept (f := fun s => s.configure code a10) hb (accepted_configure ..) h
  case transfer addr segs =>
    exact accepted_of_accept (f := fun s => s.startTransfer addr segs) hb (accepted_startTransfer (.none _) ..) h
  case recover => exact accepted_of_accept hb (accepted_startRecover ..) h
  case registerTarget addr => exact accepted_of_accept (f := fun s => s.register addr) hb (accepted_register ..) h
  case unregisterTarget => exact accepted_of_accept hb (accepted_unregister ..) h
  case release => exact accepted_of_accept hb (accepted_release ..) h
  case illegal ws => exact accepted_of_accept (f := fun s => s.deliver .invalidCommand) hb (accepted_deliver ..) h
  case write addr bytes =>
    exact accepted_of_accept (f := fun s => (s.fillWrite bytes).startTransfer addr [writeSeg bytes true]) hb
      (accepted_startTransfer (.write addr bytes) ..) h
  case read addr n =>
    exact accepted_of_accept (f := fun s => s.startTransfer addr [readSeg n false]) hb (accepted_startTransfer (.none _) ..) h
  case writeRead addr bytes n =>
    exact accepted_of_accept (f := fun s => (s.fillWrite bytes).startTransfer addr [writeSeg bytes false, readSeg n true]) hb
      (accepted_startTransfer (.writeRead addr bytes n) ..) h
  case probe addr =>
    exact accepted_of_accept (f := fun s => s.startTransfer addr [writeSeg [] true]) hb (accepted_startTransfer (.none _) ..) h
  all_goals exact absurd hi (by simp [Instr.isCommand, Instr.isPseudo])

/-! ## What a step can do -/

/-- The operation at the front of the command port, and what stays on the port when it is taken. -/
inductive TakenFromPort (port : List PortItem) : Instr → List PortItem → Prop
  | call {i : Instr} {rest : List PortItem} : i.isPseudo = true → port = .call i :: rest → TakenFromPort port i rest
  | words {i : Instr} {w : Word} {items : List PortItem} {ws : List Word} : port = .word w :: items →
    decode (leadingWords port) = .ok (i, ws) → TakenFromPort port i (port.drop (1 + descCount w))

/-- What stands at the front of the port is a command or a pseudo-operation. -/
theorem TakenFromPort.isCommand {port rest : List PortItem} {i : Instr} (h : TakenFromPort port i rest) :
    i.isCommand = true ∨ i.isPseudo = true := by
  cases h with
  | call hi _ => exact .inr hi
  | words _ hd => exact .inl (decode_isCommand hd)

/-- What is taken from the port with no command in execution is accepted. -/
theorem TakenFromPort.accepted {s t : State} {port rest : List PortItem} {i : Instr} (hi : TakenFromPort port i rest)
    (hb : s.busy = false) (he : exec i (s.setPort rest) = .next t) : Accepted (s.setPort rest) i t :=
  exec_accepted (s := s.setPort rest) hi.isCommand hb he

/-- What the step of an input can do to the state that finds it, when that state has the invariant. -/
inductive StepCase (s : State) : Input → State → Prop
  | nothing (i : Input) : StepCase s i s
  | words (ws : List Word) : StepCase s (.words ws) (s.setPort (s.port ++ ws.map PortItem.word))
  | call (i : Instr) (items : List PortItem) : StepCase s (.call i) (s.setPort (s.port ++ items))
  | status : StepCase s (.call .statusRead) { s with statusOut := s.status }
  | noCall (rest : List PortItem) : StepCase s (.turn .port) (s.setPort rest)
  | accept {i : Instr} {rest : List PortItem} {t : State} : s.busy = false → TakenFromPort s.port i rest →
    exec i (s.setPort rest) = .next t → StepCase s (.turn .port) t
  | controller {i : Instr} {v t : State} : isControllerOp i = true →
    MidC (.op i :: s.cpos.tail) (s.setCpos s.cpos.tail) → exec i (s.setCpos s.cpos.tail) = .next v →
    settleC v.cpos v = .next t → StepCase s (.turn .controller) t
  | edge : s.edgePend = true → StepCase s (.turn .edge) s.takeEdge
  | handlerStart : s.handlerPend = true → StepCase s (.turn .handler) (s.startHandler.pollScl false .tWaitL)
  | handler {i : Instr} {v : State} : isTargetOp i = true → MidT (.op i :: s.tpos.tail) (s.setTpos s.tpos.tail) →
    exec i (s.setTpos s.tpos.tail) = .next v → StepCase s (.turn .handler) (settleT v.tpos v)
  | plan (ts : List PTask) : StepCase s (.turn .peer) (s.setPpos ts)
  | peer (c d : Level) (ts : List PTask) : StepCase s (.turn .peer) ((s.drivePeers c d).setPpos ts)
  | wire (i : Instr) (c d : Level) (ts : List PTask) : StepCase s (.wire i) ((s.drivePeers c d).setPpos ts)
  | drive (c d : Level) : StepCase s (.drive c d) (s.drivePeers c d)
  | answer (b : Byte) : StepCase s (.answer b) (s.layAnswer b)
  | bufWrite (k : BitVec 8) (i : BitVec 16) (b : Byte) :
    StepCase s (.bufWrite k i b) (s.setMem (s.mem.write (bufKey k.toNat i.toNat) b))
  | reset : StepCase s .reset s.resetEngine

/-- A position with something left belongs to a command in execution. -/
theorem Inv.busy_of_cpos {s : State} (h : Inv s) (hc : s.cpos ≠ []) : s.busy = true := by
  by_contra hb
  exact hc (h.controller.restDone (by simpa using hb))

/-- The controller sequencer with this operation to perform, in front of the rest of its position. -/
theorem Inv.midC {s : State} (h : Inv s) {i : Instr} (hc : s.cpos ≠ []) (hi : isControllerOp i = true)
    (hrel : endsReleased (.op i :: s.cpos.tail) s.sclOut s.sdaOut) :
    MidC (.op i :: s.cpos.tail) (s.setCpos s.cpos.tail) where
  flags := h.flags.congr' rfl rfl rfl rfl rfl rfl rfl rfl rfl rfl rfl rfl
  target := h.target.congr rfl rfl rfl rfl rfl
  busy := h.busy_of_cpos hc
  sound t ht := by
    rcases List.mem_cons.1 ht with rfl | ht
    · exact hi
    · exact h.controller.busySound t (List.mem_of_mem_tail ht)
  rel := hrel

/-- An operation of the controller run in its turn is a step of the controller sequencer. -/
theorem stepCase_run_controller {s t : State} {i : Instr} (m : MidC (.op i :: s.cpos.tail) (s.setCpos s.cpos.tail))
    (hi : isControllerOp i = true) (ht : carryOut (.run .controller i (s.setCpos s.cpos.tail)) = .next t) :
    StepCase s (.turn .controller) t := by
  simp only [carryOut] at ht
  rcases hv : exec i (s.setCpos s.cpos.tail) with v | f | r <;> rw [hv] at ht
  · exact .controller hi m hv ht
  · cases ht
  · cases ht

/-- The controller's turn (41_controller_ops.md R164): a byte to be sent exists, so the turn never stops. -/
theorem stepCase_controller {s t : State} (h : Inv s) (ht : carryOut (fetchController s) = .next t) :
    StepCase s (.turn .controller) t := by
  have hsound := h.controller.busySound
  have hrel := fun hc => h.controller.busyReleases (h.busy_of_cpos hc)
  unfold fetchController at ht
  split at ht
  next => cases ht; exact .nothing _
  next i rest hc =>
    have hne : s.cpos ≠ [] := by simp [hc]
    obtain rfl : s.cpos.tail = rest := by rw [hc]; rfl
    rw [hc] at hsound hrel
    have hi : isControllerOp i = true := hsound _ (List.mem_cons_self ..)
    exact stepCase_run_controller (h.midC hne hi (hrel (by simp))) hi ht
  next k j rest hc =>
    have hne : s.cpos ≠ [] := by simp [hc]
    obtain rfl : s.cpos.tail = rest := by rw [hc]; rfl
    rw [hc] at hsound hrel
    obtain ⟨g, hg, hj⟩ := hsound _ (List.mem_cons_self ..)
    rw [State.bufLoad_some hg hj] at ht
    exact stepCase_run_controller (i := .cWbyte _) (h.midC hne rfl (hrel (by simp))) rfl ht
  next => cases ht; exact .nothing _

/-- The running handler with this operation to perform, in front of the rest of its position. -/
theorem Inv.midT {s : State} (h : Inv s) {i : Instr} {rest : List TTask} (hp : s.handlerPend = false)
    (hc : s.tpos = .op i :: rest) : MidT (.op i :: rest) (s.setTpos rest) := by
  have hrun : s.tfsm ≠ .idle := fun hi => by simp [h.target.idleEmpty hi] at hc
  exact {
    flags := h.flags.congr' rfl rfl rfl rfl rfl rfl rfl rfl rfl rfl rfl rfl
    controller := h.controller.congr rfl rfl rfl rfl (fun _ => rfl) rfl (fun _ => rfl)
    mode := h.flags.transactionIsTarget hrun
    run := hrun
    pend := hp
    sound := hc ▸ h.target.runSound
    rel := hc ▸ h.target.runReleases hrun hp
    phase := hc ▸ h.target.runPhase hrun hp }

/-- The first step of the handler decides nothing: it stands at the address phase, the poll made or to be made again. -/
theorem settleT_startHandler (s : State) : settleT (s.startHandler.pollScl false .tWaitL).tpos
    (s.startHandler.pollScl false .tWaitL) = s.startHandler.pollScl false .tWaitL := by
  unfold State.pollScl
  split <;> rfl

/-- The deferred context's turn (42_target_ops.md R196). -/
theorem stepCase_handler {s t : State} (h : Inv s) (ht : carryOut (fetchHandler s) = .next t) :
    StepCase s (.turn .handler) t := by
  unfold fetchHandler at ht
  split at ht
  next hp =>
    obtain rfl : settleT _ _ = t := Host.Outcome.next.inj ht
    rw [settleT_startHandler]
    exact .handlerStart hp
  next hp =>
    split at ht
    next i rest hc =>
      have m := h.midT (by simpa using hp) hc
      have hi : isTargetOp i = true := m.sound _ (List.mem_cons_self ..)
      obtain rfl : s.tpos.tail = rest := by rw [hc]; rfl
      simp only [carryOut] at ht
      rcases hv : exec i (s.setTpos s.tpos.tail) with v | f | r <;> rw [hv] at ht <;> cases ht
      exact .handler hi m hv
    next => cases ht; exact .nothing _

/-- The port's turn (41_controller_ops.md R160). -/
theorem stepCase_port {s t : State} (ht : carryOut (fetchPort s) = .next t) : StepCase s (.turn .port) t := by
  unfold fetchPort at ht
  split at ht
  next => cases ht; exact .nothing _
  next hb =>
    have hb : s.busy = false := by simpa using hb
    split at ht
    next => cases ht; exact .nothing _
    next i rest hp =>
      split at ht
      next hi => exact .accept hb (.call hi hp) (run_env ht)
      next => cases ht; exact .noCall rest
    next w items hp =>
      split at ht
      next i ws hd => exact .accept hb (.words hp hd) (run_env ht)
      next => cases ht; exact .nothing _

/-- An element of the wire format begun is one change of the peers' outputs, the rest of it planned (30_encoding.md R91 to R95). -/
theorem exec_wire {i : Instr} {s t : State} (hi : i.isWire = true) (h : exec i s = .next t) :
    ∃ c d ts, t = (s.drivePeers c d).setPpos ts := by
  cases i
  case wireStart =>
    cases h
    exact ⟨s.peerScl, false, s.ppos, rfl⟩
  case wireRestart | wireStop | bitCell | byteFrame | addressByte | acknowledge =>
    cases h
    exact ⟨_, _, _, rfl⟩
  all_goals exact absurd hi Bool.false_ne_true

/-- What a peer may begin, begun: nothing, or one change of the peers' outputs. -/
theorem fetchWire_cases {i : Instr} {s t : State} (h : carryOut (fetchWire i s) = .next t) :
    t = s ∨ ∃ c d ts, t = (s.drivePeers c d).setPpos ts := by
  unfold fetchWire at h
  split at h
  next hi => exact .inr (exec_wire hi (run_env h))
  next => cases h; exact .inl rfl

/-- The scripted peer's turn (log 19). -/
theorem stepCase_peer {s t : State} (ht : carryOut (fetchPeer s) = .next t) : StepCase s (.turn .peer) t := by
  unfold fetchPeer at ht
  split at ht
  next => cases ht; exact .nothing _
  next l rest _ => cases ht; exact .peer l s.peerSda rest
  next l rest _ => cases ht; exact .peer s.peerScl l rest
  next rest _ =>
    cases ht
    split
    · exact .plan rest
    · exact .nothing _
  next rest _ =>
    cases ht
    split
    · exact .nothing _
    · exact .plan rest
  next i rest _ =>
    obtain rfl | ⟨c, d, ts, rfl⟩ := fetchWire_cases ht
    · exact .plan rest
    · exact .peer c d ts

/-- A call of the host (30_encoding.md R111, 10_state.md R37). -/
theorem stepCase_call {s t : State} {i : Instr} (ht : carryOut (fetchCall i s) = .next t) : StepCase s (.call i) t := by
  unfold fetchCall at ht
  split at ht
  next g => cases ht; exact .call _ _
  next => cases ht; exact .status
  next =>
    split at ht
    · cases ht; exact .call _ _
    · cases ht; exact .nothing _

/-- What the step of an input can do. -/
theorem stepCase_of_carryOut {s t : State} {i : Input} (h : Inv s) (ht : carryOut (fetchInput i s) = .next t) :
    StepCase s i t := by
  cases i with
  | turn a =>
    cases a with
    | port => exact stepCase_port ht
    | controller => exact stepCase_controller h ht
    | edge =>
      simp only [fetchInput, fetchTurn, fetchEdge] at ht
      split at ht
      next he => cases ht; exact .edge he
      next => cases ht; exact .nothing _
    | handler => exact stepCase_handler h ht
    | peer => exact stepCase_peer ht
  | words ws => cases ht; exact .words ws
  | call i => exact stepCase_call ht
  | drive c d => cases ht; exact .drive c d
  | wire i =>
    obtain rfl | ⟨c, d, ts, rfl⟩ := fetchWire_cases ht
    · exact .nothing _
    · exact .wire i c d ts
  | answer b => cases ht; exact .answer b
  | bufWrite k i b => cases ht; exact .bufWrite k i b
  | reset => cases ht; exact .reset

/-- What a step can do: its input is used up, and then that input's step is made. -/
theorem stepCase_of_step {s t : State} (h : Inv s) (ht : step s = .next t) : StepCase s.dropInput s.nextInput t :=
  stepCase_of_carryOut h.dropInput ht

/-- What a step can do whose input is laid down. -/
theorem stepCase_of_stepWith {s t : State} {i : Input} (h : Inv s) (ht : stepWith i s = .next t) : StepCase s i t :=
  stepCase_of_carryOut h ((stepWith_eq i s).symm.trans ht)

/-! ## The invariant -/

/-- Settles O53. -/
theorem resetHasInvariant : Obligations.ResetHasInvariant := by
  unfold Obligations.ResetHasInvariant
  refine ⟨⟨?_, ?_, ?_, ?_, ?_, ?_, ?_, ?_, ?_, reset_mem_wf⟩, ⟨?_, ?_, ?_, ?_, ?_, ?_⟩, ⟨?_, ?_, ?_, ?_, ?_, ?_, ?_, ?_⟩⟩ <;>
    simp [State.reset, State.resetWith, Config.resetSpeed]

/-- The reset event keeps the invariant: it leaves the engine as at reset, and an engine at reset latches no edge. -/
theorem Inv.resetEngine {s : State} (h : Inv s) : Inv s.resetEngine :=
  Inv.congr (s := State.reset) resetHasInvariant rfl rfl rfl rfl rfl rfl rfl rfl rfl (fun he => observe_edge s _ he) rfl
    h.flags.memWf rfl rfl rfl rfl rfl

/-- Every case of a step keeps the invariant. -/
theorem StepCase.inv {s t : State} {i : Input} (h : Inv s) (hs : StepCase s i t) : Inv t := by
  cases hs with
  | nothing => exact h
  | words | call | noCall => exact h.setPort _
  | status => exact h.congr rfl rfl rfl rfl rfl rfl rfl rfl rfl .inl rfl h.flags.memWf rfl rfl rfl rfl rfl
  | accept _ hi he => exact inv_envOp (h.setPort _) hi.isCommand he
  | controller hi m he hset => exact carry_controller hi m rfl he hset
  | edge he => exact inv_edge h he
  | handlerStart hp => exact settleT_startHandler s ▸ inv_start h hp
  | handler hi m he => exact carry_handler hi m rfl he
  | plan => exact h.setPpos _
  | peer | wire => exact (h.drivePeers _ _).setPpos _
  | drive => exact h.drivePeers _ _
  | answer => exact h.layAnswer _
  | bufWrite => exact h.setMem (Memory.write_wf _ _ h.flags.memWf)
  | reset => exact h.resetEngine

/-- Settles O54, by the cases of a step. -/
theorem stepKeepsInvariant : Obligations.StepKeepsInvariant := by
  unfold Obligations.StepKeepsInvariant
  intro s t h ht
  exact (stepCase_of_step h ht).inv h.dropInput

/-- Every reachable state has the invariant. -/
theorem Reachable.inv {s : State} (h : Reachable s) : Inv s := by
  induction h with
  | reset => exact resetHasInvariant
  | lay s is bs _ ih =>
    exact ih.congr rfl rfl rfl rfl rfl rfl rfl rfl rfl .inl rfl ih.flags.memWf rfl rfl rfl rfl rfl
  | step s t _ hstep ih => exact stepKeepsInvariant s t ih hstep

/-- The invariant gives the nine of 10_state.md R39. -/
theorem Inv.r39 {s : State} (h : Inv s) : R39 s where
  addr10Zero := rfl
  tvalidIff := h.flags.tvalidIff
  transactionIsTarget := h.flags.transactionIsTarget
  busyNotTarget := h.flags.busyNotTarget
  transferIsController := h.flags.transferIsController
  handlerPendAddress := h.flags.handlerPendAddress
  edgePendArmed := h.flags.edgePendArmed
  restReleased hb hi := by
    refine ⟨h.controller.restClock hb, ?_⟩
    by_cases hm : s.mode = .target
    · exact h.target.idleData hm hi
    · exact h.controller.restData hb hm
  clockLowBusy hc := by
    by_contra hb
    have := h.controller.restClock (by simpa using hb)
    simp [hc] at this

/-- Settles O55: the invariant holds along every run. -/
theorem reachableStates : Obligations.ReachableStates := by
  unfold Obligations.ReachableStates
  exact fun s h => h.inv.r39

/-! ## What the sequencers' decisions may set -/

/-- The decisions in `l` change no buffer byte but those they store. -/
def StoresOnly (l : List CTask) (before after : Memory) : Prop :=
  (storesReached l = [] → after = before) ∧
  ∀ a : Nat, (∀ k i : Nat, (k, i) ∈ storesReached l → a ≠ bufKey k i) → after.read a = before.read a

/-- No byte changed. -/
theorem StoresOnly.refl (l : List CTask) (m : Memory) : StoresOnly l m m := ⟨fun _ => rfl, fun _ _ => rfl⟩

/-- A store, then the decisions after it. -/
theorem StoresOnly.store {rest : List CTask} {k i : Nat} {m m' : Memory} {b : Byte}
    (h : StoresOnly rest (m.write (bufKey k i) b) m') : StoresOnly (.store k i :: rest) m m' := by
  refine ⟨fun he => by simp at he, fun a ha => ?_⟩
  calc m'.read a = (m.write (bufKey k i) b).read a := h.2 a fun j n hj => ha j n (by simp [hj])
    _ = m.read a := m.read_write_of_ne b (ha k i (by simp))

/-- What the controller's decisions may set on the way: the bit and the acknowledge sampled, `CSR`, the buffers. -/
def State.decidedC (s : State) (v c : Level) (x : Byte) (m : Memory) : State :=
  { s with bitv := v, cack := c, csr := x, mem := m }

/-- What the controller's decisions come to: the next micro-operation, with `CABORT` chosen or as it was, or the completion. -/
inductive SettledC (l : List CTask) (s : State) : State → Prop
  | next (v c : Level) (x : Byte) (m : Memory) (r : Result) (l' : List CTask) : StoresOnly l s.mem m →
    SettledC l s (((s.decidedC v c x m).setCabort r).setCpos l')
  | complete (v c : Level) (x : Byte) (m : Memory) (r : Result) : StoresOnly l s.mem m →
    SettledC l s ((s.decidedC v c x m).complete r)

/-- A decision that sets what it may, then the decisions after it. -/
theorem SettledC.after {l l' : List CTask} {s u t : State} (h : SettledC l u t)
    (hu : ∀ v c x m, u.decidedC v c x m = s.decidedC v c x m)
    (hm : ∀ m, StoresOnly l u.mem m → StoresOnly l' s.mem m) : SettledC l' s t := by
  cases h with
  | next v c x m r k h => rw [hu]; exact .next v c x m r k (hm m h)
  | complete v c x m r h => rw [hu]; exact .complete v c x m r (hm m h)

/-- A decision that ends at this position, with this `CABORT`. -/
theorem SettledC.here (l : List CTask) (s : State) (r : Result) (l' : List CTask) :
    SettledC l s ((s.setCabort r).setCpos l') :=
  .next s.bitv s.cack s.csr s.mem r l' (.refl ..)

/-- Going on ends at a position. -/
theorem SettledC.goTo (l : List CTask) (s : State) (k i : Nat) : SettledC l s (s.goTo k i) := by
  unfold State.goTo
  split
  · exact .here l s s.cabort _
  · exact .here l s .ok _

/-- What the controller's decisions come to (41_controller_ops.md R164, R174). -/
theorem settledC_of_settleC {l : List CTask} {s t : State} (h : settleC l s = .next t) : SettledC l s t := by
  induction l generalizing s with
  | nil => cases h; exact .here _ s s.cabort _
  | cons d rest ih =>
    cases d with
    | op | send => cases h; exact .here _ s s.cabort _
    | untilHigh | entryTest =>
      simp only [settleC] at h
      split at h
      · exact (ih h).after (fun _ _ _ _ => rfl) fun _ hm => hm
      · cases h; exact .here _ s s.cabort _
    | takeBit | takeAck | shiftCsr => exact (ih h).after (fun _ _ _ _ => rfl) fun _ hm => hm
    | addrCheck | dataCheck =>
      cases h
      split
      · exact .here _ s _ _
      · exact .goTo ..
    | store k i =>
      simp only [settleC] at h
      split at h
      next u hu =>
        cases State.bufStore_eq hu
        exact (ih h).after (fun _ _ _ _ => rfl) fun _ hm => hm.store
      next => cases h
    | nextByte => cases h; exact .goTo ..
    | complete | recCheck => cases h; exact .complete s.bitv s.cack s.csr s.mem _ (.refl ..)

/-- What the handler's decisions may set on the way: the phase, `TSR`, `TDIR`, `TFIRST`, the bit sampled, what `T_DETECT` returned. -/
def State.decidedT (s : State) (p : Tfsm) (x : Byte) (rd : Bool) (f : Option Level) (v : Level) (d : Detect) : State :=
  { s with tfsm := p, tsr := x, tdir := rd, tfirst := f, bitv := v, det := d }

/-- What the handler's decisions come to: the next operation, or the end of the handler, where a callback's error ends it out of
`ReceivingData` only (42_target_ops.md R210, R214). -/
inductive SettledT (l : List TTask) (s : State) : State → Prop
  | next (p : Tfsm) (x : Byte) (rd : Bool) (f : Option Level) (v : Level) (d : Detect) (l' : List TTask) :
    SettledT l s ((s.decidedT p x rd f v d).setTpos l')
  | finish (p : Tfsm) (x : Byte) (rd : Bool) (f : Option Level) (v : Level) (d : Detect) (o : TLast) :
    (phaseFits l s.tfsm s.tdir → o = .callbackError → s.tfsm = .receivingData) →
    SettledT l s ((s.decidedT p x rd f v d).finishHandler o)

/-- A decision that sets what it may, then the decisions after it. -/
theorem SettledT.after {l l' : List TTask} {s u t : State} (h : SettledT l u t)
    (hu : ∀ p x rd f v d, u.decidedT p x rd f v d = s.decidedT p x rd f v d)
    (hp : phaseFits l' s.tfsm s.tdir → phaseFits l u.tfsm u.tdir) (ht : u.tfsm = s.tfsm) : SettledT l' s t := by
  cases h with
  | next p x rd f v d k => rw [hu]; exact .next p x rd f v d k
  | finish p x rd f v d o h => rw [hu]; exact .finish p x rd f v d o fun hl ho => ht ▸ h (hp hl) ho

/-- What the handler's decisions come to (42_target_ops.md R208, R210). -/
theorem settledT_settleT (l : List TTask) (s : State) : SettledT l s (settleT l s) := by
  induction l generalizing s with
  | nil => exact .next ..
  | cons d rest ih =>
    cases d with
    | takeBit | shiftTsr => exact (ih _).after (fun _ _ _ _ _ _ => rfl) id rfl
    | watchClk | watchDat =>
      simp only [settleT]
      split
      · exact .next ..
      · exact (ih _).after (fun _ _ _ _ _ _ => rfl) id rfl
    | addrDecide =>
      simp only [settleT, State.addressPhaseEnd]
      split
      · exact .finish _ _ _ _ _ _ _ fun _ ho => by cases ho
      · split <;> exact .next ..
    | rackDecide =>
      simp only [settleT]
      split
      · exact .finish _ _ _ _ _ _ _ fun _ ho => by cases ho
      · exact .next ..
    | afterDetect first =>
      simp only [settleT, State.afterDetection]
      split
      · exact .next ..
      · exact .next ..
      · split <;> exact .next ..
    | statusDecide =>
      simp only [settleT]
      split
      · exact .next ..
      · exact .finish _ _ _ _ _ _ _ fun hp _ => hp.1
    | finish o => exact .finish _ _ _ _ _ _ _ fun hp ho => by cases hp.1.symm.trans ho
    | op | watchFirst | beginSend | loadByte | readData | deliver => exact .next ..

/-! ## Frames of the agents' turns (10_state.md R38) -/

/-- The state with everything hidden that a command accepted may change. -/
def State.hidePort (s : State) : State :=
  { s with
    mode := .unconfigured, cfgValid := false, speed := .unset, low := 0, high := 0, tvalid := false, taddr := 0#7, tfsm := .idle
    edgePend := false, handlerPend := false, terr := false, tlast := .notYet, busy := false, cop := .idle, result := .ok
    responses := [], xaddr := 0#7, xsegs := [], cpos := [], mem := [], port := [] }

/-- Equal but for what is hidden: the frame of a command accepted. -/
theorem framePort_of_hide {s t : State} (h : t.hidePort = s.hidePort) : FramePort s t := by
  unfold FramePort
  obtain ⟨⟩ := s; obtain ⟨⟩ := t
  simp only [State.hidePort, State.mk.injEq] at h ⊢
  simp [h]

/-- A command accepted changes what it may. -/
theorem Accepted.hidePort {s t : State} {i : Instr} (h : Accepted s i t) : t.hidePort = s.hidePort := by
  cases h <;> rfl

/-- A command accepted leaves the buffers as the host does. -/
theorem Accepted.hostFills {s t : State} {i : Instr} (h : Accepted s i t) : HostFills s.mem i t.mem := by
  cases h with
  | refused _ _ hf | noSegment _ hf _ | transferring _ _ _ _ hf _ => exact hf
  | configured | recovering | registered | unregistered | released => exact .none i

/-- The state with everything hidden that a turn of the controller sequencer may change. -/
def State.hideControllerTurn (s : State) : State :=
  { s with
    busy := false, cop := .idle, result := .ok, responses := [], cpos := [], csr := 0#8, cack := false, cabort := .ok
    got := false, bitv := false, sclOut := false, sdaOut := false, mem := [], elapsed := 0, busOpen := false
    lastCond := none }

/-- Equal but for what is hidden: the frame of a turn of the controller sequencer. -/
theorem frameControllerTurn_of_hide {s t : State} (h : t.hideControllerTurn = s.hideControllerTurn) :
    FrameControllerTurn s t := by
  unfold FrameControllerTurn
  obtain ⟨⟩ := s; obtain ⟨⟩ := t
  simp only [State.hideControllerTurn, State.mk.injEq] at h ⊢
  simp [h]

/-- The decisions of the controller sequencer change what its turn may. -/
theorem SettledC.hideControllerTurn {l : List CTask} {s t : State} (h : SettledC l s t) :
    t.hideControllerTurn = s.hideControllerTurn := by
  cases h <;> rfl

/-- Outside `Target` mode no line change sets the mark of unsanctioned behaviour. -/
theorem observe_unsanctioned_of_not {b s : State} (hm : s.mode ≠ .target) :
    (b.observe s).unsanctioned = s.unsanctioned := by
  simp [State.observe, State.inTransaction, hm]

/-- An operation of the controller sets no mark of unsanctioned behaviour. -/
theorem exec_controller_unsanctioned {i : Instr} (hi : isControllerOp i = true) {s t : State} (h : exec i s = .next t)
    (hm : s.mode ≠ .target) : t.unsanctioned = s.unsanctioned := by
  cases i
  case getScl | getSda | delay => cases h; rfl
  case setScl | setSda | cRaise | cPrestart | cStart | cRstart | cStop | cWbit | cRbit | cWbyte | cRbyte =>
    cases h
    exact observe_unsanctioned_of_not hm
  all_goals exact absurd hi Bool.false_ne_true

/-- An operation of the controller changes what its turn may. -/
theorem exec_controller_hideTurn {i : Instr} (hi : isControllerOp i = true) {s t : State} (h : exec i s = .next t)
    (hm : s.mode ≠ .target) : t.hideControllerTurn = s.hideControllerTurn := by
  have hidden : ∀ x : State, x.hideControllerTurn
      = State.hideControllerTurn { x.hideC with edgePend := x.edgePend, unsanctioned := x.unsanctioned } := fun _ => rfl
  rw [hidden t, hidden s, exec_controller_frame hi h, exec_controller_edge hi h hm, exec_controller_unsanctioned hi h hm]

/-- An operation of the controller stands in front of what was to be done, or leaves it as it was: no store comes nearer but those
already next. -/
theorem exec_controller_stores {i : Instr} (hi : isControllerOp i = true) {s t : State} (h : exec i s = .next t) :
    storesReached t.cpos = [] ∨ storesReached t.cpos = storesReached s.cpos := by
  cases i
  case setScl | setSda | getScl | getSda | delay => cases h; exact .inr rfl
  case cPrestart | cStart | cRstart | cStop | cWbit | cRbit | cWbyte | cRbyte => cases h; exact .inl rfl
  case cRaise =>
    cases h
    show storesReached (stretchTasks Config.stretchWait ++ s.cpos) = [] ∨ _ = _
    cases Config.stretchWait
    · exact .inr rfl
    · exact .inl rfl
  all_goals exact absurd hi Bool.false_ne_true

/-- What the decisions store, their turn stores. -/
theorem StoresOnly.of_reached {l l' : List CTask} {m m' : Memory} (h : StoresOnly l m m')
    (hl : storesReached l = [] ∨ storesReached l = storesReached l') : StoresOnly l' m m' := by
  rcases hl with hl | hl
  · have : m' = m := h.1 hl
    exact this ▸ .refl l' m
  · unfold StoresOnly
    rw [← hl]
    exact h

/-- The decisions of the controller sequencer store what they reach. -/
theorem SettledC.storesOnly {l : List CTask} {s t : State} (h : SettledC l s t) : StoresOnly l s.mem t.mem := by
  cases h with
  | next _ _ _ _ _ _ h => exact h
  | complete _ _ _ _ _ h => exact h

/-- The state with everything hidden that a turn of the deferred context may change. -/
def State.hideHandlerTurn (s : State) : State :=
  { s with
    handlerPend := false, tfsm := .idle, tpos := [], tsr := 0#8, tdir := false, tfirst := none, terr := false, tlast := .notYet
    got := false, bitv := false, det := .bit, ans := 0#8, calls := [], answers := [], tick := 0, sdaOut := false
    busOpen := false, lastCond := none, unsanctioned := false }

/-- Equal but for what is hidden: the frame of a turn of the deferred context. -/
theorem frameHandlerTurn_of_hide {s t : State} (h : t.hideHandlerTurn = s.hideHandlerTurn) : FrameHandlerTurn s t := by
  unfold FrameHandlerTurn
  obtain ⟨⟩ := s; obtain ⟨⟩ := t
  simp only [State.hideHandlerTurn, State.mk.injEq] at h ⊢
  simp [h]

/-- The decisions of the handler change what its turn may. -/
theorem SettledT.hideHandlerTurn {l : List TTask} {s t : State} (h : SettledT l s t) :
    t.hideHandlerTurn = s.hideHandlerTurn := by
  cases h <;> rfl

/-- An operation of the running handler changes what its turn may. -/
theorem exec_target_hideTurn {i : Instr} (hi : isTargetOp i = true) {s t : State} (h : exec i s = .next t)
    (hr : s.tfsm ≠ .idle) : t.hideHandlerTurn = s.hideHandlerTurn := by
  have hidden : ∀ x : State, x.hideHandlerTurn = State.hideHandlerTurn { x.hideT with edgePend := x.edgePend } :=
    fun _ => rfl
  rw [hidden t, hidden s, exec_target_frame hi h, exec_target_edge hi h hr]

/-! ## Frames of whole turns -/

/-- A turn of the port keeps R38's frame. -/
theorem StepCase.framePort {s t : State} (h : StepCase s (.turn .port) t) : FramePort s t := by
  cases h with
  | nothing => rfl
  | noCall => rfl
  | accept hb hi he => exact framePort_of_hide (hi.accepted hb he).hidePort

/-- A turn of the port writes buffer bytes only for the `WRITE` or `WRITE_READ` it takes, and only those given (log 21). -/
theorem StepCase.portMemory {s t : State} (h : StepCase s (.turn .port) t) :
    t.mem = s.mem ∨ ∃ (addr : Addr) (bytes : List Byte) (n : BitVec 16) (rest : List PortItem),
      (s.port = .call (.write addr bytes) :: rest ∨ s.port = .call (.writeRead addr bytes n) :: rest) ∧
      ∀ a : Nat, (∀ i : Nat, i < bytes.length → a ≠ bufKey 0 i) → t.mem.read a = s.mem.read a := by
  have filled : ∀ (m : Memory) (bytes : List Byte) (a : Nat), (∀ i : Nat, i < bytes.length → a ≠ bufKey 0 i) →
      (m.fill 0 bytes).read a = m.read a :=
    fun m bytes a ha => m.read_fill_of_ne 0 bytes fun j hj => by simpa using ha j hj
  cases h with
  | nothing => exact .inl rfl
  | noCall => exact .inl rfl
  | @accept i rest _ hb hi he =>
    have hf : HostFills s.mem i t.mem := (hi.accepted hb he).hostFills
    generalize t.mem = m at hf ⊢
    cases hf with
    | none => exact .inl rfl
    | write addr bytes =>
      cases hi with
      | call _ hp => exact .inr ⟨addr, bytes, 0#16, rest, .inl hp, filled _ _⟩
      | words _ hd => exact absurd (decode_isCommand hd) Bool.false_ne_true
    | writeRead addr bytes n =>
      cases hi with
      | call _ hp => exact .inr ⟨addr, bytes, n, rest, .inr hp, filled _ _⟩
      | words _ hd => exact absurd (decode_isCommand hd) Bool.false_ne_true

/-- A turn of the controller sequencer changes what it may. -/
theorem StepCase.hideControllerTurn {s t : State} (h : StepCase s (.turn .controller) t) :
    t.hideControllerTurn = s.hideControllerTurn := by
  cases h with
  | nothing => rfl
  | @controller i v _ hi m he hset =>
    calc t.hideControllerTurn = v.hideControllerTurn := (settledC_of_settleC hset).hideControllerTurn
      _ = (s.setCpos s.cpos.tail).hideControllerTurn := exec_controller_hideTurn hi he m.notTarget
      _ = s.hideControllerTurn := rfl

/-- A turn of the controller sequencer stores only the bytes whose stores it reaches (20_memory.md R67). -/
theorem StepCase.storesOnly {s t : State} (h : StepCase s (.turn .controller) t) : StoresOnly s.cpos.tail s.mem t.mem := by
  cases h with
  | nothing => exact .refl ..
  | @controller i v _ hi m he hset =>
    have hmem : v.mem = s.mem := (congrArg State.mem (exec_controller_frame hi he) :)
    rw [← hmem]
    exact (settledC_of_settleC hset).storesOnly.of_reached (exec_controller_stores hi he)

/-- A turn of the edge context keeps R38's frame. -/
theorem StepCase.frameEdge {s t : State} (h : StepCase s (.turn .edge) t) : FrameEdgeTurn s t := by
  cases h with
  | nothing => rfl
  | edge => unfold State.takeEdge; split <;> rfl

/-- A turn of the deferred context changes what it may. -/
theorem StepCase.hideHandlerTurn {s t : State} (h : StepCase s (.turn .handler) t) :
    t.hideHandlerTurn = s.hideHandlerTurn := by
  cases h with
  | nothing => rfl
  | handlerStart => unfold State.pollScl; split <;> rfl
  | @handler i v hi m he =>
    calc (settleT v.tpos v).hideHandlerTurn = v.hideHandlerTurn := (settledT_settleT ..).hideHandlerTurn
      _ = (s.setTpos s.tpos.tail).hideHandlerTurn := exec_target_hideTurn hi he m.run
      _ = s.hideHandlerTurn := rfl

/-- A turn of the scripted peer keeps its frame. -/
theorem StepCase.framePeer {s t : State} (h : StepCase s (.turn .peer) t) : FramePeer s t := by
  cases h <;> rfl

/-- Settles O56, agent by agent. -/
theorem whoWritesWhat : Obligations.WhoWritesWhat := by
  unfold Obligations.WhoWritesWhat
  intro s t h
  refine ⟨fun ht => ?_, fun ht => ?_, fun ht => ?_, fun ht => ?_, fun ht => ?_⟩
  · have hs := stepCase_of_stepWith h ht
    exact ⟨hs.framePort, hs.portMemory⟩
  · have hs := stepCase_of_stepWith h ht
    exact ⟨frameControllerTurn_of_hide hs.hideControllerTurn, hs.storesOnly⟩
  · exact (stepCase_of_stepWith h ht).frameEdge
  · exact frameHandlerTurn_of_hide (stepCase_of_stepWith h ht).hideHandlerTurn
  · exact (stepCase_of_stepWith h ht).framePeer

/-! ## Results (10_state.md R28) -/

/-- One result is delivered, written to `RESULT` in the same step; or none is, and `RESULT` is as before. -/
def Delivers (s t : State) : Prop :=
  t.responses = t.result :: s.responses ∨ (t.responses = s.responses ∧ t.result = s.result)

/-- A command accepted delivers one result, or starts. -/
theorem Accepted.delivers {s t : State} {i : Instr} (h : Accepted s i t) : Delivers s t := by
  cases h with
  | refused | configured | noSegment | registered | unregistered | released => exact .inl rfl
  | transferring | recovering => exact .inr ⟨rfl, rfl⟩

/-- The decisions of the controller sequencer deliver one result exactly at a completion. -/
theorem SettledC.delivers {l : List CTask} {s t : State} (h : SettledC l s t) : Delivers s t := by
  cases h with
  | next => exact .inr ⟨rfl, rfl⟩
  | complete => exact .inl rfl

/-- Every case of a step but reset delivers one result or leaves `RESULT` and the response port. -/
theorem StepCase.delivers {s t : State} {i : Input} (hs : StepCase s i t) (hr : i ≠ .reset) : Delivers s t := by
  cases hs with
  | nothing | words | call | status | noCall | plan | peer | wire | drive | answer | bufWrite => exact .inr ⟨rfl, rfl⟩
  | accept hb hi he => exact (hi.accepted hb he).delivers
  | @controller i v _ hi m he hset =>
    have hf := exec_controller_frame hi he
    have hresp : v.responses = s.responses := (congrArg State.responses hf :)
    have hres : v.result = s.result := (congrArg State.result hf :)
    unfold Delivers
    rw [← hresp, ← hres]
    exact (settledC_of_settleC hset).delivers
  | edge => exact .inr ⟨s.takeEdge_responses, s.takeEdge_result⟩
  | handlerStart hp => exact .inr ⟨by simp, by simp⟩
  | handler hi m he =>
    have hf := StepCase.hideHandlerTurn (.handler hi m he)
    exact .inr ⟨(congrArg State.responses hf :), (congrArg State.result hf :)⟩
  | reset => exact absurd rfl hr

/-- A reset delivers nothing (70_reset_and_hazards.md R280). -/
theorem StepCase.reset_responses {s t : State} (hs : StepCase s .reset t) : t.responses = s.responses := by
  cases hs <;> rfl

/-- Settles O58, by the cases of a step. -/
theorem resultsAreDelivered : Obligations.ResultsAreDelivered := by
  unfold Obligations.ResultsAreDelivered
  intro s t h ht
  have hs := stepCase_of_step h ht
  by_cases hr : s.nextInput = .reset
  · rw [hr] at hs
    exact .inr ⟨by simpa using hs.reset_responses, .inr hr⟩
  · obtain hd | ⟨hresp, hres⟩ := hs.delivers hr
    · exact .inl (by simpa using hd)
    · exact .inr ⟨by simpa using hresp, .inl (by simpa using hres)⟩

/-! ## `TERR` (10_state.md R35) -/

/-- A command accepted leaves `TERR`, but for a `REGISTER_TARGET` that takes the role (42_target_ops.md R190). -/
theorem Accepted.terr {s t : State} {i : Instr} (h : Accepted s i t) :
    t.terr = s.terr ∨ ((∃ addr, i = .registerTarget addr) ∧ s.mode = .unconfigured ∧ t.terr = false ∧ t.port = s.port) := by
  cases h with
  | registered addr hi hm => exact .inr ⟨⟨addr, hi⟩, hm, rfl, rfl⟩
  | refused | configured | noSegment | transferring | recovering | unregistered | released => exact .inl rfl

/-- The decisions of the handler leave `TERR`, or a callback's error sets it out of `ReceivingData` (R210, R214). -/
theorem SettledT.terr {l : List TTask} {s t : State} (h : SettledT l s t) (hp : phaseFits l s.tfsm s.tdir) :
    t.terr = s.terr ∨ (t.terr = true ∧ t.tlast = .callbackError ∧ s.tfsm = .receivingData) := by
  cases h with
  | next => exact .inl rfl
  | finish p x rd f v d o ho =>
    by_cases he : o = .callbackError
    · subst he
      exact .inr ⟨by simp, rfl, ho hp rfl⟩
    · exact .inl (by simpa [State.decidedT] using fun h => absurd h he)

/-- A `REGISTER_TARGET` word has opcode 4, and no descriptor words make a word one. -/
theorem decodeCommand_registerTarget {w : Word} {body : List Word} {addr : Addr}
    (h : decodeCommand w body = .registerTarget addr) :
    opcodeOf w ≠ 2#4 ∧ decodeCommand w [] = .registerTarget addr := by
  unfold decodeCommand at h ⊢
  split_ifs at h with hc ht _ hr hg
  all_goals cases h
  refine ⟨fun ho => ?_, by simp [hc, ht, hr, hg]⟩
  have hclear : w[29] = false := by simpa [rowRegister] using (rowRegister.fits_iff_bits w).1 hg 29 (by omega)
  have hset : (opcodeOf w).getLsbD 1 = true := by rw [ho]; rfl
  simp [opcodeOf, hclear] at hset

/-- A `REGISTER_TARGET` taken from the port is one word. -/
theorem TakenFromPort.registerTarget {port rest : List PortItem} {addr : Addr}
    (h : TakenFromPort port (.registerTarget addr) rest) :
    ∃ w, port = .word w :: rest ∧ decode [w] = .ok (.registerTarget addr, []) := by
  cases h with
  | call hi _ => cases hi
  | @words w items ws hp hd =>
    subst hp
    simp only [leadingWords, decode] at hd
    split at hd
    · cases hd
    · obtain ⟨hdec, -⟩ := Prod.mk.inj (Except.ok.inj hd)
      obtain ⟨hop, hone⟩ := decodeCommand_registerTarget hdec
      refine ⟨w, ?_, by rw [decode_one_word hop, hone]⟩
      simp [descCount, hop]

/-- What a step may do to `TERR`: leave it; clear it by reset or by a `REGISTER_TARGET` accepted; set it by a callback's error. -/
theorem StepCase.terr {s t : State} {i : Input} (hs : StepCase s i t) :
    t.terr = s.terr ∨
    (t.terr = false ∧ (i = .reset ∨ (i = .turn .port ∧ s.busy = false ∧ s.mode = .unconfigured ∧
      ∃ (w : Word) (addr : Addr), s.port = .word w :: t.port ∧ decode [w] = .ok (.registerTarget addr, [])))) ∨
    (t.terr = true ∧ t.tlast = .callbackError ∧ s.tfsm = .receivingData) := by
  cases hs with
  | nothing | words | call | status | noCall | plan | peer | wire | drive | answer | bufWrite => exact .inl rfl
  | accept hb hi he =>
    obtain hk | ⟨⟨addr, rfl⟩, hm, hc, hport⟩ := (hi.accepted hb he).terr
    · exact .inl hk
    · obtain ⟨w, hw, hd⟩ := hi.registerTarget
      exact .inr (.inl ⟨hc, .inr ⟨rfl, hb, hm, w, addr, by rw [hw, hport]; rfl, hd⟩⟩)
  | controller hi m he hset =>
    have hf := StepCase.hideControllerTurn (.controller hi m he hset)
    exact .inl (congrArg State.terr hf :)
  | edge => exact .inl s.takeEdge_terr
  | handlerStart => exact .inl (by simp)
  | @handler i v hi m he =>
    have hf := exec_target_frame hi he
    have hterr : v.terr = s.terr := (congrArg State.terr hf :)
    have htfsm : v.tfsm = s.tfsm := (congrArg State.tfsm hf :)
    have htdir : v.tdir = s.tdir := (congrArg State.tdir hf :)
    have hp : phaseFits v.tpos v.tfsm v.tdir := by
      rw [htfsm, htdir]
      exact exec_target_phase hi he m.phase
    obtain hk | ⟨ht, hl, hr⟩ := (settledT_settleT v.tpos v).terr hp
    · exact .inl (hk.trans hterr)
    · exact .inr (.inr ⟨ht, hl, htfsm ▸ hr⟩)
  | reset => exact .inr (.inl ⟨rfl, .inl rfl⟩)

/-- Settles O59, by the cases of a step. -/
theorem terrIsSticky : Obligations.TerrIsSticky := by
  unfold Obligations.TerrIsSticky
  intro s t h ht
  have hs := (stepCase_of_step h ht).terr
  simp only [State.dropInput_terr, State.dropInput_busy, State.dropInput_mode, State.dropInput_port, State.dropInput_tfsm] at hs
  obtain hk | ⟨hc, hwhy⟩ | ⟨hset, hl, hr⟩ := hs
  · exact ⟨fun h1 h0 => by simp [hk, h1] at h0, fun h0 h1 => by simp [hk, h0] at h1⟩
  · exact ⟨fun _ _ => hwhy, fun _ h1 => by simp [hc] at h1⟩
  · exact ⟨fun _ h0 => by simp [hset] at h0, fun _ _ => ⟨hl, hr⟩⟩

/-! ## Each agent's turn, the `STATUS` word, the values at reset -/

/-- Settles O6, context by context. -/
theorem agentStepRunsOperation : Obligations.AgentStepRunsOperation := by
  unfold Obligations.AgentStepRunsOperation
  simp only [stepWith_eq, fetchInput, fetchTurn]
  refine ⟨?_, ?_, ?_, ?_, ?_, ?_, ?_, ?_, ?_, ?_, ?_, ?_, ?_, ?_⟩
  · intro s i rest hc
    simp only [fetchController, hc, carryOut]
  · intro s k j g rest hc hg hj
    simp only [fetchController, hc, State.bufLoad_some hg hj, carryOut]
  · intro s he
    simp only [fetchEdge, he, if_true, carryOut_environment]
  · intro s hp
    simp only [fetchHandler, hp, if_true, carryOut]
  · intro s i rest hp hc
    simp only [fetchHandler, hp, hc, Bool.false_eq_true, if_false, carryOut]
  · intro s i hi
    simp only [fetchWire, hi, if_true, carryOut_environment]
  · intro s i rest hi hc
    simp only [fetchPeer, hc, fetchWire, hi, if_true, carryOut_environment]
  · exact fun s => carryOut_environment _ s
  · exact fun s g => carryOut_environment _ s
  · intro s hb
    simp only [fetchPort, hb, if_true, carryOut]
  · intro s hc
    simp only [fetchController, hc, carryOut]
  · intro s he
    simp only [fetchEdge, he, Bool.false_eq_true, if_false, carryOut]
  · intro s hp hc
    simp only [fetchHandler, hp, hc, Bool.false_eq_true, if_false, carryOut]
  · intro s hc
    simp only [fetchPeer, hc, carryOut]

/-- Settles O18: the fields as `State.status` puts them together, each code read as its number. -/
theorem statusWord : Obligations.StatusWord := by
  unfold Obligations.StatusWord
  intro s
  obtain ⟨hmode, htfsm, hbusy, hcfg, hspeed, htvalid, htaddr, hterr, htlast, hresult, hscl, hsda, hrest⟩ :=
    status_fields 0#5 s.addr10 s.sda s.scl s.terr s.tvalid s.cfgValid s.busy s.result.code s.tlast.code s.taddrSeen s.speedSeen
      s.tfsm.code s.mode.code s.status rfl
  refine ⟨rfl, ?_, ?_, hbusy, hcfg, ?_, htvalid, htaddr, hterr, ?_, ?_, hscl, hsda, hrest.trans (by simp [State.addr10])⟩
  · rw [hmode]; cases s.mode <;> rfl
  · rw [htfsm]; cases s.tfsm <;> rfl
  · rw [hspeed, State.speedSeen]; cases s.cfgValid <;> cases s.speed <;> rfl
  · rw [htlast]; cases s.tlast <;> rfl
  · rw [hresult]; cases s.result <;> rfl

/-- Settles O51: `State.reset` is written out with `RESET_SPEED = none`. -/
theorem resetValues : Obligations.ResetValues := by
  unfold Obligations.ResetValues
  exact ⟨rfl, rfl, rfl, rfl, rfl, rfl, rfl, rfl, rfl, rfl, rfl, rfl, rfl, rfl, rfl, rfl⟩

end Sys2Proof.Machine
end

section
/-! The family of 20_memory.md. A canonical memory is determined by what it reads: nothing is listed below its bound, and what is
listed is no `absentByte`, so its least listed address is the least one that reads otherwise. -/

namespace Sys2Proof.Machine

/-! ## Buffers (20_memory.md R66, R67) -/

theorem Memory.read_cons_self (k : Nat) (v : Byte) (rest : Memory) : Memory.read ((k, v) :: rest) k = v := by
  simp [Memory.read]

theorem Memory.read_cons_of_ne {k a : Nat} (h : k ≠ a) (v : Byte) (rest : Memory) :
    Memory.read ((k, v) :: rest) a = rest.read a := by
  simp [Memory.read, h]

theorem Memory.wfFrom_cons_iff (lo k : Nat) (v : Byte) (rest : Memory) :
    Memory.wfFrom lo ((k, v) :: rest) = true ↔ lo ≤ k ∧ v ≠ absentByte ∧ Memory.wfFrom (k + 1) rest = true := by
  simp [Memory.wfFrom, and_assoc]

/-- The first address listed is itself a bound. -/
theorem Memory.wfFrom_head {lo k : Nat} {v : Byte} {rest : Memory} (w : Memory.wfFrom lo ((k, v) :: rest) = true) :
    Memory.wfFrom k ((k, v) :: rest) = true :=
  (Memory.wfFrom_cons_iff k k v rest).2 ⟨le_rfl, ((Memory.wfFrom_cons_iff lo k v rest).1 w).2⟩

/-- Nothing is listed below the bound. -/
theorem Memory.read_of_lt {m : Memory} {lo a : Nat} (w : Memory.wfFrom lo m = true) (h : a < lo) :
    m.read a = absentByte := by
  induction m generalizing lo with
  | nil => rfl
  | cons c rest ih =>
    obtain ⟨k, v⟩ := c
    obtain ⟨hk, -, hrest⟩ := (Memory.wfFrom_cons_iff lo k v rest).1 w
    rw [Memory.read_cons_of_ne (by omega)]
    exact ih hrest (by omega)

/-- The byte written is the byte read. Canonicity is needed for `absentByte`, whose write takes an entry away: no second entry for the
address may stand behind it, nor one out of order. -/
theorem Memory.read_write_self {m : Memory} {lo : Nat} (w : Memory.wfFrom lo m = true) (a : Nat) (b : Byte) :
    (m.write a b).read a = b := by
  induction m generalizing lo with
  | nil =>
    unfold Memory.write
    split
    next hb => exact hb.symm
    next => exact Memory.read_cons_self a b []
  | cons c rest ih =>
    obtain ⟨k, v⟩ := c
    obtain ⟨-, -, hrest⟩ := (Memory.wfFrom_cons_iff lo k v rest).1 w
    unfold Memory.write
    split
    next hlt =>
      split
      next hb => exact (Memory.read_of_lt (Memory.wfFrom_head w) hlt).trans hb.symm
      next => exact Memory.read_cons_self a b _
    next =>
      split
      next heq =>
        split
        next hb => exact (Memory.read_of_lt hrest (by omega)).trans hb.symm
        next => exact Memory.read_cons_self a b rest
      next hne => exact (Memory.read_cons_of_ne (Ne.symm hne) v _).trans (ih hrest)

/-- A byte that does not read as `absentByte` is not below the bound. -/
theorem Memory.le_of_read_ne {m : Memory} {lo a : Nat} (w : Memory.wfFrom lo m = true) (h : m.read a ≠ absentByte) : lo ≤ a :=
  Nat.le_of_not_lt fun hlt => h (Memory.read_of_lt w hlt)

/-- Canonical memories that read the same everywhere are equal. Their first entries stand at the same address, since neither lists anything
below its own; the rests then read the same. -/
theorem Memory.eq_of_read_eq {m n : Memory} {lo hi : Nat} (wm : Memory.wfFrom lo m = true) (wn : Memory.wfFrom hi n = true)
    (h : ∀ a : Nat, m.read a = n.read a) : m = n := by
  induction m generalizing n lo hi with
  | nil =>
    cases n with
    | nil => rfl
    | cons d rest' =>
      obtain ⟨j, u⟩ := d
      obtain ⟨-, hu, -⟩ := (Memory.wfFrom_cons_iff hi j u rest').1 wn
      exact absurd ((Memory.read_cons_self j u rest').symm.trans (h j).symm) hu
  | cons c rest ih =>
    obtain ⟨k, v⟩ := c
    obtain ⟨-, hv, hrest⟩ := (Memory.wfFrom_cons_iff lo k v rest).1 wm
    have hk : n.read k = v := (h k).symm.trans (Memory.read_cons_self k v rest)
    cases n with
    | nil => exact absurd hk.symm hv
    | cons d rest' =>
      obtain ⟨j, u⟩ := d
      obtain ⟨-, hu, hrest'⟩ := (Memory.wfFrom_cons_iff hi j u rest').1 wn
      have hj : Memory.read ((k, v) :: rest) j = u := (h j).trans (Memory.read_cons_self j u rest')
      have hjk : j ≤ k := Memory.le_of_read_ne (Memory.wfFrom_head wn) (by rwa [hk])
      have hkj : k ≤ j := Memory.le_of_read_ne (Memory.wfFrom_head wm) (by rwa [hj])
      obtain rfl : k = j := le_antisymm hkj hjk
      obtain rfl : v = u := (Memory.read_cons_self k v rest).symm.trans hj
      have rests : ∀ a : Nat, Memory.read rest a = Memory.read rest' a := fun a => by
        by_cases ha : k = a
        · subst ha
          exact (Memory.read_of_lt hrest k.lt_succ_self).trans (Memory.read_of_lt hrest' k.lt_succ_self).symm
        · rw [← Memory.read_cons_of_ne ha v rest, h a, Memory.read_cons_of_ne ha]
      rw [ih hrest hrest' rests]

/-- Bytes of different segments or indexes have different addresses; `k` and `i` are the quotient and the remainder of the key. -/
theorem bufKey_inj {k i l j : Nat} (hi : i < 65536) (hj : j < 65536) (h : bufKey k i = bufKey l j) : k = l ∧ i = j := by
  unfold bufKey at h
  omega

/-! ## The statements -/

/-- Settles O34: a read after a write at the same and at another address, and canonical memories compared from their first entries on. -/
theorem bufferMemory : Obligations.BufferMemory := by
  unfold Obligations.BufferMemory
  refine ⟨fun m a b x w => ?_, fun m n wm wn h => Memory.eq_of_read_eq wm wn h⟩
  split
  next heq => rw [heq]; exact Memory.read_write_self w a x
  next hne => exact m.read_write_of_ne x hne

/-- Settles O35: the host's step is the write of that byte, whatever agent is at work. -/
theorem hostWritesABufferByte : Obligations.HostWritesABufferByte := by
  unfold Obligations.HostWritesABufferByte
  refine ⟨fun k i b s w => ⟨s.setMem (s.mem.write (bufKey k.toNat i.toNat) b), ?_, ?_, ?_, ?_⟩,
    fun k i l j hi hj h => bufKey_inj hi hj h⟩
  · simp only [stepWith_eq, fetchInput, carryOut]
  · exact Memory.read_write_self w _ b
  · exact fun a ha => Memory.read_write_of_ne s.mem b ha
  · rfl

end Sys2Proof.Machine
end

section
/-! The family of 30_encoding.md: the decoder and the encoder. A row of the opcode table is a few fields with fixed values, so what a
word that fits is made of, and what a word put together from fields fits, are read off from the same lemma. -/

open Sys2Proof.Machine

namespace Sys2Proof

/-! ## Rows as fields (30_encoding.md R101 to R103) -/

/-- The row of the words with this field at bit `lo`. -/
def OpRow.field (lo : Nat) {n : Nat} (v : BitVec n) : OpRow := ⟨(BitVec.allOnes n).setWidth 32 <<< lo, v.setWidth 32 <<< lo⟩

/-- The row of the words that fit two rows. -/
def OpRow.both (a b : OpRow) : OpRow := ⟨a.mask ||| b.mask, a.value ||| b.value⟩

/-- A word fits the row of one field exactly when it has that field. -/
theorem OpRow.fits_field_iff {lo n : Nat} (hn : lo + n ≤ 32) (v : BitVec n) (w : Word) :
    (OpRow.field lo v).fits w = true ↔ w.extractLsb' lo n = v := by
  rw [OpRow.fits_iff_bits]
  simp only [OpRow.field, BitVec.getLsbD_shiftLeft, BitVec.getLsbD_setWidth, BitVec.getLsbD_allOnes]
  constructor
  · intro h
    apply eq_of_bits
    intro i hi
    have := h (lo + i) (by omega)
    simpa [hi, show lo + i < 32 by omega, show i < 32 by omega] using this
  · rintro rfl i hi
    by_cases hl : lo ≤ i
    · by_cases hu : i - lo < n
      · simp [hi, hl, hu, show ¬ i < lo by omega, show i - lo < 32 by omega]
      · simp [hu]
    · simp [show i < lo by omega]

/-- Two rows that fix different bits, and give values to no other bits, are fitted together exactly when each is. -/
theorem OpRow.fits_both_iff {a b : OpRow} (ha : a.value &&& ~~~ a.mask = 0#32) (hb : b.value &&& ~~~ b.mask = 0#32)
    (hab : a.mask &&& b.mask = 0#32) (w : Word) :
    (a.both b).fits w = true ↔ a.fits w = true ∧ b.fits w = true := by
  have perBit : ∀ x am av bm bv : Bool, (av && !am) = false → (bv && !bm) = false → (am && bm) = false →
      ((x && (am || bm)) = (av || bv) ↔ (x && am) = av ∧ (x && bm) = bv) := by decide
  simp only [OpRow.fits_iff_bits, OpRow.both, ← forall_and, BitVec.getLsbD_or]
  refine forall₂_congr fun i hi => perBit _ _ _ _ _ ?_ ?_ ?_
  · simpa [hi] using congrArg (fun x => x.getLsbD i) ha
  · simpa [hi] using congrArg (fun x => x.getLsbD i) hb
  · simpa [hi] using congrArg (fun x => x.getLsbD i) hab

theorem rowConfigure_fits_iff (w : Word) : rowConfigure.fits w = true ↔ opcodeOf w = 1#4 ∧ w.extractLsb' 4 24 = 0#24 := by
  rw [show rowConfigure = (OpRow.field 28 1#4).both (OpRow.field 4 0#24) by decide,
    OpRow.fits_both_iff (by decide) (by decide) (by decide), OpRow.fits_field_iff (by omega), OpRow.fits_field_iff (by omega), opcodeOf]

theorem rowTransfer_fits_iff (w : Word) :
    rowTransfer.fits w = true ↔ opcodeOf w = 2#4 ∧ w.extractLsb' 16 12 = 0#12 ∧ w.extractLsb' 7 1 = 0#1 := by
  rw [show rowTransfer = (OpRow.field 28 2#4).both ((OpRow.field 16 0#12).both (OpRow.field 7 0#1)) by decide,
    OpRow.fits_both_iff (by decide) (by decide) (by decide), OpRow.fits_both_iff (by decide) (by decide) (by decide),
    OpRow.fits_field_iff (by omega), OpRow.fits_field_iff (by omega), OpRow.fits_field_iff (by omega), opcodeOf]

theorem rowRecover_fits_iff (w : Word) : rowRecover.fits w = true ↔ opcodeOf w = 3#4 ∧ w.extractLsb' 0 28 = 0#28 := by
  rw [show rowRecover = (OpRow.field 28 3#4).both (OpRow.field 0 0#28) by decide,
    OpRow.fits_both_iff (by decide) (by decide) (by decide), OpRow.fits_field_iff (by omega), OpRow.fits_field_iff (by omega), opcodeOf]

theorem rowRegister_fits_iff (w : Word) : rowRegister.fits w = true ↔ opcodeOf w = 4#4 ∧ w.extractLsb' 7 21 = 0#21 := by
  rw [show rowRegister = (OpRow.field 28 4#4).both (OpRow.field 7 0#21) by decide,
    OpRow.fits_both_iff (by decide) (by decide) (by decide), OpRow.fits_field_iff (by omega), OpRow.fits_field_iff (by omega), opcodeOf]

theorem rowUnregister_fits_iff (w : Word) :
    rowUnregister.fits w = true ↔ opcodeOf w = 5#4 ∧ w.extractLsb' 0 28 = 0#28 := by
  rw [show rowUnregister = (OpRow.field 28 5#4).both (OpRow.field 0 0#28) by decide,
    OpRow.fits_both_iff (by decide) (by decide) (by decide), OpRow.fits_field_iff (by omega), OpRow.fits_field_iff (by omega), opcodeOf]

theorem rowRelease_fits_iff (w : Word) : rowRelease.fits w = true ↔ opcodeOf w = 6#4 ∧ w.extractLsb' 0 28 = 0#28 := by
  rw [show rowRelease = (OpRow.field 28 6#4).both (OpRow.field 0 0#28) by decide,
    OpRow.fits_both_iff (by decide) (by decide) (by decide), OpRow.fits_field_iff (by omega), OpRow.fits_field_iff (by omega), opcodeOf]

theorem rowDescriptor_fits_iff (w : Word) : rowDescriptor.fits w = true ↔ w.extractLsb' 3 13 = 0#13 := by
  rw [show rowDescriptor = OpRow.field 3 0#13 by decide, OpRow.fits_field_iff (by omega)]

/-! ## Words that fit a row, put together again from their operands -/

theorem configure_word {w : Word} (h : rowConfigure.fits w = true) :
    0x1#4 ++ 0#24 ++ BitVec.ofBool (w.getLsbD 3) ++ w.extractLsb' 0 3 = w := by
  obtain ⟨hop, hz⟩ := (rowConfigure_fits_iff w).1 h
  have hb : BitVec.ofBool (w.getLsbD 3) = w.extractLsb' 3 1 := by
    apply eq_of_bits
    intro i hi
    simp [show i = 0 by omega]
  rw [← hop, ← hz, hb, opcodeOf, BitVec.extractLsb'_append_extractLsb'_eq_extractLsb' (by omega),
    BitVec.extractLsb'_append_extractLsb'_eq_extractLsb' (by omega),
    BitVec.extractLsb'_append_extractLsb'_eq_extractLsb' (by omega)]
  exact BitVec.extractLsb'_eq_self

theorem transfer_word {w : Word} (h : rowTransfer.fits w = true) :
    0x2#4 ++ 0#12 ++ nsegOf w ++ 0#1 ++ addrOf w = w := by
  obtain ⟨hop, hz, hb⟩ := (rowTransfer_fits_iff w).1 h
  rw [← hop, ← hz, ← hb, opcodeOf, nsegOf, addrOf, BitVec.extractLsb'_append_extractLsb'_eq_extractLsb' (by omega),
    BitVec.extractLsb'_append_extractLsb'_eq_extractLsb' (by omega),
    BitVec.extractLsb'_append_extractLsb'_eq_extractLsb' (by omega),
    BitVec.extractLsb'_append_extractLsb'_eq_extractLsb' (by omega)]
  exact BitVec.extractLsb'_eq_self

theorem register_word {w : Word} (h : rowRegister.fits w = true) : 0x4#4 ++ 0#21 ++ addrOf w = w := by
  obtain ⟨hop, hz⟩ := (rowRegister_fits_iff w).1 h
  rw [← hop, ← hz, opcodeOf, addrOf, BitVec.extractLsb'_append_extractLsb'_eq_extractLsb' (by omega),
    BitVec.extractLsb'_append_extractLsb'_eq_extractLsb' (by omega)]
  exact BitVec.extractLsb'_eq_self

/-- A row that fixes every bit is fitted by its value alone. -/
theorem OpRow.eq_of_fits {r : OpRow} {w : Word} (hr : r.mask = BitVec.allOnes 32) (h : r.fits w = true) : w = r.value := by
  simpa only [OpRow.fits, hr, BitVec.and_allOnes, beq_iff_eq] using h

/-! ## Operands of a word put together from them -/

theorem configure_word_fields (code : BitVec 3) (a10 : Bool) : let w : Word := 0x1#4 ++ 0#24 ++ BitVec.ofBool a10 ++ code
    opcodeOf w = 1#4 ∧ w.extractLsb' 4 24 = 0#24 ∧ w.getLsbD 3 = a10 ∧ w.extractLsb' 0 3 = code := by
  refine ⟨?_, ?_, ?_, BitVec.extractLsb'_append_eq_right⟩
  · simp (disch := omega) only [opcodeOf, BitVec.extractLsb'_append_eq_of_le]; simp
  · simp (disch := omega) only [BitVec.extractLsb'_append_eq_of_le]; simp
  · simp only [BitVec.getLsbD_append]; simp

theorem register_word_fields (a : Addr) : let w : Word := 0x4#4 ++ 0#21 ++ a
    opcodeOf w = 4#4 ∧ w.extractLsb' 7 21 = 0#21 ∧ addrOf w = a := by
  refine ⟨?_, ?_, BitVec.extractLsb'_append_eq_right⟩
  · simp (disch := omega) only [opcodeOf, BitVec.extractLsb'_append_eq_of_le]; simp
  · simp (disch := omega) only [BitVec.extractLsb'_append_eq_of_le]; simp

/-! ## The decoder -/

/-- A first word with its descriptor words is one command, whatever follows them (R108). -/
theorem decode_command {w : Word} {body : List Word} (hb : body.length = descCount w) (rest : List Word) :
    decode (w :: (body ++ rest)) = .ok (decodeCommand w body, rest) := by
  simp [decode, ← hb]

/-- What decodes is a first word with its descriptor words, and what follows them. -/
theorem decode_ok_iff {ws rest : List Word} {i : Instr} : decode ws = .ok (i, rest) ↔
    ∃ w body, body.length = descCount w ∧ ws = w :: (body ++ rest) ∧ i = decodeCommand w body := by
  constructor
  · intro h
    cases ws with
    | nil => cases h
    | cons w tail =>
      simp only [decode] at h
      split at h
      · cases h
      next hlen =>
        cases h
        exact ⟨w, tail.take (descCount w), by simpa using hlen, by simp, rfl⟩
  · rintro ⟨w, body, hb, rfl, rfl⟩
    exact decode_command hb rest

/-- More words behind a command do not change it. -/
theorem decode_append {ws rest : List Word} {i : Instr} (h : decode ws = .ok (i, rest)) (more : List Word) :
    decode (ws ++ more) = .ok (i, rest ++ more) := by
  obtain ⟨w, body, hb, rfl, rfl⟩ := decode_ok_iff.1 h
  simpa using decode_command hb (rest ++ more)

theorem isIllegalCommand_iff (ws : List Word) : isIllegalCommand ws = true ↔ decode ws = .ok (.illegal ws, []) := by
  unfold isIllegalCommand
  split
  next us rest h => simp [h]
  next hno => simpa using fun h => hno ws [] h

/-- A word of another opcode than 0x2 takes no descriptor words. -/
theorem body_eq_nil {w : Word} {body : List Word} (hb : body.length = descCount w) (hop : opcodeOf w ≠ 2#4) : body = [] := by
  rw [descCount, if_neg hop] at hb
  exact List.eq_nil_of_length_eq_zero hb

/-- The rows before that of `REGISTER_TARGET` have other opcodes. -/
theorem decodeCommand_register {w : Word} (h : rowRegister.fits w = true) (body : List Word) :
    decodeCommand w body = .registerTarget (addrOf w) := by
  obtain ⟨hop, -⟩ := (rowRegister_fits_iff w).1 h
  simp [decodeCommand, rowConfigure_fits_iff, rowTransfer_fits_iff, rowRecover_fits_iff, h, hop]

/-! ## Decoding what was encoded -/

/-- The words of a well-formed command are that command. -/
theorem decode_encode {i : Instr} (hc : i.isCommand = true) (hw : i.wellFormed = true) : decode (encode i) = .ok (i, []) := by
  cases i
  case configure code a10 =>
    obtain ⟨hop, hz, ha, hcode⟩ := configure_word_fields code a10
    have hfits := (rowConfigure_fits_iff _).2 ⟨hop, hz⟩
    rw [encode, decode_one_word (by rw [hop]; decide), decodeCommand, if_pos hfits, ha, hcode]
  case transfer addr segs =>
    obtain ⟨hcfg, hfits, hop, hn, ha⟩ := transfer_word_fields (BitVec.ofNat 8 segs.length) addr
    have hlen : segs.length ≤ 255 := of_decide_eq_true hw
    have hbody : (segs.map encodeSeg).length = descCount (0x2#4 ++ 0#12 ++ BitVec.ofNat 8 segs.length ++ 0#1 ++ addr) := by
      rw [descCount, if_pos hop, hn, List.length_map, BitVec.toNat_ofNat, Nat.mod_eq_of_lt (by omega)]
    have hlegal : (segs.map encodeSeg).all rowDescriptor.fits = true := by
      simp [List.all_map, decodeSeg_encodeSeg]
    have hsegs : (segs.map encodeSeg).map decodeSeg = segs := by
      simp [List.map_map, Function.comp_def, decodeSeg_encodeSeg]
    have := decode_command hbody []
    rw [List.append_nil] at this
    rw [encode, this, decodeCommand, hcfg, if_neg Bool.false_ne_true, if_pos hfits, if_pos hlegal, ha, hsegs]
  case registerTarget addr =>
    obtain ⟨hop, hz, ha⟩ := register_word_fields addr
    rw [encode, decode_one_word (by rw [hop]; decide), decodeCommand_register ((rowRegister_fits_iff _).2 ⟨hop, hz⟩), ha]
  case recover | unregisterTarget | release => decide
  case illegal ws => exact (isIllegalCommand_iff ws).1 hw
  all_goals exact absurd hc Bool.false_ne_true

/-- Settles O1: the words of a command decode to it, and more words behind it do not change that. -/
theorem commandRoundTrip : Obligations.CommandRoundTrip := by
  unfold Obligations.CommandRoundTrip
  intro i rest hc hw
  exact decode_append (decode_encode hc hw) rest

/-! ## Encoding what was decoded -/

/-- What a first word and its descriptor words decode to has those words, and is well-formed. -/
theorem encode_decodeCommand {w : Word} {body : List Word} (hb : body.length = descCount w) :
    encode (decodeCommand w body) = w :: body ∧ (decodeCommand w body).wellFormed = true := by
  have illegal (hi : decodeCommand w body = .illegal (w :: body)) : (Instr.illegal (w :: body)).wellFormed = true := by
    have := decode_command hb []
    rw [List.append_nil, hi] at this
    exact (isIllegalCommand_iff _).2 this
  have alone {k : BitVec 4} (hop : opcodeOf w = k) (hk : k ≠ 2#4) : body = [] := body_eq_nil hb (hop ▸ hk)
  generalize hd : decodeCommand w body = i at illegal ⊢
  unfold decodeCommand at hd
  split_ifs at hd with hcfg htr hall hrec hreg hunr hrel <;> subst hd
  · obtain rfl := alone ((rowConfigure_fits_iff w).1 hcfg).1 (by decide)
    exact ⟨by rw [encode, configure_word hcfg], rfl⟩
  · have hn : body.length = (nsegOf w).toNat := by rw [hb, descCount, if_pos ((rowTransfer_fits_iff w).1 htr).1]
    have hsegs : (body.map decodeSeg).map encodeSeg = body := by
      rw [List.map_map]
      exact (List.map_congr_left fun d hd => encodeSeg_decodeSeg d (List.all_eq_true.1 hall d hd)).trans (List.map_id body)
    refine ⟨?_, decide_eq_true ?_⟩
    · rw [encode, hsegs, List.length_map, hn, BitVec.ofNat_toNat, BitVec.setWidth_eq, transfer_word htr]
    · rw [List.length_map, hn]
      exact Nat.le_of_lt_succ (nsegOf w).isLt
  · exact ⟨rfl, illegal rfl⟩
  · obtain rfl := alone ((rowRecover_fits_iff w).1 hrec).1 (by decide)
    obtain rfl := OpRow.eq_of_fits rfl hrec
    exact ⟨rfl, rfl⟩
  · obtain rfl := alone ((rowRegister_fits_iff w).1 hreg).1 (by decide)
    exact ⟨by rw [encode, register_word hreg], rfl⟩
  · obtain rfl := alone ((rowUnregister_fits_iff w).1 hunr).1 (by decide)
    obtain rfl := OpRow.eq_of_fits rfl hunr
    exact ⟨rfl, rfl⟩
  · obtain rfl := alone ((rowRelease_fits_iff w).1 hrel).1 (by decide)
    obtain rfl := OpRow.eq_of_fits rfl hrel
    exact ⟨rfl, rfl⟩
  · exact ⟨rfl, illegal rfl⟩

/-- Settles O2: the words read are a first word, its descriptor words and the rest, and the command's words are the first two. -/
theorem decodedWordsEncodeBack : Obligations.DecodedWordsEncodeBack := by
  unfold Obligations.DecodedWordsEncodeBack
  intro ws rest i h
  have hc : i.isCommand = true := decode_isCommand h
  obtain ⟨w, body, hb, rfl, rfl⟩ := decode_ok_iff.1 h
  obtain ⟨hwords, hw⟩ := encode_decodeCommand hb
  exact ⟨by rw [hwords, List.cons_append], hw, hc⟩

/-! ## Illegal commands (R105) -/

/-- A command is illegal when no row fits, or the row of a `TRANSFER` does and that of a descriptor does not: a word that fits one row has an
opcode that the others do not. -/
theorem decodeCommand_illegal_iff (w : Word) (body : List Word) : decodeCommand w body = .illegal (w :: body) ↔
    ¬ rowConfigure.fits w = true ∧ ¬ (rowTransfer.fits w = true ∧ body.all rowDescriptor.fits = true) ∧
      ¬ rowRecover.fits w = true ∧ ¬ rowRegister.fits w = true ∧ ¬ rowUnregister.fits w = true ∧ ¬ rowRelease.fits w = true := by
  unfold decodeCommand
  split_ifs with hcfg htr hall hrec hreg hunr hrel
  all_goals simp_all [rowTransfer_fits_iff, rowRecover_fits_iff, rowRegister_fits_iff, rowUnregister_fits_iff, rowRelease_fits_iff]

/-- The opcode of a word as a number. -/
theorem opcodeOf_eq_iff (w : Word) (k : BitVec 4) : opcodeOf w = k ↔ (w.extractLsb' 28 4).toNat = k.toNat := BitVec.toNat_inj.symm

/-- The rows and the formats agree on what is illegal. -/
theorem decodeCommand_illegal_iff_bad (w : Word) (body : List Word) :
    decodeCommand w body = .illegal (w :: body) ↔ badCommand w body := by
  have hall : body.all rowDescriptor.fits = true ↔ ¬ ∃ d ∈ body, d.extractLsb' 3 13 ≠ 0#13 := by
    simp [rowDescriptor_fits_iff]
  have hlt : (w.extractLsb' 28 4).toNat < 16 := (w.extractLsb' 28 4).isLt
  simp only [decodeCommand_illegal_iff, rowConfigure_fits_iff, rowTransfer_fits_iff, rowRecover_fits_iff, rowRegister_fits_iff,
    rowUnregister_fits_iff, rowRelease_fits_iff, hall, opcodeOf_eq_iff, badCommand]
  generalize (w.extractLsb' 28 4).toNat = n at hlt ⊢
  interval_cases n <;> simp
  -- only opcode 2 is left, whose row also asks for legal descriptor words
  tauto

/-- Settles O3: the rows are the formats' fields, and an accepted illegal command delivers its result and nothing else. -/
theorem illegalCommands : Obligations.IllegalCommands := by
  unfold Obligations.IllegalCommands
  refine ⟨fun w body hb => ?_, fun ws s hs => State.accept_idle hs (.illegal ws) fun s => s.deliver .invalidCommand⟩
  have := decode_command hb []
  rw [List.append_nil] at this
  rw [this, ← decodeCommand_illegal_iff_bad]
  simp

/-- Settles O4, word by word. -/
theorem wordsOfTheFormats : Obligations.WordsOfTheFormats := by
  unfold Obligations.WordsOfTheFormats
  exact ⟨by decide, by decide, by decide, by decide, by decide, by decide, by decide, by decide, by decide⟩

/-- Settles O17: the word is the one the segment is encoded in, and its fields are those the decoder reads. -/
theorem descriptorWord : Obligations.DescriptorWord := by
  unfold Obligations.DescriptorWord
  intro g s
  obtain ⟨hseg, hfits⟩ := decodeSeg_encodeSeg g
  refine ⟨encodeSeg g, rfl, congrArg Seg.len hseg, (rowDescriptor_fits_iff _).1 hfits, ?_, congrArg Seg.rb hseg,
    congrArg Seg.sa hseg⟩
  have hdir : (if (encodeSeg g).getLsbD 0 then Dir.read else Dir.write) = g.dir := congrArg Seg.dir hseg
  rw [← hdir]
  cases (encodeSeg g).getLsbD 0 <;> rfl

end Sys2Proof
end

section
/-! The family of 30_encoding.md: the pseudo-operations, the callbacks, and the wire. On the wire, one lemma says what the lines show after
outputs changed; no operation changes them twice, so it holds of every step, and it tells what each of a peer's line changes shows. -/

namespace Sys2Proof.Machine

/-! ## The pseudo-operations (R111) -/

/-- What the buffers read as after the buffer of segment 0 is filled from byte `i` on: the bytes given in order, the others as before. -/
theorem Memory.read_fill {m : Memory} (w : m.wf = true) (i : Nat) (bytes : List Byte) {j : Nat} (hj : j < bytes.length) :
    (m.fill i bytes).read (bufKey 0 (i + j)) = bytes[j] := by
  induction bytes generalizing m i j with
  | nil => exact absurd hj (Nat.not_lt_zero j)
  | cons b rest ih =>
    cases j with
    | zero =>
      have later : ∀ n, n < rest.length → bufKey 0 i ≠ bufKey 0 (i + 1 + n) := fun n _ => by
        unfold bufKey
        omega
      calc (Memory.fill (m.write (bufKey 0 i) b) (i + 1) rest).read (bufKey 0 i)
          = (m.write (bufKey 0 i) b).read (bufKey 0 i) := Memory.read_fill_of_ne _ _ _ later
        _ = b := Memory.read_write_self w _ b
    | succ n =>
      have := ih (Memory.write_wf (bufKey 0 i) b w) (i + 1) (Nat.lt_of_succ_lt_succ hj)
      rwa [show i + 1 + n = i + (n + 1) by omega] at this

/-- Settles O16: with no command in execution both operations start the same transfer, and the state with the buffer filled differs in the
buffers only. -/
theorem pseudoOperations : Obligations.PseudoOperations := by
  unfold Obligations.PseudoOperations
  intro addr bytes n s hb
  have transfer (u : State) (hu : u.busy = false) (segs : List Seg) :
      exec (.transfer addr segs) u = .next (u.startTransfer addr segs) :=
    State.accept_idle hu (.transfer addr segs) fun s => s.startTransfer addr segs
  have filled : (s.fillWrite bytes).busy = false := hb
  refine ⟨?_, ?_, s.fillWrite bytes, rfl, ?_, ?_, fun w a => ?_⟩
  · rw [transfer s hb]
    exact State.accept_idle hb (.read addr n) fun s => s.startTransfer addr [readSeg n false]
  · rw [transfer s hb]
    exact State.accept_idle hb (.probe addr) fun s => s.startTransfer addr [writeSeg [] true]
  · rw [transfer _ filled]
    exact State.accept_idle hb (.write addr bytes) fun s => (s.fillWrite bytes).startTransfer addr [writeSeg bytes true]
  · rw [transfer _ filled]
    exact State.accept_idle hb (.writeRead addr bytes n)
      fun s => (s.fillWrite bytes).startTransfer addr [writeSeg bytes false, readSeg n true]
  · have key (j : Nat) : bufKey 0 (0 + j) = j := by
      unfold bufKey
      omega
    split
    next ha =>
      have := Memory.read_fill w 0 bytes ha
      rwa [key] at this
    next ha => exact Memory.read_fill_of_ne _ _ _ fun j hj => by rw [key]; omega

/-! ## Callbacks (R109) -/

/-- A callback answered by the application's next answer. -/
theorem State.callFor_laid {s : State} {a : Byte} {as : List Byte} (h : s.answers = a :: as) (c : Byte → AppCall) :
    s.callFor c = { s with ans := a, answers := as, calls := c a :: s.calls } := by
  simp only [State.callFor, State.dropAnswer, State.answer, h]

/-- A callback answered by a free value. -/
theorem State.callFor_free {s : State} (h : s.answers = []) (c : Byte → AppCall) :
    s.callFor c = { s with
      ans := Config.freeAnswer s.tick, tick := s.tick + 1, calls := c (Config.freeAnswer s.tick) :: s.calls } := by
  simp only [State.callFor, State.dropAnswer, State.answer, h]

/-- Settles O46: the five callbacks are the two exchanges, one that returns nothing and one that returns an answer. -/
theorem callbackExchange : Obligations.CallbackExchange := by
  unfold Obligations.CallbackExchange
  intro x a as s
  refine ⟨rfl, rfl, fun h => ?_, fun h => ?_⟩
  · have laid (c : Byte → AppCall) := congrArg (Host.Outcome.next (φ := Fault) (ρ := Refusal)) (State.callFor_laid h c)
    exact ⟨laid (.writeReceived x), laid .readRequested, laid .readProcessed⟩
  · have free (c : Byte → AppCall) := congrArg (Host.Outcome.next (φ := Fault) (ρ := Refusal)) (State.callFor_free h c)
    exact ⟨free (.writeReceived x), free .readRequested, free .readProcessed⟩

/-! ## What the lines show and what is recorded of them (R91) -/

/-- The two lines and what is recorded of their conditions. -/
def State.onWire (s : State) : Level × Level × Bool × Option Cond := (s.scl, s.sda, s.busOpen, s.lastCond)

/-- From the one state to the other exactly the condition that the lines show is recorded. -/
def Seen (s t : State) : Prop :=
  (s.scl = true → t.scl = true → s.sda = true → t.sda = false →
    t.busOpen = true ∧ t.lastCond = some (if s.busOpen then .restart else .start)) ∧
  (s.scl = true → t.scl = true → s.sda = false → t.sda = true → t.busOpen = false ∧ t.lastCond = some .stop) ∧
  (s.scl = false ∨ t.scl = false ∨ s.sda = t.sda → t.busOpen = s.busOpen ∧ t.lastCond = s.lastCond)

theorem Seen.congr {s s' t t' : State} (h : Seen s t) (hs : s'.onWire = s.onWire) (ht : t'.onWire = t.onWire) : Seen s' t' := by
  simp only [State.onWire, Prod.mk.injEq] at hs ht
  obtain ⟨hc, hd, hb, hl⟩ := hs
  obtain ⟨hc', hd', hb', hl'⟩ := ht
  simpa only [Seen, hc, hd, hb, hl, hc', hd', hb', hl'] using h

/-- Where the wire and its record stay, no condition is shown. -/
theorem Seen.of_eq {s t : State} (h : t.onWire = s.onWire) : Seen s t := by
  have same : Seen s s :=
    ⟨fun _ _ h1 h0 => by simp [h1] at h0, fun _ _ h0 h1 => by simp [h1] at h0, fun _ => ⟨rfl, rfl⟩⟩
  exact same.congr rfl h

/-- A position written shows nothing. -/
theorem Seen.thenC {s t : State} (h : Seen s t) (ts : List CTask) : Seen s (t.thenC ts) := h.congr rfl rfl
theorem Seen.thenT {s t : State} (h : Seen s t) (ts : List TTask) : Seen s (t.thenT ts) := h.congr rfl rfl
theorem Seen.setPpos {s t : State} (h : Seen s t) (ts : List PTask) : Seen s (t.setPpos ts) := h.congr rfl rfl
theorem Seen.of_thenC {s t : State} {ts : List CTask} (h : Seen (s.thenC ts) t) : Seen s t := h.congr rfl rfl
theorem Seen.of_thenT {s t : State} {ts : List TTask} (h : Seen (s.thenT ts) t) : Seen s t := h.congr rfl rfl
theorem Seen.of_setCsr {s t : State} {x : Byte} (h : Seen (s.setCsr x) t) : Seen s t := h.congr rfl rfl
theorem Seen.of_setTsr {s t : State} {x : Byte} (h : Seen (s.setTsr x) t) : Seen s t := h.congr rfl rfl

/-- Outputs changed and observed. -/
theorem observe_seen {s u : State} (hb : u.busOpen = s.busOpen) (hl : u.lastCond = s.lastCond) : Seen s (s.observe u) := by
  have hscl : (s.observe u).scl = u.scl := rfl
  have hsda : (s.observe u).sda = u.sda := rfl
  simp only [Seen, hscl, hsda]
  refine ⟨fun c c' d d' => ?_, fun c c' d d' => ?_, fun h => ?_⟩
  · simp [State.observe, c, c', d, d']
  · simp [State.observe, c, c', d, d']
  · rcases h with h | h | h <;> simp [State.observe, h, hb, hl]

theorem driveScl_seen (s : State) (l : Level) : Seen s (s.driveScl l) := observe_seen rfl rfl
theorem driveSda_seen (s : State) (l : Level) : Seen s (s.driveSda l) := observe_seen rfl rfl
theorem drivePeers_seen (s : State) (c d : Level) : Seen s (s.drivePeers c d) := observe_seen rfl rfl
theorem resetEngine_seen (s : State) : Seen s s.resetEngine := observe_seen rfl rfl

@[simp] theorem State.pollScl_onWire (s : State) (l : Level) (i : Instr) : (s.pollScl l i).onWire = s.onWire := by
  unfold State.pollScl
  split <;> rfl

@[simp] theorem State.callFor_onWire (s : State) (c : Byte → AppCall) : (s.callFor c).onWire = s.onWire := by
  unfold State.callFor State.dropAnswer
  split <;> rfl

@[simp] theorem State.takeEdge_onWire (s : State) : s.takeEdge.onWire = s.onWire := by
  unfold State.takeEdge
  split <;> rfl

@[simp] theorem State.dropInput_onWire (s : State) : s.dropInput.onWire = s.onWire := by
  unfold State.dropInput
  split <;> rfl

/-- A poll shows nothing. -/
theorem pollScl_seen (s : State) (l : Level) (i : Instr) : Seen s (s.pollScl l i) := .of_eq (s.pollScl_onWire l i)

/-- A command or pseudo-operation presented with a command in execution is held (41_controller_ops.md R160). -/
theorem exec_held {i : Instr} {s : State} (hi : i.isCommand = true ∨ i.isPseudo = true) (hb : s.busy = true) :
    exec i s = .next (s.hold i) := by
  cases i
  case configure | transfer | recover | registerTarget | unregisterTarget | release | illegal | write | read | writeRead | probe =>
    unfold exec
    exact State.accept_busy hb _ _
  all_goals exact absurd hi (by simp [Instr.isCommand, Instr.isPseudo])

/-- A command or pseudo-operation drives no line. -/
theorem exec_command_onWire {i : Instr} {s t : State} (hi : i.isCommand = true ∨ i.isPseudo = true) (h : exec i s = .next t) :
    t.onWire = s.onWire := by
  cases hb : s.busy
  · exact (congrArg State.onWire (exec_accepted hi hb h).hidePort :)
  · rw [exec_held hi hb] at h
    cases h
    rfl

/-- Of every operation's one step the lines show what is recorded: it drives no line, or one output of the engine, or the peers'. -/
theorem exec_seen {i : Instr} {s t : State} (h : exec i s = .next t) : Seen s t := by
  cases i
  case configure | transfer | recover | registerTarget | unregisterTarget | release | illegal =>
    exact .of_eq (exec_command_onWire (.inl rfl) h)
  case write | read | writeRead | probe => exact .of_eq (exec_command_onWire (.inr rfl) h)
  case segdesc | statusRead | getScl | getSda | delay | onWriteRequested | onStop => cases h; exact .of_eq rfl
  case setScl l => cases h; exact driveScl_seen s l
  case setSda l => cases h; exact driveSda_seen s l
  case cRaise | cPrestart => cases h; exact (driveScl_seen s _).thenC _
  case cStart | cRstart | cStop | cWbit | cRbit => cases h; exact (driveSda_seen s _).thenC _
  case cWbyte => cases h; exact ((driveSda_seen _ _).thenC _).of_thenC
  case cRbyte => cases h; exact ((driveSda_seen _ _).thenC _).of_thenC.of_setCsr
  case tWbit | tAck | tRack => cases h; exact (driveSda_seen s _).thenT _
  case tWbyte => cases h; exact ((driveSda_seen _ _).thenT _).of_thenT
  case tWaitH | tWaitL => cases h; exact pollScl_seen s _ _
  case tRbit => cases h; exact (pollScl_seen _ _ _).of_thenT
  case tRbyte first => cases first <;> cases h <;> exact (pollScl_seen _ _ _).of_thenT.of_thenT.of_setTsr
  case tDetect =>
    cases h
    split <;> exact .of_eq rfl
  case tEdge => cases h; exact .of_eq s.takeEdge_onWire
  case tHandler => cases h; exact .of_eq (s.startHandler.pollScl_onWire _ _)
  case wireStart | wireRestart | wireStop | bitCell | byteFrame | addressByte | acknowledge =>
    obtain ⟨c, d, ts, rfl⟩ := exec_wire rfl h
    exact (drivePeers_seen s c d).setPpos ts
  case onWriteReceived | onReadRequested | onReadProcessed => cases h; exact .of_eq (s.callFor_onWire _)

/-- The decisions of a sequencer drive no line. -/
theorem settle_onWire {c : Context} {o : Out} {t : State} (h : settle c o = .next t) : ∃ v, o = .next v ∧ t.onWire = v.onWire := by
  cases o with
  | fault => cases h
  | refused => cases h
  | next v =>
    refine ⟨v, rfl, ?_⟩
    cases c with
    | environment => cases h; rfl
    | controller => cases settledC_of_settleC h <;> rfl
    | handler =>
      have hs : SettledT v.tpos v t := Host.Outcome.next.inj h ▸ settledT_settleT v.tpos v
      cases hs <;> rfl

/-- What was fetched leaves the wire to the operation it runs, or is an act of which the lines show what is recorded. -/
def Fetched.Shows (s : State) : Fetched → Prop
  | .run _ _ u => u.onWire = s.onWire
  | .done u => Seen s u
  | .stop _ => True

theorem Fetched.Shows.seen {s t : State} {f : Fetched} (hf : f.Shows s) (h : carryOut f = .next t) : Seen s t := by
  cases f with
  | run c i u =>
    obtain ⟨v, hv, ht⟩ := settle_onWire h
    exact (exec_seen hv).congr hf.symm ht
  | done u => cases h; exact hf
  | stop => cases h

theorem fetchPort_shows (s : State) : (fetchPort s).Shows s := by
  unfold fetchPort
  split
  · exact .of_eq rfl
  · split
    · exact .of_eq rfl
    · split
      · rfl
      · exact .of_eq rfl
    · split
      · rfl
      · exact .of_eq rfl

theorem fetchController_shows (s : State) : (fetchController s).Shows s := by
  unfold fetchController
  split
  · exact .of_eq rfl
  · rfl
  · split
    · rfl
    · trivial
  · exact .of_eq rfl

theorem fetchHandler_shows (s : State) : (fetchHandler s).Shows s := by
  unfold fetchHandler
  split
  · rfl
  · split
    · rfl
    · exact .of_eq rfl

theorem fetchEdge_shows (s : State) : (fetchEdge s).Shows s := by
  unfold fetchEdge
  split
  · rfl
  · exact .of_eq rfl

theorem fetchWire_shows (i : Instr) {s u : State} (hu : u.onWire = s.onWire) : (fetchWire i u).Shows s := by
  unfold fetchWire
  split
  · exact hu
  · exact .of_eq hu

theorem fetchPeer_shows (s : State) : (fetchPeer s).Shows s := by
  unfold fetchPeer
  split
  · exact .of_eq rfl
  · exact (drivePeers_seen s _ _).congr rfl rfl
  · exact (drivePeers_seen s _ _).congr rfl rfl
  · split <;> exact .of_eq rfl
  · split <;> exact .of_eq rfl
  · exact fetchWire_shows _ rfl

theorem fetchCall_shows (i : Instr) (s : State) : (fetchCall i s).Shows s := by
  unfold fetchCall
  split
  · rfl
  · rfl
  · split <;> exact .of_eq rfl

theorem fetchInput_shows (i : Input) (s : State) : (fetchInput i s).Shows s := by
  cases i with
  | turn a =>
    cases a with
    | port => exact fetchPort_shows s
    | controller => exact fetchController_shows s
    | edge => exact fetchEdge_shows s
    | handler => exact fetchHandler_shows s
    | peer => exact fetchPeer_shows s
  | words | answer | bufWrite => exact .of_eq rfl
  | call i => exact fetchCall_shows i s
  | drive c d => exact drivePeers_seen s c d
  | wire i => exact fetchWire_shows i rfl
  | reset => exact resetEngine_seen s

/-- Settles O48: a step changes outputs once at most. -/
theorem conditionsOnTheWire : Obligations.ConditionsOnTheWire := by
  unfold Obligations.ConditionsOnTheWire
  intro s t h
  exact ((fetchInput_shows s.nextInput s.dropInput).seen h).congr s.dropInput_onWire.symm rfl

/-! ## A peer's elements begun (R91 to R95) -/

/-- The bits of an address byte (R94). -/
theorem bitsOf_addressByte (a : Addr) (rd : Bool) : bitsOf (addressByte a rd) =
    [a.getLsbD 6, a.getLsbD 5, a.getLsbD 4, a.getLsbD 3, a.getLsbD 2, a.getLsbD 1, a.getLsbD 0, rd] := by
  simp only [bitsOf, addressByte, BitVec.getLsbD_append]
  simp

/-- One change of the peers' outputs and a plan: the frame of a peer. -/
theorem framePeer_drivePeers (s : State) (c d : Level) (ts : List PTask) : FramePeer s ((s.drivePeers c d).setPpos ts) := by
  rfl

/-- The first cell begun: the clock low, the rest of it planned, the other cells behind it. -/
theorem beginCells_cons (s : State) (b : Level) (bits : List Level) : s.beginCells (b :: bits) =
    (s.peerClk false).setPpos (.dat b :: .clk true :: .clk false :: (cellTasks bits ++ s.ppos)) := rfl

/-- Cells begun: the clock goes low, the data output stays, the bits are planned. -/
theorem beginCells_begins (s : State) (b : Level) (bits : List Level) : (s.beginCells (b :: bits)).peerScl = false ∧
    (s.beginCells (b :: bits)).peerSda = s.peerSda ∧ FramePeer s (s.beginCells (b :: bits)) ∧
    (s.beginCells (b :: bits)).ppos = .dat b :: .clk true :: .clk false :: (cellTasks bits ++ s.ppos) :=
  ⟨rfl, rfl, framePeer_drivePeers s false s.peerSda _, rfl⟩

/-- Settles O49: each element is one line change and a plan, and the cells of a frame are its bits in order. -/
theorem wireElementsBegin : Obligations.WireElementsBegin := by
  unfold Obligations.WireElementsBegin
  intro s
  refine ⟨⟨s.peerDat false, rfl, rfl, rfl, rfl, framePeer_drivePeers s s.peerScl false s.ppos⟩,
    ⟨_, rfl, rfl, rfl, framePeer_drivePeers s false s.peerSda _, rfl⟩,
    ⟨_, rfl, rfl, rfl, framePeer_drivePeers s false s.peerSda _, rfl⟩,
    fun b => ⟨_, rfl, beginCells_begins s b []⟩,
    fun x k => ⟨_, rfl, beginCells_begins s (x.getLsbD 7) _⟩,
    fun a rd => ⟨s.beginCells (bitsOf (addressByte a rd) ++ [true]), rfl, ?_⟩,
    fun k => ⟨_, rfl, rfl, rfl, framePeer_drivePeers s s.peerScl k _, rfl⟩⟩
  rw [bitsOf_addressByte]
  exact beginCells_begins s (a.getLsbD 6) _

/-! ## A peer's elements on the wire -/

@[simp] theorem State.peerClk_scl (s : State) (l : Level) : (s.peerClk l).scl = (s.sclOut && l) := rfl
@[simp] theorem State.peerClk_sda (s : State) (l : Level) : (s.peerClk l).sda = s.sda := rfl
@[simp] theorem State.peerDat_scl (s : State) (l : Level) : (s.peerDat l).scl = s.scl := rfl
@[simp] theorem State.peerDat_sda (s : State) (l : Level) : (s.peerDat l).sda = (s.sdaOut && l) := rfl

/-- A change of the clock shows no condition. -/
theorem peerClk_quiet (s : State) (l : Level) : (s.peerClk l).busOpen = s.busOpen ∧ (s.peerClk l).lastCond = s.lastCond := by
  obtain ⟨-, -, quiet⟩ := drivePeers_seen s l s.peerSda
  exact quiet (.inr (.inr rfl))

/-- A change of the data line under a low clock shows none. -/
theorem peerDat_quiet {s : State} (h : s.scl = false) (l : Level) :
    (s.peerDat l).busOpen = s.busOpen ∧ (s.peerDat l).lastCond = s.lastCond := by
  obtain ⟨-, -, quiet⟩ := drivePeers_seen s s.peerScl l
  exact quiet (.inl h)

/-- A fall of the data line under a high clock is a START or a REPEATED-START. -/
theorem peerDat_fall {s : State} (hc : s.scl = true) (hd : s.sda = true) :
    (s.peerDat false).busOpen = true ∧ (s.peerDat false).lastCond = some (if s.busOpen then .restart else .start) := by
  obtain ⟨fall, -, -⟩ := drivePeers_seen s s.peerScl false
  exact fall hc hc hd (Bool.and_false _)

/-- A rise of the data line under a high clock is a STOP. -/
theorem peerDat_rise {s : State} (hc : s.scl = true) (hd : s.sda = false) (ho : s.sdaOut = true) :
    (s.peerDat true).busOpen = false ∧ (s.peerDat true).lastCond = some .stop := by
  obtain ⟨-, rise, -⟩ := drivePeers_seen s s.peerScl true
  exact rise hc hc hd (by simp [State.drivePeers, State.observe, State.sda, ho])

/-- A peer's cell in its high phase: the clock taken low, the bit put on the data line, the clock released (R92). -/
def State.cellHigh (s : State) (b : Level) : State := ((s.peerClk false).peerDat b).peerClk true

/-- A peer's cell over. -/
def State.cellOver (s : State) (b : Level) : State := (s.cellHigh b).peerClk false

theorem State.cellHigh_scl (s : State) (b : Level) : (s.cellHigh b).scl = s.sclOut := by simp [State.cellHigh]
theorem State.cellHigh_sda (s : State) (b : Level) : (s.cellHigh b).sda = (s.sdaOut && b) := by simp [State.cellHigh]
theorem State.cellHigh_sdaOut (s : State) (b : Level) : (s.cellHigh b).sdaOut = s.sdaOut := by simp [State.cellHigh]
theorem State.cellOver_scl (s : State) (b : Level) : (s.cellOver b).scl = false := by simp [State.cellOver]
theorem State.cellOver_sda (s : State) (b : Level) : (s.cellOver b).sda = (s.sdaOut && b) := s.cellHigh_sda b
theorem State.cellOver_sclOut (s : State) (b : Level) : (s.cellOver b).sclOut = s.sclOut := by simp [State.cellOver, State.cellHigh]
theorem State.cellOver_sdaOut (s : State) (b : Level) : (s.cellOver b).sdaOut = s.sdaOut := by simp [State.cellOver, State.cellHigh]
theorem State.cellOver_ppos (s : State) (b : Level) : (s.cellOver b).ppos = s.ppos := by simp [State.cellOver, State.cellHigh]

/-- In a cell the data line changes under a low clock only. -/
theorem State.cellHigh_quiet (s : State) (b : Level) :
    (s.cellHigh b).busOpen = s.busOpen ∧ (s.cellHigh b).lastCond = s.lastCond := by
  have low : (s.peerClk false).scl = false := Bool.and_false _
  obtain ⟨b1, l1⟩ := peerClk_quiet s false
  obtain ⟨b2, l2⟩ := peerDat_quiet low b
  obtain ⟨b3, l3⟩ := peerClk_quiet ((s.peerClk false).peerDat b) true
  exact ⟨b3.trans (b2.trans b1), l3.trans (l2.trans l1)⟩

theorem State.cellOver_quiet (s : State) (b : Level) :
    (s.cellOver b).lastCond = s.lastCond :=
  (peerClk_quiet (s.cellHigh b) false).2.trans (s.cellHigh_quiet b).2

@[simp] theorem State.setPpos_scl (s : State) (ts : List PTask) : (s.setPpos ts).scl = s.scl := rfl
@[simp] theorem State.setPpos_sda (s : State) (ts : List PTask) : (s.setPpos ts).sda = s.sda := rfl

theorem State.setPpos_setPpos (s : State) (ts ts' : List PTask) : (s.setPpos ts).setPpos ts' = s.setPpos ts' := rfl

/-- What a peer's outputs change does not depend on what the peer plans. -/
theorem State.drivePeers_setPpos (s : State) (ts : List PTask) (c d : Level) :
    (s.setPpos ts).drivePeers c d = (s.drivePeers c d).setPpos ts := rfl

theorem State.peerClk_setPpos (s : State) (ts : List PTask) (l : Level) : (s.setPpos ts).peerClk l = (s.peerClk l).setPpos ts :=
  s.drivePeers_setPpos ts l s.peerSda

theorem State.peerDat_setPpos (s : State) (ts : List PTask) (l : Level) : (s.setPpos ts).peerDat l = (s.peerDat l).setPpos ts :=
  s.drivePeers_setPpos ts s.peerScl l

/-! One turn of the peer, by what stands first in its plan. -/

theorem peer_clk (s : State) (l : Level) (rest : List PTask) :
    stepWith (.turn .peer) (s.setPpos (.clk l :: rest)) = .next ((s.peerClk l).setPpos rest) := by
  simp only [stepWith_eq, fetchInput, fetchTurn, fetchPeer, State.setPpos_ppos, State.setPpos_setPpos, State.peerClk_setPpos, carryOut]

theorem peer_dat (s : State) (l : Level) (rest : List PTask) :
    stepWith (.turn .peer) (s.setPpos (.dat l :: rest)) = .next ((s.peerDat l).setPpos rest) := by
  simp only [stepWith_eq, fetchInput, fetchTurn, fetchPeer, State.setPpos_ppos, State.setPpos_setPpos, State.peerDat_setPpos, carryOut]

theorem peer_waitH {s : State} (h : s.scl = true) (rest : List PTask) :
    stepWith (.turn .peer) (s.setPpos (.waitH :: rest)) = .next (s.setPpos rest) := by
  simp only [stepWith_eq, fetchInput, fetchTurn, fetchPeer, State.setPpos_ppos, State.setPpos_setPpos, State.setPpos_scl, h, if_true,
    carryOut]

theorem peer_waitL {s : State} (h : s.scl = false) (rest : List PTask) :
    stepWith (.turn .peer) (s.setPpos (.waitL :: rest)) = .next (s.setPpos rest) := by
  simp only [stepWith_eq, fetchInput, fetchTurn, fetchPeer, State.setPpos_ppos, State.setPpos_setPpos, State.setPpos_scl, h,
    Bool.false_eq_true, if_false, carryOut]

/-- A cell planned, with others behind it, begun as the first of them. -/
theorem peer_bitCell (s : State) (b : Level) (bits : List Level) :
    stepWith (.turn .peer) (s.setPpos (cellTasks (b :: bits) ++ s.ppos)) = .next (s.beginCells (b :: bits)) := by
  have planned : cellTasks (b :: bits) ++ s.ppos = .op (.bitCell b) :: (cellTasks bits ++ s.ppos) := rfl
  have begun (u : State) : exec (.bitCell b) u = .next (u.beginCells [b]) := rfl
  simp only [stepWith_eq, fetchInput, fetchTurn, fetchPeer, fetchWire, planned, Instr.isWire, if_true, State.setPpos_ppos,
    State.setPpos_setPpos, carryOut_environment, begun, beginCells_cons, State.peerClk_setPpos]
  rfl

/-- Two turns of the peer bring the first of the cells to its high phase. -/
theorem run_cell_high (s : State) (b : Level) (bits : List Level) : runInputs (turns 2 .peer) (s.beginCells (b :: bits)) =
    .next ((s.cellHigh b).setPpos (.clk false :: (cellTasks bits ++ s.ppos))) := by
  rw [beginCells_cons]
  simp only [turns, List.replicate, runInputs, peer_dat, peer_clk, State.cellHigh]

/-- The third ends it. -/
theorem run_cell_over (s : State) (b : Level) (bits : List Level) : runInputs (turns 3 .peer) (s.beginCells (b :: bits)) =
    .next ((s.cellOver b).setPpos (cellTasks bits ++ s.ppos)) := by
  rw [turns_add 2 1, runInputs_append, run_cell_high]
  simp only [afterwards, turns, List.replicate, runInputs, peer_clk, State.cellOver]

/-- The fourth begins the next. -/
theorem run_cell_next (s : State) (b b' : Level) (bits : List Level) :
    runInputs (turns 4 .peer) (s.beginCells (b :: b' :: bits)) = .next ((s.cellOver b).beginCells (b' :: bits)) := by
  rw [turns_add 3 1, runInputs_append, run_cell_over, ← s.cellOver_ppos b]
  simp only [afterwards, turns, List.replicate, runInputs, peer_bitCell]

/-- Cell `c` in its high phase, with the engine's outputs released: the bit is on the data line, and no condition was shown. -/
theorem run_cells_high {bits : List Level} {c : Nat} (hc : c < bits.length) {s : State} (ho : s.sclOut = true) (hd : s.sdaOut = true) :
    ∃ t, runInputs (turns (4 * c + 2) .peer) (s.beginCells bits) = .next t ∧ t.scl = true ∧ t.sda = bits[c] ∧
      t.lastCond = s.lastCond := by
  induction c generalizing bits s with
  | zero =>
    obtain ⟨b, rest, rfl⟩ := List.exists_cons_of_length_pos hc
    exact ⟨_, run_cell_high s b rest, by simp [State.cellHigh_scl, ho], by simp [State.cellHigh_sda, hd], (s.cellHigh_quiet b).2⟩
  | succ c ih =>
    obtain ⟨b, b', rest, rfl⟩ : ∃ b b' rest, bits = b :: b' :: rest := by
      match bits, hc with
      | b :: b' :: rest, _ => exact ⟨b, b', rest, rfl⟩
    obtain ⟨t, ht, hscl, hsda, hl⟩ := ih (bits := b' :: rest) (Nat.lt_of_succ_lt_succ hc)
      ((s.cellOver_sclOut b).trans ho) ((s.cellOver_sdaOut b).trans hd)
    refine ⟨t, ?_, hscl, hsda, hl.trans (s.cellOver_quiet b)⟩
    rw [show 4 * (c + 1) + 2 = 4 + (4 * c + 2) by omega, turns_add, runInputs_append, run_cell_next]
    exact ht

/-- The cells over: the clock is low, the last bit is on the data line, no condition was shown, and the peer goes on as planned. -/
theorem run_cells_over (bits : List Level) (b : Level) {s : State} (hd : s.sdaOut = true) :
    ∃ t, runInputs (turns (4 * bits.length + 3) .peer) (s.beginCells (bits ++ [b])) = .next t ∧ t.scl = false ∧ t.sda = b ∧
      t.lastCond = s.lastCond ∧ t.ppos = s.ppos := by
  induction bits generalizing s with
  | nil =>
    refine ⟨_, run_cell_over s b [], ?_, ?_, ?_, ?_⟩ <;> simp [State.cellOver_scl, State.cellOver_sda, s.cellOver_quiet b, hd, cellTasks]
  | cons b0 rest ih =>
    obtain ⟨t, ht, hscl, hsda, hl, hp⟩ := ih ((s.cellOver_sdaOut b0).trans hd)
    refine ⟨t, ?_, hscl, hsda, hl.trans (s.cellOver_quiet b0), hp.trans (s.cellOver_ppos b0)⟩
    rw [List.length_cons, show 4 * (rest.length + 1) + 3 = 4 + (4 * rest.length + 3) by omega, turns_add, runInputs_append]
    obtain ⟨b1, more, hmore⟩ : ∃ b1 more, rest ++ [b] = b1 :: more := List.exists_cons_of_ne_nil (by simp)
    rw [List.cons_append, hmore, run_cell_next, ← hmore]
    exact ht

/-- On an idle bus a peer's START appears as one. -/
theorem wireStart_shown {s : State} (hc : s.scl = true) (hd : s.sda = true) (hbus : s.busOpen = false) :
    ∃ t, exec .wireStart s = .next t ∧ t.lastCond = some .start ∧ t.busOpen = true := by
  obtain ⟨hopen, hcond⟩ := peerDat_fall hc hd
  exact ⟨s.peerDat false, rfl, by simp [hcond, hbus], hopen⟩

/-- A REPEATED-START is a cell of a released data line whose high phase ends with a fall of the data line. -/
theorem run_wireRestart (s : State) :
    afterwards (exec .wireRestart s) (turns 3 .peer) = .next (((s.cellHigh true).peerDat false).setPpos s.ppos) := by
  have begun : exec .wireRestart s = .next ((s.peerClk false).setPpos (.dat true :: .clk true :: .dat false :: s.ppos)) := rfl
  rw [begun]
  simp only [afterwards, turns, List.replicate, runInputs, peer_dat, peer_clk, State.cellHigh]

/-- With the engine's outputs released and a START standing, it appears as one. -/
theorem wireRestart_shown {s : State} (ho : s.sclOut = true) (hd : s.sdaOut = true) (hbus : s.busOpen = true) :
    ∃ t, afterwards (exec .wireRestart s) (turns 3 .peer) = .next t ∧ t.lastCond = some .restart ∧ t.busOpen = true := by
  have hscl : (s.cellHigh true).scl = true := (s.cellHigh_scl true).trans ho
  have hsda : (s.cellHigh true).sda = true := by simp [State.cellHigh_sda, hd]
  obtain ⟨hopen, hcond⟩ := peerDat_fall hscl hsda
  exact ⟨_, run_wireRestart s, by simp [hcond, s.cellHigh_quiet true, hbus], by simpa using hopen⟩

/-- A STOP is a cell of a low data line whose high phase ends with a rise of the data line. -/
theorem run_wireStop (s : State) :
    afterwards (exec .wireStop s) (turns 3 .peer) = .next (((s.cellHigh false).peerDat true).setPpos s.ppos) := by
  have begun : exec .wireStop s = .next ((s.peerClk false).setPpos (.dat false :: .clk true :: .dat true :: s.ppos)) := rfl
  rw [begun]
  simp only [afterwards, turns, List.replicate, runInputs, peer_dat, peer_clk, State.cellHigh]

/-- With the engine's outputs released it appears as one, and both lines are high. -/
theorem wireStop_shown {s : State} (ho : s.sclOut = true) (hd : s.sdaOut = true) :
    ∃ t, afterwards (exec .wireStop s) (turns 3 .peer) = .next t ∧ t.lastCond = some .stop ∧ t.busOpen = false ∧ t.scl = true ∧
      t.sda = true := by
  have hscl : (s.cellHigh false).scl = true := (s.cellHigh_scl false).trans ho
  have hsda : (s.cellHigh false).sda = false := by simp [State.cellHigh_sda]
  obtain ⟨hopen, hcond⟩ := peerDat_rise hscl hsda ((s.cellHigh_sdaOut false).trans hd)
  exact ⟨_, run_wireStop s, by simpa using hcond, by simpa using hopen, by simpa using hscl, by simp [State.cellHigh_sdaOut, hd]⟩

/-! ## A peer's acknowledge, as the engine samples it (R95, 40_line_primitives.md R141) -/

/-- A bit given by a peer in the high phase of the engine's `C_RBIT`: both sides are waiting for that phase to pass. -/
structure AckHigh (k : Level) (rest : List CTask) (t : State) : Prop where
  cpos : t.cpos = .op (.delay .high) :: .op .getSda :: .takeBit :: .op (.setScl false) :: .op (.delay .low) :: rest
  ppos : t.ppos = [.waitH, .waitL, .dat true]
  sclOut : t.sclOut = true
  sdaOut : t.sdaOut = true
  peerScl : t.peerScl = true
  peerSda : t.peerSda = k

theorem AckHigh.scl {k : Level} {rest : List CTask} {t : State} (h : AckHigh k rest t) : t.scl = true := by
  simp [State.scl, h.sclOut, h.peerScl]

theorem AckHigh.sda {k : Level} {rest : List CTask} {t : State} (h : AckHigh k rest t) : t.sda = k := by
  simp [State.sda, h.sdaOut, h.peerSda]

/-- The acknowledge given and the clock raised. -/
theorem run_acknowledge_high (k : Level) {rest : List CTask} {s : State} (hp : s.peerScl = true) (hpos : s.ppos = [])
    (hc : s.cpos = .op .cRbit :: rest) :
    ∃ t, runInputs (.wire (.acknowledge k) :: turns (2 + raisePolls) .controller) s = .next t ∧ AckHigh k rest t := by
  let given : State := (s.peerDat k).thenP [.waitH, .waitL, .dat true]
  let begun : State := (given.setCpos rest).beginRbit
  have hgiven : stepWith (.wire (.acknowledge k)) s = .next given := rfl
  have hbegun := run_turn (s := given) (v := begun) (n := 0 + (1 + raisePolls)) hc rfl rfl
  have hraise : begun.cpos = .op .cRaise :: .op (.delay .high) :: .op .getSda :: .takeBit :: .op (.setScl false) ::
    .op (.delay .low) :: rest := by simp [begun, rbitRest]
  have hclk : begun.peerScl = true := by simp [begun, given, hp]
  have hdat : begun.peerSda = k := by simp [begun, given]
  have hplan : begun.ppos = [.waitH, .waitL, .dat true] := by simp [begun, given, hpos]
  obtain ⟨t, ht, hcpos, hhide, hscl, hsda, -⟩ := run_raise (n := 0) hclk hraise
  refine ⟨t, ?_, hcpos, (hidePrimitive_ppos hhide).trans hplan, hscl, hsda, (hidePrimitive_peerScl hhide).trans hclk,
    (hidePrimitive_peerSda hhide).trans hdat⟩
  rw [runInputs_cons, hgiven, show 2 + raisePolls = 0 + (1 + raisePolls) + 1 by omega]
  exact hbegun.trans ht

/-- The rest of the cell: the engine samples the bit and takes the clock low, and the peer releases the data line. -/
theorem run_acknowledge_over {k : Level} {rest : List CTask} {t : State} (h : AckHigh k rest t) :
    ∃ u, runInputs (.turn .peer :: turns 3 .controller ++ turns 2 .peer ++ [.turn .controller]) t = settleC rest u ∧
      u.bitv = k ∧ u.peerSda = true ∧ u.ppos = [] := by
  let plan : List CTask := .op (.setScl false) :: .op (.delay .low) :: rest
  let held : State := ((t.setPpos [.waitL, .dat true]).setCpos (.op .getSda :: .takeBit :: plan)).waitAtLeast .high
  let read : State := (held.setCpos (.takeBit :: plan)).readSda
  let sampled : State := (read.setBitv read.got).setCpos plan
  let lowered : State := (sampled.setCpos (.op (.delay .low) :: rest)).driveScl false
  let released : State := (lowered.peerDat true).setPpos []
  let settled : State := (released.setCpos rest).waitAtLeast .low
  have hstand : t = t.setPpos [.waitH, .waitL, .dat true] := by rw [← h.ppos]; rfl
  have hseen : stepWith (.turn .peer) t = .next (t.setPpos [.waitL, .dat true]) := by
    rw [hstand]
    exact peer_waitH h.scl _
  have hheld : stepWith (.turn .controller) (t.setPpos [.waitL, .dat true]) = .next held :=
    controller_turn (s := t.setPpos _) (v := held) h.cpos rfl
  have hsampled : stepWith (.turn .controller) held = .next sampled := controller_turn (v := read) rfl rfl
  have hlowered : stepWith (.turn .controller) sampled = .next lowered := controller_turn (v := lowered) rfl rfl
  have hwait : stepWith (.turn .peer) lowered = .next (lowered.setPpos [.dat true]) := peer_waitL (s := lowered) rfl [.dat true]
  have hreleased : stepWith (.turn .peer) (lowered.setPpos [.dat true]) = .next released := peer_dat lowered true []
  have hsettled : stepWith (.turn .controller) released = settleC rest settled := controller_turn (v := settled) rfl rfl
  have hbit : read.got = k := h.sda
  refine ⟨settled, ?_, hbit, rfl, rfl⟩
  show runInputs [_, _, _, _, _, _, _] t = _
  simp only [runInputs, hseen, hheld, hsampled, hlowered, hwait, hreleased, hsettled]
  cases settleC rest settled <;> rfl

/-- Settles O50: the elements as cells, and the acknowledge in the two halves of the engine's cell. -/
theorem wireElementsOnTheWire : Obligations.WireElementsOnTheWire := by
  unfold Obligations.WireElementsOnTheWire
  refine ⟨fun s ho hd hp => ⟨fun hc hps hbus => ?_, fun _ hbus => ?_, fun _ => ?_, fun b _ => ⟨?_, ?_⟩,
    fun x k _ => ⟨fun c hc => ?_, ?_⟩, fun a rd _ => ⟨fun c hc => ?_, ?_⟩⟩, fun k rest s _ hp hpos hc => ?_⟩
  · exact wireStart_shown (by simp [State.scl, ho, hc]) (by simp [State.sda, hd, hps]) hbus
  · exact wireRestart_shown ho hd hbus
  · exact wireStop_shown ho hd
  · exact run_cells_high (bits := [b]) (c := 0) Nat.one_pos ho hd
  · obtain ⟨t, ht, hscl, hsda, hl, hpos⟩ := run_cells_over [] b hd
    exact ⟨t, ht, hscl, hsda, hl, hpos.trans hp⟩
  · obtain ⟨t, ht, hscl, hsda, hl⟩ := run_cells_high (bits := bitsOf x ++ [k]) hc ho hd
    refine ⟨t, ht, hscl, hsda.trans ?_, hl⟩
    interval_cases c <;> rfl
  · obtain ⟨t, ht, hscl, -, hl, hpos⟩ := run_cells_over (bitsOf x) k hd
    exact ⟨t, ht, hscl, hl, hpos.trans hp⟩
  · obtain ⟨t, ht, hscl, hsda, hl⟩ := run_cells_high (bits := bitsOf (addressByte a rd) ++ [true]) hc ho hd
    refine ⟨t, ht, hscl, hsda.trans ?_, hl⟩
    simp only [bitsOf_addressByte]
    interval_cases c <;> rfl
  · obtain ⟨t, ht, hscl, hsda, hl, hpos⟩ := run_cells_over (bitsOf (addressByte a rd)) true hd
    exact ⟨t, ht, hscl, hsda, hl, hpos.trans hp⟩
  · obtain ⟨t, ht, hack⟩ := run_acknowledge_high k hp hpos hc
    refine ⟨⟨t, ht, hack.scl, hack.sda⟩, ?_⟩
    rw [List.append_assoc, List.append_assoc, runInputs_append, ht, ← List.append_assoc]
    exact run_acknowledge_over hack

end Sys2Proof.Machine
end

section
/-! The family of 40_line_primitives.md on the controller's side. A primitive's run to its end is the laws' run lemma for it; a byte
sent is followed into the high phase of each of its cells, a byte received through the cells that the peers supply one by one. -/

namespace Sys2Proof.Machine

/-! ## Micro-operations (R130 to R134) -/

/-- Where no output changed there is nothing to observe. -/
theorem State.observe_self (s : State) : s.observe s = s := by
  simp [State.observe]

/-- Settles O19: the fields are read off; a level equal to the latch's leaves nothing to observe. -/
theorem setLinesAndDelay : Obligations.SetLinesAndDelay := by
  unfold Obligations.SetLinesAndDelay
  intro l s
  refine ⟨rfl, rfl, ⟨s.driveScl l, rfl, rfl, rfl, rfl, rfl, rfl, fun _ => rfl, ?_⟩,
    ⟨s.driveSda l, rfl, rfl, rfl, rfl, rfl, rfl, fun _ => rfl, ?_⟩⟩
  · rintro rfl
    exact s.observe_self
  · rintro rfl
    exact s.observe_self

/-- Settles O20: a get writes the line's level to `got`. -/
theorem getLines : Obligations.GetLines := by
  unfold Obligations.GetLines
  exact fun s => ⟨rfl, rfl⟩

/-! ## Controller primitives (R135 to R143) -/

/-- Settles O21: each primitive's rest of its trace, written out. -/
theorem controllerPrimitivesBegin : Obligations.ControllerPrimitivesBegin := by
  unfold Obligations.ControllerPrimitivesBegin
  exact fun s => ⟨rfl, rfl, rfl, rfl, rfl, fun _ => rfl, rfl, fun _ => rfl, rfl⟩

/-- Each primitive's run, with its trace counted and the outputs it leaves. -/
theorem run_primitive {i : Instr} {s : State} {k : List CTask} (hi : isPrimitive i = true) (hc : s.cpos = .op i :: k)
    (hp : s.peerScl = true) :
    ∃ t, ControllerRun (microOps raisePolls i) (lowDelays i) (highDelays i) (outsAfter i s.sclOut s.sdaOut).1
        (outsAfter i s.sclOut s.sdaOut).2 s k t ∧
      (i = .cRbit → t.bitv = s.peerSda) ∧ ∀ x, i = .cWbyte x → t.cack = s.peerSda := by
  cases i with
  | cPrestart =>
    obtain ⟨t, ht⟩ := run_prestart hp hc
    exact ⟨t, ht, nofun, nofun⟩
  | cStart =>
    obtain ⟨t, ht⟩ := run_start hc
    exact ⟨t, ht, nofun, nofun⟩
  | cRstart =>
    obtain ⟨t, ht⟩ := run_rstart hp hc
    exact ⟨t, ht, nofun, nofun⟩
  | cStop =>
    obtain ⟨t, ht, -⟩ := run_stop hp hc
    exact ⟨t, ht, nofun, nofun⟩
  | cWbit b =>
    obtain ⟨t, ht, -⟩ := run_wbit b hp hc
    exact ⟨t, ht, nofun, nofun⟩
  | cRbit =>
    obtain ⟨t, ht, hbit, -⟩ := run_rbit hp hc
    exact ⟨t, ht, fun _ => hbit, nofun⟩
  | cWbyte x =>
    obtain ⟨t, ht, hack, -⟩ := run_wbyte hp hc
    have count : 46 + 9 * raisePolls = microOps raisePolls (.cWbyte x) := by simp only [microOps]; omega
    exact ⟨t, count ▸ ht, nofun, fun _ _ => hack⟩
  | cRbyte =>
    obtain ⟨t, ht, -⟩ := run_rbyte hp hc
    have count : 48 + 8 * raisePolls = microOps raisePolls .cRbyte := by simp only [microOps]; omega
    exact ⟨t, count ▸ ht, nofun, nofun⟩
  | _ => cases hi

/-- Settles O22, by the run of each primitive. -/
theorem controllerPrimitivesRunToTheirEnd : Obligations.ControllerPrimitivesRunToTheirEnd := by
  unfold Obligations.ControllerPrimitivesRunToTheirEnd
  intro i s rest hi hc hp
  obtain ⟨t, ht, hbit, hack⟩ := run_primitive hi hc hp
  exact ⟨t, ht.run, ht.cpos, Prod.ext ht.scl ht.sda, ht.elapsed, hbit, hack, framePrimitive_of_hide ht.hide⟩

/-! ## Bits of a byte in their order (30_encoding.md R93) -/

/-- Bit `7 - k` stands at place `k`. -/
theorem bitsOf_getElem? (x : Byte) {k : Nat} (hk : k < 8) : (bitsOf x)[k]? = some (x.getLsbD (7 - k)) := by
  interval_cases k <;> rfl

/-- A bit shifted in comes last, and the first is lost. -/
theorem bitsOf_shiftIn (x : Byte) (v : Level) : bitsOf (shiftIn x v) = (bitsOf x).tail ++ [v] := by
  simp [bitsOf, shiftIn]

/-- Bits shifted in come last, and as many are lost at the front. -/
theorem bitsOf_foldl_shiftIn (cells : List Level) (x : Byte) :
    bitsOf (cells.foldl shiftIn x) = (bitsOf x ++ cells).drop cells.length := by
  induction cells generalizing x with
  | nil => simp
  | cons v cells ih =>
    rw [List.foldl_cons, ih, bitsOf_shiftIn]
    simp [bitsOf]

/-- Eight bits shifted in are the byte's bits, the first in bit 7 (R144). -/
theorem bitsOf_byteOf {cells : List Level} (h : cells.length = 8) : bitsOf (byteOf cells) = cells := by
  rw [byteOf, bitsOf_foldl_shiftIn, h]
  exact List.drop_left' rfl

/-! ## A byte sent (R142) -/

/-- In front of an operation, with or without a poll, an operation stands. -/
theorem stretchTasks_front (w : Bool) (i : Instr) (k : List CTask) :
    ∃ j l, stretchTasks w ++ .op i :: k = .op j :: l := by
  cases w
  · exact ⟨_, _, rfl⟩
  · exact ⟨_, _, rfl⟩

/-- The first turn of `C_RAISE` in front of an operation: the clock is released. -/
theorem run_raise_first {s : State} {i : Instr} {k : List CTask} (hc : s.cpos = .op .cRaise :: .op i :: k) :
    ∃ t, runInputs (turns 1 .controller) s = .next t ∧ t.sclOut = true ∧ t.sdaOut = s.sdaOut ∧
      t.hidePrimitive = s.hidePrimitive := by
  obtain ⟨j, l, front⟩ := stretchTasks_front Config.stretchWait i k
  have he : exec .cRaise (s.setCpos (.op i :: k)) = .next (((s.setCpos (.op i :: k)).driveScl true).setCpos (.op j :: l)) := by
    rw [← front]; rfl
  exact ⟨_, (run_last hc he).trans (settleC_operation (State.setCpos_cpos ..)), by simp, by simp, by simp⟩

/-- The high phase of a sent bit's cell: the bit is put on the data line, then the clock is released. -/
theorem run_wbit_high {s : State} {b : Level} {k : List CTask} (hp : s.peerScl = true) (hd : s.peerSda = true)
    (hc : s.cpos = .op (.cWbit b) :: k) :
    ∃ t, runInputs (turns 2 .controller) s = .next t ∧ t.scl = true ∧ t.sda = b := by
  obtain ⟨t, ht, hscl, hsda, hhide⟩ := run_raise_first (s := (s.setCpos k).beginWbit b) rfl
  have hhide : t.hidePrimitive = s.hidePrimitive := hhide
  have hsda : t.sdaOut = b := hsda
  refine ⟨t, (run_turn hc rfl rfl).trans ht, ?_, ?_⟩
  · rw [State.scl, hscl, hidePrimitive_peerScl hhide, hp]; rfl
  · rw [State.sda, hsda, hidePrimitive_peerSda hhide, hd, Bool.and_true]

/-- Settles O23: the bits before bit `7 - k` are sent, then that bit's cell is followed into its high phase. -/
theorem controllerSendsMostSignificantFirst : Obligations.ControllerSendsMostSignificantFirst := by
  unfold Obligations.ControllerSendsMostSignificantFirst
  intro x rest s hc hp hd k hk
  let cells : State := s.setCpos ((bitsOf x).map (fun b => CTask.op (.cWbit b)) ++ .op .cRbit :: .takeAck :: rest)
  have hlen : k < (bitsOf x).length := hk
  have hbit : (bitsOf x)[k] = x.getLsbD (7 - k) :=
    Option.some.inj ((List.getElem?_eq_getElem hlen).symm.trans (bitsOf_getElem? x hk))
  have parts : bitsOf x = (bitsOf x).take k ++ (bitsOf x)[k] :: (bitsOf x).drop (k + 1) :=
    (List.take_append_drop k _).symm.trans (congrArg _ (List.drop_eq_getElem_cons hlen))
  have hcells : cells.cpos = ((bitsOf x).take k).map (fun b => CTask.op (.cWbit b)) ++ .op (.cWbit (bitsOf x)[k]) ::
      (((bitsOf x).drop (k + 1)).map (fun b => CTask.op (.cWbit b)) ++ .op .cRbit :: .takeAck :: rest) := by
    show (bitsOf x).map _ ++ _ = _
    rw [congrArg (List.map _) parts, List.map_append, List.map_cons, List.append_assoc, List.cons_append]
  obtain ⟨a, ha, hpos, hhide, -⟩ := run_bits ((bitsOf x).take k) (s := cells) hp hcells
  rw [List.length_take_of_le hlen.le] at ha
  obtain ⟨t, ht, hscl, hsda⟩ :=
    run_wbit_high ((hidePrimitive_peerScl hhide).trans hp) ((hidePrimitive_peerSda hhide).trans hd) hpos
  have sent : runInputs (turns (k * (5 + raisePolls) + 2) .controller) cells = .next t := by
    rw [turns_add, runInputs_append, ha]
    exact ht
  exact ⟨t, (run_congr (turn_wbyte hc)).trans sent, hscl, hsda.trans hbit⟩

/-! ## A byte received (R143) -/

/-- The peers give the clock and put a level on the data line. -/
theorem stepWith_drive (c d : Level) (s : State) : stepWith (.drive c d) s = .next (s.drivePeers c d) := rfl

/-- One cell supplied: the level comes to be `v`, the latched operands and the buffers are as before. -/
theorem run_supplied_cell (b : Level) {s : State} {k : List CTask} (hc : s.cpos = .op .cRbit :: k) :
    ∃ t, runInputs (.drive true b :: turns (6 + raisePolls) .controller) s = settleC k t ∧ t.bitv = b ∧ t.csr = s.csr ∧
      t.xaddr = s.xaddr ∧ t.xsegs = s.xsegs ∧ t.mem = s.mem := by
  obtain ⟨t, ht, hv, hcsr, -⟩ := run_rbit (s := s.drivePeers true b) rfl hc
  refine ⟨t, ?_, hv, hcsr, (hidePrimitive_xaddr ht.hide :), (hidePrimitive_xsegs ht.hide :), (hidePrimitive_mem ht.hide :)⟩
  rw [runInputs_cons, stepWith_drive]
  exact ht.run

/-- Cells supplied one after another, each shifted into `CSR`: this one and the others. -/
theorem run_supplied_cells {k : List CTask} (b : Level) (cells : List Level) {s : State}
    (hc : s.cpos = (List.replicate (cells.length + 1) [CTask.op .cRbit, .shiftCsr]).flatten ++ k) :
    ∃ t, runInputs (cellsForController (b :: cells)) s = settleC k t ∧ t.csr = (b :: cells).foldl shiftIn s.csr ∧
      t.xaddr = s.xaddr ∧ t.xsegs = s.xsegs ∧ t.mem = s.mem := by
  induction cells generalizing b s with
  | nil =>
    obtain ⟨t, ht, hv, hcsr, ha, hs, hm⟩ := run_supplied_cell b (k := .shiftCsr :: k) hc
    refine ⟨t.setCsr (shiftIn t.csr t.bitv), ?_, by simp [hv, hcsr], ha, hs, hm⟩
    rw [cellsForController, cellsForController, List.append_nil, ht]
    rfl
  | cons b' cells ih =>
    obtain ⟨t, ht, hv, hcsr, ha, hs, hm⟩ := run_supplied_cell b
      (k := .shiftCsr :: ((List.replicate (cells.length + 1) [CTask.op .cRbit, .shiftCsr]).flatten ++ k)) hc
    let next : State := (t.setCsr (shiftIn t.csr t.bitv)).setCpos
      ((List.replicate (cells.length + 1) [CTask.op .cRbit, .shiftCsr]).flatten ++ k)
    have shifted : settleC (.shiftCsr :: ((List.replicate (cells.length + 1) [CTask.op .cRbit, .shiftCsr]).flatten ++ k)) t
        = .next next := rfl
    obtain ⟨u, hu, hcsr', ha', hs', hm'⟩ := ih b' (s := next) rfl
    refine ⟨u, ?_, ?_, ha'.trans ha, hs'.trans hs, hm'.trans hm⟩
    · rw [cellsForController, runInputs_append, ht, shifted]
      exact hu
    · rw [hcsr']
      simp [next, hv, hcsr]

/-! What a peer's outputs change depends neither on the controller's position nor on `CSR`. -/

theorem State.drivePeers_setCpos (s : State) (l : List CTask) (c d : Level) :
    (s.setCpos l).drivePeers c d = (s.drivePeers c d).setCpos l := rfl

theorem State.drivePeers_setCsr (s : State) (x : Byte) (c d : Level) :
    (s.setCsr x).drivePeers c d = (s.drivePeers c d).setCsr x := rfl

/-- Cells supplied from `C_RBYTE` on are cells supplied to its eight `C_RBIT`, with `CSR` cleared (R143). -/
theorem run_cells_rbyte {s : State} {k : List CTask} (b : Level) (cells : List Level) (hc : s.cpos = .op .cRbyte :: k) :
    runInputs (cellsForController (b :: cells)) s
      = runInputs (cellsForController (b :: cells))
          ((s.setCsr 0#8).setCpos ((List.replicate 8 [CTask.op .cRbit, .shiftCsr]).flatten ++ k)) := by
  have e : 6 + raisePolls = (5 + raisePolls) + 1 := by omega
  rw [cellsForController, List.cons_append, runInputs_cons, runInputs_cons, stepWith_drive, stepWith_drive]
  show runInputs (turns (6 + raisePolls) .controller ++ _) _ = runInputs (turns (6 + raisePolls) .controller ++ _) _
  rw [runInputs_append, runInputs_append, e, run_congr (turn_rbyte (s := s.drivePeers true b) hc),
    State.drivePeers_setCpos, State.drivePeers_setCsr]

/-- Settles O24: the cells supplied are shifted in one by one, and eight shifted in are the byte's bits. -/
theorem controllerReceivesMostSignificantFirst : Obligations.ControllerReceivesMostSignificantFirst := by
  unfold Obligations.ControllerReceivesMostSignificantFirst
  intro cells rest s hlen hc
  obtain ⟨b, others, rfl⟩ := List.exists_cons_of_length_eq_add_one hlen
  have hothers : others.length + 1 = 8 := hlen
  obtain ⟨u, hu, hcsr, ha, hs, hm⟩ := run_supplied_cells b others (k := rest)
    (s := (s.setCsr 0#8).setCpos ((List.replicate 8 [CTask.op .cRbit, .shiftCsr]).flatten ++ rest)) (by rw [hothers]; rfl)
  refine ⟨u, (run_cells_rbyte b others hc).trans hu, fun k hk => ?_, ha, hs, hm⟩
  have hbits : bitsOf u.csr = b :: others := by
    rw [hcsr]
    exact bitsOf_byteOf hlen
  rw [← hbits]
  exact bitsOf_getElem? u.csr hk

end Sys2Proof.Machine
end

section
/-! The family of 41_controller_ops.md: the command port and the acceptance of the host commands. -/

namespace Sys2Proof.Machine

/-! ## The command port (R160; 30_encoding.md R100, R111) -/

/-- The words presented one behind another stand in front of what is behind them. -/
theorem leadingWords_append (ws : List Word) (rest : List PortItem) :
    leadingWords (ws.map PortItem.word ++ rest) = ws ++ leadingWords rest := by
  induction ws with
  | nil => rfl
  | cons w ws ih => exact congrArg (List.cons w) ih

/-- The words of one command at the front of an open port are taken, and the command is run. -/
theorem fetchPort_words {s : State} {ws : List Word} {rest : List PortItem} {i : Instr} (hd : decode ws = .ok (i, []))
    (hb : s.busy = false) (hp : s.port = ws.map PortItem.word ++ rest) :
    fetchPort s = .run .environment i (s.setPort rest) := by
  obtain ⟨w, body, hlen, rfl, -⟩ := decode_ok_iff.1 hd
  have front : decode (leadingWords s.port) = .ok (i, leadingWords rest) := by
    rw [hp, leadingWords_append]
    exact decode_append hd (leadingWords rest)
  have behind : s.port.drop (1 + descCount w) = rest := by
    rw [hp]
    exact List.drop_left' (by simp [hlen, Nat.add_comm])
  have first : s.port = .word w :: ((body ++ []).map PortItem.word ++ rest) := hp
  unfold fetchPort
  simp only [hb, Bool.false_eq_true, if_false]
  split
  next h => rw [first] at h; cases h
  next h => rw [first] at h; cases h
  next h =>
    rw [first] at h
    cases h
    rw [front, behind]

/-- Settles O5: the command's words, or the pseudo-operation, are taken and run in the environment's context. -/
theorem portStepRunsCommand : Obligations.PortStepRunsCommand := by
  unfold Obligations.PortStepRunsCommand
  refine ⟨fun s ws rest i hd hb hp => ?_, fun s rest i hi hb hp => ?_⟩
  · rw [stepWith_eq]
    exact (congrArg carryOut (fetchPort_words hd hb hp)).trans (carryOut_environment i _)
  · have taken : fetchPort s = .run .environment i (s.setPort rest) := by simp [fetchPort, hb, hp, hi]
    rw [stepWith_eq]
    exact (congrArg carryOut taken).trans (carryOut_environment i _)

/-- Settles O8: presenting only writes the port, and acceptance with a command in execution is the hold. -/
theorem busyHoldsCommands : Obligations.BusyHoldsCommands := by
  unfold Obligations.BusyHoldsCommands
  refine ⟨fun ws s => rfl, fun i s hi hw => ?_, fun i s hi hb => exec_held hi hb, fun s hb => ?_⟩
  · have asked : fetchCall i s = .done (s.setPort (s.port ++ [.call i])) := by
      cases i
      case write | read | writeRead | probe => simp only [fetchCall, hi, hw, Bool.and_self, if_true]
      all_goals cases hi
    rw [stepWith_eq]
    exact congrArg carryOut asked
  · have closed : fetchPort s = .done s := by simp [fetchPort, hb]
    rw [stepWith_eq]
    exact congrArg carryOut closed

/-! ## Acceptance (R161 to R163, R174, R176) -/

/-- Settles O9: the grade of each speed code. -/
theorem configureResult : Obligations.ConfigureResult := by
  unfold Obligations.ConfigureResult
  intro code a10 s hb
  have effect : exec (.configure code a10) s = .next (s.configure code a10) :=
    State.accept_idle hb (.configure code a10) fun s => s.configure code a10
  rw [effect]
  refine ⟨?_, ?_, fun h => congrArg Host.Outcome.next ?_⟩
  · rintro rfl rfl
    rfl
  · rintro rfl rfl
    rfl
  · rcases h with rfl | ⟨h1, h2⟩
    · cases hg : gradeOf code <;> simp [State.configure, hg, State.deliver]
    · simp [State.configure, gradeOf, h1, h2, State.deliver]

/-- Settles O10: the standard grade's delays are the fast grade's and a positive amount more (log 11). -/
theorem fastDelaysAreSmaller : Obligations.FastDelaysAreSmaller := by
  unfold Obligations.FastDelaysAreSmaller
  simp only [Config.nsToUnits, Config.lowNs, Config.highNs, Nat.reduceEqDiff, if_true, if_false]
  omega

/-- A transfer with no command in execution is its start. -/
theorem exec_transfer {s : State} (hb : s.busy = false) (addr : Addr) (segs : List Seg) :
    exec (.transfer addr segs) s = .next (s.startTransfer addr segs) :=
  State.accept_idle hb (.transfer addr segs) fun s => s.startTransfer addr segs

/-- A recovery with no command in execution is its start. -/
theorem exec_recover {s : State} (hb : s.busy = false) : exec .recover s = .next s.startRecover :=
  State.accept_idle hb .recover State.startRecover

/-- A transfer accepted: its operands latched, its sequencer before the first micro-operation (R163, R164). -/
def State.inTransfer (s : State) (addr : Addr) (g : Seg) (rest : List Seg) : State :=
  { s with
    mode := .controller, busy := true, cop := .transfer, xaddr := addr, xsegs := g :: rest, cpos := transferTasks addr g }

/-- A transfer with a segment starts in a configured engine that is no target. -/
theorem exec_transfer_starts {s : State} (hb : s.busy = false) (hm : s.mode ≠ .target) (hv : s.cfgValid = true) (addr : Addr)
    (g : Seg) (rest : List Seg) : exec (.transfer addr (g :: rest)) s = .next (s.inTransfer addr g rest) := by
  simp [exec_transfer hb, State.startTransfer, hm, hv, State.inTransfer]

/-- A recovery accepted (R174). -/
def State.inRecovery (s : State) : State := { s with busy := true, cop := .recover, cpos := recoverTasks }

/-- A recovery starts in a configured engine that is no target. -/
theorem exec_recover_starts {s : State} (hb : s.busy = false) (hm : s.mode ≠ .target) (hv : s.cfgValid = true) :
    exec .recover s = .next s.inRecovery := by
  simp [exec_recover hb, State.startRecover, hm, hv, State.inRecovery]

/-- Settles O11, check by check; the address byte's last bit is 1 for a read segment (R166). -/
theorem transferAcceptance : Obligations.TransferAcceptance := by
  unfold Obligations.TransferAcceptance
  intro addr segs s hb
  refine ⟨fun hm => ?_, fun hm hv => ?_, ?_, ?_⟩
  · simp [exec_transfer hb, State.startTransfer, hm, State.deliver]
  · simp [exec_transfer hb, State.startTransfer, hm, hv, State.deliver]
  · rintro hm hv rfl
    simp [exec_transfer hb, State.startTransfer, hm, hv, State.deliver]
  · rintro ⟨dir, rb, sa, len⟩ rest hm hv rfl
    rw [exec_transfer_starts hb hm hv]
    cases dir <;> rfl

/-- Settles O12, check by check. -/
theorem recoverAcceptance : Obligations.RecoverAcceptance := by
  unfold Obligations.RecoverAcceptance
  intro s hb
  refine ⟨fun hm => ?_, fun hm hv => ?_, fun hm hv => ?_⟩
  · simp [exec_recover hb, State.startRecover, hm, State.deliver]
  · simp [exec_recover hb, State.startRecover, hm, hv, State.deliver]
  · exact exec_recover_starts hb hm hv

/-- Settles O15, mode by mode. -/
theorem releaseResult : Obligations.ReleaseResult := by
  unfold Obligations.ReleaseResult
  intro s hb
  have effect : exec .release s = .next s.release := State.accept_idle hb .release State.release
  refine ⟨fun hm => ?_, fun hm => ?_⟩
  · simp [effect, State.release, hm, State.deliver]
  · simp [effect, State.release, hm, State.deliver]

end Sys2Proof.Machine
end

section
/-! The family of 41_controller_ops.md: what a transfer does, in which order, and what its sequencer decides. -/

namespace Sys2Proof.Machine

/-! ## Which segments open anew, and the last byte read (R165, R168) -/

/-- Settles O25: segment 0 never opens anew, and a later one looks at the segment before it. -/
theorem restartRule : Obligations.RestartRule := by
  unfold Obligations.RestartRule
  intro segs k
  cases k with
  | zero => simp [restart]
  | succ p =>
    cases hb : segs[p]? with
    | none => simp [restart, hb]
    | some before =>
      cases hg : segs[p + 1]? with
      | none => simp [restart, hb, hg]
      | some g => simp [restart, hb, hg, or_assoc]

/-- The transaction reads a byte of this segment. -/
def readsBytes (g : Seg) : Bool := g.dir == .read && decide (0 < g.len.toNat)

theorem readsBytes_iff (g : Seg) : readsBytes g = true ↔ g.dir = .read ∧ 0 < g.len.toNat := by simp [readsBytes]

/-- The last byte read of a first segment and others: of the others where they have one, else of the first. -/
theorem lastReadFrom_cons (g : Seg) (rest : List Seg) (b : Nat) :
    lastReadFrom (g :: rest) b
      = (lastReadFrom rest (b + 1)).or (if readsBytes g then some (b, g.len.toNat - 1) else none) := by
  rw [lastReadFrom]
  cases lastReadFrom rest (b + 1) <;> rfl

/-- Nothing is read exactly when no segment has a byte to read. -/
theorem lastReadFrom_none_iff (l : List Seg) (b : Nat) : lastReadFrom l b = none ↔ ∀ g ∈ l, ¬ readsBytes g := by
  induction l generalizing b with
  | nil => simp [lastReadFrom]
  | cons g rest ih => simp [lastReadFrom_cons, ih, and_comm]

/-- The segments are counted from `b` on. -/
theorem le_of_lastReadFrom {l : List Seg} {b k i : Nat} (h : lastReadFrom l b = some (k, i)) : b ≤ k := by
  induction l generalizing b with
  | nil => cases h
  | cons g rest ih =>
    rw [lastReadFrom_cons, Option.or_eq_some_iff] at h
    rcases h with h | ⟨-, h⟩
    · exact Nat.le_of_succ_le (ih h)
    · simp only [Option.ite_none_right_eq_some, Option.some.injEq, Prod.mk.injEq] at h
      exact h.2.1.le

/-- The last byte read is the last of the last segment with a byte to read. -/
theorem lastReadFrom_some_iff (l : List Seg) (b k i : Nat) :
    lastReadFrom l b = some (b + k, i) ↔
      ∃ g, l[k]? = some g ∧ readsBytes g ∧ i = g.len.toNat - 1 ∧ ∀ h ∈ l.drop (k + 1), ¬ readsBytes h := by
  induction l generalizing b k with
  | nil => simp [lastReadFrom]
  | cons g rest ih =>
    rw [lastReadFrom_cons, Option.or_eq_some_iff]
    cases k with
    | zero =>
      have notLater : lastReadFrom rest (b + 1) ≠ some (b + 0, i) := fun h => by
        have := le_of_lastReadFrom h
        omega
      simp only [notLater, false_or, lastReadFrom_none_iff, Option.ite_none_right_eq_some, Option.some.injEq, Prod.mk.injEq]
      constructor
      · rintro ⟨later, hg, -, rfl⟩
        exact ⟨g, rfl, hg, rfl, later⟩
      · rintro ⟨_, ⟨⟩, hg, rfl, later⟩
        exact ⟨later, hg, rfl, rfl⟩
    | succ k =>
      have notHere : (if readsBytes g then some (b, g.len.toNat - 1) else none) ≠ some (b + (k + 1), i) := by
        simp
      have next := ih (b + 1) k
      rw [show b + 1 + k = b + (k + 1) by omega] at next
      simp only [notHere, and_false, or_false]
      exact next

/-- Settles O26: what lies behind a segment is what the segments of a later number are. -/
theorem nackRule : Obligations.NackRule := by
  unfold Obligations.NackRule
  intro segs k i
  have last := lastReadFrom_some_iff segs 0 k i
  rw [Nat.zero_add] at last
  have behind : (∀ h ∈ segs.drop (k + 1), ¬ readsBytes h) ↔
      ∀ (j : Nat) (h : Seg), k < j → segs[j]? = some h → ¬ readsBytes h := by
    simp only [List.mem_iff_getElem?, List.getElem?_drop]
    constructor
    · intro all j h hj hh
      exact all h ⟨j - (k + 1), by rwa [Nat.add_sub_cancel' hj]⟩
    · rintro all h ⟨n, hn⟩
      exact all (k + 1 + n) h (by omega) hn
  rw [nack, beq_iff_eq, last]
  simp only [behind]
  simp only [readsBytes_iff, and_assoc]

/-! ## The order of a transfer (R164) -/

/-- At a byte the segment has, that byte is what remains first. -/
theorem remaining_of_lt {segs : List Seg} {k i : Nat} {g : Seg} (hg : segs[k]? = some g) (hi : i < g.len.toNat) :
    remaining segs k i = .byte k i g :: remaining segs k (i + 1) := by
  have count : g.len.toNat - i = g.len.toNat - (i + 1) + 1 := by omega
  simp [remaining, hg, bytesFrom, count, List.range'_succ]

/-- Behind the last byte of a segment the later segments remain. -/
theorem remaining_of_le {segs : List Seg} {k i : Nat} {g : Seg} (hg : segs[k]? = some g) (hi : g.len.toNat ≤ i) :
    remaining segs k i = itemsFrom segs (segs.drop (k + 1)) (k + 1) := by
  simp [remaining, hg, bytesFrom, Nat.sub_eq_zero_of_le hi]

/-- Where there is no segment nothing remains. -/
theorem remaining_of_none {segs : List Seg} {k : Nat} (hg : segs[k]? = none) (i : Nat) : remaining segs k i = [] := by
  simp [remaining, hg]

/-- The items of the segments from `k` on: its opening where it has one, and what remains at its first byte. -/
theorem itemsFrom_drop {segs : List Seg} {k : Nat} {g : Seg} (hg : segs[k]? = some g) :
    itemsFrom segs (segs.drop k) k = (if restart segs k then [.reopen k g] else []) ++ remaining segs k 0 := by
  rw [List.drop_eq_getElem?_toList_append, hg]
  simp [itemsFrom, remaining, hg]

/-- What the later segments do next is the first of their items. -/
theorem laterTasks_eq_head (addr : Addr) (segs l : List Seg) (k : Nat) :
    laterTasks addr segs l k = (itemsFrom segs l k).head?.map (Item.tasks addr segs) := by
  induction l generalizing k with
  | nil => rfl
  | cons g rest ih =>
    rw [laterTasks, itemsFrom]
    split
    · rfl
    · split
      next hlen =>
        have count : g.len.toNat = g.len.toNat - 1 + 1 := by omega
        rw [bytesFrom, Nat.sub_zero, count, List.range'_succ]
        rfl
      next hlen =>
        have noByte : bytesFrom k 0 g = [] := by simp [bytesFrom, Nat.eq_zero_of_not_pos hlen]
        rw [noByte]
        exact ih (k + 1)

/-- What the sequencer does next is the first of what remains. -/
theorem tasksAt_eq_head (addr : Addr) (segs : List Seg) (k i : Nat) :
    tasksAt addr segs k i = (remaining segs k i).head?.map (Item.tasks addr segs) := by
  unfold tasksAt
  split
  next hg => rw [remaining_of_none hg]; rfl
  next g hg =>
    split
    next hi => rw [remaining_of_lt hg hi]; rfl
    next hi => rw [remaining_of_le hg (Nat.le_of_not_lt hi), laterTasks_eq_head]

/-- After the first item of the segments from `k` on the others remain. -/
theorem remaining_after_later {segs : List Seg} {it : Item} {its : List Item} (l : List Seg) {k : Nat}
    (hl : segs.drop k = l) (h : itemsFrom segs l k = it :: its) : remaining segs it.after.1 it.after.2 = its := by
  induction l generalizing k with
  | nil => cases h
  | cons g rest ih =>
    have hg : segs[k]? = some g := by rw [← List.head?_drop, hl]; rfl
    have behind : segs.drop (k + 1) = rest := by rw [← List.tail_drop, hl]; rfl
    rw [← hl, itemsFrom_drop hg] at h
    split at h
    · cases h
      rfl
    · rw [List.nil_append] at h
      by_cases hlen : 0 < g.len.toNat
      · rw [remaining_of_lt hg hlen] at h
        cases h
        rfl
      · rw [remaining_of_le hg (Nat.le_of_not_lt hlen), behind] at h
        exact ih behind h

/-- After the first item of what remains the others remain. -/
theorem remaining_after {segs : List Seg} {k i : Nat} {it : Item} {its : List Item} (h : remaining segs k i = it :: its) :
    remaining segs it.after.1 it.after.2 = its := by
  cases hg : segs[k]? with
  | none => rw [remaining_of_none hg] at h; cases h
  | some g =>
    by_cases hi : i < g.len.toNat
    · rw [remaining_of_lt hg hi] at h
      cases h
      rfl
    · rw [remaining_of_le hg (Nat.le_of_not_lt hi)] at h
      exact remaining_after_later _ rfl h

/-- Settles O27: the next tasks are those of the first item that remains, and behind it the others remain. -/
theorem transferOrder : Obligations.TransferOrder := by
  unfold Obligations.TransferOrder
  intro addr segs k i
  refine ⟨tasksAt_eq_head addr segs k i, fun it hit => ?_, fun g => ⟨?_, fun hd => ?_, fun hd => ?_⟩⟩
  · obtain ⟨its, hits⟩ := List.head?_eq_some_iff.1 hit
    rw [remaining_after hits, hits]
    rfl
  · obtain ⟨dir, rb, sa, len⟩ := g
    cases dir <;> rfl
  · simp [Item.tasks, byteTasks, hd]
  · simp [Item.tasks, byteTasks, hd]

/-! ## What the sequencer decides (R166 to R169, R174) -/

/-- With something left the transfer goes on to it. -/
theorem goTo_of_some {s : State} {k i : Nat} {ts : List CTask} (h : tasksAt s.xaddr s.xsegs k i = some ts) :
    s.goTo k i = { s with cpos := ts } := by
  simp [State.goTo, h, State.setCpos]

/-- With nothing left the transfer goes to its STOP, with `Ok`. -/
theorem goTo_of_none {s : State} {k i : Nat} (h : tasksAt s.xaddr s.xsegs k i = none) :
    s.goTo k i = { s with cabort := .ok, cpos := [.op .cStop, .complete] } := by
  simp [State.goTo, h, State.setCpos, State.setCabort, stopTasks]

/-- An acknowledge after an address frame goes on at the segment's first byte. -/
theorem settleC_addrCheck_ack {s : State} (h : s.cack = false) (k : Nat) (rest : List CTask) :
    settleC (.addrCheck k :: rest) s = .next (s.goTo k 0) := by
  simp [settleC, h]

/-- An acknowledge after a written byte goes on at the next. -/
theorem settleC_dataCheck_ack {s : State} (h : s.cack = false) (k i : Nat) (rest : List CTask) :
    settleC (.dataCheck k i :: rest) s = .next (s.goTo k (i + 1)) := by
  simp [settleC, h]

/-- No acknowledge after an address frame: STOP and `AddrNack`. -/
theorem settleC_addrCheck_nack {s : State} (h : s.cack = true) (k : Nat) (rest : List CTask) :
    settleC (.addrCheck k :: rest) s = .next (s.abort .addrNack) := by
  simp [settleC, h]

/-- No acknowledge after a written byte: STOP and `DataNack`. -/
theorem settleC_dataCheck_nack {s : State} (h : s.cack = true) (k i : Nat) (rest : List CTask) :
    settleC (.dataCheck k i :: rest) s = .next (s.abort .dataNack) := by
  simp [settleC, h]

/-- Settles O28: the acknowledge decides whether to abort, what is left whether to stop. -/
theorem acknowledgeDecides : Obligations.AcknowledgeDecides := by
  unfold Obligations.AcknowledgeDecides
  intro k i rest s
  refine ⟨fun h => ⟨settleC_addrCheck_nack h .., settleC_dataCheck_nack h ..⟩,
    fun h => ⟨fun ts hts => ?_, fun ts hts => ?_, fun hts => ?_, fun hts => ?_⟩, fun ts hts => ?_, fun hts => ?_⟩
  · rw [settleC_addrCheck_ack h, goTo_of_some hts]
  · rw [settleC_dataCheck_ack h, goTo_of_some hts]
  · rw [settleC_addrCheck_ack h, goTo_of_none hts]
  · rw [settleC_dataCheck_ack h, goTo_of_none hts]
  · rw [settleC, goTo_of_some hts]
  · rw [settleC, goTo_of_none hts]

/-- A received byte is stored where the transaction has one, and the decisions go on. -/
theorem settleC_store {s : State} {k i : Nat} {g : Seg} (hg : s.xsegs[k]? = some g) (hi : i < g.len.toNat)
    (rest : List CTask) :
    settleC (.store k i :: rest) s = settleC rest (s.setMem (s.mem.write (bufKey k i) s.csr)) := by
  rw [settleC, State.bufStore_some hg hi]

/-- Settles O29: the store is the write of `CSR` at the byte's address. -/
theorem receivedByteIsStored : Obligations.ReceivedByteIsStored := by
  unfold Obligations.ReceivedByteIsStored
  intro k i s g hg hi hw
  exact ⟨s.setMem (s.mem.write (bufKey k i) s.csr), settleC_store hg hi, Memory.read_write_self hw _ _,
    fun a ha => Memory.read_write_of_ne _ _ ha, rfl⟩

/-- Settles O30: a completion, with the result each decision gives. -/
theorem commandCompletion : Obligations.CommandCompletion := by
  unfold Obligations.CommandCompletion
  intro rest s
  refine ⟨rfl, fun h => ?_, fun h => ?_⟩
  · simp [settleC, h, State.complete, State.deliver]
  · simp [settleC, h, State.complete, State.deliver]

end Sys2Proof.Machine
end

section
/-! The family of 41_controller_ops.md: whole commands. Runs of primitives are put one behind another; on a data line held low each item
of a transfer comes to the next, so an induction over what remains runs through all of them. -/

namespace Sys2Proof.Machine

/-! ## Runs one behind another -/

/-- A run whose decisions lead to a state, and the turns after it. -/
theorem ControllerRun.settled {n lo hi : Nat} {c d : Level} {s t u : State} {k : List CTask}
    (h : ControllerRun n lo hi c d s k t) (hk : settleC k t = .next u) (m : Nat) :
    runInputs (turns (n + m) .controller) s = runInputs (turns m .controller) u := by
  rw [turns_add, runInputs_append, h.run, hk]
  rfl

/-- Two runs one behind the other: the first leaves an operation to perform. -/
theorem ControllerRun.trans {n lo hi n' lo' hi' : Nat} {c d c' d' : Level} {s t u : State} {i : Instr} {k k' : List CTask}
    (h : ControllerRun n lo hi c d s (.op i :: k) t) (h' : ControllerRun n' lo' hi' c' d' t k' u) :
    ControllerRun (n + n') (lo + lo') (hi + hi') c' d' s k' u where
  run := (h.settled (settleC_operation h.cpos) n').trans h'.run
  scl := h'.scl
  sda := h'.sda
  cpos := h'.cpos
  elapsed := by
    rw [h'.elapsed, h.elapsed, hidePrimitive_low h.hide, hidePrimitive_high h.hide]
    ring
  hide := h'.hide.trans h.hide

/-- Bits sent one after another, as a run. -/
theorem run_sent_bits {s : State} {i : Instr} {k : List CTask} (bits : List Level) (hp : s.peerScl = true)
    (hc : s.cpos = bits.map (fun b => CTask.op (.cWbit b)) ++ .op i :: k) :
    ∃ t, ControllerRun (bits.length * (5 + raisePolls)) bits.length bits.length t.sclOut t.sdaOut s (.op i :: k) t := by
  obtain ⟨t, ht, hcpos, hhide, helapsed, -⟩ := run_bits bits hp hc
  exact ⟨t, ht.trans (settleC_operation hcpos).symm, rfl, rfl, hcpos, helapsed, hhide⟩

/-! ## A command over -/

/-- A command is over, begun in `s`: its result delivered, the engine free, both outputs released, `MODE` as it was. -/
structure Completed (s : State) (r : Result) (t : State) : Prop where
  busy : t.busy = false
  cop : t.cop = .idle
  cpos : t.cpos = []
  mode : t.mode = s.mode
  scl : t.sclOut = true
  sda : t.sdaOut = true
  result : t.result = r
  responses : t.responses = r :: s.responses

/-- A completion with both outputs released is the end of the command. -/
theorem completed_of_released {s t : State} (r : Result) (hm : t.mode = s.mode) (hr : t.responses = s.responses)
    (hc : t.sclOut = true) (hd : t.sdaOut = true) : Completed s r (t.complete r) :=
  ⟨rfl, rfl, rfl, hm, hc, hd, rfl, congrArg (List.cons r) hr⟩

/-- Of the state in which a command began only `MODE` and the results delivered matter to its end. -/
theorem Completed.congr {s u t : State} {r : Result} (h : Completed u r t) (hm : u.mode = s.mode)
    (hr : u.responses = s.responses) : Completed s r t :=
  { h with mode := h.mode.trans hm, responses := h.responses.trans (congrArg (List.cons r) hr) }

/-! ## Recovery (R174, R175) -/

/-- The program of a recovery up to the test of the data line. -/
theorem run_recoverTasks {s : State} (hp : s.peerScl = true) (hc : s.cpos = recoverTasks) :
    ∃ t, ControllerRun (62 + 11 * raisePolls) 14 12 true true s [.op .getSda, .recCheck] t := by
  obtain ⟨a, ha⟩ := run_start (k := (List.replicate 9 true).map (fun b => CTask.op (.cWbit b)) ++
    .op .cRstart :: [.op .cStop, .op .getSda, .recCheck]) hc
  obtain ⟨b, hb⟩ := run_sent_bits (List.replicate 9 true) ((hidePrimitive_peerScl ha.hide).trans hp) ha.cpos
  have hab := ha.trans hb
  obtain ⟨c, hc⟩ := run_rstart ((hidePrimitive_peerScl hab.hide).trans hp) hb.cpos
  have hac := hab.trans hc
  obtain ⟨t, ht, -⟩ := run_stop ((hidePrimitive_peerScl hac.hide).trans hp) hc.cpos
  have count : 62 + 11 * raisePolls = 4 + 9 * (5 + raisePolls) + (7 + raisePolls) + (6 + raisePolls) := by omega
  exact ⟨t, count ▸ hac.trans ht⟩

/-- Settles O31: the program up to its last turn, then the test of the data line and the completion. -/
theorem recoverRun : Obligations.RecoverRun := by
  unfold Obligations.RecoverRun
  intro s hb hm hv hp
  obtain ⟨t, ht⟩ := run_recoverTasks (s := s.inRecovery) hp rfl
  let u : State := (t.setCpos [.recCheck]).readSda
  have hgot : u.got = s.peerSda := by
    show (t.sdaOut && t.peerSda) = s.peerSda
    rw [ht.sda, Bool.true_and]
    exact (hidePrimitive_peerSda ht.hide :)
  have completed : Completed s (if s.peerSda then .ok else .busBusy) (u.complete (if s.peerSda then .ok else .busBusy)) :=
    completed_of_released _ (hidePrimitive_mode ht.hide :) (hidePrimitive_responses ht.hide :) ht.scl ht.sda
  have run : runInputs (turns (63 + 11 * raisePolls) .controller) s.inRecovery
      = .next (u.complete (if s.peerSda then .ok else .busBusy)) := by
    rw [show 63 + 11 * raisePolls = 62 + 11 * raisePolls + 1 by omega, ht.settled (settleC_operation ht.cpos) 1,
      run_last ht.cpos rfl, ← hgot]
    rfl
  rw [exec_recover_starts hb hm hv]
  exact ⟨_, run, completed.busy, completed.cop, completed.cpos, completed.mode, completed.scl, completed.sda, completed.result,
    completed.responses.trans (by rw [completed.result]), ht.elapsed, fun a => congrArg (Memory.read · a) (hidePrimitive_mem ht.hide :)⟩

/-! ## The start and the end of a transfer (R164 steps 1 to 4, 7, 8) -/

/-- The entry test finds the data line high: the transfer goes on at once. -/
theorem run_entry_high {s : State} {i : Instr} {k : List CTask} (hd : s.sda = true)
    (hc : s.cpos = .op .getSda :: .entryTest :: .op i :: k) :
    ∃ t, ControllerRun 1 0 0 s.sclOut s.sdaOut s (.op i :: k) t := by
  let v : State := (s.setCpos (.entryTest :: .op i :: k)).readSda
  have hv : v.got = true := hd
  refine ⟨v.setCpos (.op i :: k), ?_, rfl, rfl, rfl, by simp [v], rfl⟩
  rw [run_last hc rfl]
  exact (if_pos hv).trans (settleC_setCpos _ _ v).symm

/-- The entry test finds the data line low: a pulse on the clock comes first (R136). -/
theorem run_entry_low {s : State} {k : List CTask} (hd : s.sda = false) (hc : s.cpos = .op .getSda :: .entryTest :: k) :
    ∃ t, ControllerRun 1 0 0 s.sclOut s.sdaOut s (.op .cPrestart :: k) t := by
  let v : State := (s.setCpos (.entryTest :: k)).readSda
  have hv : ¬ v.got = true := by
    show ¬ s.sda = true
    simp [hd]
  refine ⟨v.setCpos (.op .cPrestart :: k), ?_, rfl, rfl, rfl, by simp [v], rfl⟩
  rw [run_last hc rfl]
  exact if_neg hv

/-- START and an address frame, up to the check of its acknowledge: the level the peers hold. -/
theorem run_start_address {s : State} {x : Byte} {k : List CTask} (hp : s.peerScl = true)
    (hc : s.cpos = .op .cStart :: .op (.cWbyte x) :: k) :
    ∃ t, ControllerRun (4 + (46 + 9 * raisePolls)) 10 10 false true s k t ∧ t.cack = s.peerSda := by
  obtain ⟨a, ha⟩ := run_start hc
  obtain ⟨t, ht, hack, -⟩ := run_wbyte ((hidePrimitive_peerScl ha.hide).trans hp) ha.cpos
  exact ⟨t, ha.trans ht, hack.trans (hidePrimitive_peerSda ha.hide)⟩

/-- The end of a transfer: the STOP, then the chosen result. -/
theorem run_stopTasks {s : State} (hp : s.peerScl = true) (hc : s.cpos = stopTasks) :
    ∃ t, runInputs (turns (6 + raisePolls) .controller) s = .next t ∧ Completed s s.cabort t ∧ t.mem = s.mem ∧
      t.elapsed = s.elapsed + 2 * s.low + s.high ∧ (s.peerSda = true → t.lastCond = some .stop ∧ t.busOpen = false) := by
  obtain ⟨t, ht, hwire⟩ := run_stop hp hc
  have chosen : settleC [.complete] t = .next (t.complete s.cabort) := by rw [settleC, hidePrimitive_cabort ht.hide]
  exact ⟨t.complete s.cabort, ht.run.trans chosen,
    completed_of_released _ (hidePrimitive_mode ht.hide) (hidePrimitive_responses ht.hide) ht.scl ht.sda,
    (hidePrimitive_mem ht.hide :), ht.elapsed.trans (by rw [Nat.one_mul]), hwire⟩

/-! ## No device on the bus (R166, R169) -/

/-- Settles O32: the first address frame is not acknowledged, so one STOP and the completion are left. -/
theorem transferWithNoDevice : Obligations.TransferWithNoDevice := by
  unfold Obligations.TransferWithNoDevice
  intro addr g rest s hb hm hv hc hd hp hps
  have high : (s.inTransfer addr g rest).sda = true := by
    show (s.sdaOut && s.peerSda) = true
    rw [hd, hps]
    rfl
  obtain ⟨a, ha⟩ := run_entry_high high rfl
  obtain ⟨b, hb', hack⟩ := run_start_address ((hidePrimitive_peerScl ha.hide).trans hp) ha.cpos
  have hab := ha.trans hb'
  have hnack : b.cack = true := hack.trans ((hidePrimitive_peerSda ha.hide).trans hps)
  obtain ⟨t, hrun, hend, hmem, helapsed, hwire⟩ :=
    run_stopTasks (s := b.abort .addrNack) ((hidePrimitive_peerScl hab.hide).trans hp) rfl
  have completed : Completed (s.inTransfer addr g rest) .addrNack t :=
    hend.congr (hidePrimitive_mode hab.hide :) (hidePrimitive_responses hab.hide :)
  obtain ⟨hcond, hopen⟩ := hwire ((hidePrimitive_peerSda hab.hide).trans hps)
  have hdelays : t.elapsed = s.elapsed + 12 * s.low + 11 * s.high := by
    have before : b.elapsed = s.elapsed + 10 * s.low + 10 * s.high := hab.elapsed
    have stop : t.elapsed = b.elapsed + 2 * b.low + b.high := helapsed
    have hlow : b.low = s.low := (hidePrimitive_low hab.hide :)
    have hhigh : b.high = s.high := (hidePrimitive_high hab.hide :)
    rw [stop, before, hlow, hhigh]
    ring
  have run : runInputs (turns (57 + 10 * raisePolls) .controller) (s.inTransfer addr g rest) = .next t := by
    rw [show 57 + 10 * raisePolls = 1 + (4 + (46 + 9 * raisePolls)) + (6 + raisePolls) by omega,
      hab.settled (settleC_addrCheck_nack hnack 0 [])]
    exact hrun
  rw [exec_transfer_starts hb hm hv]
  exact ⟨t, run, completed.busy, completed.cop, completed.cpos, completed.mode, completed.scl, completed.sda,
    completed.result, completed.responses, hcond, hopen, hdelays,
    fun x => congrArg (Memory.read · x) (hmem.trans (hidePrimitive_mem hab.hide :))⟩

/-! ## A data line held low (R164, R168; 70_reset_and_hazards.md R301) -/

/-- What an item does to the buffers when every bit received is 0. -/
def Item.readAsZeros (m : Memory) : Item → Memory
  | .reopen _ _ => m
  | .byte k i g => if g.dir = .read then m.write (bufKey k i) 0#8 else m

/-- An item that stores a received byte at this address. -/
def Item.Stores (a : Nat) : Item → Prop
  | .reopen _ _ => False
  | .byte k i g => g.dir = .read ∧ a = bufKey k i

/-- An item's byte is one of the transaction's. -/
def Item.Exists (segs : List Seg) : Item → Prop
  | .reopen _ _ => True
  | .byte k i g => segs[k]? = some g ∧ i < g.len.toNat

theorem Item.readAsZeros_wf (it : Item) {m : Memory} (w : m.wf = true) : (it.readAsZeros m).wf = true := by
  cases it with
  | reopen k g => exact w
  | byte k i g =>
    rw [Item.readAsZeros]
    split
    · exact Memory.write_wf _ _ w
    · exact w

/-- A byte received reads as 0. -/
theorem Item.read_of_stores {it : Item} {a : Nat} (h : it.Stores a) {m : Memory} (w : m.wf = true) :
    (it.readAsZeros m).read a = 0#8 := by
  cases it with
  | reopen k g => exact h.elim
  | byte k i g =>
    obtain ⟨hd, rfl⟩ := h
    rw [Item.readAsZeros, if_pos hd]
    exact Memory.read_write_self w _ _

/-- Every other byte reads as before. -/
theorem Item.read_of_not_stores {it : Item} {a : Nat} (h : ¬ it.Stores a) (m : Memory) :
    (it.readAsZeros m).read a = m.read a := by
  cases it with
  | reopen k g => rfl
  | byte k i g =>
    rw [Item.readAsZeros]
    split
    next hd => exact Memory.read_write_of_ne _ _ fun ha => h ⟨hd, ha⟩
    next => rfl

/-- What no item stores reads as before all of them. -/
theorem read_readAsZeros_of_none {its : List Item} {a : Nat} (h : ∀ it ∈ its, ¬ it.Stores a) (m : Memory) :
    (its.foldl Item.readAsZeros m).read a = m.read a := by
  induction its generalizing m with
  | nil => rfl
  | cons it its ih =>
    obtain ⟨first, others⟩ := List.forall_mem_cons.1 h
    exact (ih others _).trans (Item.read_of_not_stores first m)

/-- What an item stores reads as 0 after all of them. -/
theorem read_readAsZeros_of_exists {its : List Item} {a : Nat} (h : ∃ it ∈ its, it.Stores a) {m : Memory} (w : m.wf = true) :
    (its.foldl Item.readAsZeros m).read a = 0#8 := by
  induction its generalizing m with
  | nil => simp at h
  | cons it its ih =>
    by_cases later : ∃ it ∈ its, it.Stores a
    · exact ih later (it.readAsZeros_wf w)
    · have first : it.Stores a := by
        rcases (List.exists_mem_cons_iff ..).1 h with first | others
        · exact first
        · exact absurd others later
      exact (read_readAsZeros_of_none (fun j hj hs => later ⟨j, hj, hs⟩) _).trans (Item.read_of_stores first w)

/-- Eight zeros shifted in. -/
theorem zeros_shifted_in : (List.replicate 8 false).foldl shiftIn 0#8 = 0#8 := by decide

/-- The buffers may be written on both sides of a frame. -/
theorem hidePrimitive_setMem {s t : State} (h : t.hidePrimitive = s.hidePrimitive) (m : Memory) :
    (t.setMem m).hidePrimitive = (s.setMem m).hidePrimitive :=
  (congrArg (State.setMem · m) h :)

/-- One item on a data line held low: the transfer goes on behind it, only the buffers may have changed. -/
theorem run_item_low {s : State} {addr : Addr} {it : Item} (hp : s.peerScl = true) (hd : s.peerSda = false) (he : it.Exists s.xsegs)
    (hc : s.cpos = it.tasks addr s.xsegs) :
    ∃ t : State, runInputs (turns (it.turns raisePolls) .controller) s = .next (t.goTo it.after.1 it.after.2) ∧
      t.hidePrimitive = (s.setMem (it.readAsZeros s.mem)).hidePrimitive := by
  cases it with
  | reopen k g =>
    obtain ⟨a, ha⟩ := run_rstart hp hc
    obtain ⟨t, ht, hack, -⟩ := run_wbyte ((hidePrimitive_peerScl ha.hide).trans hp) ha.cpos
    have hat := ha.trans ht
    exact ⟨t, hat.run.trans (settleC_addrCheck_ack (hack.trans ((hidePrimitive_peerSda ha.hide).trans hd)) k []), hat.hide⟩
  | byte k i g =>
    obtain ⟨hg, hi⟩ := he
    cases hdir : g.dir with
    | write =>
      have hc : s.cpos = .send k i :: [.dataCheck k i] := by rw [hc, Item.tasks, byteTasks, hdir]
      obtain ⟨t, ht, hack, -⟩ := run_wbyte (x := s.mem.read (bufKey k i)) (k := [.dataCheck k i])
        (s := s.setCpos (.op (.cWbyte (s.mem.read (bufKey k i))) :: [.dataCheck k i])) hp rfl
      have count : 46 + 9 * raisePolls = 45 + 9 * raisePolls + 1 := by omega
      refine ⟨t, ?_, ?_⟩
      · rw [Item.turns, if_pos hdir, count, run_congr (turn_send hc (State.bufLoad_some hg hi)), ← count]
        exact ht.run.trans (settleC_dataCheck_ack (hack.trans hd) k i [])
      · rw [Item.readAsZeros, if_neg (by simp [hdir])]
        exact ht.hide
    | read =>
      have hc : s.cpos = .op .cRbyte :: .store k i :: [.op (.cWbit (nack s.xsegs k i)), .nextByte k (i + 1)] := by
        rw [hc, Item.tasks, byteTasks, hdir]
      obtain ⟨a, ha, hcsr, -⟩ := run_rbyte hp hc
      have hzero : a.csr = 0#8 := by
        rw [hcsr, hd]
        exact zeros_shifted_in
      let b : State := (a.setMem (a.mem.write (bufKey k i) a.csr)).setCpos [.op (.cWbit (nack s.xsegs k i)), .nextByte k (i + 1)]
      have stored : settleC (.store k i :: [.op (.cWbit (nack s.xsegs k i)), .nextByte k (i + 1)]) a = .next b :=
        settleC_store (by rw [hidePrimitive_xsegs ha.hide, hg]) hi _
      have hb : b.hidePrimitive = (s.setMem (s.mem.write (bufKey k i) 0#8)).hidePrimitive := by
        show (a.setMem (a.mem.write (bufKey k i) a.csr)).hidePrimitive = _
        rw [hzero, hidePrimitive_mem ha.hide]
        exact hidePrimitive_setMem ha.hide _
      obtain ⟨t, ht, -⟩ := run_wbit (s := b) (nack s.xsegs k i) ((hidePrimitive_peerScl hb).trans hp) rfl
      refine ⟨t, ?_, ?_⟩
      · rw [Item.turns, if_neg (by simp [hdir]), show 8 * (6 + raisePolls) = 48 + 8 * raisePolls by omega,
          ha.settled stored]
        exact ht.run
      · rw [Item.readAsZeros, if_pos hdir]
        exact ht.hide.trans hb

/-- All items that remain, on a data line held low, then the STOP with `Ok`. -/
theorem run_items_low (its : List Item) {s : State} {k i : Nat} (hp : s.peerScl = true) (hd : s.peerSda = false)
    (hits : remaining s.xsegs k i = its) (he : ∀ it ∈ its, it.Exists s.xsegs) :
    ∃ t, runInputs (turns ((its.map (Item.turns raisePolls)).sum + (6 + raisePolls)) .controller) (s.goTo k i) = .next t ∧
      Completed s .ok t ∧ t.mem = its.foldl Item.readAsZeros s.mem := by
  have ahead := tasksAt_eq_head s.xaddr s.xsegs k i
  rw [hits] at ahead
  induction its generalizing s k i with
  | nil =>
    rw [goTo_of_none ahead]
    obtain ⟨t, hrun, hend, hmem, -⟩ := run_stopTasks (s := { s with cabort := .ok, cpos := [.op .cStop, .complete] }) hp rfl
    refine ⟨t, ?_, hend.congr rfl rfl, hmem⟩
    rw [List.map_nil, List.sum_nil, Nat.zero_add]
    exact hrun
  | cons it its ih =>
    rw [goTo_of_some ahead]
    obtain ⟨u, hrun, hhide⟩ := run_item_low (s := { s with cpos := it.tasks s.xaddr s.xsegs }) hp hd (he it (by simp)) rfl
    have hxsegs : u.xsegs = s.xsegs := (hidePrimitive_xsegs hhide :)
    have hafter : remaining u.xsegs it.after.1 it.after.2 = its := by rw [hxsegs, remaining_after hits]
    obtain ⟨t, ht, hend, hmem⟩ := ih ((hidePrimitive_peerScl hhide).trans hp) ((hidePrimitive_peerSda hhide).trans hd) hafter
      (fun j hj => hxsegs ▸ he j (by simp [hj])) (by rw [tasksAt_eq_head, hafter])
    refine ⟨t, ?_, hend.congr (hidePrimitive_mode hhide :) (hidePrimitive_responses hhide :),
      hmem.trans (congrArg (its.foldl Item.readAsZeros) (hidePrimitive_mem hhide))⟩
    rw [List.map_cons, List.sum_cons, Nat.add_assoc, turns_add, runInputs_append, hrun]
    exact ht

/-- The bytes among the items of the segments from number `b` on. -/
theorem byte_mem_itemsFrom {segs l : List Seg} {b k i : Nat} {g : Seg} :
    .byte k i g ∈ itemsFrom segs l b ↔ ∃ n, k = b + n ∧ l[n]? = some g ∧ i < g.len.toNat := by
  induction l generalizing b with
  | nil => simp [itemsFrom]
  | cons h rest ih =>
    have opening : Item.byte k i g ∉ (if restart segs b then [Item.reopen b h] else []) := by split <;> simp
    have bytes : Item.byte k i g ∈ bytesFrom b 0 h ↔ k = b ∧ g = h ∧ i < g.len.toNat := by
      simp only [bytesFrom, List.mem_map, List.mem_range'_1, Item.byte.injEq]
      grind
    rw [itemsFrom, List.mem_append, List.mem_append, bytes, ih]
    simp only [opening, false_or]
    constructor
    · rintro (⟨rfl, rfl, hi⟩ | ⟨n, rfl, hg, hi⟩)
      · exact ⟨0, rfl, rfl, hi⟩
      · exact ⟨n + 1, by omega, hg, hi⟩
    · rintro ⟨n, rfl, hg, hi⟩
      cases n with
      | zero => exact .inl ⟨rfl, (Option.some.inj hg).symm, hi⟩
      | succ n => exact .inr ⟨n, by omega, hg, hi⟩

/-- The bytes of a whole transaction are its segments' bytes. -/
theorem byte_mem_remaining {g h : Seg} {rest : List Seg} {k i : Nat} :
    .byte k i h ∈ remaining (g :: rest) 0 0 ↔ (g :: rest)[k]? = some h ∧ i < h.len.toNat := by
  have whole : remaining (g :: rest) 0 0 = itemsFrom (g :: rest) (g :: rest) 0 :=
    (itemsFrom_drop (segs := g :: rest) (k := 0) rfl).symm
  rw [whole, byte_mem_itemsFrom]
  simp

/-- Every item of a whole transaction exists. -/
theorem exists_of_mem_remaining {g : Seg} {rest : List Seg} {it : Item} (h : it ∈ remaining (g :: rest) 0 0) :
    it.Exists (g :: rest) := by
  cases it with
  | reopen k h => trivial
  | byte k i seg => exact byte_mem_remaining.1 h

/-- The start of a transfer that finds the data line low: test, pulse, START, address frame. -/
theorem run_start_low {s : State} {x : Byte} {k : List CTask} (hp : s.peerScl = true) (hd : s.peerSda = false)
    (hc : s.cpos = .op .getSda :: .entryTest :: .op .cStart :: .op (.cWbyte x) :: k) :
    ∃ t n m, ControllerRun (1 + (4 + raisePolls) + (4 + (46 + 9 * raisePolls))) n m false true s k t ∧ t.cack = false := by
  have low : s.sda = false := by
    show (s.sdaOut && s.peerSda) = false
    rw [hd, Bool.and_false]
  obtain ⟨a, ha⟩ := run_entry_low low hc
  obtain ⟨b, hb⟩ := run_prestart ((hidePrimitive_peerScl ha.hide).trans hp) ha.cpos
  have hab := ha.trans hb
  obtain ⟨t, ht, hack⟩ := run_start_address ((hidePrimitive_peerScl hab.hide).trans hp) hb.cpos
  exact ⟨t, _, _, hab.trans ht, hack.trans ((hidePrimitive_peerSda hab.hide).trans hd)⟩

/-- Settles O33: the start, then all items by induction over what remains; each stores 0 where it stores. -/
theorem transferOnLowDataLine : Obligations.TransferOnLowDataLine := by
  unfold Obligations.TransferOnLowDataLine
  intro addr g rest s hb hm hv hc hd hp hps hw
  obtain ⟨a, lo, hi, ha, hack⟩ := run_start_low (s := s.inTransfer addr g rest) hp hps rfl
  have hxsegs : a.xsegs = g :: rest := (hidePrimitive_xsegs ha.hide :)
  obtain ⟨t, ht, hend, hmem⟩ := run_items_low (remaining (g :: rest) 0 0) (s := a) (k := 0) (i := 0)
    ((hidePrimitive_peerScl ha.hide).trans hp) ((hidePrimitive_peerSda ha.hide).trans hps) (by rw [hxsegs])
    (fun it hit => hxsegs ▸ exists_of_mem_remaining hit)
  have completed : Completed (s.inTransfer addr g rest) .ok t :=
    hend.congr (hidePrimitive_mode ha.hide :) (hidePrimitive_responses ha.hide :)
  have before : a.mem = s.mem := (hidePrimitive_mem ha.hide :)
  have hbytes : t.mem = (remaining (g :: rest) 0 0).foldl Item.readAsZeros s.mem := before ▸ hmem
  have run : runInputs (turns (transferTurns raisePolls (g :: rest)) .controller) (s.inTransfer addr g rest) = .next t := by
    have count : transferTurns raisePolls (g :: rest) = 1 + (4 + raisePolls) + (4 + (46 + 9 * raisePolls)) +
        (((remaining (g :: rest) 0 0).map (Item.turns raisePolls)).sum + (6 + raisePolls)) := by
      rw [transferTurns]
      omega
    rw [count, ha.settled (settleC_addrCheck_ack hack 0 [])]
    exact ht
  rw [exec_transfer_starts hb hm hv]
  refine ⟨t, run, completed.busy, completed.cop, completed.cpos, completed.mode, completed.scl, completed.sda,
    completed.result, completed.responses, fun k i h hk hdir hlen => ?_, fun x hx => ?_⟩
  · rw [hbytes]
    exact read_readAsZeros_of_exists ⟨.byte k i h, byte_mem_remaining.2 ⟨hk, hlen⟩, hdir, rfl⟩ hw
  · rw [hbytes]
    refine read_readAsZeros_of_none (fun it hit hs => ?_) s.mem
    cases it with
    | reopen k h => exact hs
    | byte k i h =>
      obtain ⟨hk, hlen⟩ := byte_mem_remaining.1 hit
      exact hx ⟨k, i, h, hk, hs.1, hlen, hs.2⟩

end Sys2Proof.Machine
end

section
/-! The family of 42_target_ops.md: the two host commands, the first step of each target primitive, the edge event, and the branches of
the handler. -/

namespace Sys2Proof.Machine

/-! ## The host commands (R190, R191) -/

/-- Settles O13, mode by mode. -/
theorem registerTargetResult : Obligations.RegisterTargetResult := by
  unfold Obligations.RegisterTargetResult
  intro addr s hb
  have effect : exec (.registerTarget addr) s = .next (s.register addr) :=
    State.accept_idle hb (.registerTarget addr) fun s => s.register addr
  refine ⟨fun hm => ?_, fun hm => ?_⟩
  · simp [effect, State.register, hm, State.deliver]
  · simp [effect, State.register, hm, State.deliver]

/-- Settles O14, check by check. -/
theorem unregisterTargetResult : Obligations.UnregisterTargetResult := by
  unfold Obligations.UnregisterTargetResult
  intro s hb
  have effect : exec .unregisterTarget s = .next s.unregister := State.accept_idle hb .unregisterTarget State.unregister
  refine ⟨fun hm hi => ?_, fun hm hi => ?_, fun hm => ?_⟩
  · simp [effect, State.unregister, hm, hi, State.deliver]
  · simp [effect, State.unregister, hm, hi, State.deliver]
  · simp [effect, State.unregister, hm, State.deliver]

/-! ## One poll of the clock, in each primitive that waits for it (R200, R201, R208) -/

theorem exec_tWaitH_high {s : State} (h : s.scl = true) : exec .tWaitH s = .next { s with got := true } := by
  show Host.Outcome.next (s.pollScl true .tWaitH) = _
  rw [State.pollScl_found h, State.readScl, h]

theorem exec_tWaitH_low {s : State} (h : s.scl = false) :
    exec .tWaitH s = .next { s with got := false, tpos := .op .tWaitH :: s.tpos } := by
  show Host.Outcome.next (s.pollScl true .tWaitH) = _
  rw [State.pollScl_again (by simp [h]), State.readScl, h]
  rfl

theorem exec_tWaitL_low {s : State} (h : s.scl = false) : exec .tWaitL s = .next { s with got := false } := by
  show Host.Outcome.next (s.pollScl false .tWaitL) = _
  rw [State.pollScl_found h, State.readScl, h]

theorem exec_tWaitL_high {s : State} (h : s.scl = true) :
    exec .tWaitL s = .next { s with got := true, tpos := .op .tWaitL :: s.tpos } := by
  show Host.Outcome.next (s.pollScl false .tWaitL) = _
  rw [State.pollScl_again (by simp [h]), State.readScl, h]
  rfl

theorem exec_tDetect_high {s : State} (h : s.scl = true) :
    exec .tDetect s = .next { s with got := true, tpos := .op .getSda :: .watchFirst :: s.tpos } := by
  show Host.Outcome.next (if s.scl then _ else _) = _
  rw [if_pos h, State.readScl, h]
  rfl

theorem exec_tDetect_low {s : State} (h : s.scl = false) :
    exec .tDetect s = .next { s with got := false, tpos := .op .tDetect :: s.tpos } := by
  show Host.Outcome.next (if s.scl then _ else _) = _
  rw [if_neg (by simp [h]), State.readScl, h]
  rfl

/-- Settles O36: the polls by the level they find, the other primitives by their traces written out. -/
theorem targetPrimitivesBegin : Obligations.TargetPrimitivesBegin := by
  unfold Obligations.TargetPrimitivesBegin
  intro s
  refine ⟨?_, ?_, rfl, fun _ => rfl, rfl, fun _ => rfl, fun x => ⟨_, rfl, rfl, rfl, rfl⟩, rfl, rfl, ?_⟩
  · cases h : s.scl
    · exact exec_tWaitH_low h
    · exact exec_tWaitH_high h
  · cases h : s.scl
    · exact exec_tWaitL_low h
    · exact exec_tWaitL_high h
  · cases h : s.scl
    · exact exec_tDetect_low h
    · exact exec_tDetect_high h

/-! ## The edge event (R195, R210, R211) -/

/-- Settles O43: the first step of `T_HANDLER` is the poll of its `T_WAIT_L`, in front of the address phase. -/
theorem eventEntry : Obligations.EventEntry := by
  unfold Obligations.EventEntry
  intro s
  have started : exec .tHandler s = exec .tWaitL s.startHandler := rfl
  refine ⟨fun hc hd => ?_, fun h => ?_, fun hc => ?_, fun hc => ?_⟩
  · exact congrArg Host.Outcome.next (State.takeEdge_start hc hd)
  · exact congrArg Host.Outcome.next (State.takeEdge_other h)
  · exact started.trans (exec_tWaitL_low hc)
  · exact started.trans (exec_tWaitL_high hc)

/-! ## The branches of the handler (R210, R212 to R215) -/

/-- A handler that ends without a callback's error leaves `TERR`. -/
theorem State.finishHandler_of_ne {o : TLast} (h : o ≠ .callbackError) (s : State) :
    s.finishHandler o = { s with tlast := o, tfsm := .idle, tpos := [] } := by
  simp [State.finishHandler, h]

/-- A handler that ends with one sets it. -/
theorem State.finishHandler_callbackError (s : State) :
    s.finishHandler .callbackError = { s with tlast := .callbackError, terr := true, tfsm := .idle, tpos := [] } := by
  simp [State.finishHandler]

/-- An address byte that is not the target's ends the handler (R212). -/
theorem State.addressPhaseEnd_mismatch {s : State} (h : addressOf s.tsr ≠ s.taddr) :
    s.addressPhaseEnd = (s.setTdir (directionOf s.tsr)).finishHandler .addressMismatch :=
  if_pos h

/-- The target's address is acknowledged, and the direction bit chooses what follows (R213). -/
theorem State.addressPhaseEnd_match {s : State} (h : addressOf s.tsr = s.taddr) :
    s.addressPhaseEnd = (s.setTdir (directionOf s.tsr)).setTpos
      (if directionOf s.tsr then [.op .tAck, .beginSend] else ackThenDetect true) := by
  simp only [State.addressPhaseEnd, h, ne_eq, not_true_eq_false, if_false]
  split <;> rfl

/-- Settles O44, by the comparison and the direction bit. -/
theorem addressPhaseEnd : Obligations.AddressPhaseEnd := by
  unfold Obligations.AddressPhaseEnd
  intro rest s
  refine ⟨fun ha => ?_, fun ha hd => ?_, fun ha hd => ?_⟩
  · exact (State.addressPhaseEnd_mismatch ha).trans (State.finishHandler_of_ne (by decide) _)
  · refine (State.addressPhaseEnd_match ha).trans ?_
    rw [show directionOf s.tsr = false from hd]
    rfl
  · refine (State.addressPhaseEnd_match ha).trans ?_
    rw [show directionOf s.tsr = true from hd]
    rfl

/-- After a STOP the handler calls `on_stop()` and ends (R210). -/
theorem State.afterDetection_stop {s : State} (h : s.det = .stop) (first : Bool) :
    s.afterDetection first = s.setTpos [.op .onStop, .finish .stopDetected] := by
  rw [State.afterDetection, h]

/-- After a REPEATED-START the address phase is entered again. -/
theorem State.afterDetection_restart {s : State} (h : s.det = .restart) (first : Bool) :
    s.afterDetection first = s.enterAddress := by
  rw [State.afterDetection, h]

/-- A bit right after the address frame begins the data phase (R214). -/
theorem State.afterDetection_first_bit {s : State} (h : s.det = .bit) :
    s.afterDetection true = (s.setTfsm .receivingData).setTpos [.op .onWriteRequested, .readData] := by
  rw [State.afterDetection, h]
  rfl

/-- A later bit begins the next byte. -/
theorem State.afterDetection_later_bit {s : State} (h : s.det = .bit) :
    s.afterDetection false = s.setTpos [.op (.tRbyte s.tfirst), .deliver] := by
  rw [State.afterDetection, h]
  rfl

/-- Settles O45, decision by decision. -/
theorem handlerBranches : Obligations.HandlerBranches := by
  unfold Obligations.HandlerBranches
  intro rest first s
  refine ⟨fun h => ?_, State.finishHandler_of_ne (by decide) s, fun h => ?_, fun h => ⟨?_, ?_⟩, rfl, rfl, fun h => ?_, fun h => ?_,
    rfl, rfl, fun h => ?_, fun h => ?_⟩
  · exact State.afterDetection_stop h first
  · exact State.afterDetection_restart h first
  · exact State.afterDetection_first_bit h
  · exact State.afterDetection_later_bit h
  · exact if_pos h
  · exact (if_neg h).trans s.finishHandler_callbackError
  · exact (if_pos h).trans (State.finishHandler_of_ne (by decide) s)
  · exact if_neg (by simp [h])

end Sys2Proof.Machine
end

section
/-! The family of 42_target_ops.md: the handler's turns through its waits, `T_DETECT` and its acknowledge. -/

namespace Sys2Proof.Machine

/-! ## One turn that decides nothing -/

/-- With an operation in front there is nothing to decide. -/
theorem settleT_operation {i : Instr} {k : List TTask} {t : State} (h : t.tpos = .op i :: k) : settleT (.op i :: k) t = t := by
  show t.setTpos _ = _
  rw [← h]
  rfl

/-- A turn that leaves an operation in front. -/
theorem handler_turn_operation {s v : State} {i j : Instr} {rest k : List TTask} (hp : s.handlerPend = false)
    (hc : s.tpos = .op i :: rest) (he : exec i (s.setTpos rest) = .next v) (hv : v.tpos = .op j :: k) :
    stepWith (.turn .handler) s = .next v := by
  rw [handler_turn hp hc he, hv, settleT_operation hv]

/-! ## Waits (R200, R201, R208, R295; 40_line_primitives.md R135) -/

/-- A turn that comes to a state in which it changes nothing is as good as any number of turns. -/
theorem runInputs_turns_fixed {a : Turn} {s u : State} (first : stepWith (.turn a) s = .next u)
    (again : stepWith (.turn a) u = .next u) (n : Nat) : runInputs (turns (n + 1) a) s = .next u := by
  induction n generalizing s with
  | zero =>
    show runInputs [_] s = _
    rw [runInputs_cons, first]
    rfl
  | succ n ih =>
    show runInputs (_ :: turns (n + 1) a) s = _
    rw [runInputs_cons, first]
    exact ih again

theorem turn_waitH_again {s : State} {k : List TTask} (hp : s.handlerPend = false) (h : s.scl = false)
    (hc : s.tpos = .op .tWaitH :: k) : stepWith (.turn .handler) s = .next { s with got := false } := by
  rw [handler_turn_operation hp hc (exec_tWaitH_low (s := s.setTpos k) h) rfl, State.setTpos_tpos, ← hc]
  rfl

theorem turn_waitL_again {s : State} {k : List TTask} (hp : s.handlerPend = false) (h : s.scl = true)
    (hc : s.tpos = .op .tWaitL :: k) : stepWith (.turn .handler) s = .next { s with got := true } := by
  rw [handler_turn_operation hp hc (exec_tWaitL_high (s := s.setTpos k) h) rfl, State.setTpos_tpos, ← hc]
  rfl

theorem turn_detect_again {s : State} {k : List TTask} (hp : s.handlerPend = false) (h : s.scl = false)
    (hc : s.tpos = .op .tDetect :: k) : stepWith (.turn .handler) s = .next { s with got := false } := by
  rw [handler_turn_operation hp hc (exec_tDetect_low (s := s.setTpos k) h) rfl, State.setTpos_tpos, ← hc]
  rfl

/-- `T_DETECT` finds the clock high: the first sample comes next (R208). -/
theorem turn_detect {s : State} {k : List TTask} (hp : s.handlerPend = false) (h : s.scl = true) (hc : s.tpos = .op .tDetect :: k) :
    stepWith (.turn .handler) s = .next { s with got := true, tpos := .op .getSda :: .watchFirst :: k } :=
  handler_turn_operation hp hc (exec_tDetect_high (s := s.setTpos k) h) rfl

/-- The first sample taken, the watch begins. -/
theorem turn_watchFirst {s : State} {k : List TTask} (hp : s.handlerPend = false) (hc : s.tpos = .op .getSda :: .watchFirst :: k) :
    stepWith (.turn .handler) s = .next { s with got := s.sda, tpos := .op .getScl :: .watchClk s.sda :: k } :=
  handler_turn hp hc rfl

/-- In the watch the clock is read: high, the data line comes next; low, the first sample is a bit. -/
theorem turn_watchClk {s : State} {d : Level} {k : List TTask} (hp : s.handlerPend = false)
    (hc : s.tpos = .op .getScl :: .watchClk d :: k) :
    stepWith (.turn .handler) s = .next (settleT (.watchClk d :: k) { s with got := s.scl, tpos := .watchClk d :: k }) :=
  handler_turn hp hc rfl

theorem turn_watchClk_high {s : State} {d : Level} {k : List TTask} (hp : s.handlerPend = false) (h : s.scl = true)
    (hc : s.tpos = .op .getScl :: .watchClk d :: k) :
    stepWith (.turn .handler) s = .next { s with got := true, tpos := .op .getSda :: .watchDat d :: k } := by
  rw [turn_watchClk hp hc, h]
  rfl

theorem turn_watchClk_low {s : State} {d : Level} {k : List TTask} (hp : s.handlerPend = false) (h : s.scl = false)
    (hc : s.tpos = .op .getScl :: .watchClk d :: k) :
    stepWith (.turn .handler) s
      = .next (settleT k (State.setDetect { s with got := false, tpos := .watchClk d :: k } .bit (some d))) := by
  rw [turn_watchClk hp hc, h]
  rfl

/-- In the watch the data line is read: as before, the clock comes next. -/
theorem turn_watchDat_same {s : State} {d : Level} {k : List TTask} (hp : s.handlerPend = false) (h : s.sda = d)
    (hc : s.tpos = .op .getSda :: .watchDat d :: k) :
    stepWith (.turn .handler) s = .next { s with got := d, tpos := .op .getScl :: .watchClk d :: k } := by
  subst h
  rw [handler_turn hp hc rfl]
  exact congrArg Host.Outcome.next (if_pos rfl)

/-- Changed, it says which condition it is. -/
theorem turn_watchDat_changed {s : State} {d : Level} {k : List TTask} (hp : s.handlerPend = false) (h : s.sda = !d)
    (hc : s.tpos = .op .getSda :: .watchDat d :: k) :
    stepWith (.turn .handler) s
      = .next (settleT k (State.setDetect { s with got := !d, tpos := .watchDat d :: k } (if d then .restart else .stop) none)) := by
  rw [handler_turn hp hc rfl, ← h]
  exact congrArg Host.Outcome.next (if_neg (show s.sda ≠ d by simp [h]))

/-- In the watch, with the clock read high and the data line as it was, the watch stands again where it stood. -/
theorem turn_watch_again {s : State} {k : List TTask} (hp : s.handlerPend = false) (hc : s.tpos = .op .getScl :: .watchClk s.sda :: k) :
    stepWith (.turn .handler) { s with got := true, tpos := .op .getSda :: .watchDat s.sda :: k } = .next { s with got := s.sda } := by
  refine (turn_watchDat_same (s := { s with got := true, tpos := .op .getSda :: .watchDat s.sda :: k }) hp rfl rfl).trans ?_
  show Host.Outcome.next { s with got := s.sda, tpos := .op .getScl :: .watchClk s.sda :: k } = _
  rw [← hc]

/-- Once round the watch of `T_DETECT`. -/
theorem run_watch {s : State} {k : List TTask} (hp : s.handlerPend = false) (h : s.scl = true)
    (hc : s.tpos = .op .getScl :: .watchClk s.sda :: k) : runInputs (turns 2 .handler) s = .next { s with got := s.sda } := by
  show runInputs [_, _] s = _
  simp only [runInputs, turn_watchClk_high hp h hc, turn_watch_again hp hc]

/-- Any number of times round the watch, then the clock once more. -/
theorem run_watch_clock (n : Nat) {s : State} {k : List TTask} (hp : s.handlerPend = false) (h : s.scl = true)
    (hc : s.tpos = .op .getScl :: .watchClk s.sda :: k) : runInputs (turns (2 * n + 1) .handler) s
      = .next { s with got := true, tpos := .op .getSda :: .watchDat s.sda :: k } := by
  induction n generalizing s with
  | zero =>
    show runInputs [_] s = _
    simp only [runInputs, turn_watchClk_high hp h hc]
  | succ n ih =>
    rw [show 2 * (n + 1) + 1 = 2 + (2 * n + 1) by omega, turns_add, runInputs_append, run_watch hp h hc]
    exact ih (s := { s with got := s.sda }) hp h hc

/-- Any number of times round the watch. -/
theorem run_watch_round (n : Nat) {s : State} {k : List TTask} (hp : s.handlerPend = false) (h : s.scl = true)
    (hc : s.tpos = .op .getScl :: .watchClk s.sda :: k) : runInputs (turns (2 * n + 2) .handler) s = .next { s with got := s.sda } := by
  rw [turns_add (2 * n + 1) 1, runInputs_append, run_watch_clock n hp h hc]
  show runInputs [_] _ = _
  simp only [runInputs, turn_watch_again hp hc]

/-- The wait of `C_RAISE` reads the clock and decides. -/
theorem turn_untilHigh {s : State} {k : List CTask} (hc : s.cpos = .op .getScl :: .untilHigh :: k) :
    stepWith (.turn .controller) s = settleC (.untilHigh :: k) { s with got := s.scl } := by
  rw [controller_turn hc rfl]
  exact settleC_setCpos (.untilHigh :: k) (.untilHigh :: k) { s with got := s.scl }

theorem turn_untilHigh_low {s : State} {k : List CTask} (h : s.scl = false) (hc : s.cpos = .op .getScl :: .untilHigh :: k) :
    stepWith (.turn .controller) s = .next { s with got := false } := by
  rw [turn_untilHigh hc, h]
  show Host.Outcome.next (State.setCpos _ _) = _
  rw [← hc]
  rfl

/-- Settles O37: a failed poll comes to a state that the next one leaves as it is. -/
theorem waitsNeverTimeOut : Obligations.WaitsNeverTimeOut := by
  unfold Obligations.WaitsNeverTimeOut
  refine ⟨fun n s rest hp => ⟨fun h hc => ?_, fun h hc => ?_, fun h hc => ⟨?_, ?_⟩⟩,
    fun n s rest hc => ⟨fun h => ?_, fun h => ?_⟩⟩
  · rcases hc with hc | hc
    · exact runInputs_turns_fixed (turn_waitH_again hp h hc) (turn_waitH_again (s := { s with got := false }) hp h hc) n
    · exact runInputs_turns_fixed (turn_detect_again hp h hc) (turn_detect_again (s := { s with got := false }) hp h hc) n
  · exact runInputs_turns_fixed (turn_waitL_again hp h hc) (turn_waitL_again (s := { s with got := true }) hp h hc) n
  · exact run_watch_clock n hp h hc
  · exact run_watch_round n hp h hc
  · exact runInputs_turns_fixed (turn_untilHigh_low h hc) (turn_untilHigh_low (s := { s with got := false }) h hc) n
  · rw [turn_untilHigh hc, h]
    rfl

/-! ## `T_DETECT` (R208) -/

/-- Settles O41: the watch begun with the level first seen, then the clock lowered or, once round, the data line changed. -/
theorem detectOutcomes : Obligations.DetectOutcomes := by
  unfold Obligations.DetectOutcomes
  intro d rest s hp hscl hsda hps hpd hc
  have hclk : s.scl = true := by simp [State.scl, hscl, hps]
  have hdat : s.sda = d := by simp [State.sda, hsda, hpd]
  let watching : State := { s with got := d, tpos := .op .getScl :: .watchClk d :: rest }
  let begun : State := { s with got := true, tpos := .op .getSda :: .watchFirst :: rest }
  have detect : stepWith (.turn .handler) s = .next begun := turn_detect hp hclk hc
  have sample : stepWith (.turn .handler) begun = .next watching := by
    rw [turn_watchFirst (s := begun) hp rfl, show begun.sda = d from hdat]
  refine ⟨?_, ?_⟩
  · let lowered : State := watching.drivePeers false d
    have lower : stepWith (.drive false d) watching = .next lowered := rfl
    have fall := turn_watchClk_low (s := lowered) hp (Bool.and_false _) rfl
    refine ⟨State.setDetect { lowered with got := false, tpos := .watchClk d :: rest } .bit (some d), ?_, rfl, rfl, rfl, hsda⟩
    simp only [runInputs, detect, sample, lower, fall]
  · let looking : State := { s with got := true, tpos := .op .getSda :: .watchDat d :: rest }
    let changed : State := looking.drivePeers true (!d)
    have clock : stepWith (.turn .handler) watching = .next looking := turn_watchClk_high (s := watching) hp hclk rfl
    have change : stepWith (.drive true (!d)) looking = .next changed := rfl
    have seen := turn_watchDat_changed (s := changed) (d := d) (k := rest) hp (by simp [State.sda, changed, looking, hsda]) rfl
    refine ⟨State.setDetect { changed with got := !d, tpos := .watchDat d :: rest } (if d then .restart else .stop) none, ?_, rfl, rfl,
      rfl, hsda⟩
    simp only [runInputs, detect, sample, clock, change, seen]

/-! ## An acknowledge (R206) -/

/-- Settles O40: the data line is taken low, the clock seen high and low, and the data line released. -/
theorem targetAcknowledgePulse : Obligations.TargetAcknowledgePulse := by
  unfold Obligations.TargetAcknowledgePulse
  intro rest s hp hscl hps hc
  let held : State := ((s.setTpos rest).driveSda false).setTpos (.op .tWaitH :: .op .tWaitL :: .op (.setSda true) :: rest)
  let raised : State := held.drivePeers true true
  let high : State := { raised with got := true, tpos := .op .tWaitL :: .op (.setSda true) :: rest }
  let lowered : State := high.drivePeers false true
  let low : State := { lowered with got := false, tpos := .op (.setSda true) :: rest }
  have hup : raised.scl = true := by simp [State.scl, raised, held, hscl]
  have hheld : stepWith (.turn .handler) s = .next held := handler_turn hp hc rfl
  have hraised : stepWith (.drive true true) held = .next raised := rfl
  have hhigh : stepWith (.turn .handler) raised = .next high := run_waitH (a := raised) hp hup rfl
  have hlowered : stepWith (.drive false true) high = .next lowered := rfl
  have hlow : stepWith (.turn .handler) lowered = .next low := turn_waitL (a := lowered) hp (Bool.and_false _) rfl
  have released : stepWith (.turn .handler) low = .next (settleT rest ((low.setTpos rest).driveSda true)) :=
    handler_turn (s := low) hp rfl rfl
  refine ⟨⟨raised, ?_, hup, rfl⟩, (low.setTpos rest).driveSda true, ?_, rfl, rfl, ?_⟩
  · simp only [runInputs, hheld, hraised]
  · simp only [runInputs, hheld, hraised, hhigh, hlowered, hlow, released]
  · simp [low, lowered, high, raised, held]

end Sys2Proof.Machine
end

section
/-! The family of 42_target_ops.md: bytes in both directions. Entering `T_WBYTE` is entering its first cell with the others behind it, and
so for `T_RBYTE` with `TSR` set; a cell is then a clock pulse that the master gives. -/

namespace Sys2Proof.Machine

/-! ## A byte sent (R203, R205) -/

/-- Bits to be sent, one cell each. -/
def wbitTasks (bits : List Level) : List TTask := bits.map fun b => .op (.tWbit b)

/-- Entering `T_WBYTE` is entering its first cell with the other seven behind it. -/
theorem turn_twbyte {s : State} {x : Byte} {k : List TTask} (hp : s.handlerPend = false) (hc : s.tpos = .op (.tWbyte x) :: k) :
    stepWith (.turn .handler) s = stepWith (.turn .handler) (s.setTpos (wbitTasks (bitsOf x) ++ k)) := by
  rw [handler_turn hp hc rfl, handler_turn (s := s.setTpos (wbitTasks (bitsOf x) ++ k)) hp rfl rfl]
  rfl

/-- The first bit's clock pulse: with the clock high the bit is on the data line, and at its end the next bit is to be sent. -/
theorem run_sent_cell {s : State} {b b' : Level} {bits : List Level} {k : List TTask} (hp : s.handlerPend = false)
    (hs : s.sclOut = true) (hc : s.tpos = wbitTasks (b :: b' :: bits) ++ k) :
    ∃ t, runInputs pulseForTarget s = .next t ∧ t.tpos = wbitTasks (b' :: bits) ++ k ∧ t.handlerPend = false ∧
      t.sclOut = true := by
  obtain ⟨u, hu, hupos, hup, hus, -, huc, -⟩ := run_twbit_high hp hc rfl
  obtain ⟨t, ht, hpos, hpend, hscl, -⟩ := run_twbit_low hup (hus.trans hs) huc hupos
  refine ⟨t, ?_, hpos, hpend, hscl⟩
  show runInputs ([.turn .handler, .drive true true] ++ [.turn .handler, .drive false true, .turn .handler]) s = _
  rw [runInputs_append, hu]
  exact ht.trans (congrArg Host.Outcome.next (settleT_operation hpos))

/-- Bits sent one after another, the last of them followed into its high phase. -/
theorem run_sent_cells {bits : List Level} {n : Nat} (hn : n < bits.length) {s : State} {k : List TTask} (hp : s.handlerPend = false)
    (hs : s.sclOut = true) (hc : s.tpos = wbitTasks bits ++ k) :
    ∃ t, runInputs (pulsesForTarget n ++ [.turn .handler, .drive true true]) s = .next t ∧ t.scl = true ∧ t.sda = bits[n] ∧
      t.sclOut = true := by
  induction n generalizing bits s with
  | zero =>
    obtain ⟨b, rest, rfl⟩ := List.exists_cons_of_length_pos hn
    obtain ⟨t, ht, -, -, hscl, hsda, hpc, hpd, -⟩ := run_twbit_high hp hc rfl
    exact ⟨t, ht, by simp [State.scl, hscl, hs, hpc], by simp [State.sda, hsda, hpd], hscl.trans hs⟩
  | succ n ih =>
    obtain ⟨b, b', rest, rfl⟩ : ∃ b b' rest, bits = b :: b' :: rest := by
      match bits, hn with
      | b :: b' :: rest, _ => exact ⟨b, b', rest, rfl⟩
    obtain ⟨u, hu, hupos, hup, hus⟩ := run_sent_cell hp hs hc
    obtain ⟨t, ht, h⟩ := ih (bits := b' :: rest) (Nat.lt_of_succ_lt_succ hn) hup hus hupos
    refine ⟨t, ?_, h⟩
    show runInputs (pulseForTarget ++ pulsesForTarget n ++ _) s = _
    rw [List.append_assoc, runInputs_append, hu]
    exact ht

/-- Clock pulses begin with a turn of the handler. -/
theorem pulsesForTarget_front (n : Nat) : ∃ is, pulsesForTarget n ++ [.turn .handler, .drive true true] = .turn .handler :: is := by
  cases n <;> exact ⟨_, rfl⟩

/-- Settles O39: the bits before bit `7 - k` are sent, then that bit's cell is followed into its high phase. -/
theorem targetSendsMostSignificantFirst : Obligations.TargetSendsMostSignificantFirst := by
  unfold Obligations.TargetSendsMostSignificantFirst
  intro x rest s hp hs _ _ hc k hk
  have hlen : k < (bitsOf x).length := hk
  have hbit : (bitsOf x)[k] = x.getLsbD (7 - k) :=
    Option.some.inj ((List.getElem?_eq_getElem hlen).symm.trans (bitsOf_getElem? x hk))
  obtain ⟨t, ht, hscl, hsda, hout⟩ := run_sent_cells hlen (s := s.setTpos (wbitTasks (bitsOf x) ++ rest)) hp hs rfl
  refine ⟨t, ?_, hscl, hsda.trans hbit, hout⟩
  obtain ⟨is, front⟩ := pulsesForTarget_front k
  rw [front, runInputs_cons] at ht ⊢
  rw [turn_twbyte hp hc]
  exact ht

/-! ## A byte received (R202, R204) -/

/-- So many cells to be received, each shifted into `TSR`. -/
def rbitTasks (n : Nat) : List TTask := (List.replicate n [TTask.op .tRbit, .shiftTsr]).flatten

/-- Entering `T_RBYTE` is clearing `TSR` and entering the first of its eight cells. -/
theorem turn_trbyte_none {s : State} {k : List TTask} (hp : s.handlerPend = false) (hc : s.tpos = .op (.tRbyte none) :: k) :
    stepWith (.turn .handler) s = stepWith (.turn .handler) ((s.setTsr 0#8).setTpos (rbitTasks 8 ++ k)) := by
  rw [handler_turn hp hc rfl, handler_turn (s := (s.setTsr 0#8).setTpos (rbitTasks 8 ++ k)) hp rfl rfl]
  rfl

/-- After a first bit it is taking that bit into `TSR` and entering the first of seven cells. -/
theorem turn_trbyte_some {s : State} {b : Level} {k : List TTask} (hp : s.handlerPend = false)
    (hc : s.tpos = .op (.tRbyte (some b)) :: k) :
    stepWith (.turn .handler) s = stepWith (.turn .handler) ((s.setTsr (shiftIn 0#8 b)).setTpos (rbitTasks 7 ++ k)) := by
  have first : shiftIn 0#8 b = (BitVec.ofBool b).setWidth 8 := by simp [shiftIn]
  rw [first, handler_turn hp hc rfl, handler_turn (s := (s.setTsr ((BitVec.ofBool b).setWidth 8)).setTpos (rbitTasks 7 ++ k)) hp rfl rfl]
  rfl

/-- The state with everything hidden that a run of cells received may change. -/
def State.hideCells (s : State) : State :=
  { s with
    peerScl := false, peerSda := false, edgePend := false, busOpen := false, lastCond := none, unsanctioned := false
    tpos := [], tsr := 0#8, got := false, bitv := false }

theorem hideCells_setTpos (s : State) (ts : List TTask) : (s.setTpos ts).hideCells = s.hideCells := rfl
theorem hideCells_setTsr (s : State) (x : Byte) : (s.setTsr x).hideCells = s.hideCells := rfl
theorem hideCells_drivePeers (s : State) (c d : Level) : (s.drivePeers c d).hideCells = s.hideCells := rfl

/-- The master's cell in its high phase. -/
def State.masterHigh (s : State) (b : Level) : State := (s.drivePeers false b).drivePeers true b

/-- In the high phase of the master's cell, with the engine's outputs released, the clock is high and the bit is on the data line. -/
theorem masterHigh_scl {s : State} (h : s.sclOut = true) (b : Level) : (s.masterHigh b).scl = true := by
  simp [State.scl, State.masterHigh, h]

theorem masterHigh_sda {s : State} (h : s.sdaOut = true) (b : Level) : (s.masterHigh b).sda = b := by
  simp [State.sda, State.masterHigh, h]

theorem masterHigh_tsr (s : State) (b : Level) : (s.masterHigh b).tsr = s.tsr := by simp [State.masterHigh]
theorem masterHigh_tpos (s : State) (b : Level) : (s.masterHigh b).tpos = s.tpos := by simp [State.masterHigh]
theorem hideCells_masterHigh (s : State) (b : Level) : (s.masterHigh b).hideCells = s.hideCells := by
  simp only [State.masterHigh, hideCells_drivePeers]

/-- The handler in a run, with both outputs released. -/
structure Listening (s : State) : Prop where
  pend : s.handlerPend = false
  scl : s.sclOut = true
  sda : s.sdaOut = true

/-- What is hidden does not matter to it. -/
theorem Listening.congr {s t : State} (h : Listening s) (e : t.hideCells = s.hideCells) : Listening t where
  pend := (congrArg State.handlerPend e :).trans h.pend
  scl := (congrArg State.sclOut e :).trans h.scl
  sda := (congrArg State.sdaOut e :).trans h.sda

theorem run_masterHigh (s : State) (b : Level) (is : List Input) :
    runInputs (.drive false b :: .drive true b :: is) s = runInputs is (s.masterHigh b) := by
  simp only [runInputs, stepWith_drive, State.masterHigh]

/-- What remains of the master's cell: two polls, the clock lowered, one poll. -/
def highToEnd (b : Level) : List Input := [.turn .handler, .turn .handler, .drive false b, .turn .handler]

theorem cellsForTarget_cons (b : Level) (cells : List Level) :
    cellsForTarget (b :: cells) = .drive false b :: .drive true b :: (highToEnd b ++ cellsForTarget cells) := rfl

/-- A cell received from its high phase on (R202). -/
theorem run_cell_received {s : State} {k : List TTask} (hp : s.handlerPend = false) (h : s.scl = true)
    (hc : s.tpos = .op .tRbit :: k) :
    ∃ t, runInputs (highToEnd s.sda) s = .next (settleT k t) ∧ t.bitv = s.sda ∧ t.tsr = s.tsr ∧ t.hideCells = s.hideCells := by
  let sampled : State := { s with got := s.sda, bitv := s.sda, tpos := .op .tWaitL :: k }
  let lowered : State := sampled.drivePeers false s.sda
  have sample : runInputs [.turn .handler, .turn .handler] s = .next sampled := run_trbit_high hp h hc
  have lower : stepWith (.drive false s.sda) sampled = .next lowered := rfl
  have ended := turn_waitL (a := lowered) hp (Bool.and_false _) rfl
  refine ⟨{ lowered with got := false, tpos := k }, ?_, rfl, rfl, rfl⟩
  show runInputs ([.turn .handler, .turn .handler] ++ [.drive false s.sda, .turn .handler]) s = _
  rw [runInputs_append, sample]
  simp only [afterwards, runInputs, lower, ended]

/-- Cells received one after another, the first from its high phase on. -/
theorem run_cells_received {b : Level} {cells : List Level} {s : State} {k : List TTask} (hl : Listening s) (h : s.scl = true)
    (hd : s.sda = b) (hc : s.tpos = rbitTasks (cells.length + 1) ++ k) :
    ∃ t, runInputs (highToEnd b ++ cellsForTarget cells) s = .next (settleT k t) ∧ t.tsr = (b :: cells).foldl shiftIn s.tsr ∧
      t.hideCells = s.hideCells := by
  subst hd
  induction cells generalizing s with
  | nil =>
    obtain ⟨t, ht, hbit, htsr, hhide⟩ := run_cell_received (k := .shiftTsr :: k) hl.pend h hc
    exact ⟨t.setTsr (shiftIn t.tsr t.bitv), ht, by simp [hbit, htsr], hhide⟩
  | cons b cells ih =>
    obtain ⟨t, ht, hbit, htsr, hhide⟩ := run_cell_received (k := .shiftTsr :: (rbitTasks (cells.length + 1) ++ k)) hl.pend h hc
    let next : State := (t.setTsr (shiftIn t.tsr t.bitv)).setTpos (rbitTasks (cells.length + 1) ++ k)
    have shifted : settleT (.shiftTsr :: (rbitTasks (cells.length + 1) ++ k)) t = next := rfl
    have nhide : (next.masterHigh b).hideCells = s.hideCells := (hideCells_masterHigh next b).trans hhide
    have nl : Listening next := hl.congr hhide
    have bit : (next.masterHigh b).sda = b := masterHigh_sda nl.sda b
    obtain ⟨u, hu, htsr', hhide'⟩ := ih (hl.congr nhide) (masterHigh_scl nl.scl b) (masterHigh_tpos next b)
    rw [bit] at hu htsr'
    refine ⟨u, ?_, ?_, hhide'.trans nhide⟩
    · rw [runInputs_append, ht, shifted, cellsForTarget_cons]
      show runInputs _ next = _
      rw [run_masterHigh, hu]
    · rw [htsr', masterHigh_tsr]
      simp [next, hbit, htsr]

/-- Cells supplied from an operation on that is entered as the first of so many cells, with `TSR` set. -/
theorem run_byte_received (b : Level) (cells : List Level) {s : State} {x : Byte} {k : List TTask} (hl : Listening s)
    (enter : ∀ a : State, a.handlerPend = false → a.tpos = s.tpos → stepWith (.turn .handler) a
      = stepWith (.turn .handler) ((a.setTsr x).setTpos (rbitTasks (cells.length + 1) ++ k))) :
    ∃ t, runInputs (cellsForTarget (b :: cells)) s = .next (settleT k t) ∧ t.tsr = (b :: cells).foldl shiftIn x ∧
      t.hideCells = s.hideCells := by
  let high : State := s.masterHigh b
  have hl' : Listening high := hl.congr (hideCells_masterHigh s b)
  obtain ⟨t, ht, htsr, hhide⟩ := run_cells_received (s := (high.setTsr x).setTpos (rbitTasks (cells.length + 1) ++ k))
    (hl'.congr rfl) (masterHigh_scl hl.scl b) (masterHigh_sda hl.sda b) rfl
  refine ⟨t, ?_, htsr, hhide.trans (hideCells_masterHigh s b)⟩
  rw [cellsForTarget_cons, run_masterHigh, ← ht]
  show runInputs (_ :: _) _ = runInputs (_ :: _) _
  rw [runInputs_cons, runInputs_cons, enter high hl'.pend (masterHigh_tpos s b)]

/-- Settles O38: the cells are shifted in one by one, and eight shifted in are the byte's bits. -/
theorem targetReceivesMostSignificantFirst : Obligations.TargetReceivesMostSignificantFirst := by
  unfold Obligations.TargetReceivesMostSignificantFirst
  intro cells rest s hp hscl hsda
  have hl : Listening s := ⟨hp, hscl, hsda⟩
  refine ⟨fun hlen hc => ?_, fun b hlen hc => ?_⟩
  · obtain ⟨c, others, rfl⟩ := List.exists_cons_of_length_eq_add_one hlen
    have count : others.length = 7 := Nat.succ.inj hlen
    obtain ⟨u, hu, htsr, hhide⟩ := run_byte_received c others (x := 0#8) (k := rest) hl
      fun a ha hpos => count ▸ turn_trbyte_none ha (hpos.trans hc)
    have hbits : bitsOf u.tsr = c :: others := by
      rw [htsr]
      exact bitsOf_byteOf hlen
    have ul := hl.congr hhide
    refine ⟨u, hu, fun k hk => ?_, (congrArg State.taddr hhide :), (congrArg State.tfsm hhide :), ul.sda, ul.scl⟩
    rw [← hbits]
    exact bitsOf_getElem? u.tsr hk
  · obtain ⟨c, others, rfl⟩ := List.exists_cons_of_length_eq_add_one hlen
    have count : others.length = 6 := Nat.succ.inj hlen
    obtain ⟨u, hu, htsr, hhide⟩ := run_byte_received c others (x := shiftIn 0#8 b) (k := rest) hl
      fun a ha hpos => count ▸ turn_trbyte_some ha (hpos.trans hc)
    have hbits : bitsOf u.tsr = b :: c :: others := by
      rw [htsr]
      exact bitsOf_byteOf (cells := b :: c :: others) (congrArg Nat.succ hlen)
    have bit {k : Nat} (hk : k < 8) : (b :: c :: others)[k]? = some (u.tsr.getLsbD (7 - k)) := by
      rw [← hbits]
      exact bitsOf_getElem? u.tsr hk
    have ul := hl.congr hhide
    refine ⟨u, hu, (Option.some.inj (bit (k := 0) (by omega))).symm, fun k hk => ?_, (congrArg State.taddr hhide :),
      (congrArg State.tfsm hhide :), ul.sda, ul.scl⟩
    rw [show 6 - k = 7 - (k + 1) by omega]
    exact bit (k := k + 1) (by omega)

end Sys2Proof.Machine
end

section
/-! The family of 42_target_ops.md: the transitions of the target state machine (R216). The handler's decisions come to one of seven
transitions, each with its cause, or to none; of the other contexts only the edge context makes one. -/

namespace Sys2Proof.Machine

/-- What the handler's decisions can do to `TFSM`, from the one state to the other (R210, R216). -/
inductive HandlerTransition (s t : State) : Prop
  | none : t.tfsm = s.tfsm → HandlerTransition s t
  | mismatch : s.tfsm = .receivingAddress → t.tfsm = .idle → t.tlast = .addressMismatch → t.tsr.extractLsb' 1 7 ≠ t.taddr →
    HandlerTransition s t
  | stopped : s.tfsm = .receivingAddress ∨ s.tfsm = .receivingData → s.tdir = false → t.tfsm = .idle → t.tlast = .stopDetected →
    HandlerTransition s t
  | dataCell : s.tfsm = .receivingAddress → t.tfsm = .receivingData → t.det = .bit → t.tdir = false → HandlerTransition s t
  | reading : s.tfsm = .receivingAddress → t.tfsm = .sendingData → t.tdir = true → HandlerTransition s t
  | refused : s.tfsm = .receivingData → t.tfsm = .idle → t.tlast = .callbackError → t.terr = true → t.ans ≠ 0#8 →
    HandlerTransition s t
  | restarted : s.tfsm = .receivingData → t.tfsm = .receivingAddress → t.det = .restart → HandlerTransition s t
  | nacked : s.tfsm = .sendingData → t.tfsm = .idle → t.tlast = .masterNacked → t.bitv = true → HandlerTransition s t

/-- Of the first state only the phase and the direction matter. -/
theorem HandlerTransition.congr {s s' t : State} (h : HandlerTransition s' t) (hp : s'.tfsm = s.tfsm) (hd : s'.tdir = s.tdir) :
    HandlerTransition s t := by
  cases h with
  | none h => exact .none (h.trans hp)
  | mismatch h => exact .mismatch (hp ▸ h) ‹_› ‹_› ‹_›
  | stopped h hr => exact .stopped (hp ▸ h) (hd ▸ hr) ‹_› ‹_›
  | dataCell h => exact .dataCell (hp ▸ h) ‹_› ‹_› ‹_›
  | reading h => exact .reading (hp ▸ h) ‹_› ‹_›
  | refused h => exact .refused (hp ▸ h) ‹_› ‹_› ‹_› ‹_›
  | restarted h => exact .restarted (hp ▸ h) ‹_› ‹_›
  | nacked h => exact .nacked (hp ▸ h) ‹_› ‹_› ‹_›

/-- The address byte that does not match ends the address phase; one that does leaves `TFSM` (R212, R213). -/
theorem addressPhaseEnd_transition {s : State} (hp : s.tfsm = .receivingAddress) : HandlerTransition s s.addressPhaseEnd := by
  by_cases h : addressOf s.tsr = s.taddr
  · rw [State.addressPhaseEnd_match h]
    exact .none rfl
  · rw [State.addressPhaseEnd_mismatch h]
    exact .mismatch hp rfl rfl h

/-- The branch on `T_DETECT` (R214): the first bit begins the data phase, a REPEATED-START ends it. -/
theorem afterDetection_transition {s : State} {first : Bool} (hp : s.tfsm = if first then .receivingAddress else .receivingData)
    (hd : s.tdir = false) : HandlerTransition s (s.afterDetection first) := by
  cases h : s.det with
  | stop =>
    rw [State.afterDetection_stop h]
    exact .none rfl
  | restart =>
    rw [State.afterDetection_restart h]
    cases first
    · exact .restarted hp rfl h
    · exact .none hp.symm
  | bit =>
    cases first
    · rw [State.afterDetection_later_bit h]
      exact .none rfl
    · rw [State.afterDetection_first_bit h]
      exact .dataCell hp rfl h hd

/-- What the handler's decisions can do to `TFSM`, when what is left to do fits the phase and the direction. -/
theorem settleT_transition (l : List TTask) {s : State} (h : phaseFits l s.tfsm s.tdir) : HandlerTransition s (settleT l s) := by
  induction l generalizing s with
  | nil => cases h
  | cons d rest ih =>
    cases d with
    | op | watchFirst | loadByte | readData | deliver => exact .none rfl
    | takeBit => exact (ih (s := s.setBitv s.got) h).congr rfl rfl
    | shiftTsr => exact (ih (s := s.setTsr (shiftIn s.tsr s.bitv)) h).congr rfl rfl
    | watchClk d0 =>
      simp only [settleT]
      split
      · exact .none rfl
      · exact (ih (s := s.setDetect .bit (some d0)) h).congr rfl rfl
    | watchDat d0 =>
      simp only [settleT]
      split
      · exact .none rfl
      · exact (ih (s := s.setDetect (if d0 then .restart else .stop) none) h).congr rfl rfl
    | addrDecide => exact addressPhaseEnd_transition h
    | beginSend =>
      obtain ⟨hp, hd⟩ := h
      exact .reading hp rfl hd
    | rackDecide =>
      obtain ⟨hp, -⟩ := h
      simp only [settleT]
      split
      next hv => exact .nacked hp rfl rfl hv
      next => exact .none rfl
    | afterDetect first =>
      obtain ⟨hp, hd⟩ := h
      exact afterDetection_transition hp hd
    | statusDecide =>
      obtain ⟨hp, -⟩ := h
      simp only [settleT]
      split
      next => exact .none rfl
      next ha => exact .refused hp rfl rfl (by simp) ha
    | finish o =>
      obtain ⟨rfl, hp, hd⟩ := h
      exact .stopped hp hd rfl rfl

/-- A command accepted leaves `TFSM`: the target role is taken in a mode in which the machine is idle (R190). -/
theorem Accepted.tfsm {s t : State} {i : Instr} (h : Accepted s i t) (hidle : s.mode ≠ .target → s.tfsm = .idle) :
    t.tfsm = s.tfsm := by
  cases h with
  | registered addr _ hm => exact (hidle (by simp [hm])).symm
  | refused | configured | noSegment | transferring | recovering | unregistered | released => rfl

/-- What a step other than a reset can do to `TFSM`: nothing; a START seen by the edge context; a transition of the handler. -/
inductive Transition (s : State) (i : Input) (t : State) : Prop
  | none : t.tfsm = s.tfsm → Transition s i t
  | start : i = .turn .edge → s.tfsm = .idle → s.edgePend = true → s.scl = true → s.sda = false → t.tfsm = .receivingAddress →
    Transition s i t
  | handler : i = .turn .handler → s.tfsm ≠ .idle → HandlerTransition s t → Transition s i t

/-- The edge context's turn leaves `Idle` on a START only (R195). -/
theorem takeEdge_transition {s : State} (he : s.edgePend = true) (hi : s.tfsm = .idle) :
    Transition s (.turn .edge) s.takeEdge := by
  by_cases h : s.scl = true ∧ s.sda = false
  · obtain ⟨hc, hd⟩ := h
    exact .start rfl hi he hc hd (by rw [State.takeEdge_start hc hd])
  · have other : s.scl = false ∨ s.sda = true := by
      cases hc : s.scl
      · exact .inl rfl
      · exact .inr (by simpa [hc] using h)
    exact .none (by rw [State.takeEdge_other other])

/-- A turn of the running handler makes a transition of its decisions or none. -/
theorem handler_transition {s v : State} {i : Instr} (hi : isTargetOp i = true) (m : MidT (.op i :: s.tpos.tail) (s.setTpos s.tpos.tail))
    (he : exec i (s.setTpos s.tpos.tail) = .next v) : Transition s (.turn .handler) (settleT v.tpos v) := by
  have hf := exec_target_frame hi he
  have htfsm : v.tfsm = s.tfsm := (congrArg State.tfsm hf :)
  have htdir : v.tdir = s.tdir := (congrArg State.tdir hf :)
  have hp : phaseFits v.tpos v.tfsm v.tdir := by
    rw [htfsm, htdir]
    exact exec_target_phase hi he m.phase
  exact .handler rfl m.run ((settleT_transition v.tpos hp).congr htfsm htdir)

/-- Every case of a step but reset. -/
theorem StepCase.transition {s t : State} {i : Input} (h : Inv s) (hs : StepCase s i t) (hr : i ≠ .reset) : Transition s i t := by
  cases hs with
  | nothing | words | call | status | noCall | plan | peer | wire | drive | answer | bufWrite => exact .none rfl
  | accept hb hi he =>
    refine .none ((hi.accepted hb he).tfsm fun hm => ?_)
    by_contra hn
    exact hm (h.flags.transactionIsTarget hn)
  | controller hi m he hset =>
    have hf := StepCase.hideControllerTurn (.controller hi m he hset)
    exact .none (congrArg State.tfsm hf :)
  | edge he => exact takeEdge_transition he (h.flags.edgePendArmed he).2
  | handlerStart hp => exact .none ((State.pollScl_tfsm ..).trans (h.flags.handlerPendAddress hp).symm)
  | handler hi m he => exact handler_transition hi m he
  | reset => exact absurd rfl hr

/-- Settles O47, transition by transition. -/
theorem tfsmTransitions : Obligations.TfsmTransitions := by
  unfold Obligations.TfsmTransitions
  intro s t h ht hr hne
  cases (stepCase_of_step h ht).transition h.dropInput hr with
  | none hk => exact absurd (by simpa using hk.symm) hne
  | start hi hs he hc hd htfsm =>
    rw [State.dropInput_tfsm] at hs
    rw [State.dropInput_edgePend] at he
    rw [State.scl_congr s.dropInput_sclOut s.dropInput_peerScl] at hc
    rw [State.sda_congr s.dropInput_sdaOut s.dropInput_peerSda] at hd
    simp [hi, hs, he, hc, hd, htfsm]
  | handler hi hs hmove =>
    replace hmove : HandlerTransition s t := hmove.congr (by simp) (by simp)
    cases hmove with
    | none hk => exact absurd hk.symm hne
    | mismatch hs ht hl ha => simp [hs, ht, hl, ha, hi]
    | stopped hs hd ht hl => rcases hs with hs | hs <;> simp [hs, hd, ht, hl, hi]
    | dataCell hs ht hdet hd => simp [hs, ht, hdet, hd, hi]
    | reading hs ht hd => simp [hs, ht, hd, hi]
    | refused hs ht hl he ha => simp [hs, ht, hl, he, ha, hi]
    | restarted hs ht hdet => simp [hs, ht, hdet, hi]
    | nacked hs ht hl hv => simp [hs, ht, hl, hv, hi]

end Sys2Proof.Machine
end

section
/-! The family of 60_exceptions.md: nothing stops the machine (R240), the edge latch (R250), and roles that are left before the other is
taken (R260). The edge latch is read off from the cases of a step; the other two also speak of states without the invariant, so what an
input can fetch is said for every state. -/

namespace Sys2Proof.Machine

/-! ## The edge latch (R250) -/

/-- An armed detector latches a change of the data line, and a latch appears in no other way. -/
def LatchesEdge (s t : State) : Prop :=
  (s.armed = true → s.sda ≠ t.sda → t.edgePend = true) ∧
  (t.edgePend = true → s.edgePend = true ∨ (s.armed = true ∧ s.sda ≠ t.sda))

/-- Where the data line stays, there is nothing to latch. -/
theorem LatchesEdge.of_line {s t : State} (hd : t.sda = s.sda) (he : t.edgePend = true → s.edgePend = true) : LatchesEdge s t :=
  ⟨fun _ hne => absurd hd.symm hne, fun h => .inl (he h)⟩

/-- Where the detector is not armed, nothing is latched. -/
theorem LatchesEdge.of_disarmed {s t : State} (ha : s.armed = false) (he : t.edgePend = s.edgePend) : LatchesEdge s t :=
  ⟨fun h => by simp [ha] at h, fun h => .inl (he ▸ h)⟩

/-- A change of the peers' outputs is what the detector watches for. -/
theorem latchesEdge_drivePeers (s : State) (c d : Level) : LatchesEdge s (s.drivePeers c d) := by
  have latched := s.observe_edgePend_iff { s with peerScl := c, peerSda := d }
  exact ⟨fun ha hd => latched.2 (.inr ⟨ha, hd⟩), latched.1⟩

/-- A reset latches nothing: it leaves the detector disarmed, and an armed detector belongs to a data output that is released already. -/
theorem latchesEdge_resetEngine {s : State} (h : Inv s) : LatchesEdge s s.resetEngine := by
  refine ⟨fun ha hd => ?_, fun he => ?_⟩
  · obtain ⟨hm, hi⟩ : s.mode = .target ∧ s.tfsm = .idle := by simpa [State.armed] using ha
    have released : s.sdaOut = true := h.target.idleData hm hi
    exact absurd (State.sda_congr (t := s.resetEngine) released rfl) hd
  · rcases (State.observe_edgePend_iff _ _).1 he with h | ⟨h, -⟩ <;> cases h

/-- A command accepted latches nothing. -/
theorem Accepted.edgePend {s t : State} {i : Instr} (h : Accepted s i t) (he : t.edgePend = true) : s.edgePend = true := by
  cases h with
  | registered | unregistered => cases he
  | refused | configured | noSegment | transferring | recovering | released => exact he

/-- Every case of a step latches an edge as R250 says: the engine's own agents change the data line only while the detector is disarmed. -/
theorem StepCase.latchesEdge {s t : State} {i : Input} (h : Inv s) (hs : StepCase s i t) : LatchesEdge s t := by
  cases hs with
  | nothing | words | call | status | noCall | plan | answer | bufWrite => exact .of_line rfl id
  | accept hb hi he =>
    have ha := hi.accepted hb he
    exact .of_line (congrArg State.sda ha.hidePort :) ha.edgePend
  | controller hi m he hset =>
    have hm : s.mode ≠ .target := m.notTarget
    have hf := StepCase.hideControllerTurn (.controller hi m he hset)
    exact .of_disarmed (by simp [State.armed, hm]) (congrArg State.edgePend hf :)
  | edge he => exact .of_line (State.sda_congr s.takeEdge_sdaOut s.takeEdge_peerSda) fun _ => he
  | handlerStart => exact .of_line (State.sda_congr (by simp) (by simp)) (by simp)
  | handler hi m he =>
    have hr : s.tfsm ≠ .idle := m.run
    have hf := StepCase.hideHandlerTurn (.handler hi m he)
    exact .of_disarmed (by simp [State.armed, hr]) (congrArg State.edgePend hf :)
  | peer c d | wire _ c d | drive c d => exact latchesEdge_drivePeers s c d
  | reset => exact latchesEdge_resetEngine h

/-- Settles O42, by the cases of a step. -/
theorem edgeLatch : Obligations.EdgeLatch := by
  unfold Obligations.EdgeLatch
  intro s t h ht
  have hs : LatchesEdge s.dropInput t := (stepCase_of_step h ht).latchesEdge h.dropInput
  have line : s.dropInput.sda = s.sda := State.sda_congr s.dropInput_sdaOut s.dropInput_peerSda
  simpa [LatchesEdge, State.armed, line] using hs

/-! ## What an input can fetch, in every state -/

/-- The state with everything hidden that a fetch may write: what it takes from the positions, the plan and the port, and what the
environment lays down. -/
def State.hideFetch (s : State) : State :=
  { s with cpos := [], tpos := [], ppos := [], port := [], mem := [], answers := [] }

/-- What an input can fetch: an operation, in the sequencer's context on a sequencer's turn only; an act that is no operation; a stop, on
the controller's turn only. -/
inductive FetchCase (s : State) : Input → Fetched → Prop
  | environment (a : Input) (i : Instr) {u : State} : u.hideFetch = s.hideFetch → FetchCase s a (.run .environment i u)
  | controller (i : Instr) {u : State} : u.hideFetch = s.hideFetch → FetchCase s (.turn .controller) (.run .controller i u)
  | handler (i : Instr) {u : State} : u.hideFetch = s.hideFetch → FetchCase s (.turn .handler) (.run .handler i u)
  | act (a : Input) {u : State} : u.hideFetch = s.hideFetch → FetchCase s a (.done u)
  | peers (a : Input) (c d : Level) (ts : List PTask) : FetchCase s a (.done ((s.drivePeers c d).setPpos ts))
  | reset : FetchCase s .reset (.done s.resetEngine)
  | stop (r : Fault) : FetchCase s (.turn .controller) (.stop r)

theorem fetchPort_case (s : State) : FetchCase s (.turn .port) (fetchPort s) := by
  unfold fetchPort
  split
  · exact .act _ rfl
  · split
    · exact .act _ rfl
    · split
      · exact .environment _ _ rfl
      · exact .act _ rfl
    · split
      · exact .environment _ _ rfl
      · exact .act _ rfl

theorem fetchController_case (s : State) : FetchCase s (.turn .controller) (fetchController s) := by
  unfold fetchController
  split
  · exact .act _ rfl
  · exact .controller _ rfl
  · split
    · exact .controller _ rfl
    · exact .stop _
  · exact .act _ rfl

theorem fetchHandler_case (s : State) : FetchCase s (.turn .handler) (fetchHandler s) := by
  unfold fetchHandler
  split
  · exact .handler _ rfl
  · split
    · exact .handler _ rfl
    · exact .act _ rfl

theorem fetchEdge_case (s : State) : FetchCase s (.turn .edge) (fetchEdge s) := by
  unfold fetchEdge
  split
  · exact .environment _ _ rfl
  · exact .act _ rfl

theorem fetchWire_case (a : Input) (i : Instr) {s u : State} (hu : u.hideFetch = s.hideFetch) : FetchCase s a (fetchWire i u) := by
  unfold fetchWire
  split
  · exact .environment _ _ hu
  · exact .act _ hu

theorem fetchPeer_case (s : State) : FetchCase s (.turn .peer) (fetchPeer s) := by
  unfold fetchPeer
  split
  · exact .act _ rfl
  · exact .peers _ _ s.peerSda _
  · exact .peers _ s.peerScl _ _
  · split <;> exact .act _ rfl
  · split <;> exact .act _ rfl
  · exact fetchWire_case _ _ rfl

theorem fetchCall_case (i : Instr) (s : State) : FetchCase s (.call i) (fetchCall i s) := by
  unfold fetchCall
  split
  · exact .environment _ _ rfl
  · exact .environment _ _ rfl
  · split <;> exact .act _ rfl

/-- What an input fetches is one of the cases. -/
theorem fetchInput_case (a : Input) (s : State) : FetchCase s a (fetchInput a s) := by
  cases a with
  | turn agent =>
    cases agent with
    | port => exact fetchPort_case s
    | controller => exact fetchController_case s
    | edge => exact fetchEdge_case s
    | handler => exact fetchHandler_case s
    | peer => exact fetchPeer_case s
  | words | answer | bufWrite => exact .act _ rfl
  | call i => exact fetchCall_case i s
  | drive c d => exact .peers _ c d s.ppos
  | wire i => exact fetchWire_case _ i rfl
  | reset => exact .reset

/-! ## Every operation has a next state -/

/-- Acceptance answers a next state: the effect, or the hold (41_controller_ops.md R160). -/
theorem State.accept_next (s : State) (i : Instr) (f : State → State) : ∃ t, s.accept i f = .next t := by
  cases hb : s.busy
  · exact ⟨_, State.accept_idle hb i f⟩
  · exact ⟨_, State.accept_busy hb i f⟩

/-- Every operation answers a next state: a command by its acceptance, any other by its meaning. -/
theorem exec_next (i : Instr) (s : State) : ∃ t, exec i s = .next t := by
  cases i
  case configure | transfer | recover | registerTarget | unregisterTarget | release | illegal | write | read | writeRead | probe =>
    unfold exec
    exact State.accept_next ..
  case tRbyte first => cases first <;> exact ⟨_, rfl⟩
  all_goals exact ⟨_, rfl⟩

/-- An operation run is its next state, and then the decisions of its context. -/
theorem carryOut_run (c : Context) (i : Instr) (u : State) : ∃ v, exec i u = .next v ∧ carryOut (.run c i u) = settle c (.next v) := by
  obtain ⟨v, hv⟩ := exec_next i u
  exact ⟨v, hv, by simp only [carryOut, hv]⟩

/-! ## Roles (R260) -/

/-- The mode stays, or `Unconfigured` is left or entered. -/
def KeepsRole (s t : State) : Prop := t.mode = s.mode ∨ s.mode = .unconfigured ∨ t.mode = .unconfigured

theorem KeepsRole.congr {s s' t t' : State} (h : KeepsRole s t) (hs : s.mode = s'.mode) (ht : t'.mode = t.mode) : KeepsRole s' t' := by
  unfold KeepsRole
  rw [← hs, ht]
  exact h

/-- No role is exchanged for the other. -/
theorem KeepsRole.not_exchanged {s t : State} (h : KeepsRole s t) :
    ¬ (s.mode = .controller ∧ t.mode = .target) ∧ ¬ (s.mode = .target ∧ t.mode = .controller) := by
  rcases h with h | h | h
  · exact ⟨fun ⟨hs, ht⟩ => by simp [h, hs] at ht, fun ⟨hs, ht⟩ => by simp [h, hs] at ht⟩
  · simp [h]
  · simp [h]

/-- The controller's role is taken outside `Target` mode only. -/
theorem KeepsRole.of_controller {s t : State} (hs : s.mode ≠ .target) (ht : t.mode = .controller) : KeepsRole s t := by
  cases hm : s.mode with
  | unconfigured => exact .inr (.inl hm)
  | controller => exact .inl (ht.trans hm.symm)
  | target => exact absurd hm hs

/-- A command accepted takes a role out of `Unconfigured`, leaves it for `Unconfigured`, or keeps the mode. -/
theorem Accepted.keepsRole {s t : State} {i : Instr} (h : Accepted s i t) : KeepsRole s t := by
  cases h with
  | refused | configured | recovering => exact .inl rfl
  | noSegment _ _ hm | transferring _ _ _ _ _ hm => exact .of_controller hm rfl
  | registered _ _ hm => exact .inr (.inl hm)
  | unregistered | released => exact .inr (.inr rfl)

/-- A command or pseudo-operation, accepted or held. -/
theorem exec_command_keepsRole {i : Instr} {s t : State} (hi : i.isCommand = true ∨ i.isPseudo = true) (h : exec i s = .next t) :
    KeepsRole s t := by
  cases hb : s.busy
  · exact (exec_accepted hi hb h).keepsRole
  · rw [exec_held hi hb] at h
    cases h
    exact .inl rfl

/-- Only a command takes or leaves a role. -/
theorem exec_keepsRole {i : Instr} {s t : State} (h : exec i s = .next t) : KeepsRole s t := by
  cases i
  case configure | transfer | recover | registerTarget | unregisterTarget | release | illegal =>
    exact exec_command_keepsRole (.inl rfl) h
  case write | read | writeRead | probe => exact exec_command_keepsRole (.inr rfl) h
  case segdesc | statusRead => cases h; exact .inl rfl
  case setScl | setSda | getScl | getSda | delay | cRaise | cPrestart | cStart | cRstart | cStop | cWbit | cRbit | cWbyte | cRbyte =>
    exact .inl (congrArg State.mode (exec_controller_frame rfl h) :)
  case tWaitH | tWaitL | tRbit | tWbit | tRbyte | tWbyte | tAck | tRack | tDetect | onWriteRequested | onWriteReceived |
      onReadRequested | onReadProcessed | onStop =>
    exact .inl (congrArg State.mode (exec_target_frame rfl h) :)
  case tEdge => cases h; exact .inl s.takeEdge_mode
  case tHandler => cases h; exact .inl (State.pollScl_mode ..)
  case wireStart | wireRestart | wireStop | bitCell | byteFrame | addressByte | acknowledge =>
    obtain ⟨c, d, ts, rfl⟩ := exec_wire rfl h
    exact .inl rfl

/-- The decisions of a sequencer keep the mode. -/
theorem settle_mode {c : Context} {v t : State} (h : settle c (.next v) = .next t) : t.mode = v.mode := by
  cases c with
  | environment => cases h; rfl
  | controller => cases settledC_of_settleC h <;> rfl
  | handler =>
    have hs : SettledT v.tpos v t := Host.Outcome.next.inj h ▸ settledT_settleT v.tpos v
    cases hs <;> rfl

/-- An operation run in a context keeps the role. -/
theorem carryOut_run_keepsRole {c : Context} {i : Instr} {s u t : State} (hu : u.hideFetch = s.hideFetch)
    (h : carryOut (.run c i u) = .next t) : KeepsRole s t := by
  obtain ⟨v, hv, hc⟩ := carryOut_run c i u
  exact (exec_keepsRole hv).congr (congrArg State.mode hu :) (settle_mode (hc ▸ h))

/-- Whatever was fetched, the role is kept. -/
theorem FetchCase.keepsRole {s t : State} {a : Input} {f : Fetched} (hf : FetchCase s a f) (h : carryOut f = .next t) :
    KeepsRole s t := by
  cases hf with
  | environment _ _ hu | controller _ hu | handler _ hu => exact carryOut_run_keepsRole hu h
  | act _ hu => cases h; exact .inl (congrArg State.mode hu :)
  | peers => cases h; exact .inl rfl
  | reset => cases h; exact .inr (.inr rfl)
  | stop => cases h

/-- Settles O57, by what a step can fetch. -/
theorem rolesAreReleased : Obligations.RolesAreReleased := by
  unfold Obligations.RolesAreReleased
  intro s t h
  have kept : KeepsRole s.dropInput t := (fetchInput_case s.nextInput s.dropInput).keepsRole h
  exact (kept.congr s.dropInput_mode rfl).not_exchanged

/-! ## Nothing stops (R240) -/

/-- What the controller's decisions can answer: a next state, or a stop at a store of a byte that does not exist. -/
inductive AnswerC (l : List CTask) (s : State) : Out → Prop
  | next (t : State) : AnswerC l s (.next t)
  | stop {k i : Nat} : .store k i ∈ l → s.hasByte k i = false → AnswerC l s (.fault (.bufferRange k i))

/-- A decision, then the decisions after it, in a state with the same bytes. -/
theorem AnswerC.after {d : CTask} {rest : List CTask} {s u : State} {o : Out} (h : AnswerC rest u o) (hx : u.xsegs = s.xsegs) :
    AnswerC (d :: rest) s o := by
  cases h with
  | next t => exact .next t
  | stop hm hb => exact .stop (List.mem_cons_of_mem _ hm) (by unfold State.hasByte at hb ⊢; rwa [← hx])

/-- The controller's decisions stop at such a store only. -/
theorem answerC_settleC (l : List CTask) (s : State) : AnswerC l s (settleC l s) := by
  induction l generalizing s with
  | nil => exact .next _
  | cons d rest ih =>
    cases d with
    | untilHigh | entryTest =>
      simp only [settleC]
      split
      · exact (ih s).after rfl
      · exact .next _
    | takeBit | takeAck | shiftCsr => exact (ih _).after rfl
    | store k i =>
      simp only [settleC, State.bufStore]
      cases hb : s.hasByte k i
      · exact .stop (List.mem_cons_self ..) hb
      · exact (ih _).after rfl
    | op | send | addrCheck | dataCheck | nextByte | complete | recCheck => exact .next _

/-- A sound position has no store of a byte that does not exist. -/
theorem settleC_next {l : List CTask} {s : State} (h : ∀ x ∈ l, x.sound s.xsegs) : ∃ t, settleC l s = .next t := by
  cases hs : settleC l s with
  | next t => exact ⟨t, rfl⟩
  | fault =>
    cases hs ▸ answerC_settleC l s with
    | stop hm hb => simp [(s.hasByte_iff _ _).2 (h _ hm)] at hb
  | refused => cases hs ▸ answerC_settleC l s

/-- An operation of the controller run in its turn goes on, in front of a sound position. -/
theorem carryOut_controller_next {i : Instr} {u : State} (hi : isControllerOp i = true) (hs : ∀ x ∈ u.cpos, x.sound u.xsegs) :
    ∃ t, carryOut (.run .controller i u) = .next t := by
  obtain ⟨v, hv, hc⟩ := carryOut_run .controller i u
  have hx : v.xsegs = u.xsegs := (congrArg State.xsegs (exec_controller_frame hi hv) :)
  rw [hc]
  exact settleC_next (hx ▸ exec_controller_sound hi hv hs)

/-- The controller's turn goes on: its operations are its own, and the bytes they send and store exist. -/
theorem fetchController_next {s : State} (h : Inv s) : ∃ t, carryOut (fetchController s) = .next t := by
  have hsound := h.controller.busySound
  unfold fetchController
  split
  next => exact ⟨_, rfl⟩
  next i rest hc =>
    rw [hc] at hsound
    obtain ⟨hi, hrest⟩ := List.forall_mem_cons.1 hsound
    exact carryOut_controller_next hi hrest
  next k j rest hc =>
    rw [hc] at hsound
    obtain ⟨⟨g, hg, hj⟩, hrest⟩ := List.forall_mem_cons.1 hsound
    rw [State.bufLoad_some hg hj]
    exact carryOut_controller_next (i := .cWbyte _) rfl hrest
  next => exact ⟨_, rfl⟩

/-- Outside the controller's turn whatever was fetched goes on, in every state. -/
theorem FetchCase.next {s : State} {a : Input} {f : Fetched} (hf : FetchCase s a f) (ha : a ≠ .turn .controller) :
    ∃ t, carryOut f = .next t := by
  cases hf with
  | environment _ i =>
    rw [carryOut_environment]
    exact exec_next i _
  | handler i =>
    obtain ⟨v, -, hc⟩ := carryOut_run .handler i _
    exact ⟨_, hc⟩
  | act | peers | reset => exact ⟨_, rfl⟩
  | controller | stop => exact absurd rfl ha

/-- The step of an input goes on in a state with the invariant. -/
theorem fetchInput_next {s : State} (h : Inv s) (a : Input) : ∃ t, carryOut (fetchInput a s) = .next t := by
  by_cases ha : a = .turn .controller
  · subst ha
    exact fetchController_next h
  · exact (fetchInput_case a s).next ha

/-- The decisions of a sequencer refuse nothing. -/
theorem settle_ne_refused (c : Context) (v : State) (r : Refusal) : settle c (.next v) ≠ .refused r := by
  intro h
  cases c with
  | environment => cases h
  | handler => cases h
  | controller =>
    have h : settleC v.cpos v = .refused r := h
    cases h ▸ answerC_settleC v.cpos v

/-- Nothing fetched is refused. -/
theorem carryOut_ne_refused (f : Fetched) (r : Refusal) : carryOut f ≠ .refused r := by
  cases f with
  | run c i u =>
    obtain ⟨v, -, hc⟩ := carryOut_run c i u
    rw [hc]
    exact settle_ne_refused c v r
  | done => exact fun h => by cases h
  | stop => exact fun h => by cases h

/-- Settles O7: every operation has a next state, so only the controller's decisions could stop, and the invariant keeps them from it. -/
theorem nothingStops : Obligations.NothingStops := by
  unfold Obligations.NothingStops
  exact ⟨exec_next, fun s h => fetchInput_next h.dropInput s.nextInput, fun s r => carryOut_ne_refused (fetch s) r⟩

end Sys2Proof.Machine
end

section
/-! The family of 70_reset_and_hazards.md: the reset event (R280). The engine's elements are those of `State.reset`, whose values O51 gives;
only the edge latch is read again after the outputs are released, by a detector that reset has disarmed. -/

namespace Sys2Proof.Machine

/-! ## Reset (R280, 10_state.md R42) -/

/-- The step of a reset input, in any state. -/
theorem stepWith_reset (s : State) : stepWith .reset s = .next s.resetEngine := stepWith_eq .reset s

/-- A reset latches no edge, although it may move the data line: no target is configured after it, so the detector is not armed (R281). -/
@[simp] theorem State.resetEngine_edgePend (s : State) : s.resetEngine.edgePend = false := by
  have unconfigured : State.reset.mode ≠ .target := by decide
  exact observe_edge_of_not unconfigured

/-- A reset leaves the buffers, the peers' outputs and the ports (log 22). -/
theorem State.resetEngine_environment (s : State) :
    s.resetEngine.mem = s.mem ∧ s.resetEngine.peerScl = s.peerScl ∧ s.resetEngine.peerSda = s.peerSda ∧
    s.resetEngine.port = s.port ∧ s.resetEngine.responses = s.responses ∧ s.resetEngine.calls = s.calls :=
  ⟨rfl, rfl, rfl, rfl, rfl, rfl⟩

/-- Settles O52: the engine after a reset has the values of O51, `TPOS` is empty as in `State.reset`, and the environment stays. -/
theorem resetEvent : Obligations.ResetEvent := by
  unfold Obligations.ResetEvent
  intro s
  obtain ⟨hmode, hcfg, hspeed, -, htvalid, htfsm, hscl, hsda, hbusy, hcop, hresult, hcpos, -, hpend, hterr, htlast⟩ := resetValues
  obtain ⟨hmem, hpeerScl, hpeerSda, hport, hresponses, hcalls⟩ := s.resetEngine_environment
  have hbytes : SameBytes s s.resetEngine := fun a => congrArg (Memory.read · a) hmem
  exact ⟨s.resetEngine, stepWith_reset s, hmode, hcfg, hspeed, htvalid, htfsm, hscl, hsda, hbusy, hcop, hresult, hcpos, rfl,
    s.resetEngine_edgePend, hpend, hterr, htlast, hresponses, hcalls, hport, hpeerScl, hpeerSda, hbytes⟩

end Sys2Proof.Machine
end

section
/-! The family 'other': the sticky mark of unsanctioned line behaviour (93_implementation_defined.md U1 to U3; log 18, 33, 34). What every
operation and every input does to the mark is said once, in every state; the invariant is needed only where the handler's turn and the watch
of `T_DETECT` are told apart. -/

namespace Sys2Proof.Machine

/-! ## The outputs on the two lines and the mark -/

/-- The four outputs on the two lines, and the mark of unsanctioned line behaviour. -/
def State.lineMark (s : State) : Level × Level × Level × Level × Bool :=
  (s.sclOut, s.sdaOut, s.peerScl, s.peerSda, s.unsanctioned)

theorem State.sdaOut_of_lineMark {s t : State} (h : t.lineMark = s.lineMark) : t.sdaOut = s.sdaOut := congrArg (·.2.1) h

@[simp] theorem State.pollScl_lineMark (s : State) (l : Level) (i : Instr) : (s.pollScl l i).lineMark = s.lineMark := by
  unfold State.pollScl
  split <;> rfl

@[simp] theorem State.callFor_lineMark (s : State) (c : Byte → AppCall) : (s.callFor c).lineMark = s.lineMark := by
  unfold State.callFor State.dropAnswer
  split <;> rfl

@[simp] theorem State.takeEdge_lineMark (s : State) : s.takeEdge.lineMark = s.lineMark := by
  unfold State.takeEdge
  split <;> rfl

/-- The watch is where the handler stands, and nothing else. -/
theorem State.watching_congr {s t : State} (h : t.tpos = s.tpos) : t.watching = s.watching := by
  unfold State.watching
  rw [h]

/-- The mark is set in the second state exactly when it was in the first or a change that counts was made: of the data line or of the peers'
data output, in a transaction with the clock high, outside the watch or by the engine itself (log 18, 33). -/
def Marks (s t : State) : Prop :=
  t.unsanctioned = true ↔ s.unsanctioned = true ∨
    (s.inTransaction = true ∧ (s.watching = false ∨ s.sdaOut ≠ t.sdaOut) ∧ (s.scl = true ∧ t.scl = true) ∧
      (s.sda ≠ t.sda ∨ s.peerSda ≠ t.peerSda))

/-- Of the second state only the outputs and the mark matter. -/
theorem Marks.settled {s t t' : State} (h : Marks s t) (ht : t'.lineMark = t.lineMark) : Marks s t' := by
  simp only [State.lineMark, Prod.mk.injEq] at ht
  obtain ⟨hc, hd, hpc, hpd, hu⟩ := ht
  simpa only [Marks, State.scl, State.sda, hc, hd, hpc, hpd, hu] using h

/-- Where the outputs and the mark stay, nothing counts. -/
theorem Marks.of_eq {s t : State} (h : t.lineMark = s.lineMark) : Marks s t :=
  Marks.settled (t := s) (by simp [Marks]) h

/-- Where the peers' data output stays, a change of the data line is one of the engine's output, watch or no watch. -/
theorem marks_iff_of_peerSda {s t : State} (hp : t.peerSda = s.peerSda) : Marks s t ↔
    (t.unsanctioned = true ↔ s.unsanctioned = true ∨ (s.inTransaction = true ∧ (s.scl = true ∧ t.scl = true) ∧ s.sda ≠ t.sda)) := by
  have own : s.sda ≠ t.sda → s.sdaOut ≠ t.sdaOut := mt (State.sda_congr · hp.symm)
  unfold Marks
  grind

/-- Of what a fetch may write in the first state only the handler's position matters, and that only when the peers' data output changes. -/
theorem Marks.fetched {s u t : State} (h : Marks u t) (hu : u.hideFetch = s.hideFetch) (hw : u.tpos = s.tpos ∨ t.peerSda = s.peerSda) :
    Marks s t := by
  have lineMark : u.lineMark = s.lineMark := (congrArg State.lineMark hu :)
  have transaction : u.inTransaction = s.inTransaction := (congrArg State.inTransaction hu :)
  have scl : u.scl = s.scl := (congrArg State.scl hu :)
  have sda : u.sda = s.sda := (congrArg State.sda hu :)
  simp only [State.lineMark, Prod.mk.injEq] at lineMark
  obtain ⟨-, hd, -, hpd, hmark⟩ := lineMark
  rcases hw with hpos | hp
  · simpa only [Marks, transaction, State.watching_congr hpos, scl, sda, hd, hpd, hmark] using h
  · rw [marks_iff_of_peerSda hp]
    rw [marks_iff_of_peerSda (hp.trans hpd.symm)] at h
    simpa only [transaction, scl, sda, hmark] using h

/-- Outputs changed and observed, in a state that is otherwise the one before in what the mark depends on. -/
theorem observe_marks {s u : State} (hi : u.inTransaction = s.inTransaction) (hw : u.watching = s.watching)
    (hu : u.unsanctioned = s.unsanctioned) : Marks s (s.observe u) := by
  have observed := s.observe_unsanctioned_iff u
  rwa [hi, hw, hu] at observed

theorem driveScl_marks (s : State) (l : Level) : Marks s (s.driveScl l) := observe_marks rfl rfl rfl
theorem driveSda_marks (s : State) (l : Level) : Marks s (s.driveSda l) := observe_marks rfl rfl rfl
theorem drivePeers_marks (s : State) (c d : Level) : Marks s (s.drivePeers c d) := observe_marks rfl rfl rfl

/-- A reset leaves the mark: the engine it leaves has no transaction. -/
@[simp] theorem State.resetEngine_unsanctioned (s : State) : s.resetEngine.unsanctioned = s.unsanctioned := by
  have unconfigured : State.reset.mode ≠ .target := by decide
  exact observe_unsanctioned_of_not unconfigured

/-! ## What an operation does to the mark -/

/-- A command or pseudo-operation changes no output and leaves the mark. -/
theorem exec_command_lineMark {i : Instr} {s t : State} (hi : i.isCommand = true ∨ i.isPseudo = true) (h : exec i s = .next t) :
    t.lineMark = s.lineMark := by
  cases hb : s.busy
  · exact (congrArg State.lineMark (exec_accepted hi hb h).hidePort :)
  · rw [exec_held hi hb] at h
    cases h
    rfl

/-- `T_DETECT` begun reads the lines and no more. -/
theorem exec_tDetect_lineMark {s t : State} (h : exec .tDetect s = .next t) : t.lineMark = s.lineMark := by
  cases h
  split <;> rfl

/-- Every operation's one step sets the mark exactly for a change that counts: it drives no line, or one output of the engine, or the
peers'. -/
theorem exec_marks {i : Instr} {s t : State} (h : exec i s = .next t) : Marks s t := by
  cases i
  case configure | transfer | recover | registerTarget | unregisterTarget | release | illegal =>
    exact .of_eq (exec_command_lineMark (.inl rfl) h)
  case write | read | writeRead | probe => exact .of_eq (exec_command_lineMark (.inr rfl) h)
  case segdesc | statusRead | getScl | getSda | delay | onWriteRequested | onStop => cases h; exact .of_eq rfl
  case setScl | cRaise | cPrestart => cases h; exact (driveScl_marks s _).settled rfl
  case setSda | cStart | cRstart | cStop | cWbit | cRbit | cWbyte | cRbyte | tWbit | tAck | tRack =>
    cases h; exact (driveSda_marks s _).settled rfl
  case tWbyte => cases h; exact ((driveSda_marks _ _).settled rfl).fetched rfl (.inr rfl)
  case tWaitH | tWaitL | tRbit => cases h; exact .of_eq (State.pollScl_lineMark ..)
  case tRbyte first => cases first <;> cases h <;> exact .of_eq (State.pollScl_lineMark ..)
  case tDetect => exact .of_eq (exec_tDetect_lineMark h)
  case tEdge => cases h; exact .of_eq s.takeEdge_lineMark
  case tHandler => cases h; exact .of_eq (State.pollScl_lineMark ..)
  case wireStart | wireRestart | wireStop | bitCell | byteFrame | addressByte | acknowledge =>
    obtain ⟨c, d, ts, rfl⟩ := exec_wire rfl h
    exact drivePeers_marks s c d
  case onWriteReceived | onReadRequested | onReadProcessed => cases h; exact .of_eq (s.callFor_lineMark _)

/-- The decisions of a sequencer change no output and leave the mark. -/
theorem settle_lineMark {c : Context} {v t : State} (h : settle c (.next v) = .next t) : t.lineMark = v.lineMark := by
  cases c with
  | environment => cases h; rfl
  | controller => cases settledC_of_settleC h <;> rfl
  | handler =>
    have hs : SettledT v.tpos v t := Host.Outcome.next.inj h ▸ settledT_settleT v.tpos v
    cases hs <;> rfl

/-- An operation run in a context, with the decisions after it. -/
theorem carryOut_run_marks {c : Context} {i : Instr} {u t : State} (h : carryOut (.run c i u) = .next t) : Marks u t := by
  obtain ⟨v, hv, hc⟩ := carryOut_run c i u
  exact (exec_marks hv).settled (settle_lineMark (hc ▸ h))

/-! ## What an input does to the mark, in every state -/

/-- A fetched operation finds the handler's position as it was. -/
def Fetched.KeepsTpos (s : State) : Fetched → Prop
  | .run _ _ u => u.tpos = s.tpos
  | .done _ => True
  | .stop _ => True

theorem fetchPort_keepsTpos (s : State) : (fetchPort s).KeepsTpos s := by
  unfold fetchPort
  split
  · trivial
  · split
    · trivial
    · split <;> trivial
    · split <;> trivial

theorem fetchController_keepsTpos (s : State) : (fetchController s).KeepsTpos s := by
  unfold fetchController
  split
  · trivial
  · rfl
  · split <;> trivial
  · trivial

theorem fetchEdge_keepsTpos (s : State) : (fetchEdge s).KeepsTpos s := by
  unfold fetchEdge
  split <;> trivial

theorem fetchWire_keepsTpos (i : Instr) {s u : State} (hu : u.tpos = s.tpos) : (fetchWire i u).KeepsTpos s := by
  unfold fetchWire
  split
  · exact hu
  · trivial

theorem fetchPeer_keepsTpos (s : State) : (fetchPeer s).KeepsTpos s := by
  unfold fetchPeer
  split
  · trivial
  · trivial
  · trivial
  · trivial
  · trivial
  · exact fetchWire_keepsTpos _ rfl

theorem fetchCall_keepsTpos (i : Instr) (s : State) : (fetchCall i s).KeepsTpos s := by
  unfold fetchCall
  split
  · rfl
  · rfl
  · split <;> trivial

/-- Only the handler's own turn takes an operation from its position. -/
theorem fetchInput_keepsTpos {a : Input} (ha : a ≠ .turn .handler) (s : State) : (fetchInput a s).KeepsTpos s := by
  cases a with
  | turn agent =>
    cases agent with
    | port => exact fetchPort_keepsTpos s
    | controller => exact fetchController_keepsTpos s
    | edge => exact fetchEdge_keepsTpos s
    | handler => exact absurd rfl ha
    | peer => exact fetchPeer_keepsTpos s
  | words | drive | answer | bufWrite | reset => trivial
  | call i => exact fetchCall_keepsTpos i s
  | wire i => exact fetchWire_keepsTpos i rfl

/-- Whatever was fetched sets the mark exactly for a change that counts, a reset apart. -/
theorem FetchCase.marks {s t : State} {a : Input} {f : Fetched} (hf : FetchCase s a f) (h : carryOut f = .next t) (hr : a ≠ .reset)
    (hw : f.KeepsTpos s ∨ t.peerSda = s.peerSda) : Marks s t := by
  cases hf with
  | environment _ _ hu | controller _ hu | handler _ hu => exact (carryOut_run_marks h).fetched hu hw
  | act _ hu => cases h; exact .of_eq (congrArg State.lineMark hu :)
  | peers _ c d => cases h; exact drivePeers_marks s c d
  | reset => exact absurd rfl hr
  | stop => cases h

theorem State.unsanctioned_of_hideFetch {s u : State} (h : u.hideFetch = s.hideFetch) : u.unsanctioned = s.unsanctioned :=
  (congrArg State.unsanctioned h :)

/-- Whatever was fetched keeps a mark that is set. -/
theorem FetchCase.keepsMark {s t : State} {a : Input} {f : Fetched} (hf : FetchCase s a f) (h : carryOut f = .next t)
    (hs : s.unsanctioned = true) : t.unsanctioned = true := by
  cases hf with
  | environment _ _ hu | controller _ hu | handler _ hu =>
    exact (carryOut_run_marks h).2 (.inl ((State.unsanctioned_of_hideFetch hu).trans hs))
  | act _ hu =>
    cases h
    exact (State.unsanctioned_of_hideFetch hu).trans hs
  | peers _ c d => cases h; exact (drivePeers_marks s c d).2 (.inl hs)
  | reset => cases h; exact s.resetEngine_unsanctioned.trans hs
  | stop => cases h

/-- The step of an input sets the mark exactly for a change that counts, a reset apart. With the invariant the handler too changes no
output of the peers, so that its own position does not matter. -/
theorem stepWith_marks {s t : State} {a : Input} (hi : a = .turn .handler → Inv s) (hr : a ≠ .reset) (h : stepWith a s = .next t) :
    Marks s t := by
  refine (fetchInput_case a s).marks h hr ?_
  by_cases ha : a = .turn .handler
  · subst ha
    exact .inr (congrArg State.peerSda (stepCase_of_stepWith (hi rfl) h).hideHandlerTurn :)
  · exact .inl (fetchInput_keepsTpos ha s)

/-! ## The watch of `T_DETECT` (R208, R217) -/

/-- In the watch the handler is about to read a line or to begin `T_DETECT`. -/
theorem State.watching_front {s : State} (h : s.watching = true) :
    ∃ i rest, s.tpos = .op i :: rest ∧ (i = .tDetect ∨ i = .getSda ∨ i = .getScl) := by
  unfold State.watching at h
  split at h
  next hc => exact ⟨_, _, hc, .inl rfl⟩
  next hc => exact ⟨_, _, hc, .inr (.inl rfl)⟩
  next hc => exact ⟨_, _, hc, .inr (.inr rfl)⟩
  next hc => exact ⟨_, _, hc, .inr (.inl rfl)⟩
  next => cases h

/-- In the watch the handler drives nothing. -/
theorem watching_handler_lineMark {s t : State} (h : Inv s) (hw : s.watching = true) (ht : stepWith (.turn .handler) s = .next t) :
    t.lineMark = s.lineMark := by
  obtain ⟨i, rest, hc, hi⟩ := State.watching_front hw
  have hp : s.handlerPend = false := by
    by_contra hp
    simp [h.target.pendEmpty (by simpa using hp)] at hc
  obtain ⟨v, hv⟩ := exec_next i (s.setTpos rest)
  have reads : v.lineMark = (s.setTpos rest).lineMark := by
    rcases hi with rfl | rfl | rfl
    · exact exec_tDetect_lineMark hv
    · cases hv; rfl
    · cases hv; rfl
  rw [handler_turn hp hc hv] at ht
  exact (settle_lineMark (c := .handler) ht).trans reads

/-- In a transaction only the handler drives the data output, a reset apart. -/
theorem StepCase.sdaOut {s t : State} {a : Input} (hs : StepCase s a t) (hm : s.mode = .target) (hh : a ≠ .turn .handler)
    (hr : a ≠ .reset) : t.sdaOut = s.sdaOut := by
  cases hs with
  | nothing | words | call | status | noCall | plan | answer | bufWrite | peer | wire | drive => rfl
  | accept hb hi he => exact (congrArg State.sdaOut (hi.accepted hb he).hidePort :)
  | controller hi m => exact absurd hm m.notTarget
  | edge => exact s.takeEdge_sdaOut
  | handlerStart | handler => exact absurd rfl hh
  | reset => exact absurd rfl hr

/-- In the watch of a transaction no input makes the engine change its data output, a reset apart. -/
theorem watching_sdaOut {s t : State} {a : Input} (h : Inv s) (hm : s.mode = .target) (hw : s.watching = true) (hr : a ≠ .reset)
    (ht : stepWith a s = .next t) : t.sdaOut = s.sdaOut := by
  by_cases ha : a = .turn .handler
  · subst ha
    exact State.sdaOut_of_lineMark (watching_handler_lineMark h hw ht)
  · exact (stepCase_of_stepWith h ht).sdaOut hm ha hr

/-! ## O60 -/

/-- A change that U1 to U3 speak of, outside the watch, sets the mark. -/
theorem Marks.of_change {s t : State} (h : Marks s t) (hm : s.mode = .target) (hi : s.tfsm ≠ .idle) (hw : s.watching = false)
    (hc : s.scl = true) (hc' : t.scl = true) (hd : s.sda ≠ t.sda ∨ s.peerSda ≠ t.peerSda) : t.unsanctioned = true :=
  h.2 (.inr ⟨by simp [State.inTransaction, hm, hi], .inl hw, ⟨hc, hc'⟩, hd⟩)

/-- The cases in which a step of the machine leaves the mark: no change, or none that counts. -/
def Sanctioned (s t : State) : Prop :=
  s.scl = false ∨ t.scl = false ∨ (s.sda = t.sda ∧ s.peerSda = t.peerSda) ∨ s.mode ≠ .target ∨ s.tfsm = .idle ∨ s.watching = true

/-- In these cases the mark stays, if the data output stays in the watch. -/
theorem Marks.unchanged {s t : State} (h : Marks s t) (hq : Sanctioned s t)
    (hw : s.mode = .target → s.watching = true → t.sdaOut = s.sdaOut) : t.unsanctioned = s.unsanctioned := by
  refine Bool.eq_iff_iff.2 (h.trans (or_iff_left ?_))
  rintro ⟨ht, hcount, ⟨hc, hc'⟩, hd⟩
  obtain ⟨hm, hi⟩ : s.mode = .target ∧ s.tfsm ≠ .idle := by simpa [State.inTransaction] using ht
  rcases hq with hq | hq | ⟨hq, hq'⟩ | hq | hq | hq
  · simp [hc] at hq
  · simp [hc'] at hq
  · exact hd.elim (absurd hq) (absurd hq')
  · exact hq hm
  · exact hi hq
  · have same := hw hm hq
    simp [hq, same] at hcount

/-- The step of an input leaves the mark in these cases. -/
theorem stepWith_sanctioned {s t : State} {a : Input} (h : Inv s) (ht : stepWith a s = .next t) (hq : Sanctioned s t) :
    t.unsanctioned = s.unsanctioned := by
  by_cases hr : a = .reset
  · subst hr
    cases ht
    exact s.resetEngine_unsanctioned
  · exact (stepWith_marks (fun _ => h) hr ht).unchanged hq fun hm hw => watching_sdaOut h hm hw hr ht

/-- Using up the input changes nothing that the mark depends on. -/
theorem sanctioned_dropInput {s t : State} (h : Sanctioned s t) : Sanctioned s.dropInput t := by
  have scl : s.dropInput.scl = s.scl := State.scl_congr s.dropInput_sclOut s.dropInput_peerScl
  have sda : s.dropInput.sda = s.sda := State.sda_congr s.dropInput_sdaOut s.dropInput_peerSda
  have watch : s.dropInput.watching = s.watching := State.watching_congr s.dropInput_tpos
  simpa only [Sanctioned, scl, sda, watch, State.dropInput_peerSda, State.dropInput_mode, State.dropInput_tfsm] using h

/-- Settles O60: the mark is what the changes of the lines make it, whatever runs, and in the watch the engine makes none. -/
theorem unsanctionedIsSticky : Obligations.UnsanctionedIsSticky := by
  unfold Obligations.UnsanctionedIsSticky
  refine ⟨fun s t h hs => ?_, fun a s t hinv hr h hm hi hw hc hc' hd => ?_, fun s d hm hi hw hc hpc hd => ?_, fun s t h ht hq => ?_⟩
  · exact (fetchInput_case s.nextInput s.dropInput).keepsMark h (s.dropInput_unsanctioned.trans hs)
  · exact (stepWith_marks hinv hr h).of_change hm hi hw hc hc' hd
  · have high : s.scl = true := by simp [State.scl, hc, hpc]
    have high' : (s.drivePeers true d).scl = true := Bool.and_eq_true_iff.2 ⟨hc, rfl⟩
    exact ⟨_, rfl, (drivePeers_marks s true d).of_change hm hi hw high high' (.inr hd.symm)⟩
  · exact (stepWith_sanctioned h.dropInput ht (sanctioned_dropInput hq)).trans s.dropInput_unsanctioned

end Sys2Proof.Machine
end
